-- ==== Sys2Proof/Word.lean ====
section
/-! DEFINITION. The word types of the GX-768 and nothing else: the manual's bytes, parcels, words and
512-byte vectors (R13, R62, R82, R165). Every helper over them stands in Machine/Bits.lean. -/

namespace Sys2Proof

/-- One byte. -/
abbrev Byte := BitVec 8

/-- A 32-bit quantity: a parcel (R62), an s entry (R82), an address or step register (R108). -/
abbrev Word := BitVec 32

/-- A 64-bit quantity: a slot instruction (R66), an aligned memory word (R283). -/
abbrev DWord := BitVec 64

/-- A 512-byte vector: 128 lanes of 32 bits, lane 0 in the low bits (R82, R165). -/
abbrev Vec := BitVec 4096

end Sys2Proof
end

