-- ==== Sys2Proof/Config.lean ====
section
/-! DEFINITION. What an implementation fixes and what the manual leaves open: opaque constants with no
body, so that nothing can be proved about the value of any of them. Each is applied to the operands it
depends on or to the plain counter `State.fresh`. Log entries name every one. -/

namespace Sys2Proof.Config

/-- A duration that R374 leaves open, in cycles beyond one. Applied to the counter of the state, so each
occurrence has its own value. Log 1. -/
opaque freeDuration : Nat → Nat

/-- Which of the values that R287 allows a racing read returns, as an index taken modulo the number of
allowed values. Log 2. -/
opaque raceChoice : Nat → Nat

/-- A byte of a frame that changed owner (R259, R261): the old bytes under a new key. Arguments: the
allocation's counter value and the byte's physical address. Log 3. -/
opaque leftoverByte : Nat → Nat → Byte

/-- The bytes of the SLH-DSA-SHAKE-256s signature that the root monitor makes over a message (R11, R367, R369), by place: under
the private key of a public one. The key pairs are generated at manufacture and are not in the manual. Log 5. -/
opaque slhSign : BitVec 512 → List Byte → Nat → Byte

/-- Whether a signature over a message verifies under a public key (R370). Log 5. -/
opaque slhVerify : BitVec 512 → List Byte → List Byte → Bool

/-- This package's identity public key of 64 bytes, generated at manufacture (R367). Log 5. -/
opaque identityKey : BitVec 512

/-- The certified public key of another package (R367, R370). Log 5. -/
opaque certifiedKey : Nat → BitVec 512

/-- The bytes of the digests of ROM, root monitor image and service firmware image that an attestation report holds (R367):
in that order 0, 1, 2, by place. The images are not in the manual. Log 6. -/
opaque imageDigest : Nat → Nat → Byte

/-- The serving routing and tree tables as the bytes that an attestation report digests (R367): the routes by package, each tree
table by its id with its words from the header on (R340). The manual does not give the encoding of the whole. Log 6. -/
opaque tableImage : List (Nat × List Nat) → List (Nat × List Word) → List Byte

/-- Whether the boot verifications of R366 succeed at the given incarnation. Log 7. -/
opaque bootVerified : Nat → Bool

/-- The bytes of a checkpoint shard as they stand encrypted in tier 1 or 2 (R11, R369): AES-256-XTS ciphers blocks of 16
bytes, so that the arguments are the owner's key id, the number of the block in the shard, its 16 plain bytes and the place of
the byte in the block. Log 8. -/
opaque shardBlock : Nat → Nat → List Byte → Nat → Byte

/-- The plain bytes of a checkpoint shard (R11, R370): the key id, the number of the block, its 16 stored bytes and the place of
the byte in the block. Nothing here says that it undoes `shardBlock`. Log 8. -/
opaque shardOpen : Nat → Nat → List Byte → Nat → Byte

/-- A byte of tier 1 or 2 that a restore reads (R370): arguments are the reference of a shard's first block and the offset.
Log 8. -/
opaque storedByte : DWord → Nat → Byte

/-- tREFI, the refresh interval of an HBM stack in cycles (R371). Log 13. -/
opaque trefi : Nat

/-- A value that the manual leaves unstated, one per application: the argument is the state's counter. Log 9. -/
opaque freeWord : Nat → Word

end Sys2Proof.Config
end

