-- ==== Sys2Proof/Syntax.lean ====
section
/-! DEFINITION. The syntax of the GX-768: the fields of slot instructions (R66 to R75), the RISC-V
instructions of the loader and storer harts (R234), the messages that events carry, and the ONE inductive
`Instr` with one constructor for each row of spec/opcode_table.json. An instruction keeps the bit fields
that the encoding gives it; the accessors of a selector or destination stand in Machine/Operands.lean. -/

namespace Sys2Proof

/-- Fields of a C-slot instruction (R66, R69). STOP is a matter of position in the bundle (R65). -/
structure CFields where
  pred : BitVec 3
  psense : Bool
  dst : BitVec 8
  srcA : BitVec 8
  srcB : BitVec 8
  imm : BitVec 24
  mod : BitVec 3
deriving DecidableEq, Repr, Inhabited

/-- Fields of a T-slot instruction (R66, R69). -/
structure TFields where
  pred : BitVec 3
  psense : Bool
  srcA : BitVec 8
  srcB : BitVec 8
  dst : BitVec 8
  gidx : BitVec 4
  imm : BitVec 20
  mod : BitVec 3
deriving DecidableEq, Repr, Inhabited

/-- Fields of a V-slot or K-slot instruction (R66, R69, R72). Bits [3:1] are reserved and zero. -/
structure VFields where
  pred : BitVec 3
  psense : Bool
  srcA : BitVec 8
  srcB : BitVec 8
  srcC : BitVec 8
  dst : BitVec 8
  type : BitVec 4
  stype : BitVec 4
  imm8 : BitVec 8
deriving DecidableEq, Repr, Inhabited

/-- Fields of an M-slot instruction (R66, R69, R75). Bits [11:1] are reserved and zero. -/
structure MFields where
  pred : BitVec 3
  psense : Bool
  abase : BitVec 4
  bbase : BitVec 4
  acc : BitVec 3
  rpt : Bool
  rcount : BitVec 12
  qsrc : BitVec 8
  zsrc : BitVec 3
  cnt5 : BitVec 5
deriving DecidableEq, Repr, Inhabited

/-- A context: the core's global number (R21) and context 0 or 1 (R26). -/
structure CtxId where
  core : Nat
  ctx : Nat
deriving DecidableEq, Repr, Inhabited

/-- The two side cores of a core (R28). -/
inductive Role | loader | storer
deriving DecidableEq, Repr, Inhabited

/-- A hart: the context it serves and its role (R28). -/
structure HartId where
  c : CtxId
  role : Role
deriving DecidableEq, Repr, Inhabited

/-- Two-operand integer operations of RV32IM, Zba and Zbb (R234). -/
inductive RvOp
  | add | sub | sll | slt | sltu | xor | srl | sra | or | and
  | mul | mulh | mulhsu | mulhu | div | divu | rem | remu
  | sh1add | sh2add | sh3add | andn | orn | xnor | max | maxu | min | minu | rol | ror
deriving DecidableEq, Repr, Inhabited

/-- One-operand operations of Zbb (R234). -/
inductive RvUnary | clz | ctz | cpop | sextB | sextH | zextH | orcB | rev8
deriving DecidableEq, Repr, Inhabited

/-- Branch conditions of RV32I. -/
inductive RvBr | eq | ne | lt | ge | ltu | geu
deriving DecidableEq, Repr, Inhabited

/-- Loads of RV32I. -/
inductive RvLoad | lb | lh | lw | lbu | lhu
deriving DecidableEq, Repr, Inhabited

/-- Stores of RV32I. -/
inductive RvStore | sb | sh | sw
deriving DecidableEq, Repr, Inhabited

/-- The CSR operations of Zicsr. -/
inductive RvCsr | rw | rs | rc
deriving DecidableEq, Repr, Inhabited

/-- An ordinary hart instruction: RV32I with M, C, Zicsr, Zba and Zbb (R234), compressed forms expanded.
`illegal` is any word that none of them assigns. -/
inductive Rv
  | lui (rd : BitVec 5) (imm : Word)
  | auipc (rd : BitVec 5) (imm : Word)
  | jal (rd : BitVec 5) (off : Word)
  | jalr (rd rs1 : BitVec 5) (imm : Word)
  | branch (c : RvBr) (rs1 rs2 : BitVec 5) (off : Word)
  | load (k : RvLoad) (rd rs1 : BitVec 5) (imm : Word)
  | store (k : RvStore) (rs1 rs2 : BitVec 5) (imm : Word)
  | opImm (k : RvOp) (rd rs1 : BitVec 5) (imm : Word)
  | op (k : RvOp) (rd rs1 rs2 : BitVec 5)
  | unary (k : RvUnary) (rd rs1 : BitVec 5)
  | fence
  | wfi
  | csr (k : RvCsr) (rd : BitVec 5) (src : BitVec 5) (imm : Bool) (num : BitVec 12)
  | illegal
deriving DecidableEq, Repr, Inhabited

/-- A control message of the host (R362): the port and the ASID its queue pair is bound to (R361), the
64-byte header and the payload bytes; whether its packets came with a congestion mark (ECN). -/
structure HostMsg where
  port : Nat
  asid : Nat
  hdr : BitVec 512
  payload : List Byte
  ecn : Bool
deriving DecidableEq, Repr, Inhabited

/-- A request to the launch unit or the arbiters (R302, R313): a host message, or one of the service firmware or the root
monitor, which names an RCB in an ASID. -/
inductive Request
  | host (m : HostMsg)
  | unit (asid rcb : Nat)
deriving DecidableEq, Repr, Inhabited

/-- A host RDMA operation (R361): port, queue pair, its bound ASID, the device virtual address, the bytes
of a write and the length of a read, and whether its packets came with a congestion mark (ECN). -/
structure RdmaOp where
  port : Nat
  qp : Nat
  asid : Nat
  va : Nat
  data : List Byte
  len : Nat
  ecn : Bool
deriving DecidableEq, Repr, Inhabited

/-- A stripe entry of a position map (R326). STATE: 0 HOT, 1 COLD, 2 MOVING, 3 LOST. -/
structure StripeEntry where
  seq : Nat
  span : Nat
  gen : Nat
  first : Nat
  last : Nat
  owner : Nat
  home : Nat
  st : Nat
deriving DecidableEq, Repr, Inhabited

/-- One head's online-softmax partial (R338): m, l and the elements of o, as FP32 bits. -/
structure Partial where
  m : Word
  l : Word
  o : List Word
deriving DecidableEq, Repr, Inhabited

/-- What a child of a merge node delivers (R341, R342): a partial per head with the leaf ids lost below it,
or STALE, or ABORTED. `version` is the tree VERSION the query carries (R340). -/
inductive Answer
  | part (heads : List Partial) (lost : List Nat)
  | stale
  | aborted
deriving DecidableEq, Repr, Inhabited

/-- A query as it travels between packages (R336): the issuing package and its number for the query, the
64-byte record, the query rows, the tree VERSION found at issue and whether this package has its leaf. -/
structure QueryMsg where
  src : Nat
  id : Nat
  record : BitVec 512
  q : List (BitVec 16)
  version : Nat
deriving DecidableEq, Repr, Inhabited

/-- A move as its participants see it (R332): home's number for it, home, the command record, and the blocks
of the range as references with the 4 KiB contents NEWOWNER copies: (sequence, block number, VALID, BASE,
bytes), under the owner key id of the blocks. -/
structure MoveMsg where
  id : Nat
  home : Nat
  owner : Nat
  record : BitVec 512
  blocks : List (Nat × Nat × Nat × Nat × List Byte)
  map : List StripeEntry
deriving DecidableEq, Repr, Inhabited

/-- The hardware free lists (R261). -/
inductive FreeKind | block | page | gbn
deriving DecidableEq, Repr, Inhabited

/-- What a remote access asks of this package (R262, R146, R150, R336, R328): bytes for a physical frame, a block of an
owner or a window, a full/empty word (mode 4 reads its bit) or an atomic element at a physical address or in a block as
(owner, GBN), a read; for a `copyr`, under the issuer's number for it, the checks of its target before any byte moves (the lowest
and highest run offsets, the length of a run, BAR) and its one arrival after its last write; a query, a key-value command for a
sequence homed here with the number of the same context's command to be taken up before it, and what such a command asks of a stripe owner: a new block, the VALID, BASE and owner of a block, its
CMP, slots set and cleared in its entry with its base, one reference more or less, a row of its segment or table, or a shared
prefix with its token ids and block references; for a page frame that leaves here share (R274, R275), its level and whether one
leaf more or less maps it, and the copy-on-write of a 64 KiB one, which `room` says that the asker has a free frame for. -/
inductive RemoteWhat
  | writePa (pa : Nat) (data : List Byte)
  | readPa (pa : Nat) (len : Nat)
  | block (owner gbn off : Nat) (data : List Byte) (len : Nat) (write : Bool)
  | word (block : Option (Nat × Nat)) (at' mode : Nat) (data : List Byte)
  | atomic (block : Option (Nat × Nat)) (at' mode esize : Nat) (operand : List Byte)
  | copyrCheck (copy owner window : Nat) (lo hi : Int) (len bar : Nat)
  | copyr (copy owner window : Nat) (data : List Byte)
  | copyrEnd (copy owner window bar : Nat)
  | query (q : QueryMsg)
  | command (kind : Nat) (asid owner : Nat) (record : BitVec 512) (rows : List Byte) (after : Option Nat)
  | blockNew (owner base valid : Nat)
  | blockInfo (gbn : Nat)
  | blockCmp (gbn cmp : Nat)
  | blockEntry (gbn set clear : Nat) (base : Option Nat)
  | blockShare (gbn : Nat)
  | blockRelease (gbn : Nat)
  | segmentRow (seq block : Nat) (ref : DWord)
  | sharePrefix (owner span nb : Nat) (toks : List Nat) (refs : List DWord)
  | frameShare (pa level : Nat) (more : Bool)
  | frameCopy (pa : Nat) (room : Bool)
deriving DecidableEq, Repr, Inhabited

/-- A remote access as it arrives (R262): the source package, its number, the incarnation it carries, and the numbers of
the source's earlier accesses and `copyr`s whose writes have been published to the domain since (R284, R295). -/
structure RemoteReq where
  src : Nat
  num : Nat
  inc : Word
  what : RemoteWhat
  released : List Nat
deriving DecidableEq, Repr, Inhabited

/-- What names a block that the service firmware moves between tiers (R269): the physical address of its reference, or the
row of a segment here. -/
inductive TierBlock
  | reference (pa : Nat)
  | row (seq block : Nat)
deriving DecidableEq, Repr, Inhabited

/-- How another package answers an access: performed, with the bytes asked for, the new reference of a shared block that the
write has copied first (R274) and the TINFO of a guard granule that it reached (R137); ended with a status (R146, R150,
R269, R274); or refused for the incarnation that it carries (R262, R264). -/
inductive Reply
  | done (data : List Byte) (ref : Option DWord) (guard : Option Word)
  | ends (status : Nat)
  | refused
deriving DecidableEq, Repr, Inhabited

/-- What a link delivers with a sequence number (R359): the payload of that flit, or the peer's request for a replay from it
on. -/
inductive LinkIn
  | flit (payload : BitVec 512)
  | replay
deriving DecidableEq, Repr, Inhabited

/-- What arrives in a packet of another package (R360): the package, the number that it gave the packet, what it carries; of a
root's answer, the cycles since the root's fold (R347). -/
structure Arrived (α : Type) where
  src : Nat
  num : Nat
  body : α
  age : Nat
deriving DecidableEq, Repr, Inhabited

/-- An acknowledgement or answer (R360): the number of the packet that it answers, the answer, and of an answer the number of the
packet that it came in itself; a bare acknowledgement has none. -/
structure PacketReply where
  num : Nat
  reply : Reply
  own : Option Nat
deriving DecidableEq, Repr, Inhabited

/-- A position map as the firmware writes it (R326): its entries, and for a home the other packages that hold it (R332). -/
structure MapInstall where
  entries : List StripeEntry
  holders : List Nat
deriving DecidableEq, Repr, Inhabited

/-- The queue pair that a connection asks for (R361): its number and the path MTU in bytes. -/
structure QpRequest where
  qp : Nat
  mtu : Nat
deriving DecidableEq, Repr, Inhabited

/-- A request for a control connection (R362): the service, the queue pair and the path MTU in bytes (R361). -/
structure ConnectionRequest where
  service : DWord
  qp : Nat
  mtu : Nat
deriving DecidableEq, Repr, Inhabited

/-- The instructions of the five slots and of the harts, and the events of the part: one constructor for
each row of spec/opcode_table.json. The instructions and the events that the model itself schedules come first, in the
table's order; then the events that arrive from outside the package's own machinery. -/
inductive Instr
  /-- The merge stage issues the next bundle of a context that is able to issue, or a repetition of it, and decodes its template, slot states, ports and stop bits. (R30) -/
  | bundleIssue (c : CtxId)
  /-- An issued result lands in its queue entry and latch after the instruction's latency, or is dropped if its queue was marked dead. (R82) -/
  | resultLanding (c : CtxId) (id : Nat)
  /-- A pending fmt write takes effect from the fourth issue cycle of the context after its fmt instruction. (R121) -/
  | fmtWriteApply (c : CtxId)
  /-- Sets D to the wrapping sum of two s sources. (R104) -/
  | add (f : CFields)
  /-- Sets D to A minus B, wrapping. (R104) -/
  | sub (f : CFields)
  /-- Sets D to the low 32 bits of A times B. (R104) -/
  | mul (f : CFields)
  /-- Sets D to the high 32 bits of the signed 64-bit product. (R104) -/
  | mulh (f : CFields)
  /-- Sets D to the high 32 bits of the unsigned 64-bit product. (R104) -/
  | mulhn (f : CFields)
  /-- Sets D to the bitwise and of A and B. (R104) -/
  | and (f : CFields)
  /-- Sets D to the bitwise or of A and B. (R104) -/
  | or (f : CFields)
  /-- Sets D to the bitwise xor of A and B. (R104) -/
  | xor (f : CFields)
  /-- Shifts A left by B and 31. (R104) -/
  | shl (f : CFields)
  /-- Shifts A right by B and 31, zero-filled. (R104) -/
  | shr (f : CFields)
  /-- Shifts A right by B and 31, sign-filled. (R104) -/
  | sra (f : CFields)
  /-- Sets D to the signed minimum of A and B. (R104) -/
  | min (f : CFields)
  /-- Sets D to the signed maximum of A and B. (R104) -/
  | max (f : CFields)
  /-- Sets D to the unsigned minimum of A and B. (R104) -/
  | minn (f : CFields)
  /-- Sets D to the unsigned maximum of A and B. (R104) -/
  | maxn (f : CFields)
  /-- Sets D to A plus a sign-extended 24-bit immediate. (R105) -/
  | addi (f : CFields)
  /-- Sets D to a sign-extended 24-bit immediate. (R105) -/
  | ldi (f : CFields)
  /-- Sets the upper half of D from the immediate and keeps the low half of A. (R105) -/
  | ldhi (f : CFields)
  /-- Sets D to A or B according to a predicate, popping both sources. (R105) -/
  | sel (f : CFields)
  /-- Sets D to A. (R105) -/
  | mov (f : CFields)
  /-- Sets D to the number of landed entries of a named queue without reading it. (R105) -/
  | qlen (f : CFields)
  /-- Writes a predicate with a condition comparing two s values. (R107) -/
  | cmp (f : CFields)
  /-- Writes a predicate with a condition comparing an s value with an immediate. (R107) -/
  | cmpi (f : CFields)
  /-- Writes the and of two predicates. (R107) -/
  | pand (f : CFields)
  /-- Writes the or of two predicates. (R107) -/
  | por (f : CFields)
  /-- Writes the xor of two predicates. (R107) -/
  | pxor (f : CFields)
  /-- Writes the negation of a predicate. (R107) -/
  | pnot (f : CFields)
  /-- Sets a predicate to whether an s value is non-zero. (R107) -/
  | pmov (f : CFields)
  /-- Sets an address register to a sign-extended immediate. (R108) -/
  | gset (f : CFields)
  /-- Sets an address register's step register. (R108) -/
  | gstep (f : CFields)
  /-- Adds an s value and an immediate to an address register. (R108) -/
  | gadd (f : CFields)
  /-- Reads an address register or its step into an s queue. (R108) -/
  | gget (f : CFields)
  /-- Branches to a PC-relative target, emptying sticky memory. (R110) -/
  | br (f : CFields)
  /-- Jumps to the address held in an s value. (R110) -/
  | jmp (f : CFields)
  /-- Branches PC-relative and writes the return address to an s queue. (R110) -/
  | call (f : CFields)
  /-- Transfers to the address in an s value, and ends handler mode. (R110) -/
  | ret (f : CFields)
  /-- Pushes a hardware loop entry whose count is an immediate, or exits at once when the count is 0. (R113) -/
  | loop (f : CFields)
  /-- Pushes a hardware loop entry whose count is taken from an extent register. (R113) -/
  | loopExtent (f : CFields)
  /-- Pushes a hardware loop entry whose count is an s value. (R113) -/
  | loops (f : CFields)
  /-- Pops the top loop entry and transfers past its end bundle. (R115) -/
  | lbrk (f : CFields)
  /-- Reads the index of a loop entry at a given depth. (R115) -/
  | lidx (f : CFields)
  /-- Pins the next n bundles into the loop buffer and holds issue until they are present. (R116) -/
  | lbuf (f : CFields)
  /-- Marks a boundary point. (R117) -/
  | bnd (f : CFields)
  /-- Skips the next n bundles when a skip flag is set. (R118) -/
  | skip (f : CFields)
  /-- Sets an extent register from an s value. (R119) -/
  | eset (f : CFields)
  /-- Reads an extent register into an s queue. (R119) -/
  | eget (f : CFields)
  /-- Sets masked skip flags from the bits of an s value. (R119) -/
  | jset (f : CFields)
  /-- Reads a commit record and, in an 8-cycle hold, writes extents, skip flags, position, draw index, history and snapshot, then starts the asynchronous part on a tag. (R120) -/
  | commit (f : CFields)
  /-- Schedules a write of the format register that applies from the fourth issue cycle. (R121) -/
  | fmt (f : CFields)
  /-- Reads the fmt value an op issued in the same cycle would use. (R121) -/
  | fmtrd (f : CFields)
  /-- Marks a named queue dead. (R123) -/
  | dead (f : CFields)
  /-- Reaches a boundary and package phase boundary, reports held faults, and waits for queued entries and harts before ending the slice. (R124) -/
  | yield (f : CFields)
  /-- Enters a child task in a task pool from a descriptor, ends the current view piece and returns a handle. (R125) -/
  | spawn (f : CFields)
  /-- Allots a private view in the arena, fills it with the identity and adds it to the task's view list. (R127) -/
  | view (f : CFields)
  /-- Ends the task after its copies complete and a package phase boundary, merging its views. (R128) -/
  | tend (f : CFields)
  /-- Requests a switch of a region's code image, admitted by the launch unit and reported on a tag. (R130) -/
  | codesw (f : CFields)
  /-- Sets the task's slice budget for its next slice, capped at the RCB's cycle budget. (R131) -/
  | budget (f : CFields)
  /-- Takes the precise SOFTWARE trap with the immediate in TINFO. (R132) -/
  | trap (f : CFields)
  /-- Reads a system register into an s queue. (R133) -/
  | sysrd (f : CFields)
  /-- Writes a system register, trapping on a read-only one. (R133) -/
  | syswr (f : CFields)
  /-- Ends the task after its copies complete, merging its current piece as the identity. (R129) -/
  | halt (f : CFields)
  /-- Occupies the C slot with no effect. (R134) -/
  | nop (f : CFields)
  /-- Loads 512 bytes of scratchpad into a v queue. (R141) -/
  | ldv (f : TFields)
  /-- Stores a 512-byte v entry to the scratchpad. (R141) -/
  | stv (f : TFields)
  /-- Loads a scratchpad word into an s queue. (R141) -/
  | lds (f : TFields)
  /-- Stores an s value to the scratchpad. (R141) -/
  | sts (f : TFields)
  /-- Loads 128 strided scratchpad words into a v queue. (R141) -/
  | ldvx (f : TFields)
  /-- Stores 128 lanes to strided scratchpad words. (R141) -/
  | stvx (f : TFields)
  /-- Gathers scratchpad words at per-lane offsets. (R141) -/
  | gthv (f : TFields)
  /-- Scatters lanes to scratchpad words at per-lane offsets. (R141) -/
  | sctv (f : TFields)
  /-- Marks an operand slot claimed. (R142) -/
  | oclm (f : TFields)
  /-- Marks an operand slot unclaimed once its busy bit is clear. (R142) -/
  | orel (f : TFields)
  /-- Fills an operand slot with 8 KiB of scratchpad over the tile port. (R143) -/
  | old (f : TFields)
  /-- Fills a range of 512-byte pieces of an operand slot. (R143) -/
  | oldp (f : TFields)
  /-- Loads an accumulator tile from 16 KiB of scratchpad. (R143) -/
  | zld (f : TFields)
  /-- Stores an accumulator tile to 16 KiB of scratchpad. (R143) -/
  | zst (f : TFields)
  /-- Sets every element of an accumulator tile to +0. (R143) -/
  | zclr (f : TFields)
  /-- Hands a strided copy with optional conversion and barrier arrival to the copy engine. (R150) -/
  | copy (f : TFields)
  /-- Hands a multicast copy to selected cores and clusters of a die to the copy engine. (R150) -/
  | copym (f : TFields)
  /-- Hands a copy into a window on another package to the copy engine. (R150) -/
  | copyr (f : TFields)
  /-- Hands a block copy that may deduplicate against the owner's index to the copy engine. (R273) -/
  | copyd (f : TFields)
  /-- Hands an atomic read-modify-write per element, executed in the write queue, to the copy engine. (R152) -/
  | copya (f : TFields)
  /-- Writes each word when it is empty and sets it full. (R153) -/
  | copyfFill (f : TFields)
  /-- Copies each word once it is full and sets the source empty. (R153) -/
  | copyfDrain (f : TFields)
  /-- Copies each word once it is full and leaves it full. (R153) -/
  | copyfReadfull (f : TFields)
  /-- Sets each destination word empty without moving data. (R153) -/
  | copyfEmpty (f : TFields)
  /-- Pops a v entry and hands it to the copy engine as the source of a copy. (R150) -/
  | copyq (f : TFields)
  /-- Waits until no tag of a range is busy; a boundary point. (R156) -/
  | cwait (f : TFields)
  /-- Waits until a tag of a range is done and returns the lowest such tag. (R156) -/
  | cany (f : TFields)
  /-- Returns the lowest done tag of a range without waiting. (R156) -/
  | cfirst (f : TFields)
  /-- Returns a bitmap of the done tags of one half. (R156) -/
  | ctags (f : TFields)
  /-- Returns a tag's status, state and count. (R156) -/
  | cstat (f : TFields)
  /-- Returns idle or done tags of a range to idle with status OK. (R156) -/
  | cclr (f : TFields)
  /-- A cwait or cany waiting on tags ends when its condition holds, and cany's result lands 2 cycles later. (R156) -/
  | tagWaitEnd (c : CtxId)
  /-- Records the phase and arrives at a barrier, reporting any held fault first. (R158) -/
  | barr (f : TFields)
  /-- Waits until the barrier's phase differs from the context's record; a boundary point. (R158) -/
  | barw (f : TFields)
  /-- Arrives at a barrier and drops n from its expected count at the flip. (R158) -/
  | bard (f : TFields)
  /-- Sets an idle barrier's expected count or adds a pending join. (R158) -/
  | barj (f : TFields)
  /-- A barrier wait ends no earlier than 4 or 12 cycles after the flip, acquiring the phase's releases. (R158) -/
  | barrierWaitEnd (c : CtxId)
  /-- Marks a phase boundary of a scope, holding later copies and arrivals until publication completes. (R159) -/
  | phase (f : TFields)
  /-- A phase boundary's publication completes after every covered write applies, releasing the agent's held commands. (R284) -/
  | publicationComplete (id : Nat)
  /-- Issues an attention query to every stripe owner of a sequence and start notices to merge nodes. (R336) -/
  | aqry (f : TFields)
  /-- Appends tokens' K and V rows to a sequence at its home package. (R329) -/
  | kvap (f : TFields)
  /-- Truncates a group of sequences from a position, leaving holes. (R330) -/
  | kvmsk (f : TFields)
  /-- Hands a block range of a stripe to a new owner by a two-phase commit. (R332) -/
  | kvtrMove (f : TFields)
  /-- Copies a range's valid tokens into the fewest new blocks. (R333) -/
  | kvtrCompact (f : TFields)
  /-- Releases the blocks that a sliding window no longer needs. (R334) -/
  | kvtrTrim (f : TFields)
  /-- Installs or takes a shared prefix through the owner's prefix index. (R335) -/
  | kvtrPshare (f : TFields)
  /-- Snapshots the newest published version of the partition, releasing any earlier snapshot. (R160) -/
  | pvsnap (f : TFields)
  /-- Publishes a version for the partition, or ends ABORTED or VERSION_BUSY. (R160) -/
  | pvpub (f : TFields)
  /-- Reads the current published version without a snapshot. (R160) -/
  | pvrd (f : TFields)
  /-- Marks scratchpad granules as guard granules. (R161) -/
  | grd (f : TFields)
  /-- Clears guard granules. (R161) -/
  | grdc (f : TFields)
  /-- Fills the instruction-store line holding an image offset, reporting on a tag. (R162) -/
  | ifill (f : TFields)
  /-- Adds two vectors elementwise. (R173) -/
  | vadd (f : VFields)
  /-- Subtracts two vectors elementwise. (R173) -/
  | vsub (f : VFields)
  /-- Multiplies two vectors elementwise. (R173) -/
  | vmul (f : VFields)
  /-- Computes A times B plus C with one rounding. (R173) -/
  | vfma (f : VFields)
  /-- Computes A times B minus C with one rounding. (R173) -/
  | vfms (f : VFields)
  /-- Computes C minus A times B with one rounding. (R173) -/
  | vfnm (f : VFields)
  /-- Takes the elementwise minimum. (R174) -/
  | vmin (f : VFields)
  /-- Takes the elementwise maximum. (R174) -/
  | vmax (f : VFields)
  /-- Takes the elementwise absolute value. (R173) -/
  | vabs (f : VFields)
  /-- Negates each element. (R173) -/
  | vneg (f : VFields)
  /-- Computes a correctly rounded reciprocal per element on the divide unit. (R175) -/
  | vrcp (f : VFields)
  /-- Computes a correctly rounded reciprocal square root per element. (R175) -/
  | vrsq (f : VFields)
  /-- Computes a correctly rounded square root per element. (R175) -/
  | vsqrt (f : VFields)
  /-- Computes a correctly rounded quotient per element. (R175) -/
  | vdiv (f : VFields)
  /-- Writes an all-ones or zero mask per element by a condition. (R176) -/
  | vcmp (f : VFields)
  /-- Selects A or B per element by a mask. (R177) -/
  | vsel (f : VFields)
  /-- Converts elements between two types of equal width. (R180) -/
  | vcvt (f : VFields)
  /-- Rounds each element to an integral value in a chosen mode. (R182) -/
  | vrnd (f : VFields)
  /-- Multiplies each element by a power of two with one rounding. (R183) -/
  | vscale (f : VFields)
  /-- Writes a one-hot class code per floating element. (R178) -/
  | vclass (f : VFields)
  /-- Bitwise and of two vectors. (R184) -/
  | vand (f : VFields)
  /-- Bitwise or of two vectors. (R184) -/
  | vor (f : VFields)
  /-- Bitwise xor of two vectors. (R184) -/
  | vxor (f : VFields)
  /-- A and not B per element. (R184) -/
  | vandn (f : VFields)
  /-- Shifts elements left by per-element counts. (R184) -/
  | vshl (f : VFields)
  /-- Shifts elements left by an immediate count. (R184) -/
  | vshlImm (f : VFields)
  /-- Shifts elements right, zero-filled, by per-element counts. (R184) -/
  | vshr (f : VFields)
  /-- Shifts elements right, zero-filled, by an immediate count. (R184) -/
  | vshrImm (f : VFields)
  /-- Shifts elements right, sign-filled, by per-element counts. (R184) -/
  | vsra (f : VFields)
  /-- Shifts elements right, sign-filled, by an immediate count. (R184) -/
  | vsraImm (f : VFields)
  /-- Takes the high half of each element product. (R184) -/
  | vmulh (f : VFields)
  /-- Adds two paired products to a 32-bit accumulator lane exactly. (R185) -/
  | vdot2 (f : VFields)
  /-- Clamps each element to the range of a narrower type. (R181) -/
  | vsat (f : VFields)
  /-- Counts leading zero bits per element. (R184) -/
  | vclz (f : VFields)
  /-- Counts one bits per element. (R184) -/
  | vpopc (f : VFields)
  /-- Broadcasts an s value to every element. (R186) -/
  | vbcast (f : VFields)
  /-- Extracts one lane into an s queue. (R188) -/
  | vlane (f : VFields)
  /-- Replaces one lane with an s value. (R188) -/
  | vins (f : VFields)
  /-- Slides elements across two vectors by k. (R189) -/
  | vslide (f : VFields)
  /-- Permutes elements from two tables by indices. (R190) -/
  | vperm (f : VFields)
  /-- Reverses element order. (R189) -/
  | vrev (f : VFields)
  /-- Interleaves halves of two vectors. (R189) -/
  | vzip (f : VFields)
  /-- Deinterleaves even or odd elements of two vectors. (R189) -/
  | vunzip (f : VFields)
  /-- Narrows two vectors into one. (R180) -/
  | vpack (f : VFields)
  /-- Widens one half of a vector, or packed i4 or i6 data, into a vector. (R180) -/
  | vunpk (f : VFields)
  /-- Extracts one plane bit of 512 weights into a plane chunk. (R191) -/
  | vplx (f : VFields)
  /-- Adds a plane chunk's weighted bits into i8 elements, with the offset on the last plane. (R192) -/
  | vplc (f : VFields)
  /-- Writes an arithmetic sequence of elements. (R187) -/
  | viota (f : VFields)
  /-- Copies all 512 bytes of a vector. (R189) -/
  | vmov (f : VFields)
  /-- Enters a tile product that accumulates k steps into an accumulator. (R203) -/
  | mma (f : MFields)
  /-- Enters a tile product whose first step treats the accumulator as +0. (R204) -/
  | mmaz (f : MFields)
  /-- Enters a paired product whose halves combine exactly at the lead core. (R209) -/
  | mmap (f : MFields)
  /-- Enters one k step of a ragged grouped product from a group table. (R206) -/
  | mgrp (f : MFields)
  /-- Transposes one accumulator into another. (R208) -/
  | mtrn (f : MFields)
  /-- Sets an accumulator's row and column scales from a vector. (R207) -/
  | mscl (f : MFields)
  /-- Fills every row of an accumulator with a vector. (R208) -/
  | mfill (f : MFields)
  /-- Copies one accumulator to another. (R208) -/
  | mmov (f : MFields)
  /-- Adds one accumulator into another elementwise. (R208) -/
  | madd (f : MFields)
  /-- Holds issue until the context's M work is done. (R202) -/
  | mwait (f : MFields)
  /-- At a step boundary the shared datapath starts the next step of context 0's, else context 1's, current M instruction, stepping bases and clearing busy bits at the end. (R199) -/
  | mStep (core : Nat)
  /-- A partner's half of a paired step reaches the lead's pairing buffer, which combines and commits the step. (R209) -/
  | pairHalfArrival (c : CtxId)
  /-- A paired step whose other side does not arrive within 65,536 cycles is abandoned. (R211) -/
  | pairStepTimeout (c : CtxId) (step : Nat)
  /-- Computes kexp2 of each lane. (R220) -/
  | kexp2 (f : VFields)
  /-- Computes kexp2 of each lane minus lane 0 of B. (R220) -/
  | kexp2Biased (f : VFields)
  /-- Computes klog2 of each lane. (R220) -/
  | klog2 (f : VFields)
  /-- Reduces a vector to its maximum. (R221) -/
  | kmax (f : VFields)
  /-- Reduces a vector to its exact sum rounded once. (R222) -/
  | ksum (f : VFields)
  /-- Reduces to the exact sum of lane products rounded once. (R222) -/
  | ksumw (f : VFields)
  /-- Writes inclusive or exclusive prefix sums. (R222) -/
  | kscan (f : VFields)
  /-- Updates an online-softmax state with 128 scores. (R223) -/
  | ksmx (f : VFields)
  /-- Merges two online-softmax state vectors by the solder rule. (R224) -/
  | ksmrg (f : VFields)
  /-- Merges two o vectors using a header result's scales. (R224) -/
  | ksmrgBody (f : VFields)
  /-- Sorts 64 score and id pairs into candidate order. (R226) -/
  | ksort (f : VFields)
  /-- Merges pairs into the best-64 candidate file. (R227) -/
  | kmrg (f : VFields)
  /-- Empties the candidate file. (R228) -/
  | kcclr (f : VFields)
  /-- Reads the candidate file as a pair vector. (R228) -/
  | kcrd (f : VFields)
  /-- Scales every file score and reorders the file. (R229) -/
  | ktemp (f : VFields)
  /-- Keeps the shortest file prefix reaching a probability mass. (R230) -/
  | ktopp (f : VFields)
  /-- Draws c Philox counter values into a vector. (R232) -/
  | krng (f : VFields)
  /-- Loads the random-stream key, sequence, position and lane. (R231) -/
  | krngk (f : VFields)
  /-- Adds Gumbel noise to every file entry and reorders the file. (R233) -/
  | kgmb (f : VFields)
  /-- Returns the id of the file's first entry. (R228) -/
  | kpick (f : VFields)
  /-- Returns the score of the file's first entry. (R228) -/
  | kpickScore (f : VFields)
  /-- Returns the lowest lane holding the maximum. (R221) -/
  | kargmx (f : VFields)
  /-- A hart issues a copy of a chosen kind on a context tag. (R239) -/
  | lcopy (d a b : BitVec 5)
  /-- A hart waits until no tag of a range is busy and returns the first failing tag. (R239) -/
  | lwait (d a b : BitVec 5)
  /-- A hart returns the lowest done tag of a range without waiting. (R239) -/
  | lpoll (d a b : BitVec 5)
  /-- A hart reads a tag's status word. (R239) -/
  | lstat (d a : BitVec 5)
  /-- A hart pushes a landed s value or 512 bytes into a context queue, waiting for room. (R239) -/
  | lpush (a b : BitVec 5)
  /-- A hart pops a queue head once it has landed. (R239) -/
  | lpop (d a b : BitVec 5)
  /-- A hart reads the full/empty bit of a virtual word through the copy engine. (R239) -/
  | lfe (d a b : BitVec 5)
  /-- A hart submits a task as spawn does. (R239) -/
  | ltsk (d a : BitVec 5)
  /-- A hart arrives at a barrier as barr does. (R239) -/
  | lbarArrive (a b : BitVec 5)
  /-- A hart waits at a barrier as barw does. (R239) -/
  | lbarWait (a b : BitVec 5)
  /-- A hart waiting inside an extension instruction resumes when its condition holds. (R239) -/
  | hartWaitEnd (h : HartId)
  /-- A hart store to a writable device register or CSR sets it. (R237) -/
  | hartDeviceRegisterWrite (op : Rv) (len : Nat)
  /-- Once every reserved entry has landed and the harts stand at lyld, the yield ends the slice and parks the task. (R124) -/
  | yieldSliceEnd (c : CtxId)
  /-- Once every copy of the task has completed, tend ends the task and its views merge. (R128) -/
  | tendComplete (c : CtxId)
  /-- Once every copy of the task has completed, halt ends the task, merging the current piece as the identity. (R129) -/
  | haltComplete (c : CtxId)
  /-- A spawn held on a full task pool issues once an entry is removed. (R33) -/
  | spawnPoolWaitEnd (c : CtxId)
  /-- A spawn's or tend's hand-over wait ends when the engine has taken and refilled each ended piece. (R321) -/
  | spawnHandoverEnd (c : CtxId)
  /-- The copy engine completes a view's identity fill. (R127) -/
  | viewFillComplete (id : Nat)
  /-- An instruction-store line fill completes, letting the waiting bundle decode, or fails. (R258) -/
  | instructionFillComplete (id : Nat)
  /-- A translation walk finishes, filling the TLB or restarting on a generation change, or parks or faults. (R254) -/
  | walkComplete (id : Nat)
  /-- A copy-engine command ends, writing RESULT, updating its tag and making any barrier arrival. (R148) -/
  | copyComplete (id : Nat)
  /-- A copy with no qualifying resident target slice for 65,536 cycles ends ABORTED. (R146) -/
  | copyTargetTimeout (id : Nat)
  /-- A push waiting on a full target queue lands its next entry when one is popped. (R151) -/
  | pushEntryFreed (id : Nat)
  /-- A full/empty word waiting in the write queue meets its condition and is moved. (R153) -/
  | copyfWordReady (id : Nat)
  /-- The write-queue reduction unit applies one atomic element as a read-modify-write. (R293) -/
  | atomicElementApply (id : Nat)
  /-- A view piece whose left neighbours have merged is applied to the tile chunk by chunk. (R320) -/
  | viewPieceMerge (id : Nat)
  /-- When a context empties or a candidate appears, the arbiter places the first fitting candidate and allots its stores. (R309) -/
  | arbiterDecision (die : Nat)
  /-- At 32w cycles into a sequence, wave w's cores leave the gated state. (R42) -/
  | waveStart (w : Nat)
  /-- A core whose contexts have been empty for 65,536 cycles becomes gated. (R42) -/
  | coreGating (core : Nat)
  /-- The row-reset clear at an owner change completes and the entering slice may issue. (R38) -/
  | scratchClearComplete (core : Nat)
  /-- A placed slice's saved state has been restored and its first bundle may issue. (R310) -/
  | stateRestoreComplete (c : CtxId)
  /-- A pending pre-emption halts a context at its boundary point, landing entries, halting harts and parking the M slot. (R314) -/
  | preemptHalt (c : CtxId)
  /-- SBUDGET reaching 0 before a yield takes BUDGET at the next or waiting bundle. (R311) -/
  | budgetTrap (c : CtxId)
  /-- 2^24 cycles without a yield take the asynchronous WATCHDOG trap. (R312) -/
  | watchdog (c : CtxId)
  /-- A context reaching no boundary point within 256 cycles of a pre-emption request traps asynchronously. (R315) -/
  | boundaryOverrun (c : CtxId)
  /-- An NMA unit finishes scoring its blocks of a query into an online-softmax partial. (R338) -/
  | nmaPartial (query stack : Nat)
  /-- A node's timer runs out before a child arrives, and it aborts or forwards a degraded result. (R342) -/
  | mergeChildTimeout (query node : Nat)
  /-- A root with no resident target slice for 65,536 cycles discards the record and ends the tag ABORTED. (R347) -/
  | windowDestTimeout (query : Nat)
  /-- The commit's command writes token records, issues the mask and releases the snapshot. (R353) -/
  | commitAsync (id : Nat)
  /-- A release, pvpub or pvsnap reaching a partition record is applied in order. (R358) -/
  | partitionRecordApply (part : Nat)
  /-- When every shard is stored the root monitor signs the manifest and the copy-on-write state is released. (R369) -/
  | snapshotStreamComplete (root : Nat)
  /-- No probe reply within 50 µs leaves the target unknown and the access ends REMOTE_UNREACHABLE. (R262) -/
  | incarnationProbeTimeout (pkg : Nat)
  /-- A loader or storer hart executes an ordinary RV32IMC, Zicsr, Zba or Zbb instruction, including loads, stores, CSR reads and the exceptions of R244. (R234) -/
  | hartInstruction (op : Rv) (len : Nat)
  /-- The firmware replays a parked copy, which resumes at its index. (R255) -/
  | faultServiceReplay (id : Nat)
  /-- A hart joins the slice's yield. (R242) -/
  | lyld
  /-- A hart ecall stops both harts and the context and delivers SOFTWARE with x10 in TINFO. (R244) -/
  | hartEcall
  /-- A hart ebreak stops both harts and the context and delivers SOFTWARE. (R244) -/
  | hartEbreak
  /-- The firmware fails a parked copy, which ends FAULTED. (R255) -/
  | faultServiceFail (id : Nat)
  /-- The pool observes a readiness word full, and the task becomes READY when all are satisfied. (R307) -/
  | readinessWordFilled (task word : Nat)
  /-- A merge node receives a query's start notice and starts its timer. (R341) -/
  | startNotice (p : Arrived QueryMsg) (node : Nat)
  /-- A partial, STALE or ABORTED answer reaches a merge node, which folds and forwards in order. (R341) -/
  | solderPartialArrival (p : Arrived QueryMsg) (child : Nat) (ans : Answer)
  /-- A participant receives a move's prepare, and the new owner copies the range. (R332) -/
  | movePrepare (p : Arrived MoveMsg)
  /-- Home receives a prepare acknowledgement and commits once all have arrived with the copy complete. (R332) -/
  | movePrepareAck (move : Nat) (p : Arrived (List DWord))
  /-- A participant receives a move's commit and adopts the new map. (R332) -/
  | moveCommit (p : Arrived MoveMsg)
  /-- Once every participant has acknowledged the commit the old owner releases its blocks. (R332) -/
  | moveCommitAck (move : Nat) (p : Arrived Unit)
  /-- A participant receives a move's abort and releases its copies. (R332) -/
  | moveAbort (p : Arrived MoveMsg)
  /-- A participant with an undecided prepared move asks home for the outcome when a route returns. (R373) -/
  | moveOutcomeQuery (move : Nat) (p : Arrived Unit)
  /-- The firmware loads a cold table or segment into the pewter store, releasing waiting commands. (R324) -/
  | pewterLoad (seq : Nat)
  /-- A merge tree table is installed, or refused whole with TOPOLOGY. (R340) -/
  | treeTableInstall (id : Nat) (words : List Word)
  /-- The root monitor writes a translation entry after owner checks and raises the generation if needed. (R253) -/
  | translationInstall (asid va level : Nat) (entry : DWord)
  /-- A generation raise completes once every engine has observed it and performed its translated accesses. (R249) -/
  | generationRaiseComplete (asid : Nat)
  /-- A copy engine moves a migrating page's data and full/empty bits to a new frame. (R257) -/
  | pageMigration (asid va pa : Nat)
  /-- A corrected-error count reaching its threshold in a window raises a warning and snapshots checkpointed regions. (R368) -/
  | checkpointWarning (source : Nat)
  /-- A 2^30-cycle error-counting window ends and a new one begins. (R368) -/
  | errorWindowEnd
  /-- A target's reply to an incarnation probe fills the known-incarnation table. (R262) -/
  | incarnationProbeReply (pkg : Arrived Unit) (inc : Word)
  /-- A reset notice from a target invalidates its incarnation and raises affected generations. (R264) -/
  | targetResetNotice (pkg : Nat)
  /-- A power-down notice from a target invalidates its incarnation and raises affected generations. (R264) -/
  | targetPowerDownNotice (pkg : Nat)
  /-- A link receives a flit, delivering it or requesting a replay on a CRC error. (R359) -/
  | flitReceive (link seq : Nat) (crcOk : Bool) (x : LinkIn)
  /-- A flit failing eight consecutive times makes the link retrain. (R359) -/
  | linkRetrain (link : Nat)
  /-- Retraining succeeds, or fails and the link is down. (R359) -/
  | linkRetrainEnd (link : Nat) (ok : Bool)
  /-- An end-to-end acknowledgement retires a packet, and duplicates are discarded by number. (R360) -/
  | packetAck (pkg : Nat) (a : PacketReply)
  /-- A reset or power-up increments the incarnation, gates cores and boots the verified firmware. (R262) -/
  | packageReset
  /-- At power-up each 20 µs wave of four links trains. (R371) -/
  | linkTrainingWave (w : Nat)
  /-- A stack's staggered refresh falls due. (R371) -/
  | hbmRefresh (stack : Nat)
  /-- A connection-management REQ sets up the one control connection of a host port. (R362) -/
  | controlConnectionRequest (port : Nat) (service : ConnectionRequest) (asid : Nat)
  /-- The launch unit admits a region and returns LSTAT in the acknowledgement. (R302) -/
  | launch (r : Request)
  /-- The host pre-empts and suspends a region and its descendants. (R363) -/
  | preempt (r : Request)
  /-- The host ends a region's suspension. (R363) -/
  | resume (r : Request)
  /-- The host asks for a SYNCR, answered whatever its number. (R372) -/
  | sync (m : HostMsg)
  /-- The device resends retained device messages from a number on. (R363) -/
  | replay (m : HostMsg)
  /-- The device writes a signed attestation report into a host buffer. (R367) -/
  | attest (m : HostMsg)
  /-- The root monitor verifies a checkpoint and recreates its regions and tasks. (R370) -/
  | restore (m : HostMsg)
  /-- A control message of unknown type draws MALFORMED. (R363) -/
  | unknownMessage (m : HostMsg)
  /-- A host RDMA write is translated and applied, published on acknowledgement. (R361) -/
  | rdmaWrite (r : RdmaOp)
  /-- A host RDMA read is translated and answered with published values. (R361) -/
  | rdmaRead (r : RdmaOp)
  /-- An unsupported RoCE operation draws an invalid-request NAK. (R361) -/
  | rdmaInvalidOperation (r : RdmaOp)
  /-- Each cycle the package timebase advances and the per-cycle counts (SBUDGET, CYCLE, MIDLE, MSTALL, the watchdog count) move. (R3) -/
  | timebaseAdvance
  /-- A corrected error on an HBM stack or Sirxis link increments its count in the current window. (R368) -/
  | correctedError (source : Nat)
  /-- The service firmware evicts a table or segment from the pewter store as a whole unit, making it cold. (R324) -/
  | pewterEvict (seq : Nat)
  /-- The service firmware creates a sequence record at its home package with NEXTPOS, TAIL and TFILL zero. (R323) -/
  | sequenceRecordCreate (seq dhc table : Nat)
  /-- The service firmware removes a sequence record. (R323) -/
  | sequenceRecordRemove (seq : Nat)
  /-- The service firmware writes a group's position map replica on a package. (R326) -/
  | positionMapInstall (m : MapInstall)
  /-- The service firmware marks a stripe LOST through a commit that excludes the old owner. (R332) -/
  | stripeLost (seq first : Nat)
  /-- The service firmware adds frames or GBNs to a hardware free list. (R261) -/
  | freeListFill (list : FreeKind) (items : List Nat)
  /-- The firmware clears PIN on a block entry, releasing it if REFCNT is 0. (R272) -/
  | pinClear (gbn : Nat)
  /-- The service firmware evicts a prefix index entry and releases its block references. (R335) -/
  | prefixIndexEvict (entry : Nat)
  /-- A block not pinned is moved off tier 0 to tier 1 or 2, its reference rewritten and its stripe made COLD. (R269) -/
  | blockTierEvict (x : TierBlock) (tier : Nat)
  /-- The service firmware writes the routing table that maps package numbers to links in a directly wired domain. (R360) -/
  | routingTableWrite (entries : List (Nat × List Nat))
  /-- A remote access from another package arrives, and is refused if its incarnation differs or is otherwise applied. (R262) -/
  | remoteAccess (r : RemoteReq)
  /-- A probe from another package arrives and this package replies with its incarnation. (R262) -/
  | incarnationProbe (pkg : Arrived Unit)
  /-- The package powers down and sends a power-down notice to its peers. (R264) -/
  | powerDown
  /-- A port's control connection ceases to stand, so the port may accept a new one. (R362) -/
  | controlConnectionClose (port : Nat)
  /-- A RoCE v2 connection request for a data queue pair is accepted for Reliable Connection, or refused for any other transport. (R361) -/
  | connectionSetUp (port transport : Nat) (q : QpRequest) (asid : Nat)
  /-- A received congestion notification packet is obeyed by the port. (R361) -/
  | congestionNotificationPacket (port qp : Nat)
  /-- A priority flow control frame on the configured priority pauses or resumes a port's transmission. (R361) -/
  | priorityFlowControlPause (port priority : Nat) (pause : Bool)
deriving DecidableEq, Repr, Inhabited

end Sys2Proof
end

