-- ==== Sys2Proof/Machine/State.lean ====
section
/-! DEFINITION. The state of one GX-768 package as plain data (R1, R26, and the rules each field cites), the
faults and refusals a step can answer, and the state after reset. Association lists stand for the package's
large arrays: an absent key reads as the default that the accessor in Machine/Ops.lean gives. -/

namespace Sys2Proof.Machine

/-- Sparse bytes by address: addresses strictly rising, and no entry equal to 0, which is what an unlisted
address reads as (log 10). -/
abbrev Mem := List Host.Cell

/-- A value on its way to a queue or latch: an s word or a v vector (R82, R87). -/
inductive Val
  | s (w : Word)
  | v (x : Vec)
deriving DecidableEq, Repr, Inhabited

/-- A latch: lost since a group switch, or holding its last result (R87). -/
inductive Latch
  | lost
  | scalar (w : Word)
  | vector (v : Vec)
deriving DecidableEq, Repr, Inhabited

/-- A queue entry: reserved (`none`) or landed (R82). `id` names it for its landing; `carry` are the writes that
whoever pops it sees (R240). -/
structure QEntry where
  id : Nat
  val : Option Val
  carry : List Nat
deriving DecidableEq, Repr, Inhabited

/-- A queue: dead or live, entries in reservation order, at most four (R82 to R85). -/
structure Queue where
  dead : Bool
  entries : List QEntry
deriving DecidableEq, Repr, Inhabited

/-- The two queue banks (R67, R74). -/
inductive Bank | v | s
deriving DecidableEq, Repr, Inhabited

/-- A result in flight (R82, R87): where it lands and when; `view` marks the handle of a `view`, which a halt lands early
(R36, R127). -/
structure Flight where
  id : Nat
  due : Nat
  queue : Option (Bank × Nat)
  latch : Nat
  val : Val
  view : Bool
deriving DecidableEq, Repr, Inhabited

/-- A result that the bundle being issued will reserve at its end (R83 step 3). -/
structure Result where
  queue : Option (Bank × Nat)
  latch : Nat
  latency : Nat
  val : Val
  view : Bool
deriving DecidableEq, Repr, Inhabited

/-- The five slots in issue order (R62). -/
inductive Slot | c | t | v | m | k
deriving DecidableEq, Repr, Inhabited

/-- A loop stack entry (R112). -/
structure LoopEntry where
  start : Word
  stop : Word
  count : Word
  index : Word
deriving DecidableEq, Repr, Inhabited

/-- Tag states (R155). -/
inductive TagState | idle | busy | done
deriving DecidableEq, Repr, Inhabited

/-- A tag: state, commands in flight, status (R155). -/
structure Tag where
  st : TagState
  count : Nat
  status : Byte
deriving DecidableEq, Repr, Inhabited

/-- The random stream (R58, R231): key, sequence id, token position, sampler lane, draw index. -/
structure Rng where
  k0 : Word
  k1 : Word
  seq : Word
  pos : Nat
  lane : BitVec 16
  idx : Nat
deriving DecidableEq, Repr, Inhabited

/-- A fault held until the next barrier instruction or yield (R137, R206, R210); a hart's own also until its next `lbar`
or `lyld` (R244): `who` is the hart, none for the context. -/
structure HeldFault where
  who : Option Role
  code : Byte
  slot : Nat
  opnd : Nat
  tinfo : Word
deriving DecidableEq, Repr, Inhabited

/-- A view of the task (R126, R127): tile, size, element type, operator, arena offset. -/
structure View where
  addr : DWord
  size : Nat
  etype : Nat
  op : Nat
  off : Nat
deriving DecidableEq, Repr, Inhabited

/-- The tiles A and B as the 8-cycle spans of a step below `upto` read them, where a halt or the other side's halt fell between
those spans and the rest of the step (R205, R210). -/
structure TileSpan where
  upto : Nat
  a : BitVec 65536
  b : BitVec 65536
deriving DecidableEq, Repr, Inhabited

/-- The other side's half of a paired step (R209): its step number, fmt, and tiles, with the sums of its planes, and the tiles
of its spans, that were formed before a halt (R205); and the spans of it supplied, fewer than the step has where a halt came
between (R210). -/
structure PairHalf where
  step : Nat
  fmt : Word
  a : BitVec 65536
  b : BitVec 65536
  planes : Nat
  sums : List Int
  early : List TileSpan
  spans : Nat
deriving DecidableEq, Repr, Inhabited

/-- An M instruction in the M queue (R199, R205): the instruction, fmt and the bases read at issue (stepped with the steps), the QSRC vector, the steps in
all and those performed, whether a step is in progress and the 8-cycle spans of it already done, the operand slots it
holds busy, the resolved groups of `mgrp` as (first row, end row, B offset); for `mmap`, the cycle in which its own half of
the step was formed; for a parked plane step, its exact sums (element by element) over the planes done, and for another
product's the tiles that its spans done have read (R205). -/
structure MWork where
  op : Instr
  fmt : Word
  abase : Word
  bbase : Word
  vec : Vec
  steps : Nat
  done : Nat
  started : Bool
  spans : Nat
  slots : BitVec 16
  groups : List (Nat × Nat × Nat)
  formed : Option Nat
  planes : Nat
  sums : List Int
  early : List TileSpan
deriving DecidableEq, Repr, Inhabited

/-- What a context waits for (R30, R33, R35, R62, R121, R242, R311, R321). -/
inductive Wait
  | none
  | fill (pc tpc : Word)       -- an instruction fill, for the parcel at `pc` of the bundle at `tpc` (R62, R118)
  | tag (first count : Nat) (any : Bool)             -- cwait, or cany (R156)
  | barrier (die : Bool) (bar : Nat) (record : Word) -- barw, with the phase it leaves on (R158)
  | spawnPool (die : Nat)      -- a full task pool (R33)
  | yieldLand                  -- step 3 of a yield (R124)
  | tend                       -- copies of the task, before it ends (R128)
  | halt                       -- the same for halt (R129)
  | handover (ends : Bool) (due : Nat) -- R321: a spawn's, or a tend's before the task ends
deriving DecidableEq, Repr, Inhabited

/-- What a context has still to size from templates after an instruction has issued (R113, R115, R116, R118): the bundle
after the one at a PC, where it goes on; n bundles from a PC that a skip passes; n bundles from a PC that `lbuf` pins. -/
inductive Sizing
  | after (pc : Word)
  | skip (n : Nat) (pc : Word)
  | pin (n : Nat) (pc : Word)
deriving DecidableEq, Repr, Inhabited

/-- What keeps a placed slice from issuing its first bundle (R38, R42, R193, R238, R310). -/
inductive Blocker
  | restore (due : Nat)        -- state restore, or the writing of its images
  | clear (due : Nat)          -- the clear of the core's stores
  | wave                       -- the start wave of its core
deriving DecidableEq, Repr, Inhabited

/-- Where a transfer goes (R111, R113 to R118): a PC, or one that templates still have to give. -/
inductive Goal
  | pc (w : Word)
  | sized (z : Sizing)
deriving DecidableEq, Repr, Inhabited

/-- What the bundle being issued will do with the PC (R111, R113 to R118): where it goes, the cycles to the next issue, and
whether the transfer is a boundary point. -/
structure Transfer where
  goal : Goal
  dead : Nat
  boundary : Bool
deriving DecidableEq, Repr, Inhabited

/-- The bundle being issued (R78, R83): its PC and length, the repetition and REP, the transfer and the effects its
C slot asked for, the imprecise fault its M slot raises (R206), the marks and results of its slots so far, what its slots saw at issue; its slots and ports
for the merge stage (R30), the token position that a commit sets (R350), and the cycles for which it occupies the FP64 and divide paths (R171). A result of latency 0
lands when a hand-over wait ends (R125). `detach` says that a commit of the bundle takes the policy snapshot from the context
(R355). -/
structure Issue where
  pc : Word
  parcels : Nat
  rep : Nat
  reps : Nat
  transfer : Option Transfer
  boundary : Bool
  fault : Option HeldFault
  marks : List (Bank × Nat)
  results : List Result
  carried : List Nat
  wait : Wait
  newRng : Option Nat
  detach : Bool
  holdFor : Nat
  slots : List Slot
  ports : Nat
  fp64 : Nat
  div : Nat
deriving DecidableEq, Repr, Inhabited

/-- What the slots of a bundle read of the context as it stood at the issue: predicates (of the first
repetition), address registers after stepping, fmt (R81, R102, R109); and the step registers as the later steps of the bundle's
M instruction find them, after a `gstep` beside it (R102, R200). -/
structure Seen where
  p : BitVec 8
  g : Vector Word 16
  fmt : Word
  steps : Vector Word 16
deriving DecidableEq, Repr, Inhabited

/-- A hart's doing (R239, R242, R243, R244). -/
inductive HartState
  | halted                     -- no program, or an empty context
  | running
  | waiting (i : Instr)        -- inside an extension instruction
  | lyld                       -- at lyld
  | stopped                    -- stopped by an exception, the pc where it resumes
deriving DecidableEq, Repr, Inhabited

/-- A hart of a slice (R28, R235 to R239). -/
structure Hart where
  st : HartState
  x : Vector Word 32
  pc : Word
  code : List Byte
  data : Mem
  dataSize : Nat
  mscratch : Word
  hstall : Word
  instret : DWord
  nextIssue : Nat
  loads : List (BitVec 5 × Nat)
  records : List ((Bool × Nat) × Word)
  awaited : Option ((Bool × Nat) × Word)
  lfe : Option Nat
deriving DecidableEq, Repr, Inhabited

/-- The state of a context (R26) with what its slice keeps there: the resident slice of a task. -/
structure Ctx where
  task : Nat
  region : Nat
  hdr : BitVec 512
  image : Nat
  pc : Word
  v : Vector Queue 32
  s : Vector Queue 32
  latches : Vector Latch 8
  flights : List Flight
  g : Vector Word 16
  gstep : Vector Word 16
  p : BitVec 8
  e : Vector Word 8
  j : BitVec 16
  loops : List LoopEntry
  fmt : Word
  fmtPend : List (Nat × Word)
  sticky : List (Slot × Instr)
  tags : Vector Tag 64
  outstanding : Nat
  cand : List (Word × BitVec 24)
  fileUntil : Nat
  rng : Rng
  views : List View
  claimed : BitVec 16
  slotBusy : Vector Nat 16
  accBusy : Vector Nat 8
  accBusyT : Vector Nat 8
  zstUntil : Nat
  zstLo : Nat
  scales : Vector (BitVec 2048) 8
  mq : List MWork
  mlast : Option Nat
  pairs : Nat
  pairBuf : Option PairHalf
  /-- the task of the other side with which the paired steps were last matched (R209, R212) -/
  mate : Option Nat
  records : List ((Bool × Nat) × Word)
  guards : List Nat
  /-- the guards from the next cycle on, where a `grd` or `grdc` of this cycle has changed them (R161) -/
  guardsDue : Option (List Nat)
  held : Option HeldFault
  awaited : Option ((Bool × Nat) × Word)
  snap : Option (Word × Bool)
  handler : Bool
  tcause : Word
  tpc : Word
  tinfo : Word
  sbudget : Nat
  extended : Bool
  cycle : Nat
  midle : Word
  mstall : Word
  /-- whether `syswr` set MIDLE, or MSTALL, in this cycle (R133) -/
  midleSet : Bool
  mstallSet : Bool
  sinceYield : Nat
  wait : Wait
  /-- what templates have still to give before the next bundle (R113, R115, R116, R118) -/
  sizing : Option Sizing
  nextIssue : Nat
  rep : Nat
  seen : Seen
  issue : Option Issue
  lbuf : Option (Nat × Nat)
  preempt : Option Nat
  halting : Bool
  draining : Bool
  /-- whether the halt that has begun fell in a fetch wait, which keeps latches and sticky memory (R280) -/
  keeps : Bool
  blocked : List Blocker
  fetchWait : Nat
  window : Nat
  slotBase : Nat
  tileBase : Nat
  loader : Option Hart
  storer : Option Hart
  resident : Nat
deriving DecidableEq, Repr, Inhabited

/-- Where a part of a task's data state stands (R309, R310): nowhere yet, or of no size; still resident on a core at a
base, but for the ranges (offset, length) that have been saved, with their bytes; or saved whole. -/
inductive Part
  | none
  | here (core base : Nat) (gone : List (Nat × Nat)) (bytes : Mem)
  | saved (bytes : Mem)
deriving DecidableEq, Repr, Inhabited

/-- The task states (R32). -/
inductive TaskState | waiting | ready | running | parked | ended
deriving DecidableEq, Repr, Inhabited

/-- A task in a die's pool (R32, R305): its descriptor's fields, for one that was spawned the handle that TASKL reads, which a
restored task keeps (R89), its place in the spawn tree (`path`, the
number of pieces ended at spawns), its saved context, where its data state stands, the cycle in which the save of its
context state ends (R374), and the core it left with the placements of hart programs that the core had seen then, none where its
hart code had not been written whole (R238). -/
structure Task where
  uid : Nat
  die : Nat
  index : Nat
  st : TaskState
  aborted : Bool
  region : Nat
  descriptor : DWord
  spawned : Option Word
  deadline : Nat
  budget : Nat
  entryC : Word
  entryL : Word
  entryS : Word
  ready : List (Nat × Bool)
  vlist : Nat
  vlsize : Nat
  vlused : List (Nat × Nat)
  parent : Word
  lsib : Word
  fchild : Word
  lastChild : Word
  save : Nat
  path : List Nat
  spawns : Nat
  since : Nat
  placedBefore : Bool
  preempted : Bool
  saveDue : Nat
  placesAt : Option (Nat × Option Nat)
  run : Nat
  yieldPc : Word
  saved : Option Ctx
  scratch : Part
  slots : Part
  tiles : Part
  hdr : BitVec 512
  image : Nat
deriving DecidableEq, Repr, Inhabited

/-- The RCB states (R297). -/
inductive RegionState | admitted | ended | aborted
deriving DecidableEq, Repr, Inhabited

/-- An admitted region (R297, R304): its RCB's address and the ASID that address lies in, its effective fields,
its current image and header, its barrier allotment. `part` is PART where PARTV is 1, `partField` the field itself;
`suspended` says whether a pre-emption of it or of an ancestor stands without a resume (R313). -/
structure Region where
  rcb : Nat
  rcbAsid : Nat
  parent : Nat
  image : Nat
  hdr : BitVec 512
  dloff : Nat
  cbudget : Nat
  prio : Nat
  fdom : Nat
  owner : Nat
  asid : Nat
  part : Option Nat
  partField : Nat
  die : Nat
  hndl : Word
  st : RegionState
  suspended : Bool
  ckpt : Bool
  cbase : Nat
  dbase : Nat
  cbar : Nat
  dbar : Nat
  mergeDead : Bool
deriving DecidableEq, Repr, Inhabited

/-- A barrier (R157), with the cycle of its last flip (R158). -/
structure Bar where
  e : Nat
  arrivals : Nat
  phase : Word
  pending : Int
  flipAt : Nat
deriving DecidableEq, Repr, Inhabited

/-- A line of the VLIW instruction store (R258): its tag and its 4 KiB. -/
structure ILine where
  asid : Nat
  gen : Nat
  va : Nat
  data : BitVec 32768
deriving DecidableEq, Repr, Inhabited

/-- A core (R25): its stores, what its shared datapaths and port are doing, what context 0 issued this cycle, the owner of
the last slice placed on it (R38), the number of placements with hart programs it has seen
(R238), and the cycle in which the save of the
slices that left its contexts ends (R310, R374). -/
structure Core where
  gated : Bool
  emptySince : Nat
  scratch : Mem
  opmem : Mem
  acc : Mem
  lines : List ILine
  dp : Option (Nat × Nat)
  tilePort : Nat
  fp64Busy : Nat
  divBusy : Nat
  issued : Option (Nat × List Slot × Nat)
  owner : Nat
  places : Nat
  saving : Nat
deriving DecidableEq, Repr, Inhabited

/-- Spaces whose aligned 8-byte words have a coherence order (R283). -/
inductive Space
  | hbm
  | scratch (core : Nat)
  | opmem (core : Nat)
  | acc (core : Nat)
deriving DecidableEq, Repr, Inhabited

/-- The units that act for no issuer of a command (R39): the launch unit, the root monitor, a copy engine at its own work for
the tasks of its cluster, and another package, for its accesses to this one. -/
inductive UnitRole
  | launch
  | monitor
  | engine (cluster : Nat)
  | peer (pkg : Nat)
deriving DecidableEq, Repr, Inhabited

/-- Agents of the ordering model (R39, R281), a task's context and harts going with its slice. A write-queue reduction unit and
a solder unit write for the issuer of a command (R285, R295), so that what they write is that command's. -/
inductive Agent
  | ctx (task : Nat)
  | hart (task : Nat) (role : Role)
  | cmd (id : Nat)
  | engine (cluster task hart : Nat) -- a copy engine as it acts for one issuer, over all of that issuer's commands
  | host (port : Nat)
  | nma (stack query : Nat)          -- an NMA unit for a query; query 0 stands for the unit between queries
  | unit (role : UnitRole)
deriving DecidableEq, Repr, Inhabited

/-- Scope instances (R282). -/
inductive Inst
  | core (n : Nat)
  | cluster (n : Nat)
  | die (n : Nat)
  | package
  | domain
deriving DecidableEq, Repr, Inhabited

/-- A write in the coherence order of its word (R283): the word before and after, the agent it belongs to, the
instances it is published to (R284); for the write of a FILL the instance that it releases to (R245, R289). -/
structure WriteRec where
  id : Nat
  space : Space
  word : Nat
  old : DWord
  new : DWord
  by' : Agent
  pubs : List Inst
  fill : Option Inst
deriving DecidableEq, Repr, Inhabited

/-- An agent's snapshot (R286), the values it has read since (R283), its own writes since the snapshot was brought up and
every write that it has made or that has become its own (R285), the instances it has been a member of since
its last phase boundary (R284). -/
structure AgentView where
  agent : Agent
  snap : List Nat
  floor : List Nat
  own : List Nat
  mine : List Nat
  insts : List Inst
deriving DecidableEq, Repr, Inhabited

/-- A publication not yet complete (R159, R284): its writes and the instances they reach; the agent whose later
commands it holds; the barrier change held behind it, as (die bank, global bank number, barrier) with the amount it
drops, or joins when negative. Where `after` names commands and publications, it publishes nothing and holds nothing: it is a
barrier change that waits for them (R290). -/
structure Publication where
  id : Nat
  agent : Agent
  insts : List Inst
  writes : List Nat
  arrive : Option ((Bool × Nat × Nat) × Int)
  after : List Nat
deriving DecidableEq, Repr, Inhabited

/-- The kinds of command the copy engines run (R144, R150, R160, R162, R239, R258, R307, R353, R361, R130). -/
inductive CmdKind
  | copy | copym | copyr | copyd | copya | copyf | copyq
  | aqry | kvap | kvmsk | kvtr
  | commit | codesw | pvpub | ifill | fill | lfe | viewFill | spill | merge | ready
  | rdmaWrite | rdmaRead | launch
deriving DecidableEq, Repr, Inhabited

/-- Where a command stands (R164, R254 to R256). -/
inductive CmdState
  | queued                     -- held at the engine: a lane, a publication, an overlap, a snapshot
  | active
  | walking (gen : Nat) (va : Nat) (write : Bool)
  | parked (va : Nat) (kind : Nat)
  | pushWait
  | targetWait (since : Nat)
  | wordWait
  | remoteWait (pkg num : Nat) -- a probe (num 0) or a packet not yet answered (R262)
  | arriving (pkg num : Nat)   -- a `copyr` whose arrival at another package is not yet acknowledged (R151)
  | ending                     -- every effect made, its end not yet reported
  | done (status : Nat)
deriving DecidableEq, Repr, Inhabited

/-- A TLB entry (R254, R263). -/
structure TlbEntry where
  asid : Nat
  gen : Nat
  va : Nat
  level : Nat
  entry : DWord
  inc : Word
deriving DecidableEq, Repr, Inhabited

/-- A command of a copy engine (R144 to R155). `agent` issued it;
`heldBy` the publications it waits for (R159); `index` its completion index (R147), `target` the ordinal of the
`copym` target (R163); `trans` the translations of the run in progress, `buf` the converted bytes read so far where
they are kept (a push, a multicast). For the requests to other packages: `acks` counts those answered for the run in progress
and `answers` holds the bytes that each answer brought; `asks` says whether the request under way writes and names the
address of the reference that it goes through, 0 for none; `wrote` says whether a write of the run has been answered. `bar` is
the barrier it arrives at; `checked` and `arrive` say that another package has passed a `copyr`'s checks and that its arrival
there is still to be made. `stored` says that the run's
bytes for this package stand written, `cow` is a page of another package whose copy-on-write is asked for, with the frame
taken for it (R274). `seen` are the agents that have observed the end of the command; `root` names the package and packet by which
a query's root elsewhere gave its record. `frees` says that the policy snapshot of a commit is released when the command, that
commit's mask record, ends (R353). -/
structure Cmd where
  id : Nat
  kind : CmdKind
  cluster : Nat
  c : CtxId
  hart : Nat
  task : Nat
  region : Nat
  asid : Nat
  owner : Nat
  agent : Agent
  tag : Nat
  record : BitVec 512
  recAddr : Nat
  data : List Byte
  index : Nat
  target : Nat
  st : CmdState
  status : Nat
  shared : Bool
  result : DWord
  snapVer : Option (Word × Bool)
  heldBy : List Nat
  acquire : Bool
  trans : List TlbEntry
  buf : List Byte
  acks : Nat
  answers : List (List Byte)
  asks : Bool × Nat
  wrote : Bool
  stored : Bool
  cow : Option (Option Nat × Nat)
  bar : Option (Bool × Nat × Nat)
  checked : Bool
  arrive : Bool
  seen : List Agent
  root : Option (Nat × Nat)
  frees : Bool
deriving DecidableEq, Repr, Inhabited

/-- A copy engine (R254, R255): the cluster it serves (96 and 97 are the hub dies') and its TLB. The commands that it has parked are those whose state says so. -/
structure Engine where
  cluster : Nat
  tlb : List TlbEntry
deriving DecidableEq, Repr, Inhabited

/-- An ASID table entry (R248). -/
structure AsidEntry where
  root : Nat
  gen : Nat
  owner : Nat
deriving DecidableEq, Repr, Inhabited

/-- A frame table entry (R260); `size` is how many bytes the frame of that entry has, as the root monitor knows it: 4 KiB, 64 KiB
or 32 MiB, 0 where it has never been given. -/
structure Frame where
  owner : Nat
  shares : Nat
  size : Nat
deriving DecidableEq, Repr, Inhabited

/-- A policy partition record (R276). -/
structure PartRec where
  ver : Word
  cur : Bool
  rd0 : Nat
  rd1 : Nat
deriving DecidableEq, Repr, Inhabited

/-- A command on its way to a partition record (R358). The identity of a `pvsnap` stands in the commands held behind it. -/
inductive PartOp
  | release (index : Bool)
  | publish (ver : Word) (cmd : Nat)
  | snapshot (task : Nat) (id : Nat)
deriving DecidableEq, Repr, Inhabited

/-- A piece of a view (R319, R320): its owner and the context that held it last, tile, operator, place in the fold;
whether it has ended, merges as the identity, was taken by the engine; its contents once taken, or its offset in the
spill area; the command that spills or merges it. -/
structure Piece where
  id : Nat
  task : Nat
  region : Nat
  c : CtxId
  view : View
  key : List Nat
  ended : Bool
  identity : Bool
  taken : Bool
  bytes : List Byte
  spill : Option Nat
  cmd : Option Nat
deriving DecidableEq, Repr, Inhabited

/-- A sequence record (R323). -/
structure SeqRec where
  seq : Nat
  dhc : Nat
  home : Nat
  nextPos : Nat
  tail : Nat
  tfill : Nat
  table : Nat
deriving DecidableEq, Repr, Inhabited

/-- A segment: a stripe owner's replica of the rows of its own stripes of a sequence (R324), by block number. -/
structure Segment where
  seq : Nat
  rows : List (Nat × DWord)
deriving DecidableEq, Repr, Inhabited

/-- A prefix index entry (R335); entries of one key stand in chain order. -/
structure Prefix where
  id : Nat
  at' : DWord
  key : BitVec 128
  owner : Nat
  span : Nat
  nb : Nat
  toks : List Nat
  refs : List DWord
  tokAt : DWord
  refsAt : DWord
  next : DWord
deriving DecidableEq, Repr, Inhabited

/-- A merge tree table (R340) with the late counters of the solder units of hub dies 14 and 15 (R346). -/
structure Tree where
  id : Nat
  version : Nat
  nodes : List Word
  late : Word × Word
deriving DecidableEq, Repr, Inhabited

/-- A query that this package serves (R337 to R339): the references that the NMA unit of each stack has still to score, by
block number, once its rows are known, and the units' partials. -/
structure Query where
  key : Nat
  msg : QueryMsg
  gathered : Bool
  pending : List (Nat × List (Nat × Nat))
  units : List (Nat × List Partial)
deriving DecidableEq, Repr, Inhabited

/-- A merge node of a query at this package's solder unit (R341, R342): its answer leaves at a cycle; with the number of the packet that took a root's record
to the issuer, 0 for none. -/
structure MergeNode where
  key : Nat
  msg : QueryMsg
  node : Nat
  got : List (Nat × Answer)
  lost : List Nat
  forwarded : Bool
  leaving : Option (Nat × Answer)
  sentAs : Nat
deriving DecidableEq, Repr, Inhabited

/-- A move at home (R332, R373) or as a participant: its participants besides home, who has still to answer, the outcome, the state that the stripe
returns to, the references it replaces at home, and the blocks prepared here as (sequence, block, reference). -/
structure Move where
  msg : MoveMsg
  atHome : Bool
  cmd : Option Nat
  parties : List Nat
  waiting : List Nat
  decided : Option Bool
  oldState : Nat
  old : List DWord
  made : List (Nat × Nat × DWord)
deriving DecidableEq, Repr, Inhabited

/-- A Sirxis link (R359): up, retraining and since when, the flit it expects, consecutive failures of that flit, the flits it
has delivered; the number of the next flit that it sends, and its replay buffer of the last 256 sent; the flits that wait for the
end of a retraining; the flit whose replay the peer asked for last, and how often in a row. -/
structure Link where
  up : Bool
  training : Bool
  since : Nat
  expect : Nat
  fails : Nat
  received : List (BitVec 512)
  next : Nat
  sent : List (Nat × BitVec 512)
  pending : List (BitVec 512)
  asked : Nat × Nat
deriving DecidableEq, Repr, Inhabited

/-- A device message (R362, R363): type, number, the host number it answers, status, payload. -/
structure DevMsg where
  type : Nat
  dseq : Word
  hseq : Word
  status : Nat
  payload : List Byte
deriving DecidableEq, Repr, Inhabited

/-- What the package sends out: control messages, RDMA answers, transfers and messages to other packages,
telemetry. The outside world reads this list; the model only appends to it. -/
inductive Out
  | device (m : DevMsg)
  | rdma (port qp : Nat) (status : Nat) (data : List Byte)
  | connection (port : Nat) (accepted : Bool)
  | remote (pkg : Nat) (num : Nat) (inc : Word) (what : RemoteWhat)
  | answer (pkg : Nat) (num req : Nat) (r : Reply)
  | received (pkg : Nat) (num : Nat)
  | probe (pkg num : Nat)
  | probeReply (pkg num : Nat) (inc : Word)
  | notice (powerDown : Bool)
  | startNotice (pkg num : Nat) (q : QueryMsg) (node : Nat)
  | answerUp (pkg num : Nat) (q : QueryMsg) (child : Nat) (a : Answer)
  | prepare (pkg num : Nat) (m : MoveMsg)
  | prepareAck (pkg num : Nat) (move : Nat) (refs : List DWord)
  | commit (pkg num : Nat) (m : MoveMsg)
  | commitAck (pkg num : Nat) (move : Nat)
  | abort (pkg num : Nat) (m : MoveMsg)
  | outcomeQuery (pkg num : Nat) (move : Nat)
  | flit (link seq : Nat) (payload : BitVec 512)
  | congestion (port qp : Nat)
  | faultRecord (r : BitVec 256)
  | domainRecord (r : BitVec 256)
  | malformedEntry (pa : Nat)
  | topology (tree : Nat)
  | replayRequest (link seq : Nat)
  | resend (pkg num link : Nat)
  | pause (port : Nat) (on : Bool)
  | shard (rcb index : Nat)
  | manifest (rcb : Nat) (bytes : List Byte)
  | refresh (stack : Nat)
  | wave (w : Nat)
deriving DecidableEq, Repr, Inhabited

/-- A packet sent and not yet acknowledged end to end (R360), with the link that it was last sent on; none where no route was up. -/
structure Packet where
  pkg : Nat
  num : Nat
  link : Option Nat
  what : Out
deriving DecidableEq, Repr, Inhabited

/-- A snapshot of a root region with its descendants, or the contents of a manifest (R275, R369, R370): the RCBs and regions
in order, a parent before its children, `parent` the place in this list plus one; the tasks, `region` a place in this
list; each allotted barrier as (place, die bank, cluster of the die, number, state); leaf entries as (ASID, address, level,
entry); the references of block apertures by ASID and address; version descriptors by ASID and address; partition records;
the VALID bits and BASE of each of these blocks; the shards as (first block, digest); the packets that raised counts on other
packages, each with the ASID and address of its reference in `maps`. `root` is the root region and `tree` the regions in order;
`waiting` are the tasks whose next yield is still to come. -/
structure Snapshot where
  root : Nat
  tree : List Nat
  rcb : Nat
  owner : Nat
  pkg : Nat
  incarnation : Word
  time : Nat
  rcbs : List Nat
  regions : List Region
  tasks : List Task
  bars : List (Nat × Bool × Nat × Nat × Bar)
  asids : List (Nat × AsidEntry)
  pages : List (Nat × Nat × Nat × DWord)
  maps : List (Nat × Nat × DWord)
  blocks : List (Nat × Nat)
  versions : List (Nat × Nat × BitVec 256)
  parts : List (Nat × PartRec)
  shards : List (DWord × List Byte)
  farShares : List (Nat × Nat × Nat)
  waiting : List Nat
  streaming : Bool
deriving DecidableEq, Repr, Inhabited

/-- What a manifest's 64-byte header holds beside its version (R369): OWNER, package number, incarnation, timebase, root RCB,
number of shards. -/
structure ManifestHead where
  owner : Nat
  pkg : Nat
  incarnation : Word
  time : Nat
  rcb : Nat
  shards : Nat
deriving DecidableEq, Repr, Inhabited

/-- The bytes of a manifest's header, by place (R369): the manual names its fields and gives them no places. Log 8. -/
opaque Config.headByte : ManifestHead → Nat → Byte

/-- The header that 64 bytes hold, if they hold one. Log 8. -/
opaque Config.headRead : List Byte → Option ManifestHead

/-- The bytes of a manifest between its shards and its signature (R369): the manual names these parts and leaves their encoding
open. Log 8. -/
opaque Config.manifestRest : Snapshot → List Byte

/-- The flits in which a packet travels on a link (R359): the manual gives their size and leaves the packets' encoding open. Log 116. -/
opaque Config.packetFlits : Out → List (BitVec 512)

/-- The length of a manifest, from its header of 64 bytes. Log 8. -/
opaque Config.manifestLen : List Byte → Nat

/-- The contents of a manifest's bytes between its shards and its signature, if they are such parts. Log 8. -/
opaque Config.restRead : List Byte → Option Snapshot

/-- The state of the package. -/
structure State where
  /-- package number, 0 to 575 (R7, R90) -/
  pkg : Nat
  /-- incarnation, never 0 (R262) -/
  incarnation : Word
  /-- the package is powered and its boot verifications succeeded (R366) -/
  up : Bool
  /-- the identity public key (R367) -/
  identityKey : BitVec 512
  /-- package timebase (R3) -/
  now : Nat
  /-- MODEL'S OWN: counter for free values, identities of records (log 1) -/
  fresh : Nat
  /-- MODEL'S OWN: whose turn it is inside a cycle: slot instructions of the bundle being issued -/
  ops : List Instr
  /-- MODEL'S OWN: the turns left in this cycle -/
  todo : List (Instr ⊕ HartId)
  /-- MODEL'S OWN: events that fall due at a cycle; outside inputs stand here too -/
  timers : List (Nat × Instr)
  /-- MODEL'S OWN: the context whose bundle or hart is being executed -/
  cur : CtxId
  /-- MODEL'S OWN: the hart whose instruction is being executed -/
  curHart : Option Role
  /-- MODEL'S OWN: the context as it stood before the bundle being issued (R78) -/
  undo : Option Ctx
  /-- HBM by physical address (R247) -/
  hbm : Mem
  /-- words of HBM whose full/empty bit is full, by address, strictly rising (R153) -/
  full : List Nat
  /-- ranges of HBM holding left-over bytes of another owner (R259, R261): (low, high, counter) -/
  fog : List (Nat × Nat × Nat)
  /-- what stands in ranges of HBM under another key than their frame's (R259): (low, high, key, cells), the ranges disjoint -/
  veils : List (Nat × Nat × Nat × Mem)
  /-- cores by global number (R21, R25) -/
  cores : List (Nat × Core)
  /-- resident slices by context (R26) -/
  slots : List (CtxId × Ctx)
  /-- task pools (R33) -/
  tasks : List Task
  /-- admitted regions (R31) -/
  regions : List Region
  /-- cluster barrier banks (R17, R157), by global cluster and number -/
  cbars : List ((Nat × Nat) × Bar)
  /-- die barrier banks (R17, R157), by die and number -/
  dbars : List ((Nat × Nat) × Bar)
  /-- commands at the copy engines (R144) -/
  cmds : List Cmd
  /-- copy engines (R39, R254) -/
  engines : List Engine
  /-- ASID table (R248) -/
  asids : List (Nat × AsidEntry)
  /-- writes of the hardware's own to RCBs that wait for the firmware (R255, R302): ASID, address, bytes -/
  sysWaits : List (Nat × Nat × List Byte)
  /-- generation raises in progress (R249): the ASID, the cycle from which the raise may complete, and the packets of accesses
  that had been translated under the older generation -/
  raises : List (Nat × Nat × List Nat)
  /-- frame table (R260), by frame number -/
  frames : List (Nat × Frame)
  /-- the owners under whose keys ranges of HBM stand (R259): (low, high, key), the ranges disjoint; elsewhere key 0, the root
  monitor's -/
  keyed : List (Nat × Nat × Nat)
  /-- frames the root monitor reserved for itself (R253) -/
  rootFrames : List Nat
  /-- 4 KiB frames of its own in which the root monitor may still build tables (R253, R370) -/
  spareTables : List Nat
  /-- hardware free lists (R261) -/
  freeBlocks : List Nat
  freePages : List Nat
  freeGbns : List Nat
  /-- blocks on tier 1 or 2 (R269): GBN, bytes, the offsets of full words -/
  tiered : List (Nat × List Byte × List Nat)
  /-- base of the second-stage table (R268) -/
  gbnBase : Nat
  /-- key ids for which the root monitor holds a key (R11, R303) -/
  keys : List Nat
  /-- known incarnations of other packages (R262); absent means 0, unknown -/
  known : List (Nat × Word)
  /-- probes not yet answered (R262) -/
  probes : List Nat
  /-- accesses, besides those of commands, that wait for a probe of their target (R262): the target, their number, what they ask -/
  unsent : List (Nat × Nat × RemoteWhat)
  /-- per target, the ASIDs that hold a TLB entry for it (R264) -/
  remoteAsids : List (Nat × Nat)
  /-- deduplication indexes (R273): owner, fingerprint, GBN -/
  dedup : List (Nat × DWord × Nat)
  /-- policy partition records (R276) -/
  parts : List (Nat × PartRec)
  /-- commands on their way to partition records, in arrival order (R358): the partition, the cycle of the arrival -/
  partOps : List (Nat × Nat × PartOp)
  /-- pieces of views not yet merged (R319) -/
  pieces : List Piece
  /-- writes in coherence order (R283) -/
  log : List WriteRec
  /-- agents' snapshots (R286) -/
  views : List AgentView
  /-- publications in progress (R284) -/
  pubs : List Publication
  /-- sequence records homed here (R323) -/
  seqs : List SeqRec
  /-- segments (R324) -/
  segments : List Segment
  /-- sequences whose table or segment is hot in the pewter store (R324) -/
  pewter : List Nat
  /-- position map replica (R326) -/
  map : List StripeEntry
  /-- the other packages that hold the map of a group whose home this is, by the group's first sequence (R332) -/
  mapHolders : List (Nat × List Nat)
  /-- merge tree tables (R340) -/
  trees : List Tree
  /-- prefix indexes (R335) -/
  prefixes : List Prefix
  /-- queries (R336) and merge nodes (R341) -/
  queries : List Query
  nodes : List MergeNode
  /-- moves (R332) -/
  moves : List Move
  /-- contexts reserved for the task that a pre-emption was requested for (R313) -/
  reserved : List (CtxId × Nat)
  /-- a running start sequence began at this cycle, with the cores it starts (R42) -/
  sequence : Option (Nat × List Nat)
  /-- last host number accepted A (R364) -/
  hostA : Word
  /-- last device number issued (R364) -/
  devSeq : Word
  /-- device messages retained (R364) -/
  retained : List DevMsg
  /-- the last 256 responses by host number (R364) -/
  responses : List DevMsg
  /-- dropped device messages (R364) -/
  dlost : Word
  /-- ports with a control connection (R362), data queue pairs (R361): port, queue pair, ASID, path MTU -/
  control : List (Nat × Nat × Nat × Nat)
  qps : List (Nat × Nat × Nat × Nat)
  /-- ports paused by priority flow control, queue pairs (port, number) that a notification slows until a cycle, and what waits
  to leave by a port for a queue pair (R361) -/
  paused : List Nat
  slowed : List (Nat × Nat × Nat)
  portQueue : List (Nat × Nat × Out)
  /-- the configured flow-control priority of each port (R361) -/
  pfc : List (Nat × Nat)
  /-- a launch or restore whose reads are parked; messages behind it wait (R302, R370) -/
  launching : Option Request
  waitingMsgs : List Request
  /-- the cycle of the last power-up or reset, which starts the link-training waves (R371) -/
  poweredAt : Nat
  /-- the first refresh of stack 0, and the last of any stack (R371) -/
  refreshAt : Option Nat
  lastRefresh : Option Nat
  /-- Sirxis links (R359) -/
  links : List (Nat × Link)
  /-- routing table of a directly wired domain (R360); a switched domain needs none -/
  switched : Bool
  routes : List (Nat × List Nat)
  /-- packets not acknowledged (R360) and packet numbers already received -/
  packets : List Packet
  seenPackets : List (Nat × Nat)
  /-- the writes that other packages' accesses have made here, by package and number of the access or `copyr` (R284, R295) -/
  farWrites : List (Nat × Nat × List Nat)
  /-- the barriers at which `copyr`s of other packages have still to arrive here, by package and number (R151, R163) -/
  farBars : List (Nat × Nat × (Bool × Nat × Nat))
  /-- accesses of other packages that wait here (R153, R146, R269), with the cycle they arrived in -/
  farWaits : List (Nat × RemoteReq)
  /-- corrected errors of the window (R368), its start, the warning raised in it, the threshold -/
  errors : List (Nat × Nat)
  errStart : Nat
  errWarned : Bool
  errThreshold : Nat
  /-- checkpoints being streamed (R369) -/
  snapshots : List Snapshot
  /-- warnings raised while an earlier checkpoint of a region was under way (R368): the cycle, the source, the root region -/
  warned : List (Nat × Nat × Nat)
  /-- checkpoint shards stored on tier 1 or 2 (R369): the reference of the first block, the stored bytes -/
  stored : List (DWord × List Byte)
  /-- what the package has sent, newest last -/
  out : List Out
deriving DecidableEq, Repr, Inhabited

/-- Why a step stops with a fault. -/
inductive Fault
  /-- A slot or hart instruction is executed where no slice is resident at the context whose turn it is. Raised by
  the shared entry of every slot and hart meaning. An empty context never issues (R30), so no run reaches it: safe. -/
  | emptyContext
deriving DecidableEq, Repr, Inhabited

/-- Why a step is refused. -/
inductive Refusal
  /-- An arm of `exec` that has no meaning yet. Raised by `exec` only; safe. -/
  | notModelled (mnemonic : String)
deriving DecidableEq, Repr, Inhabited

/-- The package right after reset. The values the manual gives: cores gated (R42), no region, task or barrier
allotted (R31, R157), A and the device numbers 0 (R364), error threshold 32 (R368), tables at their reset value 0
(R248, R260, R268, R276). The others are named in log 11. -/
def State.reset : State where
  pkg := 0
  incarnation := 1
  up := true
  identityKey := Config.identityKey
  now := 0
  fresh := 1
  ops := []
  todo := []
  timers := []
  cur := ⟨0, 0⟩
  curHart := none
  undo := none
  hbm := []
  full := []
  fog := []
  veils := []
  cores := []
  slots := []
  tasks := []
  regions := []
  cbars := []
  dbars := []
  cmds := []
  engines := []
  asids := []
  sysWaits := []
  raises := []
  frames := []
  keyed := []
  rootFrames := []
  spareTables := []
  freeBlocks := []
  freePages := []
  freeGbns := []
  tiered := []
  gbnBase := 0
  keys := []
  known := []
  probes := []
  unsent := []
  remoteAsids := []
  dedup := []
  parts := []
  partOps := []
  pieces := []
  log := []
  views := []
  pubs := []
  seqs := []
  segments := []
  pewter := []
  map := []
  mapHolders := []
  trees := []
  prefixes := []
  queries := []
  nodes := []
  moves := []
  reserved := []
  sequence := none
  hostA := 0
  devSeq := 0
  retained := []
  responses := []
  dlost := 0
  control := []
  qps := []
  paused := []
  slowed := []
  portQueue := []
  pfc := []
  launching := none
  waitingMsgs := []
  poweredAt := 0
  refreshAt := none
  lastRefresh := none
  links := []
  switched := true
  routes := []
  packets := []
  seenPackets := []
  farWrites := []
  farBars := []
  farWaits := []
  errors := []
  errStart := 0
  errWarned := false
  errThreshold := 32
  snapshots := []
  warned := []
  stored := []
  out := []

end Sys2Proof.Machine
end

