-- ==== Sys2Proof/Machine/Bits.lean ====
section
/-! DEFINITION. Bit fields, sign extension, byte order, elements of vectors, sparse memories and association
lists: the plain helpers that the rest of the machine uses (R13, R50, R82, R165). -/

namespace Sys2Proof.Machine

/-- Bits [hi:lo] of a number. -/
def bits (n hi lo : Nat) : Nat := (n >>> lo) % 2 ^ (hi + 1 - lo)

/-- Bits [hi:lo] of a bit vector, as a number. -/
def field {w : Nat} (x : BitVec w) (hi lo : Nat) : Nat := bits x.toNat hi lo

/-- The number with bits [hi:lo] replaced. -/
def putBits (n hi lo v : Nat) : Nat :=
  n - (bits n hi lo) * 2 ^ lo + (v % 2 ^ (hi + 1 - lo)) * 2 ^ lo

/-- The two's-complement value of the low w bits (R61, sext). -/
def sext (w n : Nat) : Int :=
  let x := n % 2 ^ w
  if x < 2 ^ (w - 1) then x else (x : Int) - 2 ^ w

/-- The low w bits of an integer (R50: arithmetic wraps). -/
def wrapI (w : Nat) (i : Int) : Nat := (i % (2 ^ w : Int)).toNat

/-- An integer as a 32-bit word, wrapping. -/
def toWord (i : Int) : Word := BitVec.ofInt 32 i

/-- A 32-bit word of 0 or 1. -/
def wordOfBool (b : Bool) : Word := if b then 1 else 0

/-- Numbers packed w bits each, the first in the low bits (R165). -/
def packW (w : Nat) : List Nat → Nat
  | [] => 0
  | x :: xs => x % 2 ^ w + packW w xs * 2 ^ w

/-- Element i of width w (R165). -/
def elemW (w n i : Nat) : Nat := (n >>> (w * i)) % 2 ^ w

/-- The first k elements of width w. -/
def unpackW (w k n : Nat) : List Nat := (List.range k).map (elemW w n)

/-- Bytes, little-endian (R13). -/
def bytesOf (k n : Nat) : List Byte := (unpackW 8 k n).map (BitVec.ofNat 8)

/-- The little-endian number of bytes (R13). -/
def natOfBytes (bs : List Byte) : Nat := packW 8 (bs.map BitVec.toNat)

/-- The elements of a vector of width w (R165). -/
def velems (w : Nat) (v : Vec) : List Nat := unpackW w (4096 / w) v.toNat

/-- A vector from its elements (R165). -/
def vpackE (w : Nat) (xs : List Nat) : Vec := BitVec.ofNat 4096 (packW w xs)

/-- Lane i of a vector (R165). -/
def vlane (v : Vec) (i : Nat) : Word := BitVec.ofNat 32 (elemW 32 v.toNat i)

/-- A scalar in every lane (R87). -/
def vsplat (w : Word) : Vec := vpackE 32 (List.replicate 128 w.toNat)

/-- The vector of 512 bytes. -/
def vecOfBytes (bs : List Byte) : Vec := BitVec.ofNat 4096 (natOfBytes bs)

/-- The 512 bytes of a vector. -/
def vecBytes (v : Vec) : List Byte := bytesOf 512 v.toNat

/-- Element i of a list, or a default. -/
def nth {α : Type} (xs : List α) (i : Nat) (d : α) : α := xs.getD i d

/-- The index of the first element with a property. -/
def findIdxOpt {α : Type} (p : α → Bool) (xs : List α) : Option Nat :=
  let i := xs.findIdx p
  if i < xs.length then some i else none

/-- Insertion into a list sorted by a strict order: after every element that is not after x. -/
def insertBy {α : Type} (before : α → α → Bool) (x : α) : List α → List α
  | [] => [x]
  | y :: ys => if before x y then x :: y :: ys else y :: insertBy before x ys

/-- Stable insertion sort. -/
def sortBy {α : Type} (before : α → α → Bool) (xs : List α) : List α :=
  xs.foldl (fun acc x => insertBy before x acc) []

/-! ### Association lists -/

/-- The value at a key. -/
def alGet {κ α : Type} [DecidableEq κ] (l : List (κ × α)) (k : κ) : Option α :=
  match l with
  | [] => none
  | (k', v) :: l' => if k' = k then some v else alGet l' k

/-- The list with the value at a key replaced, or the pair appended. -/
def alSet {κ α : Type} [DecidableEq κ] (l : List (κ × α)) (k : κ) (v : α) : List (κ × α) :=
  match l with
  | [] => [(k, v)]
  | (k', v') :: l' => if k' = k then (k, v) :: l' else (k', v') :: alSet l' k v

/-- The list without a key. -/
def alDel {κ α : Type} [DecidableEq κ] (l : List (κ × α)) (k : κ) : List (κ × α) :=
  l.filter fun p => p.1 ≠ k

/-! ### Sparse memories -/

/-- The canonical form of a sparse memory: addresses strictly rising, no entry equal to the 0 that an unlisted
address reads as (log 10). -/
def Memory.wf : Mem → Bool
  | [] => true
  | [(_, b)] => b != 0
  | (a, b) :: (a', b') :: m => b != 0 && decide (a < a') && Memory.wf ((a', b') :: m)

/-- One byte. -/
def memGet (m : Mem) (a : Nat) : Byte :=
  match m with
  | [] => 0
  | (x, b) :: m' => if x = a then b else memGet m' a

/-- The cells of bytes laid at an address: none for a zero byte. -/
def memCells : Nat → List Byte → Mem
  | _, [] => []
  | a, b :: bs => if b = 0 then memCells (a + 1) bs else (a, b) :: memCells (a + 1) bs

/-- Bytes written at an address. -/
def memPut (m : Mem) (a : Nat) (bs : List Byte) : Mem :=
  m.filter (fun c => decide (c.1 < a)) ++ memCells a bs ++
    m.filter (fun c => decide (a + bs.length ≤ c.1))

/-- n bytes at a, from a memory whose first cell is at or beyond a. -/
def memTake : Nat → Nat → Mem → List Byte
  | 0, _, _ => []
  | n + 1, a, m =>
    match m with
    | [] => 0 :: memTake n (a + 1) []
    | (x, b) :: m' => if x = a then b :: memTake n (a + 1) m' else 0 :: memTake n (a + 1) ((x, b) :: m')

/-- The n bytes at a. -/
def memRead (m : Mem) (a n : Nat) : List Byte := memTake n a (m.filter fun c => decide (a ≤ c.1))

/-- The little-endian number of the n bytes at a. -/
def memNat (m : Mem) (a n : Nat) : Nat := natOfBytes (memRead m a n)

/-- The bytes [a, a + n) made zero. -/
def memClear (m : Mem) (a n : Nat) : Mem :=
  m.filter fun c => decide (c.1 < a) || decide (a + n ≤ c.1)

/-- The bytes [a, a + n) of a memory, moved to addresses from 0. -/
def memSlice (m : Mem) (a n : Nat) : Mem :=
  (m.filter fun c => decide (a ≤ c.1) && decide (c.1 < a + n)).map fun c => (c.1 - a, c.2)

/-- A memory's cells put at an address, over [a, a + n). -/
def memPaste (m : Mem) (a n : Nat) (src : Mem) : Mem :=
  m.filter (fun c => decide (c.1 < a)) ++
    (src.filter fun c => decide (c.1 < n)).map (fun c => (c.1 + a, c.2)) ++
    m.filter (fun c => decide (a + n ≤ c.1))

/-- A number inserted into a strictly rising list. -/
def setInsert (x : Nat) : List Nat → List Nat
  | [] => [x]
  | y :: ys => if x < y then x :: y :: ys else if x = y then y :: ys else y :: setInsert x ys

/-- Split a list into pieces of k elements; `fuel` bounds the number of pieces. -/
def chunks {α : Type} (k : Nat) : Nat → List α → List (List α)
  | 0, _ => []
  | fuel + 1, xs => if xs.isEmpty then [] else xs.take k :: chunks k fuel (xs.drop k)

/-- Whether every element satisfies a predicate of its index. -/
def allIdx {α : Type} (p : Nat → α → Bool) (xs : List α) : Bool :=
  (xs.zipIdx).all fun x => p x.2 x.1

end Sys2Proof.Machine
end

