-- ==== Sys2Proof/Machine/Keccak.lean ====
section
/-! DEFINITION. SHAKE256 (R11, FIPS 202), which computes every digest and fingerprint: block fingerprints
(R273), prefix keys (R335) and report digests (R367). -/

namespace Sys2Proof.Machine

/-- A 64-bit rotation left. -/
def rotl64 (x n : Nat) : Nat := ((x <<< n) % 2 ^ 64) ||| ((x % 2 ^ 64) >>> (64 - n))

/-- Rotation offsets by lane 5y + x. -/
def keccakRot : List Nat :=
  [0, 1, 62, 28, 27, 36, 44, 6, 55, 20, 3, 10, 43, 25, 39, 41, 45, 15, 21, 8, 18, 2, 61, 56, 14]

/-- Round constants. -/
def keccakRc : List Nat :=
  [0x0000000000000001, 0x0000000000008082, 0x800000000000808A, 0x8000000080008000, 0x000000000000808B,
    0x0000000080000001] ++
  [0x8000000080008081, 0x8000000000008009, 0x000000000000008A, 0x0000000000000088, 0x0000000080008009,
    0x000000008000000A] ++
  [0x000000008000808B, 0x800000000000008B, 0x8000000000008089, 0x8000000000008003, 0x8000000000008002,
    0x8000000000000080] ++
  [0x000000000000800A, 0x800000008000000A, 0x8000000080008081, 0x8000000000008080, 0x0000000080000001,
    0x8000000080008008]

/-- One round of Keccak-f[1600] on 25 lanes, lane 5y + x. -/
def keccakRound (rc : Nat) (a : List Nat) : List Nat :=
  let at' := fun (l : List Nat) (x y : Nat) => nth l (5 * (y % 5) + x % 5) 0
  let c := (List.range 5).map fun x =>
    (at' a x 0) ^^^ (at' a x 1) ^^^ (at' a x 2) ^^^ (at' a x 3) ^^^ (at' a x 4)
  let d := (List.range 5).map fun x => (nth c ((x + 4) % 5) 0) ^^^ rotl64 (nth c ((x + 1) % 5) 0) 1
  let t := (List.range 25).map fun i => (nth a i 0) ^^^ (nth d (i % 5) 0)
  -- rho and pi: the lane at (x, y) moves to (y, 2x + 3y)
  let r := (List.range 25).map fun i =>
    let x' := i % 5
    let y' := i / 5
    -- the source (x, y) with y = x' and 2x + 3y = y' modulo 5
    let y := x'
    let x := (3 * (y' + 10 - 3 * y % 5)) % 5
    rotl64 (at' t x y) (nth keccakRot (5 * y + x) 0)
  let chi := (List.range 25).map fun i =>
    let x := i % 5
    let y := i / 5
    (at' r x y) ^^^ ((2 ^ 64 - 1 - (at' r (x + 1) y)) &&& (at' r (x + 2) y))
  match chi with
  | h :: tl => (h ^^^ rc) :: tl
  | [] => []

/-- Keccak-f[1600]. -/
def keccakF (a : List Nat) : List Nat := keccakRc.foldl (fun s rc => keccakRound rc s) a

/-- Absorb 136-byte blocks. -/
def keccakAbsorb : List (List Byte) → List Nat → List Nat
  | [], a => a
  | blk :: bs, a =>
    let n := natOfBytes blk
    keccakAbsorb bs (keccakF ((List.range 25).map fun i =>
      (nth a i 0) ^^^ (if i < 17 then elemW 64 n i else 0)))

/-- The first n bytes (at most 136) of SHAKE256 of a message. -/
def shake256 (msg : List Byte) (n : Nat) : List Byte :=
  let pad := 136 - (msg.length + 1) % 136
  let pad := if pad = 136 then 0 else pad
  let m := msg ++ [0x1F] ++ List.replicate pad 0
  let m := m.take (m.length - 1) ++ [nth m (m.length - 1) 0 ||| 0x80]
  let st := keccakAbsorb (chunks 136 (m.length / 136 + 1) m) (List.replicate 25 0)
  (bytesOf 200 (packW 64 st)).take n

end Sys2Proof.Machine
end

