-- ==== Sys2Proof/Machine/Float.lean ====
section
/-! DEFINITION. Floating point to the bit: formats, rounding, exact sums, kexp2 and klog2 (R43 to R61,
R173 to R183). A value is an exact dyadic number or a special; every operation is exact and rounded once. -/

namespace Sys2Proof.Machine

/-- A binary format by its exponent and fraction bits (R44). -/
structure FFmt where
  ebits : Nat
  fbits : Nat
deriving DecidableEq, Repr, Inhabited

/-- binary32, binary64, binary16 and BF16 (R44). -/
def f32 : FFmt := ⟨8, 23⟩
def f64 : FFmt := ⟨11, 52⟩
def f16 : FFmt := ⟨5, 10⟩
def bf16 : FFmt := ⟨8, 7⟩

/-- The format of a floating type code (R71). -/
def fmtOfType (t : Nat) : FFmt :=
  match t with
  | 8 => f16
  | 9 => bf16
  | 11 => f64
  | _ => f32

/-- The width of a format. -/
def FFmt.width (f : FFmt) : Nat := 1 + f.ebits + f.fbits

/-- The exponent of the least subnormal: the value of raw significand 1. -/
def FFmt.qmin (f : FFmt) : Int := 2 - 2 ^ (f.ebits - 1) - f.fbits

/-- The bits of +∞. -/
def FFmt.infBits (f : FFmt) : Nat := (2 ^ f.ebits - 1) * 2 ^ f.fbits

/-- The canonical NaN (R44). -/
def FFmt.nanBits (f : FFmt) : Nat := f.infBits + 2 ^ (f.fbits - 1)

/-- The sign bit. -/
def FFmt.signBit (f : FFmt) : Nat := 2 ^ (f.ebits + f.fbits)

/-- A floating value: NaN, an infinity, or (-1)^neg × m × 2^e exactly. -/
inductive FVal
  | nan
  | inf (neg : Bool)
  | fin (neg : Bool) (m : Nat) (e : Int)
deriving DecidableEq, Repr, Inhabited

/-- The value of a bit pattern; subnormals honoured, a signalling NaN as a quiet one (R44, R45). -/
def fdec (f : FFmt) (x : Nat) : FVal :=
  let neg := x / f.signBit % 2 = 1
  let ex := x / 2 ^ f.fbits % 2 ^ f.ebits
  let fr := x % 2 ^ f.fbits
  if ex = 2 ^ f.ebits - 1 then (if fr = 0 then .inf neg else .nan)
  else if ex = 0 then .fin neg fr f.qmin
  else .fin neg (2 ^ f.fbits + fr) (f.qmin + (ex - 1 : Nat))

/-- Rounding modes (R46). -/
inductive Rnd | rne | rz | ru | rd
deriving DecidableEq, Repr, Inhabited

/-- The mode of a 2-bit code (R46). -/
def rndOf (n : Nat) : Rnd :=
  match n % 4 with
  | 0 => .rne
  | 1 => .rz
  | 2 => .ru
  | _ => .rd

/-- m × 2^-k rounded to an integer, for a number of the given sign (R46). -/
def roundShift (r : Rnd) (neg : Bool) (m k : Nat) : Nat :=
  let q := m >>> k
  let rem := m % 2 ^ k
  let half := 2 ^ k / 2
  let up := match r with
    | .rne => decide (rem > half) || (rem = half && 0 < k && q % 2 = 1)
    | .rz => false
    | .ru => !neg && rem ≠ 0
    | .rd => neg && rem ≠ 0
  if up then q + 1 else q

/-- The bits of a finite overflow in a mode, saturated or not (R46, R47). -/
def overflowBits (f : FFmt) (r : Rnd) (sat neg : Bool) : Nat :=
  let toMax := sat || (match r with
    | .rne => false
    | .rz => true
    | .ru => neg
    | .rd => !neg)
  (if neg then f.signBit else 0) + (if toMax then f.infBits - 1 else f.infBits)

/-- The value rounded once to a format (R46, R47, R61 rnd). -/
def fround (f : FFmt) (r : Rnd) (sat : Bool) (v : FVal) : Nat :=
  match v with
  | .nan => f.nanBits
  | .inf neg => (if neg then f.signBit else 0) + f.infBits
  | .fin neg m e =>
    if m = 0 then (if neg then f.signBit else 0) else
    let top : Int := e + Nat.log2 m
    let q : Int := max (top - f.fbits) f.qmin
    let mant : Nat := if q ≤ e then m * 2 ^ (e - q).toNat else roundShift r neg m (min (q - e).toNat (Nat.log2 m + 2))
    let raw := (q - f.qmin).toNat * 2 ^ f.fbits + mant
    if f.infBits ≤ raw then overflowBits f r sat neg
    else (if neg then f.signBit else 0) + raw

/-- rne_f32 and its kin (R61). -/
def rne (f : FFmt) (v : FVal) : Nat := fround f .rne false v

/-- Negation of a value. -/
def fneg : FVal → FVal
  | .nan => .nan
  | .inf n => .inf (!n)
  | .fin n m e => .fin (!n) m e

/-- Exact product (R54, R55: zero times infinity is NaN). -/
def fmul : FVal → FVal → FVal
  | .nan, _ => .nan
  | _, .nan => .nan
  | .inf a, .inf b => .inf (a != b)
  | .inf a, .fin b m _ => if m = 0 then .nan else .inf (a != b)
  | .fin a m _, .inf b => if m = 0 then .nan else .inf (a != b)
  | .fin a m e, .fin b n k => .fin (a != b) (m * n) (e + k)

/-- The signed significand of a finite value at the exponent e0, at or below its own. -/
def scaledTo (e0 : Int) : FVal → Int
  | .fin neg m e => (if neg then -1 else 1) * (m : Int) * 2 ^ (e - e0).toNat
  | _ => 0

/-- Whether a value is negative, zeros included. -/
def fsign : FVal → Bool
  | .nan => false
  | .inf n => n
  | .fin n _ _ => n

/-- Exact sum (R46, R55): NaN for a NaN or infinities of both signs; an infinity otherwise wins; an exact zero is
negative when every term is negative, positive when none is, and follows the mode when signs differ. -/
def fsum (r : Rnd) (xs : List FVal) : FVal :=
  if xs.any (· = .nan) then .nan
  else if xs.any (· = .inf true) && xs.any (· = .inf false) then .nan
  else if xs.any (· = .inf true) then .inf true
  else if xs.any (· = .inf false) then .inf false
  else
    let e0 := xs.foldl (fun acc x => match x with | .fin _ _ e => min acc e | _ => acc) 0
    let t := xs.foldl (fun acc x => acc + scaledTo e0 x) 0
    if t = 0 then
      .fin (if xs.all fsign then !xs.isEmpty else if xs.any fsign then r = .rd else false) 0 0
    else .fin (t < 0) t.natAbs e0

/-- Whether a value is zero. -/
def fisZero : FVal → Bool
  | .fin _ m _ => m = 0
  | _ => false

/-- floor of the square root of n below 2^k. -/
def isqrt (n : Nat) : Nat → Nat → Nat
  | 0, r => r
  | k + 1, r => if (r + 2 ^ k) * (r + 2 ^ k) ≤ n then isqrt n k (r + 2 ^ k) else isqrt n k r

/-- The quotient with enough bits that one rounding of it is the rounding of the exact quotient (R175): the last
bit is set when the division leaves a remainder. -/
def fdiv : FVal → FVal → FVal
  | .nan, _ => .nan
  | _, .nan => .nan
  | .inf _, .inf _ => .nan
  | .inf a, .fin b _ _ => .inf (a != b)
  | .fin a _ _, .inf b => .fin (a != b) 0 0
  | .fin a m e, .fin b n k =>
    if n = 0 then (if m = 0 then .nan else .inf (a != b))
    else if m = 0 then .fin (a != b) 0 0
    else
      let num := m * 2 ^ 128
      .fin (a != b) (2 * (num / n) + (if num % n = 0 then 0 else 1)) (e - k - 129)

/-- The square root in the same sense (R175). -/
def fsqrt : FVal → FVal
  | .nan => .nan
  | .inf neg => if neg then .nan else .inf false
  | .fin neg m e =>
    if m = 0 then .fin neg 0 0
    else if neg then .nan
    else
      let odd := e % 2 ≠ 0
      let m' := if odd then 2 * m else m
      let e' := if odd then e - 1 else e
      let n := m' * 2 ^ 256
      let s := isqrt n (Nat.log2 n / 2 + 1) 0
      .fin false (2 * s + (if s * s = n then 0 else 1)) (e' / 2 - 129)

/-- 1 ÷ √x in the same sense (R175). -/
def frsqrt : FVal → FVal
  | .nan => .nan
  | .inf neg => if neg then .nan else .fin false 0 0
  | .fin neg m e =>
    if m = 0 then .inf neg
    else if neg then .nan
    else
      let odd := e % 2 ≠ 0
      let m' := if odd then 2 * m else m
      let e' := if odd then e - 1 else e
      let n := 2 ^ 512 / m'
      let exact := 2 ^ 512 % m' = 0
      let s := isqrt n 257 0
      .fin false (2 * s + (if s * s = n && exact then 0 else 1)) (-(e' / 2) - 257)

/-- A total order key of FP32-like bit patterns of a format: −0 below +0 (R174, R221). -/
def fkey (f : FFmt) (x : Nat) : Int :=
  if x / f.signBit % 2 = 1 then -((x % f.signBit : Nat) : Int) - 1 else (x : Int)

/-- Whether bits are a NaN. -/
def fisNan (f : FFmt) (x : Nat) : Bool := fdec f x = .nan

/-- Maximum as in R174: −0 below +0, canonical NaN for any NaN. -/
def fmaxB (f : FFmt) (a b : Nat) : Nat :=
  if fisNan f a || fisNan f b then f.nanBits else if fkey f a < fkey f b then b else a

/-- Minimum as in R174. -/
def fminB (f : FFmt) (a b : Nat) : Nat :=
  if fisNan f a || fisNan f b then f.nanBits else if fkey f b < fkey f a then b else a

/-- The exact comparison of two values that are not NaN: a < b. -/
def flt : FVal → FVal → Bool
  | .inf a, .inf b => a && !b
  | .inf a, .fin .. => a
  | .fin .., .inf b => !b
  | .fin a m e, .fin b n k =>
    let e0 := min e k
    scaledTo e0 (.fin a m e) < scaledTo e0 (.fin b n k)
  | _, _ => false

/-- The integer a finite value rounds to in a mode (R61 cvt_int). -/
def froundInt (r : Rnd) (neg : Bool) (m : Nat) (e : Int) : Int :=
  let n := if 0 ≤ e then m * 2 ^ e.toNat else roundShift r neg m (min (-e).toNat (Nat.log2 m + 2))
  if neg then -(n : Int) else n

/-- The width of an integer type code (R71). -/
def intWidth (t : Nat) : Nat :=
  match t % 4 with
  | 0 => 8
  | 1 => 16
  | 2 => 32
  | _ => 64

/-- The least and greatest values of an integer type code (R43). -/
def intRange (t : Nat) : Int × Int :=
  let w := intWidth t
  if t < 4 then (-(2 ^ (w - 1) : Int), 2 ^ (w - 1) - 1) else (0, 2 ^ w - 1)

/-- The integer clamped to a range. -/
def clampI (lo hi x : Int) : Int := max lo (min hi x)

/-- cvt_int of R61: rounded, saturated, NaN gives 0; as the bits of the type. -/
def cvtInt (r : Rnd) (t : Nat) (v : FVal) : Nat :=
  let (lo, hi) := intRange t
  match v with
  | .nan => 0
  | .inf neg => wrapI (intWidth t) (if neg then lo else hi)
  | .fin neg m e => wrapI (intWidth t) (clampI lo hi (froundInt r neg m e))

/-- The value of bits as an integer of a type code (R43). -/
def intVal (t x : Nat) : Int := if t < 4 then sext (intWidth t) x else ((x % 2 ^ intWidth t : Nat) : Int)

/-- narrow_int of R61. -/
def narrowInt (sat : Bool) (t : Nat) (x : Int) : Nat :=
  let (lo, hi) := intRange t
  wrapI (intWidth t) (if sat then clampI lo hi x else x)

/-- An integer as an exact value; zero is +0. -/
def fofInt (x : Int) : FVal := .fin (x < 0) x.natAbs 0

/-- The FP32 of a product rounded to nearest (R61). -/
def mul32 (a b : Nat) : Nat := rne f32 (fmul (fdec f32 a) (fdec f32 b))

/-- rne_f32 of the exact sum of FP32 values. -/
def sum32 (xs : List Nat) : Nat := rne f32 (fsum .rne (xs.map (fdec f32)))

/-- rne_f32(a − b) of FP32 values. -/
def sub32 (a b : Nat) : Nat := rne f32 (fsum .rne [fdec f32 a, fneg (fdec f32 b)])

/-- One fused step rne_f32(a + b × c) of R56. -/
def fma32 (a b c : FVal) : FVal := fdec f32 (rne f32 (fsum .rne [a, fmul b c]))

/-- T(i) of R56: 2^(i/64) rounded to nearest binary32. -/
def tabT (i : Nat) : Nat :=
  nth ([0x3F800000, 0x3F8164D2, 0x3F82CD87, 0x3F843A29, 0x3F85AAC3, 0x3F871F62, 0x3F88980F, 0x3F8A14D5] ++
    [0x3F8B95C2, 0x3F8D1ADF, 0x3F8EA43A, 0x3F9031DC, 0x3F91C3D3, 0x3F935A2B, 0x3F94F4F0, 0x3F96942D] ++
    [0x3F9837F0, 0x3F99E046, 0x3F9B8D3A, 0x3F9D3EDA, 0x3F9EF532, 0x3FA0B051, 0x3FA27043, 0x3FA43516] ++
    [0x3FA5FED7, 0x3FA7CD94, 0x3FA9A15B, 0x3FAB7A3A, 0x3FAD583F, 0x3FAF3B79, 0x3FB123F6, 0x3FB311C4] ++
    [0x3FB504F3, 0x3FB6FD92, 0x3FB8FBAF, 0x3FBAFF5B, 0x3FBD08A4, 0x3FBF179A, 0x3FC12C4D, 0x3FC346CD] ++
    [0x3FC5672A, 0x3FC78D75, 0x3FC9B9BE, 0x3FCBEC15, 0x3FCE248C, 0x3FD06334, 0x3FD2A81E, 0x3FD4F35B] ++
    [0x3FD744FD, 0x3FD99D16, 0x3FDBFBB8, 0x3FDE60F5, 0x3FE0CCDF, 0x3FE33F89, 0x3FE5B907, 0x3FE8396A] ++
    [0x3FEAC0C7, 0x3FED4F30, 0x3FEFE4BA, 0x3FF28177, 0x3FF5257D, 0x3FF7D0DF, 0x3FFA83B3, 0x3FFD3E0C]) i 0

/-- L(i) of R57: log2(1 + i/64) rounded to nearest binary32. -/
def tabL (i : Nat) : Nat :=
  nth ([0x00000000, 0x3CB73CB4, 0x3D35D69C, 0x3D8759C5, 0x3DB31FB8, 0x3DDE4212, 0x3E0462C4, 0x3E19574F] ++
    [0x3E2E00D2, 0x3E42615F, 0x3E567AF1, 0x3E6A4F72, 0x3E7DE0B6, 0x3E88983F, 0x3E92203D, 0x3E9B8926] ++
    [0x3EA4D3C2, 0x3EAE00D2, 0x3EB7110E, 0x3EC0052B, 0x3EC8DDD4, 0x3ED19BB0, 0x3EDA3F60, 0x3EE2C97D] ++
    [0x3EEB3A9F, 0x3EF39355, 0x3EFBD42B, 0x3F01FED4, 0x3F060828, 0x3F0A0650, 0x3F0DF989, 0x3F11E20F] ++
    [0x3F15C01A, 0x3F1993E3, 0x3F1D5DA0, 0x3F211D84, 0x3F24D3C2, 0x3F28808C, 0x3F2C2411, 0x3F2FBE80] ++
    [0x3F335004, 0x3F36D8CB, 0x3F3A58FF, 0x3F3DD0C8, 0x3F41404F, 0x3F44A7BA, 0x3F480731, 0x3F4B5ED7] ++
    [0x3F4EAED0, 0x3F51F740, 0x3F553848, 0x3F587209, 0x3F5BA4A4, 0x3F5ED039, 0x3F61F4E5, 0x3F6512C7] ++
    [0x3F6829FB, 0x3F6B3A9F, 0x3F6E44CD, 0x3F7148A1, 0x3F744636, 0x3F773DA4, 0x3F7A2F04, 0x3F7D1A71]) i 0

/-- G(i) of R57: 1 / (1 + i/64) rounded to nearest binary32. -/
def tabG (i : Nat) : Nat :=
  nth ([0x3F800000, 0x3F7C0FC1, 0x3F783E10, 0x3F74898D, 0x3F70F0F1, 0x3F6D7304, 0x3F6A0EA1, 0x3F66C2B4] ++
    [0x3F638E39, 0x3F607038, 0x3F5D67C9, 0x3F5A740E, 0x3F579436, 0x3F54C77B, 0x3F520D21, 0x3F4F6475] ++
    [0x3F4CCCCD, 0x3F4A4588, 0x3F47CE0C, 0x3F4565C8, 0x3F430C31, 0x3F40C0C1, 0x3F3E82FA, 0x3F3C5264] ++
    [0x3F3A2E8C, 0x3F381703, 0x3F360B61, 0x3F340B41, 0x3F321643, 0x3F302C0B, 0x3F2E4C41, 0x3F2C7692] ++
    [0x3F2AAAAB, 0x3F28E83F, 0x3F272F05, 0x3F257EB5, 0x3F23D70A, 0x3F2237C3, 0x3F20A0A1, 0x3F1F1166] ++
    [0x3F1D89D9, 0x3F1C09C1, 0x3F1A90E8, 0x3F191F1A, 0x3F17B426, 0x3F164FDA, 0x3F14F209, 0x3F139A86] ++
    [0x3F124925, 0x3F10FDBC, 0x3F0FB824, 0x3F0E7835, 0x3F0D3DCB, 0x3F0C08C1, 0x3F0AD8F3, 0x3F09AE41] ++
    [0x3F088889, 0x3F0767AB, 0x3F064B8A, 0x3F053408, 0x3F042108, 0x3F03126F, 0x3F020821, 0x3F010204]) i 0

/-- kexp2 of R56, FP32 bits to FP32 bits. -/
def kexp2f (x : Nat) : Nat :=
  match fdec f32 x with
  | .nan => f32.nanBits
  | .inf neg => if neg then 0 else f32.infBits
  | .fin neg m e =>
    if !(flt (.fin true 150 0) (.fin neg m e)) then 0
    else if !(flt (.fin neg m e) (.fin false 128 0)) then f32.infBits
    else
      -- x as a multiple of 2^e0, e0 ≤ -6
      let e0 := min e (-6)
      let k : Nat := (-e0).toNat
      let xi : Int := scaledTo e0 (.fin neg m e)
      let n : Int := xi / 2 ^ k
      let fr : Nat := (xi - n * 2 ^ k).toNat
      let i : Nat := fr / 2 ^ (k - 6)
      let r : FVal := .fin false (fr % 2 ^ (k - 6)) e0
      let c1 := fdec f32 0x3F317218
      let c2 := fdec f32 0x3E75FDF0
      let c3 := fdec f32 0x3D635843
      let u := fma32 c2 r c3
      let u := fma32 c1 r u
      let q := fdec f32 (rne f32 (fmul r u))
      let t := fdec f32 (tabT i)
      match fsum .rne [t, fmul t q] with
      | .fin s m e => rne f32 (.fin s m (e + n))
      | v => rne f32 v

/-- klog2 of R57, FP32 bits to FP32 bits. -/
def klog2f (x : Nat) : Nat :=
  match fdec f32 x with
  | .nan => f32.nanBits
  | .inf neg => if neg then f32.nanBits else f32.infBits
  | .fin neg m e =>
    if m = 0 then f32.signBit + f32.infBits
    else if neg then f32.nanBits
    else
      let b := Nat.log2 m
      -- m × 2^(23 - b) lies in [2^23, 2^24): the significand with 23 fraction bits
      let sig := m * 2 ^ (23 - b)
      let ex : Int := e + b
      let fr := sig - 2 ^ 23
      let i := fr / 2 ^ 17
      let d : FVal := .fin false (fr % 2 ^ 17) (-23)
      let t := fdec f32 (rne f32 (fmul d (fdec f32 (tabG i))))
      let d1 := fdec f32 0x3FB8AA3B
      let d2 := fdec f32 0xBF38AA3B
      let d3 := fdec f32 0x3EF6384D
      let u := fma32 d2 t d3
      let u := fma32 d1 t u
      let v := fdec f32 (rne f32 (fmul t u))
      rne f32 (fsum .rne [fofInt ex, fdec f32 (tabL i), v])

/-- Philox4x32-10 (R58): rounds left, counter and key. -/
def philoxRounds : Nat → Nat × Nat × Nat × Nat → Nat × Nat → Nat × Nat × Nat × Nat
  | 0, c, _ => c
  | n + 1, (c0, c1, c2, c3), (k0, k1) =>
    let p0 := 0xD2511F53 * c0
    let p1 := 0xCD9E8D57 * c2
    let w := 2 ^ 32
    let c' := ((p1 / w) ^^^ c1 ^^^ k0, p1 % w, (p0 / w) ^^^ c3 ^^^ k1, p0 % w)
    philoxRounds n c' ((k0 + 0x9E3779B9) % w, (k1 + 0xBB67AE85) % w)

/-- The four output words of one counter value (R58, R61 philox). -/
def philox (c : Nat × Nat × Nat × Nat) (k : Nat × Nat) : List Nat :=
  let (a, b, c, d) := philoxRounds 10 c k
  [a, b, c, d]

/-- unif(w) of R60 as FP32 bits. -/
def unif (w : Nat) : Nat := rne f32 (.fin false (2 * (w / 2 ^ 9) + 1) (-24))

/-- term(x, s) of R224. -/
def mergeTerm (x s : Nat) : Nat := if s = 0 then 0 else mul32 x s

/-- max of FP32 bits for m values (R221 order, any NaN gives the canonical NaN). -/
def fmax32 (a b : Nat) : Nat := fmaxB f32 a b

/-- −∞ as FP32 bits. -/
def ninf32 : Nat := 0xFF800000

/-- The header of the merge rule (R224): (m, l, sA, sB) of two (m, l). -/
def mergeHeader (mA lA mB lB : Nat) : Nat × Nat × Nat × Nat :=
  if mA = ninf32 ∧ mB = ninf32 then (ninf32, sum32 [mergeTerm lA 0, mergeTerm lB 0], 0, 0)
  else
    let m := fmax32 mA mB
    let sA := kexp2f (sub32 mA m)
    let sB := kexp2f (sub32 mB m)
    (m, sum32 [mergeTerm lA sA, mergeTerm lB sB], sA, sB)

/-- One element of the body of the merge rule (R224). -/
def mergeBody (a b sA sB : Nat) : Nat := sum32 [mergeTerm a sA, mergeTerm b sB]

/-- Two heads' partials merged, A from the left (R224, R341). -/
def mergePartial (a b : Partial) : Partial :=
  let (m, l, sA, sB) := mergeHeader a.m.toNat a.l.toNat b.m.toNat b.l.toNat
  { m := BitVec.ofNat 32 m, l := BitVec.ofNat 32 l,
    o := (a.o.zip b.o).map fun p => BitVec.ofNat 32 (mergeBody p.1.toNat p.2.toNat sA sB) }

end Sys2Proof.Machine
end

