-- ==== Sys2Proof/Machine/Form.lean ====
section
/-! DEFINITION. The encoding tables of the slot instructions: opcode maps (R93 to R97), the fields each
instruction uses and their limits (R67 to R75, and the entries), and the legality of an instruction's
fields. The decoder, the encoder and the issue checks of R77 all read these tables. -/

namespace Sys2Proof.Machine

/-- A slot instruction as an opcode of a slot's map with its fields (R66, R69). -/
inductive SlotForm
  | c (opc : Nat) (f : CFields)
  | t (opc : Nat) (f : TFields)
  | v (opc : Nat) (f : VFields)
  | m (opc : Nat) (f : MFields)
  | k (opc : Nat) (f : VFields)
deriving DecidableEq, Repr, Inhabited

/-- What the DST field of an instruction names. -/
inductive DstUse
  | none
  | queue (b : Bank)
  | pred                       -- a predicate (R106)
  | greg                       -- an address register (R108)
  | slot                       -- an operand slot (R135)
  | tile                       -- an accumulator tile (R135)
deriving DecidableEq, Repr, Inhabited

/-- Which source selectors an instruction uses, with their banks, and its destination (R70). For the M slot
`a` is QSRC. -/
structure Uses where
  a : Option Bank := .none
  b : Option Bank := .none
  c : Option Bank := .none
  dst : DstUse := .none
deriving DecidableEq, Repr, Inhabited

/-- The slot, opcode and fields of a slot instruction (R93 to R97); none for every other row of the table. -/
def formOf (i : Instr) : Option SlotForm :=
  match i with
  | .add f => some (.c 1 f)
  | .sub f => some (.c 2 f)
  | .mul f => some (.c 3 f)
  | .mulh f => some (.c 4 f)
  | .mulhn f => some (.c 5 f)
  | .and f => some (.c 6 f)
  | .or f => some (.c 7 f)
  | .xor f => some (.c 8 f)
  | .shl f => some (.c 9 f)
  | .shr f => some (.c 10 f)
  | .sra f => some (.c 11 f)
  | .min f => some (.c 12 f)
  | .max f => some (.c 13 f)
  | .minn f => some (.c 14 f)
  | .maxn f => some (.c 15 f)
  | .addi f => some (.c 16 f)
  | .ldi f => some (.c 17 f)
  | .ldhi f => some (.c 18 f)
  | .sel f => some (.c 19 f)
  | .mov f => some (.c 20 f)
  | .qlen f => some (.c 21 f)
  | .cmp f => some (.c 22 f)
  | .cmpi f => some (.c 23 f)
  | .pand f => some (.c 24 f)
  | .por f => some (.c 25 f)
  | .pxor f => some (.c 26 f)
  | .pnot f => some (.c 27 f)
  | .pmov f => some (.c 28 f)
  | .gset f => some (.c 29 f)
  | .gstep f => some (.c 30 f)
  | .gadd f => some (.c 31 f)
  | .gget f => some (.c 32 f)
  | .br f => some (.c 33 f)
  | .jmp f => some (.c 34 f)
  | .call f => some (.c 35 f)
  | .ret f => some (.c 36 f)
  | .loop f => some (.c 37 f)
  | .loopExtent f => some (.c 37 f)
  | .loops f => some (.c 38 f)
  | .lbrk f => some (.c 39 f)
  | .lidx f => some (.c 40 f)
  | .lbuf f => some (.c 41 f)
  | .bnd f => some (.c 42 f)
  | .skip f => some (.c 43 f)
  | .eset f => some (.c 44 f)
  | .eget f => some (.c 45 f)
  | .jset f => some (.c 46 f)
  | .commit f => some (.c 47 f)
  | .fmt f => some (.c 48 f)
  | .fmtrd f => some (.c 49 f)
  | .dead f => some (.c 50 f)
  | .yield f => some (.c 51 f)
  | .spawn f => some (.c 52 f)
  | .view f => some (.c 53 f)
  | .tend f => some (.c 54 f)
  | .codesw f => some (.c 55 f)
  | .budget f => some (.c 56 f)
  | .trap f => some (.c 57 f)
  | .sysrd f => some (.c 58 f)
  | .syswr f => some (.c 59 f)
  | .halt f => some (.c 60 f)
  | .nop f => some (.c 61 f)
  | .ldv f => some (.t 1 f)
  | .stv f => some (.t 2 f)
  | .lds f => some (.t 3 f)
  | .sts f => some (.t 4 f)
  | .ldvx f => some (.t 5 f)
  | .stvx f => some (.t 6 f)
  | .gthv f => some (.t 7 f)
  | .sctv f => some (.t 8 f)
  | .oclm f => some (.t 9 f)
  | .orel f => some (.t 10 f)
  | .old f => some (.t 11 f)
  | .oldp f => some (.t 12 f)
  | .zld f => some (.t 13 f)
  | .zst f => some (.t 14 f)
  | .zclr f => some (.t 15 f)
  | .copy f => some (.t 16 f)
  | .copym f => some (.t 17 f)
  | .copyr f => some (.t 18 f)
  | .copyd f => some (.t 19 f)
  | .copya f => some (.t 20 f)
  | .copyfFill f => some (.t 21 f)
  | .copyfDrain f => some (.t 21 f)
  | .copyfReadfull f => some (.t 21 f)
  | .copyfEmpty f => some (.t 21 f)
  | .copyq f => some (.t 22 f)
  | .cwait f => some (.t 23 f)
  | .cany f => some (.t 24 f)
  | .cfirst f => some (.t 25 f)
  | .ctags f => some (.t 26 f)
  | .cstat f => some (.t 27 f)
  | .cclr f => some (.t 28 f)
  | .barr f => some (.t 29 f)
  | .barw f => some (.t 30 f)
  | .bard f => some (.t 31 f)
  | .barj f => some (.t 32 f)
  | .phase f => some (.t 33 f)
  | .aqry f => some (.t 34 f)
  | .kvap f => some (.t 35 f)
  | .kvmsk f => some (.t 36 f)
  | .kvtrMove f => some (.t 37 f)
  | .kvtrCompact f => some (.t 37 f)
  | .kvtrTrim f => some (.t 37 f)
  | .kvtrPshare f => some (.t 37 f)
  | .pvsnap f => some (.t 38 f)
  | .pvpub f => some (.t 39 f)
  | .pvrd f => some (.t 40 f)
  | .grd f => some (.t 41 f)
  | .grdc f => some (.t 42 f)
  | .ifill f => some (.t 43 f)
  | .vadd f => some (.v 1 f)
  | .vsub f => some (.v 2 f)
  | .vmul f => some (.v 3 f)
  | .vfma f => some (.v 4 f)
  | .vfms f => some (.v 5 f)
  | .vfnm f => some (.v 6 f)
  | .vmin f => some (.v 7 f)
  | .vmax f => some (.v 8 f)
  | .vabs f => some (.v 9 f)
  | .vneg f => some (.v 10 f)
  | .vrcp f => some (.v 11 f)
  | .vrsq f => some (.v 12 f)
  | .vsqrt f => some (.v 13 f)
  | .vdiv f => some (.v 14 f)
  | .vcmp f => some (.v 15 f)
  | .vsel f => some (.v 16 f)
  | .vcvt f => some (.v 17 f)
  | .vrnd f => some (.v 18 f)
  | .vscale f => some (.v 19 f)
  | .vclass f => some (.v 20 f)
  | .vand f => some (.v 21 f)
  | .vor f => some (.v 22 f)
  | .vxor f => some (.v 23 f)
  | .vandn f => some (.v 24 f)
  | .vshl f => some (.v 25 f)
  | .vshlImm f => some (.v 25 f)
  | .vshr f => some (.v 26 f)
  | .vshrImm f => some (.v 26 f)
  | .vsra f => some (.v 27 f)
  | .vsraImm f => some (.v 27 f)
  | .vmulh f => some (.v 28 f)
  | .vdot2 f => some (.v 29 f)
  | .vsat f => some (.v 30 f)
  | .vclz f => some (.v 31 f)
  | .vpopc f => some (.v 32 f)
  | .vbcast f => some (.v 33 f)
  | .vlane f => some (.v 34 f)
  | .vins f => some (.v 35 f)
  | .vslide f => some (.v 36 f)
  | .vperm f => some (.v 37 f)
  | .vrev f => some (.v 38 f)
  | .vzip f => some (.v 39 f)
  | .vunzip f => some (.v 40 f)
  | .vpack f => some (.v 41 f)
  | .vunpk f => some (.v 42 f)
  | .vplx f => some (.v 43 f)
  | .vplc f => some (.v 44 f)
  | .viota f => some (.v 45 f)
  | .vmov f => some (.v 46 f)
  | .mma f => some (.m 1 f)
  | .mmaz f => some (.m 2 f)
  | .mmap f => some (.m 3 f)
  | .mgrp f => some (.m 4 f)
  | .mtrn f => some (.m 5 f)
  | .mscl f => some (.m 6 f)
  | .mfill f => some (.m 7 f)
  | .mmov f => some (.m 8 f)
  | .madd f => some (.m 9 f)
  | .mwait f => some (.m 10 f)
  | .kexp2 f => some (.k 1 f)
  | .kexp2Biased f => some (.k 1 f)
  | .klog2 f => some (.k 2 f)
  | .kmax f => some (.k 3 f)
  | .ksum f => some (.k 4 f)
  | .ksumw f => some (.k 5 f)
  | .kscan f => some (.k 6 f)
  | .ksmx f => some (.k 7 f)
  | .ksmrg f => some (.k 8 f)
  | .ksmrgBody f => some (.k 8 f)
  | .ksort f => some (.k 9 f)
  | .kmrg f => some (.k 10 f)
  | .kcclr f => some (.k 11 f)
  | .kcrd f => some (.k 12 f)
  | .ktemp f => some (.k 13 f)
  | .ktopp f => some (.k 14 f)
  | .krng f => some (.k 15 f)
  | .krngk f => some (.k 16 f)
  | .kgmb f => some (.k 17 f)
  | .kpick f => some (.k 18 f)
  | .kpickScore f => some (.k 18 f)
  | .kargmx f => some (.k 19 f)
  | _ => none

/-- The instruction of an opcode of the C slot's map; none where unassigned (R94). -/
def cInstr (opc : Nat) (f : CFields) : Option Instr :=
  match opc with
  | 1 => some (.add f)
  | 2 => some (.sub f)
  | 3 => some (.mul f)
  | 4 => some (.mulh f)
  | 5 => some (.mulhn f)
  | 6 => some (.and f)
  | 7 => some (.or f)
  | 8 => some (.xor f)
  | 9 => some (.shl f)
  | 10 => some (.shr f)
  | 11 => some (.sra f)
  | 12 => some (.min f)
  | 13 => some (.max f)
  | 14 => some (.minn f)
  | 15 => some (.maxn f)
  | 16 => some (.addi f)
  | 17 => some (.ldi f)
  | 18 => some (.ldhi f)
  | 19 => some (.sel f)
  | 20 => some (.mov f)
  | 21 => some (.qlen f)
  | 22 => some (.cmp f)
  | 23 => some (.cmpi f)
  | 24 => some (.pand f)
  | 25 => some (.por f)
  | 26 => some (.pxor f)
  | 27 => some (.pnot f)
  | 28 => some (.pmov f)
  | 29 => some (.gset f)
  | 30 => some (.gstep f)
  | 31 => some (.gadd f)
  | 32 => some (.gget f)
  | 33 => some (.br f)
  | 34 => some (.jmp f)
  | 35 => some (.call f)
  | 36 => some (.ret f)
  | 37 => some (if f.imm.getLsbD 11 then .loopExtent f else .loop f)
  | 38 => some (.loops f)
  | 39 => some (.lbrk f)
  | 40 => some (.lidx f)
  | 41 => some (.lbuf f)
  | 42 => some (.bnd f)
  | 43 => some (.skip f)
  | 44 => some (.eset f)
  | 45 => some (.eget f)
  | 46 => some (.jset f)
  | 47 => some (.commit f)
  | 48 => some (.fmt f)
  | 49 => some (.fmtrd f)
  | 50 => some (.dead f)
  | 51 => some (.yield f)
  | 52 => some (.spawn f)
  | 53 => some (.view f)
  | 54 => some (.tend f)
  | 55 => some (.codesw f)
  | 56 => some (.budget f)
  | 57 => some (.trap f)
  | 58 => some (.sysrd f)
  | 59 => some (.syswr f)
  | 60 => some (.halt f)
  | 61 => some (.nop f)
  | _ => none

/-- The instruction of an opcode of the T slot's map; none where unassigned (R95. `copyf` and `kvtr` decode to their first form; the record read at issue picks the form (R153, R331)). -/
def tInstr (opc : Nat) (f : TFields) : Option Instr :=
  match opc with
  | 1 => some (.ldv f)
  | 2 => some (.stv f)
  | 3 => some (.lds f)
  | 4 => some (.sts f)
  | 5 => some (.ldvx f)
  | 6 => some (.stvx f)
  | 7 => some (.gthv f)
  | 8 => some (.sctv f)
  | 9 => some (.oclm f)
  | 10 => some (.orel f)
  | 11 => some (.old f)
  | 12 => some (.oldp f)
  | 13 => some (.zld f)
  | 14 => some (.zst f)
  | 15 => some (.zclr f)
  | 16 => some (.copy f)
  | 17 => some (.copym f)
  | 18 => some (.copyr f)
  | 19 => some (.copyd f)
  | 20 => some (.copya f)
  | 21 => some (.copyfFill f)
  | 22 => some (.copyq f)
  | 23 => some (.cwait f)
  | 24 => some (.cany f)
  | 25 => some (.cfirst f)
  | 26 => some (.ctags f)
  | 27 => some (.cstat f)
  | 28 => some (.cclr f)
  | 29 => some (.barr f)
  | 30 => some (.barw f)
  | 31 => some (.bard f)
  | 32 => some (.barj f)
  | 33 => some (.phase f)
  | 34 => some (.aqry f)
  | 35 => some (.kvap f)
  | 36 => some (.kvmsk f)
  | 37 => some (.kvtrMove f)
  | 38 => some (.pvsnap f)
  | 39 => some (.pvpub f)
  | 40 => some (.pvrd f)
  | 41 => some (.grd f)
  | 42 => some (.grdc f)
  | 43 => some (.ifill f)
  | _ => none

/-- The instruction of an opcode of the V slot's map; none where unassigned (R96). -/
def vInstr (opc : Nat) (f : VFields) : Option Instr :=
  match opc with
  | 1 => some (.vadd f)
  | 2 => some (.vsub f)
  | 3 => some (.vmul f)
  | 4 => some (.vfma f)
  | 5 => some (.vfms f)
  | 6 => some (.vfnm f)
  | 7 => some (.vmin f)
  | 8 => some (.vmax f)
  | 9 => some (.vabs f)
  | 10 => some (.vneg f)
  | 11 => some (.vrcp f)
  | 12 => some (.vrsq f)
  | 13 => some (.vsqrt f)
  | 14 => some (.vdiv f)
  | 15 => some (.vcmp f)
  | 16 => some (.vsel f)
  | 17 => some (.vcvt f)
  | 18 => some (.vrnd f)
  | 19 => some (.vscale f)
  | 20 => some (.vclass f)
  | 21 => some (.vand f)
  | 22 => some (.vor f)
  | 23 => some (.vxor f)
  | 24 => some (.vandn f)
  | 25 => some (if f.imm8.getLsbD 7 then .vshlImm f else .vshl f)
  | 26 => some (if f.imm8.getLsbD 7 then .vshrImm f else .vshr f)
  | 27 => some (if f.imm8.getLsbD 7 then .vsraImm f else .vsra f)
  | 28 => some (.vmulh f)
  | 29 => some (.vdot2 f)
  | 30 => some (.vsat f)
  | 31 => some (.vclz f)
  | 32 => some (.vpopc f)
  | 33 => some (.vbcast f)
  | 34 => some (.vlane f)
  | 35 => some (.vins f)
  | 36 => some (.vslide f)
  | 37 => some (.vperm f)
  | 38 => some (.vrev f)
  | 39 => some (.vzip f)
  | 40 => some (.vunzip f)
  | 41 => some (.vpack f)
  | 42 => some (.vunpk f)
  | 43 => some (.vplx f)
  | 44 => some (.vplc f)
  | 45 => some (.viota f)
  | 46 => some (.vmov f)
  | _ => none

/-- The instruction of an opcode of the M slot's map; none where unassigned (R97). -/
def mInstr (opc : Nat) (f : MFields) : Option Instr :=
  match opc with
  | 1 => some (.mma f)
  | 2 => some (.mmaz f)
  | 3 => some (.mmap f)
  | 4 => some (.mgrp f)
  | 5 => some (.mtrn f)
  | 6 => some (.mscl f)
  | 7 => some (.mfill f)
  | 8 => some (.mmov f)
  | 9 => some (.madd f)
  | 10 => some (.mwait f)
  | _ => none

/-- The instruction of an opcode of the K slot's map; none where unassigned (R97). -/
def kInstr (opc : Nat) (f : VFields) : Option Instr :=
  match opc with
  | 1 => some (if f.imm8.getLsbD 0 then .kexp2Biased f else .kexp2 f)
  | 2 => some (.klog2 f)
  | 3 => some (.kmax f)
  | 4 => some (.ksum f)
  | 5 => some (.ksumw f)
  | 6 => some (.kscan f)
  | 7 => some (.ksmx f)
  | 8 => some (if f.imm8.getLsbD 0 then .ksmrgBody f else .ksmrg f)
  | 9 => some (.ksort f)
  | 10 => some (.kmrg f)
  | 11 => some (.kcclr f)
  | 12 => some (.kcrd f)
  | 13 => some (.ktemp f)
  | 14 => some (.ktopp f)
  | 15 => some (.krng f)
  | 16 => some (.krngk f)
  | 17 => some (.kgmb f)
  | 18 => some (if f.imm8.getLsbD 0 then .kpickScore f else .kpick f)
  | 19 => some (.kargmx f)
  | _ => none

/-- The fields of the C slot's instructions (R104 to R134). -/
def usesC (opc : Nat) : Uses :=
  let s := some Bank.s
  let d := DstUse.queue .s
  if opc ≤ 0x0F then { a := s, b := s, dst := d } else
  match opc with
  | 0x10 | 0x12 | 0x14 => { a := s, dst := d }                  -- addi, ldhi, mov
  | 0x11 | 0x15 | 0x20 | 0x23 | 0x28 | 0x2D | 0x31 | 0x3A => { dst := d }
  | 0x13 => { a := s, b := s, dst := d }                         -- sel
  | 0x16 => { a := s, b := s, dst := .pred }                     -- cmp
  | 0x17 | 0x1C => { a := s, dst := .pred }                      -- cmpi, pmov
  | 0x18 | 0x19 | 0x1A | 0x1B => { dst := .pred }
  | 0x1D | 0x1E => { dst := .greg }                              -- gset, gstep
  | 0x1F => { a := s, dst := .greg }                             -- gadd
  | 0x22 | 0x24 | 0x26 | 0x2C | 0x2E | 0x2F | 0x37 | 0x38 | 0x3B => { a := s }
  | 0x34 | 0x35 => { a := s, dst := d }                          -- spawn, view
  | _ => {}

/-- The system register indices of R89. -/
def sysIndexListed (n : Nat) : Bool := n ≤ 0x00D || (0x010 ≤ n && n ≤ 0x012)

/-- The IMM24 values that a C instruction's entry allows (R104 to R134). -/
def immC (opc imm : Nat) : Bool :=
  match opc with
  | 0x10 | 0x11 | 0x17 | 0x1D | 0x1E | 0x1F | 0x21 | 0x23 | 0x39 => true
  | 0x12 | 0x2E => imm < 2 ^ 16                                  -- ldhi, jset
  | 0x13 | 0x1B | 0x28 | 0x2C | 0x2D => imm < 8                  -- sel, pnot, lidx, eset, eget
  | 0x15 | 0x20 | 0x32 => imm < 32                               -- qlen, gget, dead
  | 0x18 | 0x19 | 0x1A | 0x2F | 0x37 => imm < 64                 -- pand, por, pxor, commit, codesw
  | 0x25 => imm / 2 ^ 11 % 2 = 0 || imm / 8 % 2 ^ 8 = 0          -- loop
  | 0x26 => imm % 2 ^ 12 = 0                                     -- loops
  | 0x29 => 1 ≤ imm && imm ≤ 64                                  -- lbuf
  | 0x2B => imm < 2 ^ 16 && imm % 2 ^ 12 ≠ 0                     -- skip
  | 0x30 => imm < 2 ^ 13                                         -- fmt
  | 0x33 => imm ≠ 0                                              -- yield
  | 0x3A | 0x3B => sysIndexListed imm
  | _ => imm = 0

/-- The MOD codes that a C instruction's entry allows (R74). -/
def modC (opc m : Nat) : Bool :=
  match opc with
  | 0x16 | 0x17 => true
  | 0x15 | 0x32 => m ≤ 1
  | _ => m = 0

/-- The fields of the T slot's instructions (R141 to R162). -/
def usesT (opc : Nat) : Uses :=
  let v := some Bank.v
  let s := some Bank.s
  match opc with
  | 0x01 => { dst := .queue .v }                                 -- ldv
  | 0x02 => { a := v }
  | 0x03 => { dst := .queue .s }                                 -- lds
  | 0x04 => { a := s }
  | 0x05 => { b := s, dst := .queue .v }                         -- ldvx
  | 0x06 => { a := v, b := s }
  | 0x07 => { a := v, dst := .queue .v }                         -- gthv
  | 0x08 => { a := v, b := v }
  | 0x09 | 0x0A | 0x0B => { dst := .slot }                       -- oclm, orel, old
  | 0x0C => { b := s, dst := .slot }                             -- oldp
  | 0x0D | 0x0E | 0x0F => { dst := .tile }                       -- zld, zst, zclr
  | 0x16 => { a := v }                                           -- copyq
  | 0x18 | 0x19 | 0x1A | 0x1B | 0x26 | 0x28 => { dst := .queue .s }
  | 0x27 | 0x2B => { a := s }                                    -- pvpub, ifill
  | 0x29 | 0x2A => { b := s }                                    -- grd, grdc
  | _ => {}

/-- Whether a T instruction uses GIDX (R136, R144). -/
def gidxT (opc : Nat) : Bool :=
  opc ≤ 0x08 || (0x0B ≤ opc && opc ≤ 0x0E) || (0x10 ≤ opc && opc ≤ 0x16) ||
  (0x22 ≤ opc && opc ≤ 0x25) || opc = 0x29 || opc = 0x2A

/-- The IMM20 values that a T instruction's entry allows (R136, R144, R156 to R162). -/
def immT (opc imm : Nat) : Bool :=
  if gidxT opc then true else
  match opc with
  | 0x17 | 0x18 | 0x19 | 0x1C => imm < 2 ^ 12 && imm % 64 + imm / 64 ≤ 63
  | 0x1A => imm < 2                                              -- ctags
  | 0x1B | 0x1D | 0x1E | 0x27 | 0x2B => imm < 64
  | 0x1F | 0x20 => imm < 2 ^ 16 && imm / 64 ≠ 0                  -- bard, barj
  | _ => imm = 0

/-- The scope codes that a T instruction's entry allows (R74). -/
def modT (opc m : Nat) : Bool :=
  if 0x1D ≤ opc && opc ≤ 0x20 then m = 1 || m = 2
  else if opc = 0x21 then m ≤ 4
  else m = 0

/-- Element width in bits of a type code 0 to 11 (R43, R71). -/
def typeWidth (t : Nat) : Nat :=
  match t with
  | 0 | 4 => 8
  | 1 | 5 | 8 | 9 => 16
  | 2 | 6 | 10 => 32
  | 3 | 7 | 11 => 64
  | _ => 0

/-- Class F of R167. -/
def typeF (t : Nat) : Bool := 8 ≤ t && t ≤ 11

/-- Class I of R167. -/
def typeI (t : Nat) : Bool := t ≤ 7

/-- Class A of R167. -/
def typeA (t : Nat) : Bool := t ≤ 11

/-- The fields of the V slot's instructions (R173 to R192). -/
def usesV (opc type imm8 : Nat) : Uses :=
  let v := some Bank.v
  let s := some Bank.s
  let d := DstUse.queue .v
  match opc with
  | 0x01 | 0x02 | 0x03 | 0x07 | 0x08 | 0x0E | 0x0F | 0x13 | 0x15 | 0x16 | 0x17 | 0x18 | 0x1C | 0x24 | 0x27
  | 0x28 | 0x29 => { a := v, b := v, dst := d }
  | 0x04 | 0x05 | 0x06 | 0x10 | 0x1D | 0x25 => { a := v, b := v, c := v, dst := d }
  | 0x19 | 0x1A | 0x1B => { a := v, b := if imm8 / 128 = 0 then v else none, dst := d }
  | 0x21 => { a := s, b := if typeWidth type = 64 then s else none, dst := d }   -- vbcast
  | 0x22 => { a := v, dst := .queue .s }                                           -- vlane
  | 0x23 => { a := v, b := s, dst := d }                                           -- vins
  | 0x2B | 0x2C => { a := v, c := v, dst := d }                                    -- vplx, vplc
  | 0x2D => { a := s, dst := d }                                                   -- viota
  | _ => { a := v, dst := d }

/-- The TYPE, STYPE and IMM8 codes that a V instruction's entry allows (R167 to R192). -/
def modV (opc t st imm : Nat) : Bool :=
  let w := typeWidth t
  match opc with
  | 0x01 | 0x02 | 0x03 | 0x04 | 0x05 | 0x06 | 0x09 | 0x0A =>
      typeA t && st = 0 && (imm = 0 || (imm = 1 && typeI t))
  | 0x07 | 0x08 | 0x10 | 0x21 | 0x25 | 0x26 => typeA t && st = 0 && imm = 0
  | 0x0B | 0x0C | 0x0D | 0x0E | 0x13 | 0x14 => typeF t && st = 0 && imm = 0
  | 0x0F => typeA t && st = 0 && imm < 8                                           -- vcmp
  | 0x11 => typeA t && typeA st && t ≠ st && w = typeWidth st && imm = 0           -- vcvt
  | 0x12 => typeF t && st = 0 && imm ≤ 4                                           -- vrnd
  | 0x15 | 0x16 | 0x17 | 0x18 | 0x1C | 0x1F | 0x20 => typeI t && st = 0 && imm = 0
  | 0x19 | 0x1A | 0x1B =>                                                          -- shifts
      typeI t && st = 0 && (imm = 0 || (128 ≤ imm && imm < 128 + w && imm < 192))
  | 0x1D => st = 0 && ((t = 1 && imm ≤ 1) || ((t = 8 || t = 9) && imm = 0))        -- vdot2
  | 0x1E => typeI t && typeI st && w ≤ typeWidth st && imm = 0                     -- vsat
  | 0x22 | 0x23 => t = 0 && st = 0 && imm < 128                                    -- vlane, vins
  | 0x24 => typeA t && st = 0 && imm < 4096 / w                                    -- vslide
  | 0x27 | 0x28 => typeA t && st = 0 && imm < 2                                    -- vzip, vunzip
  | 0x29 => typeA t && typeA st && typeWidth st = 2 * w && imm = 0                 -- vpack
  | 0x2A => (typeA t && typeA st && w = 2 * typeWidth st && imm < 2) ||            -- vunpk
      (t = 0 && st = 12 && imm < 2) || (t = 0 && st = 13 && imm = 0)
  | 0x2B => t = 14 && st = 0 && imm < 64                                           -- vplx
  | 0x2C => t = 0 && st = 14 && imm < 128                                          -- vplc
  | 0x2D => typeI t && st = 0                                                      -- viota
  | 0x2E => t = 0 && st = 0 && imm = 0                                             -- vmov
  | _ => false

/-- The fields of the K slot's instructions (R215). -/
def usesK (opc imm8 : Nat) : Uses :=
  let v := some Bank.v
  let dv := DstUse.queue .v
  let ds := DstUse.queue .s
  match opc with
  | 0x01 => { a := v, b := if imm8 % 2 = 1 then v else none, dst := dv }           -- kexp2
  | 0x02 | 0x06 => { a := v, dst := dv }
  | 0x03 | 0x04 | 0x13 => { a := v, dst := ds }
  | 0x05 => { a := v, b := v, dst := ds }
  | 0x07 => { a := v, c := v, dst := dv }                                          -- ksmx
  | 0x08 => { a := v, b := v, c := if imm8 % 2 = 1 then v else none, dst := dv }  -- ksmrg
  | 0x09 => { a := v, b := v, dst := dv }
  | 0x0A | 0x10 | 0x11 => { a := v }
  | 0x0C | 0x0F => { dst := dv }
  | 0x0D | 0x0E => { a := some .s }
  | 0x12 => { dst := ds }
  | _ => {}

/-- The TYPE, STYPE and IMM8 codes that a K instruction's entry allows (R214, R215). -/
def modK (opc t st imm : Nat) : Bool :=
  st = 0 && match opc with
  | 0x01 | 0x08 | 0x09 => t = 10 && imm ≤ 1
  | 0x02 | 0x07 | 0x0A | 0x0D | 0x0E | 0x11 => t = 10 && imm = 0
  | 0x03 | 0x13 => (t = 2 || t = 6 || t = 10) && imm = 0
  | 0x04 | 0x05 => (t = 2 && imm ≤ 1) || (t = 10 && imm = 0)
  | 0x06 => (t = 2 && imm ≤ 3) || (t = 10 && imm ≤ 1)
  | 0x0B | 0x0C | 0x10 => t = 0 && imm = 0
  | 0x0F => t = 0 && 1 ≤ imm && imm ≤ 32
  | 0x12 => t = 0 && imm ≤ 1
  | _ => false

/-- The M instructions that use the A and B bases and accept RPT, their other fields (R198): ABASE and BBASE,
ACC, RPT, QSRC, ZSRC, CNT5. -/
def fieldsM (opc : Nat) : Bool × Bool × Bool × Bool × Bool × Bool :=
  match opc with
  | 0x01 | 0x02 | 0x03 => (true, true, true, false, false, false)
  | 0x04 => (true, true, false, false, false, true)
  | 0x05 | 0x08 | 0x09 => (false, true, false, false, true, false)
  | 0x06 | 0x07 => (false, true, false, true, false, false)
  | _ => (false, false, false, false, false, false)

/-- R67: a legal source selector. -/
def legalSel (s : BitVec 8) : Bool :=
  let n := s.toNat % 64
  let peek := s.getLsbD 7
  let last := s.getLsbD 6
  n < 40 && !(peek && last) && (n < 32 || (!peek && !last))

/-- R68: a legal destination. -/
def legalDst (d : BitVec 8) : Bool :=
  let n := d.toNat % 64
  n < 32 && (!d.getLsbD 7 || n = 0)

/-- A selector field: legal if used, zero if not (R67, R70). -/
def legalSrc (u : Option Bank) (s : BitVec 8) : Bool :=
  match u with
  | some _ => legalSel s
  | none => s = 0

/-- A DST field, by what it names (R68, R70, R106, R108, R135). -/
def legalDstUse (u : DstUse) (d : BitVec 8) : Bool :=
  match u with
  | .none => d = 0
  | .queue _ => legalDst d
  | .pred => d.toNat < 8
  | .greg | .slot | .tile => d.toNat < 16

/-- The field checks of R77's second row: an opcode of the map with every selector, destination, unused field
and code as R67 to R75 and the instruction's entry allow. -/
def SlotForm.legal (x : SlotForm) : Bool :=
  match x with
  | .c opc f =>
      let u := usesC opc
      (cInstr opc f).isSome && legalSrc u.a f.srcA && legalSrc u.b f.srcB && legalDstUse u.dst f.dst &&
      immC opc f.imm.toNat && modC opc f.mod.toNat
  | .t opc f =>
      let u := usesT opc
      (tInstr opc f).isSome && legalSrc u.a f.srcA && legalSrc u.b f.srcB && legalDstUse u.dst f.dst &&
      (gidxT opc || f.gidx = 0) && immT opc f.imm.toNat && modT opc f.mod.toNat
  | .v opc f =>
      let u := usesV opc f.type.toNat f.imm8.toNat
      (vInstr opc f).isSome && legalSrc u.a f.srcA && legalSrc u.b f.srcB && legalSrc u.c f.srcC &&
      legalDstUse u.dst f.dst && modV opc f.type.toNat f.stype.toNat f.imm8.toNat
  | .k opc f =>
      let u := usesK opc f.imm8.toNat
      (kInstr opc f).isSome && legalSrc u.a f.srcA && legalSrc u.b f.srcB && legalSrc u.c f.srcC &&
      legalDstUse u.dst f.dst && modK opc f.type.toNat f.stype.toNat f.imm8.toNat
  | .m opc f =>
      let (bases, acc, rpt, q, z, cnt) := fieldsM opc
      (mInstr opc f).isSome && (bases || (f.abase = 0 && f.bbase = 0)) && (acc || f.acc = 0) &&
      (rpt || !f.rpt) && (f.rpt || f.rcount = 0) && (if q then legalSel f.qsrc else f.qsrc = 0) &&
      (z || f.zsrc = 0) && (cnt || f.cnt5 = 0)

/-- The operand use of a slot instruction (R70). -/
def SlotForm.uses (x : SlotForm) : Uses :=
  match x with
  | .c opc _ => usesC opc
  | .t opc _ => usesT opc
  | .v opc f => usesV opc f.type.toNat f.imm8.toNat
  | .k opc f => usesK opc f.imm8.toNat
  | .m opc _ => { a := if opc = 6 || opc = 7 then some .v else none }

/-- The slot of a form. -/
def SlotForm.slot (x : SlotForm) : Slot :=
  match x with
  | .c .. => .c
  | .t .. => .t
  | .v .. => .v
  | .m .. => .m
  | .k .. => .k

/-- The opcode of a form. -/
def SlotForm.opc (x : SlotForm) : Nat :=
  match x with
  | .c o _ | .t o _ | .v o _ | .m o _ | .k o _ => o

/-- PRED and PSENSE of a form (R66). -/
def SlotForm.guard (x : SlotForm) : BitVec 3 × Bool :=
  match x with
  | .c _ f => (f.pred, f.psense)
  | .t _ f => (f.pred, f.psense)
  | .v _ f => (f.pred, f.psense)
  | .m _ f => (f.pred, f.psense)
  | .k _ f => (f.pred, f.psense)

/-- The source selectors of the fields that the instruction uses, in the order of R83, with their banks. -/
def SlotForm.sources (x : SlotForm) : List (BitVec 8 × Bank) :=
  let u := x.uses
  let pick := fun (o : Option Bank) (s : BitVec 8) => (o.map fun b => (s, b)).toList
  match x with
  | .c _ f => pick u.a f.srcA ++ pick u.b f.srcB
  | .t _ f => pick u.a f.srcA ++ pick u.b f.srcB
  | .v _ f => pick u.a f.srcA ++ pick u.b f.srcB ++ pick u.c f.srcC
  | .k _ f => pick u.a f.srcA ++ pick u.b f.srcB ++ pick u.c f.srcC
  | .m _ f => pick u.a f.qsrc

/-- The DST byte of a form. -/
def SlotForm.dstByte (x : SlotForm) : BitVec 8 :=
  match x with
  | .c _ f => f.dst
  | .t _ f => f.dst
  | .v _ f => f.dst
  | .k _ f => f.dst
  | .m _ _ => 0

/-- The queue a form reserves an entry of, if any (R68, R82). -/
def SlotForm.reserves (x : SlotForm) : Option (Bank × Nat) :=
  match x.uses.dst with
  | .queue b => if x.dstByte.getLsbD 7 then none else some (b, x.dstByte.toNat % 64)
  | _ => none

/-- R76: the read ports a form needs, one for each source selector with NUM 0 to 31 in a used field. -/
def SlotForm.ports (x : SlotForm) : Nat :=
  (x.sources.filter fun s => s.1.toNat % 64 < 32).length

/-- The control-transfer instructions of R78, by C opcode. -/
def transferC (opc : Nat) : Bool :=
  (0x21 ≤ opc && opc ≤ 0x27) || opc = 0x2B || opc = 0x33 || opc = 0x36 || opc = 0x37 || opc = 0x3C

end Sys2Proof.Machine
end

