-- ==== Sys2Proof/Machine/Access.lean ====
section
/-! DEFINITION. Reading and replacing the parts of a state: contexts, cores, tasks, regions, commands; the
clock's timers; kernel header fields (R299); what the package sends out (R363, R364). -/

namespace Sys2Proof.Machine

/-! ### Identities and durations -/

/-- The next fresh identity. -/
def fresh (s : State) : Nat × State := (s.fresh, { s with fresh := s.fresh + 1 })

/-- A cycle at a duration from now that the manual leaves open (R374). -/
def freeDue (s : State) : Nat × State :=
  (s.now + 1 + Config.freeDuration s.fresh, { s with fresh := s.fresh + 1 })

/-- An event set to fall due at a cycle. -/
def addTimer (s : State) (due : Nat) (i : Instr) : State := { s with timers := s.timers ++ [(due, i)] }

/-- An event set to fall due after a duration that the manual leaves open. -/
def addFreeTimer (s : State) (i : Instr) : State :=
  let (due, s) := freeDue s
  addTimer s due i

/-- An event that takes its turn in this cycle. -/
def addTurn (s : State) (i : Instr) : State := { s with todo := s.todo ++ [.inl i] }

/-- A message or transfer sent. -/
def emit (s : State) (o : Out) : State := { s with out := s.out ++ [o] }

/-- Whether nothing of a queue pair may leave by its port: the port is paused, the queue pair slowed, or something of it waits
to leave (R361). -/
def portHeld (s : State) (port qp : Nat) : Bool :=
  s.paused.contains port || (s.slowed.any fun q => q.1 = port && q.2.1 = qp && decide (s.now < q.2.2)) ||
    s.portQueue.any fun q => q.1 = port && q.2.1 = qp

/-- What leaves by a port for a queue pair, at once or when it may (R361). -/
def portSend (s : State) (port qp : Nat) (o : Out) : State :=
  if portHeld s port qp then { s with portQueue := s.portQueue ++ [(port, qp, o)] } else emit s o

/-- What waited to leave sent in its order, where it may now (R361). -/
def flushPorts (s : State) : State :=
  s.portQueue.foldl (fun s q => portSend s q.1 q.2.1 q.2.2)
    { s with portQueue := [], slowed := s.slowed.filter fun q => decide (s.now < q.2.2) }

/-- A device message sent on a control connection (R361, R362): on the first that nothing holds, else on the first when it may
leave; while none stands it stays retained, for a REPLAY (DESIGN CHOICE, log 150). -/
def deviceOut (s : State) (m : DevMsg) : State :=
  match s.control.find? (fun c => !portHeld s c.1 c.2.2.1), s.control with
  | some _, _ => emit s (.device m)
  | none, c :: _ => portSend s c.1 c.2.2.1 (.device m)
  | none, [] => s

/-- A device message (R362 to R364): numbered, retained up to 256 unacknowledged, else dropped and counted. -/
def sendDevice (s : State) (type status : Nat) (payload : List Byte) : State :=
  let m : DevMsg := { type := type, dseq := s.devSeq + 1, hseq := s.hostA, status := status, payload := payload }
  if s.retained.length < 256 then deviceOut { s with devSeq := s.devSeq + 1, retained := s.retained ++ [m] } m
  else { s with devSeq := s.devSeq + 1, dlost := s.dlost + 1 }

/-! ### Contexts and cores -/

/-- The slice resident in a context (R26). -/
def getCtx (s : State) (c : CtxId) : Option Ctx := alGet s.slots c

/-- The state with a context's contents replaced. -/
def setCtx (s : State) (c : CtxId) (x : Ctx) : State := { s with slots := alSet s.slots c x }

/-- A context's contents changed, where a slice is resident. -/
def modCtx (s : State) (c : CtxId) (f : Ctx → Ctx) : State :=
  match getCtx s c with
  | some x => setCtx s c (f x)
  | none => s

/-- The context emptied. -/
def delCtx (s : State) (c : CtxId) : State := { s with slots := alDel s.slots c }

/-- The die of a core or global number (R21). -/
def dieOf (core : Nat) : Nat := core / 96

/-- The global cluster number of a core (R21). -/
def clusterOf (core : Nat) : Nat := core / 96 * 12 + core % 96 / 8

/-- A core after reset: gated (R42), its stores empty. -/
def coreReset : Core :=
  { gated := true, emptySince := 0, scratch := [], opmem := [], acc := [], lines := [], dp := none, tilePort := 0,
    fp64Busy := 0, divBusy := 0, issued := none, owner := 0, places := 0, saving := 0 }

/-- A core. -/
def getCore (s : State) (n : Nat) : Core := (alGet s.cores n).getD coreReset

/-- The state with a core replaced. -/
def setCore (s : State) (n : Nat) (k : Core) : State := { s with cores := alSet s.cores n k }

/-- A core changed. -/
def modCore (s : State) (n : Nat) (f : Core → Core) : State := setCore s n (f (getCore s n))

/-- The other context of a core. -/
def otherCtx (c : CtxId) : CtxId := ⟨c.core, 1 - c.ctx⟩

/-- The paired core for `mmap` (R22). -/
def partnerCore (core : Nat) : Nat :=
  let cl := core % 96 / 8
  if cl % 2 = 0 then core + 8 else core - 8

/-- Whether a core leads its pair (R22). -/
def leads (core : Nat) : Bool := core % 96 / 8 % 2 = 0

/-! ### Tasks and regions -/

/-- The task with an identity. -/
def getTask (s : State) (uid : Nat) : Option Task := s.tasks.find? fun t => t.uid = uid

/-- Every task with an identity changed. -/
def modTask (s : State) (uid : Nat) (f : Task → Task) : State :=
  { s with tasks := s.tasks.map fun t => if t.uid = uid then f t else t }

/-- Whether an offset of a part has been saved off its core, by the ranges (offset, length) that have. -/
def inGone (gone : List (Nat × Nat)) (a : Nat) : Bool := gone.any fun r => decide (r.1 ≤ a) && decide (a < r.1 + r.2)

/-- The n bytes at an offset of a task's window as they stand, on its core or saved (R310). -/
def windowBytes (s : State) (t : Task) (off n : Nat) : List Byte :=
  match t.scratch with
  | .here core base gone m =>
    let k := (getCore s core).scratch
    (List.range n).map fun i => if inGone gone (off + i) then memGet m (off + i) else memGet k (base + off + i)
  | .saved m => (List.range n).map fun i => memGet m (off + i)
  | .none => List.replicate n 0

/-- The region with an index; a default beyond the list. -/
def getRegion (s : State) (r : Nat) : Region := s.regions.getD r default

/-- A region changed. -/
def modRegion (s : State) (r : Nat) (f : Region → Region) : State :=
  { s with regions := (s.regions.zipIdx).map fun p => if p.2 = r then f p.1 else p.1 }

/-- Whether region r is d or an ancestor of it; a region's `parent` is its parent's index plus one, 0 for a root. -/
def isAncestor (s : State) (r : Nat) : Nat → Nat → Bool
  | 0, d => r = d
  | fuel + 1, d =>
    r = d || (match (getRegion s d).parent with
      | 0 => false
      | p + 1 => isAncestor s r fuel p)

/-- Region r with every descendant region (R318). -/
def subtree (s : State) (r : Nat) : List Nat :=
  (List.range s.regions.length).filter fun d => isAncestor s r s.regions.length d

/-- A live region with an RCB address, newest first (R297). -/
def regionByRcb (s : State) (asid va : Nat) : Option Nat :=
  ((List.range s.regions.length).reverse).find? fun r =>
    (getRegion s r).rcb = va && (getRegion s r).rcbAsid = asid && (getRegion s r).st = .admitted

/-- A task's handle: pool index and die (R125). -/
def handleOf (t : Task) : Word := BitVec.ofNat 32 (t.index % 4096 + t.die % 8 * 4096)

/-- The task as TASKL and TASKH give it (R89). -/
def taskId (t : Task) : Nat :=
  match t.spawned with
  | some h => 2 ^ 63 + h.toNat
  | none => t.descriptor.toNat

/-- The context in which a task's slice is resident. -/
def ctxOfTask (s : State) (uid : Nat) : Option CtxId :=
  (s.slots.find? fun p => p.2.task = uid).map (·.1)

/-- Whether two instances of Option are the same context with a resident slice of an owner. -/
def ownerAt (s : State) (c : CtxId) : Option Nat := (getCtx s c).map fun x => (getRegion s x.region).owner

/-! ### Kernel header fields (R299) -/

def hdrVq (h : BitVec 512) : Nat := field h 5 0
def hdrSq (h : BitVec 512) : Nat := field h 11 6
def hdrOsl (h : BitVec 512) : Nat := field h 16 12
def hdrZt (h : BitVec 512) : Nat := field h 20 17
def hdrTags (h : BitVec 512) : Nat := field h 27 21
def hdrStrict (h : BitVec 512) : Bool := field h 28 28 = 1
def hdrScratch (h : BitVec 512) : Nat := field h 63 32
def hdrCbar (h : BitVec 512) : Nat := field h 69 64
def hdrDbar (h : BitVec 512) : Nat := field h 76 70
def hdrRun (h : BitVec 512) : Nat := field h 87 80
def hdrYmax (h : BitVec 512) : Nat := field h 119 96
def hdrViews (h : BitVec 512) : Nat := field h 159 128
def hdrImglen (h : BitVec 512) : Nat := field h 191 160
def hdrEcomp (h : BitVec 512) : Nat := field h 223 192
def hdrEload (h : BitVec 512) : Nat := field h 255 224
def hdrEstor (h : BitVec 512) : Nat := field h 287 256
def hdrLioff (h : BitVec 512) : Nat := field h 319 288
def hdrLi (h : BitVec 512) : Nat := field h 335 320
def hdrLd (h : BitVec 512) : Nat := field h 351 336
def hdrSioff (h : BitVec 512) : Nat := field h 383 352
def hdrSi (h : BitVec 512) : Nat := field h 399 384
def hdrSd (h : BitVec 512) : Nat := field h 415 400
def hdrDoff (h : BitVec 512) : Nat := field h 447 416
def hdrDlen (h : BitVec 512) : Nat := field h 479 448

/-- No program, no handle, no entry (R297, R299, R305). -/
def noneWord : Nat := 0xFFFFFFFF

/-! ### Commands -/

/-- A command of no kind yet: nothing done, nothing asked of another package, no tag. -/
def blankCmd : Cmd :=
  { id := 0, kind := .copy, cluster := 0, c := ⟨0, 0⟩, hart := 0, task := 0, region := 0, asid := 0, owner := 0,
    agent := .ctx 0, tag := 64, record := 0, recAddr := 0, data := [], index := 0, target := 0, st := .queued, status := 0,
    shared := false, result := 0, snapVer := none, heldBy := [], acquire := false, trans := [], buf := [], acks := 0,
    answers := [], asks := (false, 0), wrote := false, stored := false, cow := none, bar := none, checked := false, arrive := false, seen := [], root := none, frees := false }

/-- The command with an identity. -/
def getCmd (s : State) (id : Nat) : Option Cmd := s.cmds.find? fun k => k.id = id

/-- A command changed. -/
def modCmd (s : State) (id : Nat) (f : Cmd → Cmd) : State :=
  { s with cmds := s.cmds.map fun k => if k.id = id then f k else k }

/-- A command removed. -/
def delCmd (s : State) (id : Nat) : State := { s with cmds := s.cmds.filter fun k => k.id ≠ id }

/-! ### Barriers -/

/-- A barrier, by (die bank, global bank number, barrier). -/
def getBar (s : State) (k : Bool × Nat × Nat) : Bar :=
  ((if k.1 then alGet s.dbars (k.2.1, k.2.2) else alGet s.cbars (k.2.1, k.2.2))).getD
    { e := 0, arrivals := 0, phase := 0, pending := 0, flipAt := 0 }

/-- A barrier replaced. -/
def setBar (s : State) (k : Bool × Nat × Nat) (b : Bar) : State :=
  if k.1 then { s with dbars := alSet s.dbars (k.2.1, k.2.2) b }
  else { s with cbars := alSet s.cbars (k.2.1, k.2.2) b }

/-- One arrival, with the flip when the arrivals reach E (R157); an idle barrier discards it. -/
def arriveBar (now : Nat) (b : Bar) : Bar :=
  if b.e = 0 then b
  else if b.arrivals + 1 < b.e then { b with arrivals := b.arrivals + 1 }
  else
    { e := (clampBar ((b.e : Int) + b.pending)), arrivals := 0, phase := b.phase + 1, pending := 0, flipAt := now }
where
  clampBar (x : Int) : Nat := (max 0 (min 65535 x)).toNat

/-- A pending change saturated as R157 gives. -/
def satPending (x : Int) : Int := max (-(2 ^ 31)) (min (2 ^ 31 - 1) x)

end Sys2Proof.Machine
end

