-- ==== Sys2Proof/Machine/MQueue.lean ====
section
/-! DEFINITION. The M queue of a context (R199, R200): the accumulators its instructions keep busy, the stepping of bases,
how an instruction leaves it; the other side of a paired product and the abandonment of a paired step (R209, R210, R212). -/

namespace Sys2Proof.Machine

/-! ### Address registers -/

/-- An address register. -/
def getG (x : Ctx) (n : Nat) : Word := x.g.toList.getD n 0

/-- An address register replaced. -/
def setG (x : Ctx) (n : Nat) (w : Word) : Ctx := { x with g := x.g.setIfInBounds n w }

/-- A step register. -/
def getStep (x : Ctx) (n : Nat) : Word := x.gstep.toList.getD n 0

/-- An address register stepped (R79). -/
def stepG (x : Ctx) (n : Nat) : Ctx := setG x n (getG x n + getStep x n)

/-! ### Instructions in the queue -/

/-- The fields of an M instruction. -/
def mFields (i : Instr) : MFields :=
  match formOf i with
  | some (.m _ f) => f
  | _ => default

/-- The opcode of an M instruction. -/
def mOpc (i : Instr) : Nat :=
  match formOf i with
  | some (.m o _) => o
  | _ => 0

/-- The accumulators an M instruction names. -/
def mAccs (opc : Nat) (f : MFields) : List Nat :=
  (if opc ≤ 9 then [f.acc.toNat] else []) ++ (if opc = 5 ∨ opc = 8 ∨ opc = 9 then [f.zsrc.toNat] else [])

/-- The accumulators an instruction in the M queue keeps busy (R88); a partner's side of `mmap` keeps none (R209). -/
def workAccs (c : CtxId) (w : MWork) : List Nat :=
  if mOpc w.op = 3 ∧ !leads c.core then [] else mAccs (mOpc w.op) (mFields w.op)

/-- The accumulator that an M instruction writes (R203 to R209): `mscl` writes a scale pair and `mwait` nothing. -/
def writtenAcc (c : CtxId) (w : MWork) : Option Nat :=
  if mOpc w.op = 6 then none else (workAccs c w).head?

/-- The current instruction leaves the M queue after a last step in a cycle, or abandoned in it (R88, R201, R212): its
accumulators stay busy for 8 cycles. -/
def retireM (cycle : Nat) (c : CtxId) (x : Ctx) (w : MWork) : Ctx :=
  { x with
    mq := x.mq.drop 1
    mlast := writtenAcc c w
    accBusy := (workAccs c w).foldl (fun v n => v.setIfInBounds n (cycle + 8)) x.accBusy }

/-- The base registers stepped before a step after the first (R200), ABASE and BBASE the same register once. -/
def stepBases (x : Ctx) (w : MWork) : Ctx × MWork :=
  let f := mFields w.op
  let a := f.abase.toNat
  let b := f.bbase.toNat
  let w := { w with abase := w.abase + getStep x a, bbase := w.bbase + getStep x b }
  let x := stepG x a
  (if a = b then x else stepG x b, w)

/-- The base registers of an abandoned instruction stepped to their final values (R210). -/
def finalBases (x : Ctx) (w : MWork) : Nat → Ctx
  | 0 => x
  | n + 1 => finalBases (stepBases x w).1 w n

/-! ### Imprecise faults -/

/-- An imprecise fault held for the next report; a later one is discarded (R137). -/
def holdFault (x : Ctx) (f : HeldFault) : Ctx :=
  match x.held with
  | some _ => x
  | none => { x with held := some f }

/-! ### The two sides of a paired product (R209 to R212) -/

/-- The matching context of the paired core: the slice of the same region, of the same context number when both
qualify (R209). -/
def partnerCtx (s : State) (c : CtxId) (x : Ctx) : Option CtxId :=
  let p := partnerCore c.core
  let ok := fun (k : Nat) => match getCtx s ⟨p, k⟩ with
    | some y => decide (y.region = x.region)
    | none => false
  if ok c.ctx then some ⟨p, c.ctx⟩ else if ok (1 - c.ctx) then some ⟨p, 1 - c.ctx⟩ else none

/-- A context's current `mmap`. -/
def currentPair (x : Ctx) : Option MWork :=
  match x.mq with
  | w :: _ => if mOpc w.op = 3 then some w else none
  | [] => none

/-- Whether a paired step of a context is in progress: its `mmap` is current, or the other side's half has arrived. -/
def pairOpen (x : Ctx) : Bool := (currentPair x).isSome || x.pairBuf.isSome

/-- One side of a paired step abandoned in a cycle (R210, R212): nothing committed, the instruction leaves the M queue with
its bases at their final values, PAIR_ABANDONED is held with the other side's core, the counts restart. The instruction is the
side's current `mmap`, also where it has run ahead into a later one than the step abandoned; an `mmap` that is only pending
stays and runs from count 0: the manual does not say (DESIGN CHOICE, log 142). -/
def abandonCtx (cycle : Nat) (c : CtxId) (x : Ctx) : Ctx :=
  let pair := currentPair x
  let f : HeldFault :=
    { who := none, code := 0x13, slot := 3, opnd := (pair.map fun w => (mFields w.op).acc.toNat).getD 0,
      tinfo := BitVec.ofNat 32 (partnerCore c.core % 1024) }
  let x := match pair with
    | some w =>
      let left := if !w.started && 0 < w.done then w.steps - w.done else w.steps - 1 - w.done
      retireM cycle c (finalBases x w left) w
    | none => x
  holdFault { x with pairs := 0, pairBuf := none, mate := none } f

/-- One resident side of an abandoned paired step; a half in progress on the datapath stops. -/
def abandonSide (s : State) (cycle : Nat) (c : CtxId) : State :=
  match getCtx s c with
  | none => s
  | some x =>
    let s := if (currentPair x).isSome then modCore s c.core fun k => { k with dp := k.dp.filter fun d => d.1 ≠ c.ctx } else s
    setCtx s c (abandonCtx cycle c x)

/-- The core on which a slice is resident, or left when it parked. -/
def sideCore (s : State) (c : Option CtxId) (x : Ctx) : Nat :=
  match c with
  | some c => c.core
  | none => (((getTask s x.task).bind fun t => t.placesAt).map fun p => p.1).getD 0

/-- The other side of a paired step abandoned (R210, R212): the matching resident slice, else the task whose steps the
context's were matched with, resident elsewhere or parked; where neither side has a step in progress nothing happens. -/
def abandonOther (s : State) (cycle : Nat) (c : Option CtxId) (x : Ctx) : State :=
  match c.bind fun c => partnerCtx s c x with
  | some d => if pairOpen x || (getCtx s d).any pairOpen then abandonSide s cycle d else s
  | none =>
    match x.mate with
    | none => s
    | some u =>
      match ctxOfTask s u with
      | some d => if pairOpen x || (getCtx s d).any pairOpen then abandonSide s cycle d else s
      | none => modTask s u fun t => { t with
          saved := t.saved.map fun y => if pairOpen x || pairOpen y then abandonCtx cycle ⟨partnerCore (sideCore s c x), 0⟩ y else y }

/-- A paired step abandoned on both sides (R210). -/
def abandonPair (s : State) (cycle : Nat) (c : CtxId) (x : Ctx) : State :=
  abandonSide (abandonOther s cycle (some c) x) cycle c

end Sys2Proof.Machine
end

