-- ==== Sys2Proof/Machine/Ordering.lean ====
section
/-! DEFINITION. The ordering model (R281 to R296): the coherence order of every aligned 8-byte word as a log of
writes, each agent's snapshot, and reads that return one of the values R286 and R287 allow. A store keeps
the newest value of every word in coherence order; a word without a logged write has one value. -/

namespace Sys2Proof.Machine

/-- The bytes of HBM as they stand: a written byte, else a left-over byte of another owner (R261), else 0. -/
def hbmByte (s : State) (a : Nat) : Byte :=
  let b := memGet s.hbm a
  if b ≠ 0 then b
  else match s.fog.find? fun f => decide (f.1 ≤ a) && decide (a < f.2.1) with
    | some f => Config.leftoverByte f.2.2 a
    | none => 0

/-- The intervals with [lo, hi) cut out. -/
def cutFog (lo hi : Nat) (fog : List (Nat × Nat × Nat)) : List (Nat × Nat × Nat) :=
  fog.flatMap fun f =>
    if hi ≤ f.1 ∨ f.2.1 ≤ lo then [f]
    else (if f.1 < lo then [(f.1, lo, f.2.2)] else []) ++ (if hi < f.2.1 then [(hi, f.2.1, f.2.2)] else [])

/-- The n bytes of a store at an address as they stand, newest in coherence order. -/
def rawRead (s : State) (sp : Space) (a n : Nat) : List Byte :=
  match sp with
  | .hbm =>
    if s.fog.any fun f => decide (f.1 < a + n) && decide (a < f.2.1) then
      (List.range n).map fun i => hbmByte s (a + i)
    else memRead s.hbm a n
  | .scratch c => memRead (getCore s c).scratch a n
  | .opmem c => memRead (getCore s c).opmem a n
  | .acc c => memRead (getCore s c).acc a n

/-- Bytes written to a store. -/
def rawWrite (s : State) (sp : Space) (a : Nat) (bs : List Byte) : State :=
  match sp with
  | .hbm => { s with hbm := memPut s.hbm a bs, fog := cutFog a (a + bs.length) s.fog }
  | .scratch c => modCore s c fun k => { k with scratch := memPut k.scratch a bs }
  | .opmem c => modCore s c fun k => { k with opmem := memPut k.opmem a bs }
  | .acc c => modCore s c fun k => { k with acc := memPut k.acc a bs }

/-- Log records of a range of a store forgotten: its bytes stand as they are for whoever reads them. -/
def dropLog (s : State) (sp : Space) (lo n : Nat) : State :=
  { s with log := s.log.filter fun r => !(r.space = sp && decide (lo < 8 * r.word + 8) && decide (8 * r.word < lo + n)) }

/-! ### Agents -/

/-- The core an agent stands on, if it stands on one (R282). -/
def agentCore (s : State) (a : Agent) : Option Nat :=
  match a with
  | .ctx t | .hart t _ => (ctxOfTask s t).map (·.core)
  | .cmd id => (getCmd s id).bind fun k => if k.cluster < 96 then some k.c.core else none
  | .engine .. | .host _ | .nma .. | .unit _ => none

/-- The instance of a scope code 0 to 4 at a core (R74, R282). -/
def instAt (core scope : Nat) : Inst :=
  match scope with
  | 0 => .core core
  | 1 => .cluster (clusterOf core)
  | 2 => .die (dieOf core)
  | 3 => .package
  | _ => .domain

/-- The scope code of an instance. -/
def instScope (i : Inst) : Nat :=
  match i with
  | .core _ => 0
  | .cluster _ => 1
  | .die _ => 2
  | .package => 3
  | .domain => 4

/-- The instances of which an agent is a member (R282): of those here, the agents of another package share the domain. A task
that no core runs stands in its die's pool (R33). -/
def memberOf (s : State) (a : Agent) : List Inst :=
  match a with
  | .host _ => [.package]
  | .unit (.peer _) => [.domain]
  | .engine .. | .nma .. | .unit _ => [.package, .domain]
  | .ctx t | .hart t _ =>
    (match agentCore s a with
     | some c => (List.range 5).map (instAt c)
     | none => ((getTask s t).map fun t => Inst.die t.die).toList ++ [.package, .domain])
  | .cmd _ =>
    match agentCore s a with
    | some c => (List.range 5).map (instAt c)
    | none => [.package, .domain]

/-- An agent's view; empty before its first access. -/
def getView (s : State) (a : Agent) : AgentView :=
  (s.views.find? fun v => v.agent = a).getD { agent := a, snap := [], floor := [], own := [], mine := [], insts := [] }

/-- An agent's view replaced. -/
def setView (s : State) (v : AgentView) : State :=
  { s with views := s.views.filter (fun w => w.agent ≠ v.agent) ++ [v] }

/-- The writes published to one of the instances (R284, R286). -/
def publishedTo (s : State) (is : List Inst) : List Nat :=
  (s.log.filter fun r => r.pubs.any fun p => is.contains p).map (·.id)

/-- An agent's snapshot brought up (R286): every published write its instances hold, its own with them. -/
def bringUp (s : State) (a : Agent) : State :=
  let v := getView s a
  setView s { v with snap := (v.snap ++ v.own ++ publishedTo s (memberOf s a)).eraseDups, own := [] }

/-- Writes that an agent comes to see besides (R245, R286). -/
def giveSnap (s : State) (a : Agent) (ids : List Nat) : State :=
  let v := getView s a
  setView s { v with snap := (v.snap ++ ids).eraseDups }

/-- Writes that become an agent's own (R285). -/
def giveOwn (s : State) (a : Agent) (ids : List Nat) : State :=
  if ids.isEmpty then s else
  let v := getView s a
  setView s { v with
    own := v.own ++ ids.filter fun i => !v.own.contains i
    mine := v.mine ++ ids.filter fun i => !v.mine.contains i }

/-- Writes below which an agent no longer reads (R240, R283). -/
def giveFloor (s : State) (a : Agent) (ids : List Nat) : State :=
  if ids.isEmpty then s else
  let v := getView s a
  setView s { v with floor := v.floor ++ ids.filter fun i => !v.floor.contains i }

/-- The agent that the reads of a command bind besides the command (R281, R283, R296): the host of an RDMA operation, else its
engine as it acts for the issuer. -/
def readerOf (s : State) (a : Agent) : Option Agent :=
  match a with
  | .cmd id => (getCmd s id).map fun k => match k.kind with
    | .rdmaWrite | .rdmaRead => .host k.target
    | _ => .engine k.cluster k.task k.hart
  | _ => none

/-- The writes below which an agent no longer reads, with those of the engine that reads for it. -/
def floorOf (s : State) (a : Agent) : List Nat :=
  (getView s a).floor ++ ((readerOf s a).map fun e => (getView s e).floor).getD []

/-- What an agent has read, which none of its later reads is older than (R283). -/
def noteRead (s : State) (a : Agent) (ids : List Nat) : State :=
  let s := giveFloor s a ids
  match readerOf s a with
  | some e => giveFloor s e ids
  | none => s

/-- Whether an agent joins an instance that it has not been a member of since its last boundary (R284). -/
def noteMember (s : State) (a : Agent) : State :=
  let v := getView s a
  setView s { v with insts := (v.insts ++ memberOf s a).eraseDups }

/-! ### Reads and writes -/

/-- The allowed values of a word for an agent, given the word's writes in coherence order (R283, R286, R287), each
with the write that left it: the agent's own latest write alone where nothing that it knows is later, else the floor's value
or a later one. -/
def allowedWords (v : AgentView) (recs : List WriteRec) : List (Option Nat × DWord) :=
  let known := fun (r : WriteRec) => v.own.contains r.id || v.snap.contains r.id || v.floor.contains r.id
  let later := (recs.reverse.takeWhile fun r => !known r).reverse
  let base := (recs.take (recs.length - later.length)).getLast?
  match base with
  | some r => (some r.id, r.new) :: (if v.own.contains r.id then [] else later.map fun r => (some r.id, r.new))
  | none => (recs.head?.map fun r => ((none : Option Nat), r.old)).toList ++ later.map fun r => (some r.id, r.new)

/-- Whether a write was made for another package: by its access here, or by a key-value command that it sent (R295). -/
def farMade (s : State) (r : WriteRec) : Bool :=
  (s.farWrites.any fun f => f.2.2.contains r.id) || (match r.by' with
    | .unit (.peer _) => true
    | .cmd id => (getCmd s id).any fun k => decide (k.target ≠ 0) && (match k.kind with
      | .kvap | .kvmsk | .kvtr => true
      | _ => false)
    | _ => false)

/-- Whether a write may be visible to an agent at all: to an NMA unit those made for other packages are not before they are
published at domain scope (R295). -/
def mayShow (s : State) (a : Agent) (r : WriteRec) : Bool :=
  match a with
  | .nma .. => !farMade s r || r.pubs.contains .domain
  | _ => true

/-- The allowed values of a word by the writes that may be visible to an agent; the value before the first where none may. -/
def allowedHere (s : State) (a : Agent) (recs : List WriteRec) : List (Option Nat × DWord) :=
  match recs.filter (mayShow s a) with
  | [] => (recs.head?.map fun r => ((none : Option Nat), r.old)).toList
  | shown => allowedWords { getView s a with floor := floorOf s a } shown

/-- One aligned 8-byte word as an agent reads it; a race is settled by a free choice (R287). -/
def readWord (s : State) (a : Agent) (sp : Space) (w : Nat) : DWord × State :=
  let recs := s.log.filter fun r => r.space = sp && r.word = w
  match allowedHere s a recs with
  | [] => (BitVec.ofNat 64 (natOfBytes (rawRead s sp (8 * w) 8)), s)
  | [(_, x)] => (x, s)
  | cands =>
    let (n, s) := fresh s
    match cands[Config.raceChoice n % cands.length]? with
    | some (some id, x) => (x, noteRead s a [id])
    | some (none, x) => (x, s)
    | none => (0, s)

/-- Aligned words one after another. -/
def readWords (a : Agent) (sp : Space) : Nat → Nat → State → List Byte × State
  | 0, _, s => ([], s)
  | n + 1, w, s =>
    let (x, s) := readWord s a sp w
    let (rest, s) := readWords a sp n (w + 1) s
    (bytesOf 8 x.toNat ++ rest, s)

/-- n bytes at an address as an agent reads them, word by word (R287). -/
def readAs (s : State) (a : Agent) (sp : Space) (addr n : Nat) : List Byte × State :=
  if s.log.any fun r => r.space = sp && decide (addr < 8 * r.word + 8) && decide (8 * r.word < addr + n) then
    let w0 := addr / 8
    let w1 := (addr + n + 7) / 8
    let (bs, s) := readWords a sp (w1 - w0) w0 s
    ((bs.drop (addr % 8)).take n, s)
  else (rawRead s sp addr n, s)

/-- The log records of n aligned words from w, changed from one state to another, with identities from `id` (R283). -/
def wordRecs (a : Agent) (sp : Space) (old new : State) : Nat → Nat → Nat → List WriteRec
  | 0, _, _ => []
  | n + 1, w, id =>
    { id := id, space := sp, word := w,
      old := BitVec.ofNat 64 (natOfBytes (rawRead old sp (8 * w) 8)),
      new := BitVec.ofNat 64 (natOfBytes (rawRead new sp (8 * w) 8)), by' := a, pubs := ([] : List Inst), fill := none } ::
    wordRecs a sp old new n (w + 1) (id + 1)

/-- Bytes written at an address by an agent: they take their places in coherence order as its own (R281, R283). -/
def writeAs (s : State) (a : Agent) (sp : Space) (addr : Nat) (bs : List Byte) : State :=
  if bs.isEmpty then s else
  let w0 := addr / 8
  let n := (addr + bs.length + 7) / 8 - w0
  let t := rawWrite s sp addr bs
  let v := getView s a
  let ids := (List.range n).map (s.fresh + ·)
  let t := setView t { v with own := v.own ++ ids, mine := v.mine ++ ids }
  { t with log := t.log ++ wordRecs a sp s t n w0 s.fresh, fresh := s.fresh + n }

/-- The last write of a full/empty word kept as that of a FILL which releases to an instance (R245, R289). -/
def markFill (s : State) (pa : Nat) (i : Inst) : State :=
  match (s.log.filter fun r => r.space = .hbm && r.word = pa / 8).getLast? with
  | none => s
  | some w => { s with log := s.log.map fun r => if r.id = w.id then { r with fill := some i } else r }

/-- The last write of each word of a range in coherence order. -/
def newestIds (s : State) (sp : Space) (addr n : Nat) : List Nat :=
  (List.range ((addr + n + 7) / 8 - addr / 8)).filterMap fun i =>
    ((s.log.filter fun r => r.space = sp && r.word = addr / 8 + i).getLast?).map fun r => r.id

/-- n bytes as they stand at the point of an operation in coherence order (R293, R294), which an agent has then read (R283). -/
def readNewest (s : State) (a : Agent) (sp : Space) (addr n : Nat) : List Byte × State :=
  (rawRead s sp addr n, noteRead s a (newestIds s sp addr n))

/-! ### Boundaries, publication, acquires -/

/-- The writes that a boundary of an agent publishes (R284): its own and its snapshot's. -/
def boundaryWrites (s : State) (a : Agent) : List Nat :=
  let v := getView s a
  (v.own ++ v.snap).eraseDups

/-- The instances that a boundary of scope reaches (R284): the agent's of that scope and every narrower one, now and
since its last boundary. -/
def boundaryInsts (s : State) (a : Agent) (scope : Nat) : List Inst :=
  (memberOf s a ++ (getView s a).insts).eraseDups.filter fun i => decide (instScope i ≤ scope)

/-- Writes published to instances (R284). -/
def publish (s : State) (writes : List Nat) (is : List Inst) : State :=
  { s with log := s.log.map fun r =>
      if writes.contains r.id then { r with pubs := (r.pubs ++ is).eraseDups } else r }

/-- The earlier publications of an agent that are not complete (R159). -/
def pendingPubs (s : State) (a : Agent) : List Nat :=
  (s.pubs.filter fun p => p.agent = a && p.after.isEmpty).map (·.id)

/-- A phase boundary whose publication completes in this step: every write it covers is applied (R284, R286). -/
def boundaryNow (s : State) (a : Agent) (scope : Nat) : State :=
  let s := publish s (boundaryWrites s a) (boundaryInsts s a scope)
  let s := bringUp s a
  let v := getView s a
  setView s { v with insts := memberOf s a }

/-- A phase boundary whose publication completes later (R159), with a barrier arrival held behind it. -/
def boundaryLater (s : State) (a : Agent) (scope : Nat) (arrive : Option ((Bool × Nat × Nat) × Int)) : State :=
  let (id, s) := fresh s
  let p : Publication :=
    { id := id, agent := a, insts := boundaryInsts s a scope, writes := boundaryWrites s a, arrive := arrive
      after := [] }
  let s := bringUp s a
  let v := getView s a
  let s := setView s { v with insts := memberOf s a }
  addFreeTimer { s with pubs := s.pubs ++ [p] } (.publicationComplete id)

/-- An agent acquires, where an operation does (R289). -/
def bringIf (acquire : Bool) (s : State) (a : Agent) : State := if acquire then bringUp s a else s

end Sys2Proof.Machine
end

