-- ==== Sys2Proof/Machine/Translate.lean ====
section
/-! DEFINITION. Translation: ASID entries, the five-level walk, the outcomes of R252, the TLB, block maps,
second-stage entries and version descriptors (R246 to R277). Tables lie in HBM and are read there. -/

namespace Sys2Proof.Machine

/-- A little-endian number of n bytes of HBM as it stands. -/
def hbmNat (s : State) (pa n : Nat) : Nat := natOfBytes (rawRead s .hbm pa n)

/-- A number written to HBM by the hardware itself: tables, references, entries, records. -/
def hbmPut (s : State) (pa n v : Nat) : State := dropLog (rawWrite s .hbm pa (bytesOf n v)) .hbm pa n

/-- The ASID table entry (R248). -/
def getAsid (s : State) (a : Nat) : AsidEntry := (alGet s.asids a).getD { root := 0, gen := 0, owner := 0 }

/-- The frame table entry of a frame (R260), by its first 4 KiB. -/
def getFrame (s : State) (pa : Nat) : Frame := (alGet s.frames (pa / 4096)).getD { owner := 0, shares := 0, size := 0 }

/-- The frame table entry replaced. -/
def setFrame (s : State) (pa : Nat) (f : Frame) : State := { s with frames := alSet s.frames (pa / 4096) f }

/-! ### Translation entries (R251) -/

def teV (e : Nat) : Bool := e.testBit 0
def teLeaf (e : Nat) : Bool := e.testBit 1
def teW (e : Nat) : Bool := e.testBit 2
def teX (e : Nat) : Bool := e.testBit 3
def teVers (e : Nat) : Bool := e.testBit 4
def teMig (e : Nat) : Bool := e.testBit 5
def teShr (e : Nat) : Bool := e.testBit 6
def teRem (e : Nat) : Bool := e.testBit 7
def teBlk (e : Nat) : Bool := e.testBit 8
def teAddr (e : Nat) : Nat := bits e 47 12 * 4096
def teAux (e : Nat) : Nat := bits e 57 48

/-- Whether an address names an existing stack (R247). -/
def stackOk (pa : Nat) : Bool := bits pa 39 36 < 12 && pa < 2 ^ 40

/-- The page size of a leaf at a level (R250). -/
def pageSize (level : Nat) : Nat := if level = 1 then 2 ^ 25 else 2 ^ 16

/-- R251: a valid entry that is malformed at its level. -/
def malformed (level e : Nat) : Bool :=
  teV e &&
  (bits e 11 9 ≠ 0 || bits e 63 58 ≠ 0 ||
   (level = 0 && !teLeaf e) || (1 < level && teLeaf e) ||
   (0 < level && (teVers e || teBlk e)) || (teVers e && teBlk e) || ((teVers e || teBlk e) && teRem e) ||
   (teShr e && (teVers e || teBlk e)) ||
   (teLeaf e && teAddr e % pageSize level ≠ 0) ||
   (!(teRem e || teVers e || teBlk e) && teAux e ≠ 0) ||
   (teVers e && teAux e / 128 ≠ 0) || (teBlk e && teAux e / 32 ≠ 0) ||
   !stackOk (teAddr e))

/-- What a walk meets (R252, R254): an entry that parks, a malformed entry at an address, or a leaf. -/
inductive Walk
  | park
  | bad (pa : Nat)
  | leaf (level : Nat) (e : Nat)
deriving DecidableEq, Repr, Inhabited

/-- The index of a virtual address at a level (R250). -/
def levelIndex (va level : Nat) : Nat :=
  match level with
  | 4 => bits va 55 52
  | 3 => bits va 51 43
  | 2 => bits va 42 34
  | 1 => bits va 33 25
  | _ => bits va 24 16

/-- The walk from a table through the levels left (R250, R252). -/
def walkFrom (s : State) (va : Nat) : Nat → Nat → Walk
  | level, base =>
    let pa := base + 8 * levelIndex va level
    let e := hbmNat s pa 8
    if malformed level e then .bad pa
    else if !teV e || teMig e then .park
    else if teLeaf e then .leaf level e
    else match level with
      | 0 => .bad pa
      | l + 1 => walkFrom s va l (teAddr e)

/-- The walk of a virtual address in an ASID; an ASID with no table parks. -/
def walk (s : State) (asid va : Nat) : Walk :=
  let a := getAsid s asid
  if a.root = 0 then .park else walkFrom s va 4 a.root

/-- The virtual base of the page a leaf at a level maps. -/
def pageBase (level va : Nat) : Nat := va / pageSize level * pageSize level

/-- The known incarnation of a package; 0 unknown (R262). -/
def knownInc (s : State) (pkg : Nat) : Word := (alGet s.known pkg).getD 0

/-- The engine that serves a cluster (R21). -/
def getEngine (s : State) (cl : Nat) : Engine :=
  (s.engines.find? fun e => e.cluster = cl).getD { cluster := cl, tlb := [] }

/-- An engine replaced. -/
def setEngine (s : State) (e : Engine) : State :=
  { s with engines := s.engines.filter (fun f => f.cluster ≠ e.cluster) ++ [e] }

/-- A TLB hit (R249, R254, R263): an entry of the ASID's current generation, and for a REM leaf of the target's known
incarnation. -/
def tlbLookup (s : State) (cl asid va : Nat) : Option TlbEntry :=
  (getEngine s cl).tlb.find? fun t =>
    t.asid = asid && t.gen = (getAsid s asid).gen && t.va = pageBase t.level va &&
    (!teRem t.entry.toNat || t.inc = knownInc s (teAux t.entry.toNat))

/-- A fill of the TLB (R254), which holds 4,096 entries; the oldest is displaced. -/
def tlbFill (s : State) (cl asid va level e : Nat) : State :=
  let t : TlbEntry :=
    { asid := asid, gen := (getAsid s asid).gen, va := pageBase level va, level := level,
      entry := BitVec.ofNat 64 e, inc := if teRem e then knownInc s (teAux e) else 0 }
  let g := getEngine s cl
  let kept := g.tlb.filter fun u => !(u.asid = asid && u.va = t.va && u.level = level)
  let kept := if 4096 ≤ kept.length then kept.drop 1 else kept
  let s := setEngine s { g with tlb := kept ++ [t] }
  if teRem e && !(s.remoteAsids.contains (teAux e, asid)) then
    { s with remoteAsids := s.remoteAsids ++ [(teAux e, asid)] }
  else s

/-- Every engine's entries of an ASID removed (R249, the wrap). -/
def tlbDrop (s : State) (asid : Nat) : State :=
  { s with engines := s.engines.map fun g => { g with tlb := g.tlb.filter fun t => t.asid ≠ asid } }

/-- The packets of an ASID's accesses on their way to other packages: translated, and not yet performed there. -/
def inFlight (s : State) (asid : Nat) : List Nat :=
  s.cmds.filterMap fun k => match k.st with
    | .remoteWait _ num => if k.asid = asid ∧ num ≠ 0 then some num else none
    | _ => none

/-- A generation raised (R249): observed by every engine at once. Each access here that has been translated is already
performed; those under way to other packages hold the raise's end back, which is seen later. The wrap removes every entry, those that
commands keep among them, and every line of the ASID. -/
def raiseGen (s : State) (asid : Nat) : State :=
  let a := getAsid s asid
  let (due, s) := freeDue s
  let s := { s with
    asids := alSet s.asids asid { a with gen := (a.gen + 1) % 2 ^ 16 }, raises := s.raises ++ [(asid, due, inFlight s asid)] }
  if a.gen = 0xFFFF then
    let s := tlbDrop s asid
    { s with
      cmds := s.cmds.map fun k => { k with trans := k.trans.filter fun t => t.asid ≠ asid }
      cores := s.cores.map fun k => (k.1, { k.2 with lines := k.2.lines.filter fun l => l.asid ≠ asid }) }
  else s

/-! ### Blocks and versions -/

/-- A block reference (R266). -/
def refGbn (r : Nat) : Nat := bits r 29 0
def refPkg (r : Nat) : Nat := bits r 41 32
def refTier (r : Nat) : Nat := bits r 43 42
def refV (r : Nat) : Bool := r.testBit 63

/-- A reference to a block of this package in tier 0. -/
def mkRef (pkg gbn : Nat) : Nat := gbn % 2 ^ 30 + (pkg % 1024) * 2 ^ 32 + 2 ^ 63

/-- The address of a GBN's second-stage entry (R268). -/
def gbnAddr (s : State) (g : Nat) : Nat := s.gbnBase + 32 * g

/-- A second-stage entry (R268). -/
def gbnEntry (s : State) (g : Nat) : Nat := hbmNat s (gbnAddr s g) 32

/-- A second-stage entry replaced by the hardware: a word that changes stands so for whoever reads it. -/
def setGbn (s : State) (g e : Nat) : State :=
  let pa := gbnAddr s g
  let t := rawWrite s .hbm pa (bytesOf 32 e)
  (List.range 4).foldl (fun t i =>
    if hbmNat s (pa + 8 * i) 8 = bits e (64 * i + 63) (64 * i) then t else dropLog t .hbm (pa + 8 * i) 8) t

/-- VALID and BASE of a second-stage entry replaced by an agent's write, which an NMA unit sees as any write (R295). -/
def putValid (s : State) (a : Agent) (g e : Nat) : State :=
  let pa := gbnAddr s g
  (List.range 2).foldl (fun t i =>
    let w := bits e (64 * i + 63) (64 * i)
    if hbmNat s (pa + 8 * i) 8 = w then t else writeAs t a .hbm (pa + 8 * i) (bytesOf 8 w)) s

def geFrame (e : Nat) : Nat := bits e 35 0 * 4096
def geValid (e : Nat) : Nat := bits e 55 40
def geBase (e : Nat) : Nat := bits e 103 64
def geRefcnt (e : Nat) : Nat := bits e 127 112
def geFp (e : Nat) : Nat := bits e 191 128
def geOwner (e : Nat) : Nat := bits e 203 192
def geShr (e : Nat) : Bool := e.testBit 204
def gePin (e : Nat) : Bool := e.testBit 205
def geCmp (e : Nat) : Bool := e.testBit 206
def geLive (e : Nat) : Bool := e.testBit 207
def geFpv (e : Nat) : Bool := e.testBit 208

/-- A second-stage entry with its reference count, SHR following it (R268, R272). -/
def geSetRefcnt (e n : Nat) : Nat := putBits (putBits e 127 112 n) 204 204 (if 2 ≤ n then 1 else 0)

/-- The address of the reference of block b of the map a BLK leaf names (R267). -/
def refAddr (leaf va : Nat) : Nat := teAddr leaf + 128 * bits (teAux leaf) 4 0 + 8 * bits va 15 12

/-- Full/empty bits of a range made empty (R253, R261). -/
def emptyBits (s : State) (pa n : Nat) : State :=
  { s with full := s.full.filter fun a => decide (a < pa) || decide (pa + n ≤ a) }

/-- The full/empty bit of an aligned word (R153). -/
def isFull (s : State) (pa : Nat) : Bool := s.full.contains pa

/-- The full/empty bit set or cleared. -/
def setFull (s : State) (pa : Nat) (b : Bool) : State :=
  if b then { s with full := setInsert pa s.full } else { s with full := s.full.filter fun a => a ≠ pa }

/-- The parts of veils outside a range. -/
def cutVeils (lo hi : Nat) (vs : List (Nat × Nat × Nat × Mem)) : List (Nat × Nat × Nat × Mem) :=
  vs.flatMap fun v =>
    if hi ≤ v.1 ∨ v.2.1 ≤ lo then [v]
    else
      let part := fun (a b : Nat) => if a < b then [(a, b, v.2.2.1, v.2.2.2.filter fun c => decide (a ≤ c.1) && decide (c.1 < b))] else []
      part v.1 lo ++ part hi v.2.1

/-- The bytes of a range of HBM replaced by bytes that nothing is known of (R261). -/
def blur (s : State) (pa n : Nat) : State :=
  let (k, s) := fresh s
  dropLog { s with
    hbm := memClear s.hbm pa n, fog := cutFog pa (pa + n) s.fog ++ [(pa, pa + n, k)], veils := cutVeils pa (pa + n) s.veils } .hbm pa n

/-- The whole cipher blocks of a range in which no byte has been written since they came to stand under another key. -/
def untouchedBlocks (s : State) (lo hi : Nat) : List (Nat × Nat) :=
  (s.fog.map fun f => ((max f.1 lo + 15) / 16 * 16, min f.2.1 hi / 16 * 16)).filter fun r => decide (r.1 < r.2)

/-- The ranges of [lo, hi) outside some ranges. -/
def outside (lo hi : Nat) (rs : List (Nat × Nat)) : List (Nat × Nat) :=
  rs.foldl (fun acc r => acc.flatMap fun a =>
    if r.2 ≤ a.1 ∨ a.2 ≤ r.1 then [a]
    else (if a.1 < r.1 then [(a.1, r.1)] else []) ++ (if r.2 < a.2 then [(r.2, a.2)] else [])) [(lo, hi)]

/-- What stands in a range under other keys than a new one, and the bytes that the new key makes readable again (R259): the
bytes known under the old key come to stand veiled; a block veiled before and not written since keeps its key. -/
def reveil (s : State) (lo hi old key : Nat) : List (Nat × Nat × Nat × Mem) × List (Nat × Nat × Nat × Mem) :=
  let kept := untouchedBlocks s lo hi
  let inside := fun (v : Nat × Nat × Nat × Mem) =>
    (max v.1 lo, min v.2.1 hi, v.2.2.1, v.2.2.2.filter fun c => decide (lo ≤ c.1) && decide (c.1 < hi))
  let inRange := fun (r : Nat × Nat) => s.hbm.filter fun c => decide (r.1 ≤ c.1) && decide (c.1 < r.2)
  let veiled := (s.veils.map inside).filter fun v => decide (v.1 < v.2.1)
  let before := (outside lo hi kept).foldl (fun vs r => cutVeils r.1 r.2 vs) veiled
  let now := (outside lo hi (s.fog.map fun f => (f.1, f.2.1))).map fun r => (r.1, r.2, old, inRange r)
  ((before ++ now).filter (fun v => v.2.2.1 ≠ key), before.filter fun v => v.2.2.1 = key)

/-- Bytes that a key makes readable again. -/
def unveil (s : State) (v : Nat × Nat × Nat × Mem) : State :=
  { s with hbm := v.2.2.2.foldl (fun m c => memPut m c.1 [c.2]) s.hbm, fog := cutFog v.1 v.2.1 s.fog }

/-- A range of HBM that comes to stand under another key (R259, R261): its bytes are left-over bytes of no usable relation, but
for the cipher blocks that were last written under the new key. -/
def rekey (s : State) (pa n old key : Nat) : State :=
  let (hidden, back) := reveil s pa (pa + n) old key
  let others := cutVeils pa (pa + n) s.veils
  back.foldl unveil { blur s pa n with veils := others ++ hidden }

/-- The keys under which the bytes of a range stand (R259), as (low, high, key): what no owner's frame has held stands under the
root monitor's. -/
def keysIn (s : State) (lo hi : Nat) : List (Nat × Nat × Nat) :=
  let own := (s.keyed.map fun r => (max r.1 lo, min r.2.1 hi, r.2.2)).filter fun r => decide (r.1 < r.2.1)
  own ++ (outside lo hi (own.map fun r => (r.1, r.2.1))).map fun r => (r.1, r.2, 0)

/-- A range that comes under an owner's key: its bytes become left-over bytes of no usable relation unless they stand under that
key (R259, R261). -/
def claimKeys (s : State) (pa size owner : Nat) : State :=
  let old := (keysIn s pa (pa + size)).filter fun r => r.2.2 ≠ owner
  let s := { s with keyed := cutFog pa (pa + size) s.keyed ++ [(pa, pa + size, owner)] }
  old.foldl (fun s r => rekey s r.1 (r.2.1 - r.1) r.2.2 owner) s

/-- A frame taken for an owner, under the owner's key and with its full/empty bits empty (R261). -/
def stampFrame (s : State) (pa size owner shares : Nat) : State :=
  let s := setFrame s pa { owner := owner, shares := shares, size := size }
  claimKeys (emptyBits s pa size) pa size owner

/-- A frame that no reference is left to: it has no owner (R260). -/
def clearFrame (s : State) (pa : Nat) : State := setFrame s pa { getFrame s pa with owner := 0, shares := 0 }

/-- The head of the block-frame list for an owner (R261). -/
def takeBlockFrame (s : State) (owner : Nat) : Option (Nat × State) :=
  match s.freeBlocks with
  | [] => none
  | pa :: rest => some (pa, stampFrame { s with freeBlocks := rest } pa 4096 owner 0)

/-- A GBN and block frame taken together (R270). -/
def takeBlock (s : State) (owner : Nat) : Option (Nat × Nat × State) :=
  match s.freeGbns with
  | [] => none
  | g :: gs =>
    match takeBlockFrame { s with freeGbns := gs } owner with
    | some (pa, s) => some (g, pa, s)
    | none => none

/-- A new LIVE entry of an owner (R270): REFCNT 1, VALID 0xFFFF, BASE 0, FPV 0. -/
def newGbnEntry (frame owner : Nat) : Nat :=
  frame / 4096 + 0xFFFF * 2 ^ 40 + 2 ^ 112 + owner * 2 ^ 192 + 2 ^ 207

/-- The GBN leaves the deduplication index (R271, R272). -/
def dedupDrop (s : State) (g : Nat) : State :=
  { s with dedup := s.dedup.filter fun d => d.2.2 ≠ g }

/-- A block that no reference is left to goes (R272): its entry is cleared, its GBN returns to its list, and so does its frame
where it has one: a block on tier 1 or 2 leaves its place there. -/
def freeGbn (s : State) (g : Nat) : State :=
  let pa := geFrame (gbnEntry s g)
  let s := setGbn (dedupDrop s g) g 0
  let s := { s with freeGbns := s.freeGbns ++ [g] }
  if s.tiered.any fun t => t.1 = g then { s with tiered := s.tiered.filter fun t => t.1 ≠ g }
  else { clearFrame s pa with freeBlocks := s.freeBlocks ++ [pa] }

/-- A release of a GBN (R272). -/
def releaseGbn (s : State) (g : Nat) : State :=
  let e := gbnEntry s g
  let n := geRefcnt e - 1
  if n = 0 && !gePin e then freeGbn s g else setGbn s g (geSetRefcnt e n)

/-- A partition record (R276). -/
def getPart (s : State) (p : Nat) : PartRec := (alGet s.parts p).getD { ver := 0, cur := false, rd0 := 0, rd1 := 0 }

/-- A partition record replaced. -/
def setPart (s : State) (p : Nat) (r : PartRec) : State := { s with parts := alSet s.parts p r }

/-- The address of the version descriptor of a VERS leaf (R276). -/
def versAddr (leaf : Nat) : Nat := teAddr leaf + 32 * bits (teAux leaf) 6 0

/-- The address of the entry of a virtual address at a level, from a table above it. -/
def entryAddr (s : State) (va level : Nat) : Nat → Nat → Nat
  | 0, base => base + 8 * levelIndex va 0
  | l + 1, base =>
    let pa := base + 8 * levelIndex va (l + 1)
    if l + 1 = level then pa else entryAddr s va level l (teAddr (hbmNat s pa 8))

/-- Bytes and full/empty bits of a range copied to another (R257, R274). -/
def copyFrame (s : State) (src dst n : Nat) : State :=
  let s := dropLog (rawWrite s .hbm dst (rawRead s .hbm src n)) .hbm dst n
  let moved := (s.full.filter fun a => decide (src ≤ a) && decide (a < src + n)).map fun a => a - src + dst
  { s with full := moved.foldl (fun l a => setInsert a l) (s.full.filter fun a => !(decide (dst ≤ a) && decide (a < dst + n))) }

/-- The entry of a 64 KiB page rewritten after its copy-on-write (R274), and the generation raised. -/
def installOwn (s : State) (asid va e : Nat) : State :=
  raiseGen (hbmPut s (entryAddr s va 0 4 (getAsid s asid).root) 8 e) asid

/-- Copy-on-write of a shared 64 KiB page of this package (R274): the frame that the write goes to, its entry installed and the
generation raised; none where no page frame is free. -/
def ownFrame (s : State) (asid owner va e : Nat) : Option (Nat × State) :=
  let pa := teAddr e
  let fr := getFrame s pa
  let own := putBits e 6 6 0
  if fr.shares ≤ 1 then some (pa, installOwn s asid va own)
  else match s.freePages with
    | [] => none
    | np :: rest =>
      let s := stampFrame { s with freePages := rest } np (2 ^ 16) owner 1
      let s := setFrame (copyFrame s pa np (2 ^ 16)) pa { fr with shares := fr.shares - 1 }
      some (np, installOwn s asid va (putBits own 47 12 (np / 4096)))

/-! ### The hardware's own virtual accesses -/

/-- The physical address of a plain read by the hardware itself (STATE and LSTAT of an RCB): none where the page
does not stand as a plain local leaf. -/
def sysTranslate (s : State) (asid va : Nat) : Option Nat :=
  match walk s asid va with
  | .leaf level e => if teRem e || teVers e || teBlk e then none else some (teAddr e + va % pageSize level)
  | _ => none

/-- Bytes of a plain page, byte by byte across pages. -/
def sysRead (s : State) (asid : Nat) : Nat → Nat → Option (List Byte)
  | 0, _ => some []
  | n + 1, va =>
    match sysTranslate s asid va, sysRead s asid n (va + 1) with
    | some pa, some rest => some (rawRead s .hbm pa 1 ++ rest)
    | _, _ => none

/-- What a write of the hardware's own meets (R252, R274, R302): the byte's place, a wait for the firmware with the KIND that it
reports, or a page that cannot be written. -/
inductive SysPlace
  | at' (pa : Nat) (s : State)
  | waits (kind : Nat)
  | never

/-- The place of a write by the hardware itself: a plain page of this package, after its copy-on-write where it is shared. A page
of another package, a versioned page and a block aperture are not written (DESIGN CHOICE, log 148). -/
def sysPlace (s : State) (asid va : Nat) : SysPlace :=
  match walk s asid va with
  | .park => if (getAsid s asid).root = 0 then .never else .waits 1
  | .bad _ => .never
  | .leaf level e =>
    let off := va % pageSize level
    if teRem e || teVers e || teBlk e then .never
    else if teShr e then
      if level = 1 then .waits 6
      else match ownFrame s asid (getAsid s asid).owner va e with
        | some (pa, s) => .at' (pa + off) s
        | none => .never
    else if teW e then .at' (teAddr e + off) s
    else .never

/-- Bytes written inside one page, published as they are written; none where the page waits for the firmware. -/
def sysTry (s : State) (asid va : Nat) (bs : List Byte) : Option State :=
  match sysPlace s asid va with
  | .at' pa s =>
    let t := writeAs s (.unit .monitor) .hbm pa bs
    some (publish t ((t.log.drop s.log.length).map fun r => r.id) [.package, .domain])
  | .waits _ => none
  | .never => some s

/-- The fault record of a write of the hardware's own that waits for the firmware (R255): no core, no context, no index. -/
def sysRecord (s : State) (asid va kind : Nat) : Out :=
  .faultRecord (BitVec.ofNat 256 (va % 2 ^ 56 + kind * 2 ^ 56 + asid % 4096 * 2 ^ 64 + (getAsid s asid).gen % 2 ^ 16 * 2 ^ 76))

/-- Bytes written by the hardware itself to an RCB, inside one page (R302, R304, R318): a write that parks waits for the firmware,
as a copy does (R255), and later ones of its ASID behind it; one that no page takes is dropped (log 148). -/
def sysWrite (s : State) (asid va : Nat) (bs : List Byte) : State :=
  let later := { s with sysWaits := s.sysWaits ++ [(asid, va, bs)] }
  if s.sysWaits.any fun w => w.1 = asid then later
  else match sysPlace s asid va with
    | .waits kind => emit later (sysRecord s asid va kind)
    | _ => (sysTry s asid va bs).getD s

/-- The writes that wait tried again, each ASID's in order. -/
def retrySys (s : State) : State :=
  s.sysWaits.foldl (fun s w =>
    let behind := s.sysWaits.any fun v => v.1 = w.1
    match (if behind then none else sysTry s w.1 w.2.1 w.2.2) with
    | some s => s
    | none => { s with sysWaits := s.sysWaits ++ [w] }) { s with sysWaits := [] }

end Sys2Proof.Machine
end

