-- ==== Sys2Proof/Machine/Ops.lean ====
section
/-! DEFINITION. The operations every slot meaning shares: the guard, results and marks of the bundle being
issued (R81 to R87), imprecise faults held (R137), taking a trap (R316, R317), the fault domain's abort
(R318), and the return that ends handler mode. -/

namespace Sys2Proof.Machine

/-- What a step answers. -/
abbrev Ans := Host.Outcome State Fault Refusal

/-! ### The bundle being issued -/

/-- R81: whether an instruction executes, from the predicates seen at issue; p0 reads 1. -/
def executes (x : Ctx) (pred : BitVec 3) (psense : Bool) : Bool :=
  (pred = 0 || x.seen.p.getLsbD pred.toNat) != psense

/-- The record of the bundle being issued, changed. -/
def modIssue (x : Ctx) (f : Issue → Issue) : Ctx := { x with issue := x.issue.map f }

/-- A result for the queue and latch that a destination names (R68, R82, R87), reserved when the bundle's effects
are applied. `base` is the slot's lower latch; `view` marks the handle of a `view`. -/
def addResult (x : Ctx) (dst : BitVec 8) (bank : Bank) (base latency : Nat) (v : Val) (view : Bool := false) : Ctx :=
  let r : Result :=
    { queue := if dst.getLsbD 7 then none else some (bank, dst.toNat % 64 % 32),
      latch := base + (if dst.getLsbD 6 then 1 else 0), latency := latency, val := v, view := view }
  modIssue x fun i => { i with results := i.results ++ [r] }

/-- A queue marked dead when the bundle's marks are applied (R83 step 2, R85). -/
def addMark (x : Ctx) (q : Bank × Nat) : Ctx := modIssue x fun i => { i with marks := i.marks ++ [q] }

/-- A boundary point reached by the bundle (R35). -/
def addBoundary (x : Ctx) : Ctx := modIssue x fun i => { i with boundary := true }

/-- A control transfer of the bundle (R111). -/
def addTransfer (x : Ctx) (t : Transfer) : Ctx := modIssue x fun i => { i with transfer := some t }

/-- A wait that begins when the bundle has issued (R124, R128, R321). -/
def addWait (x : Ctx) (w : Wait) : Ctx := modIssue x fun i => { i with wait := w }

/-- The PC of the bundle being issued. -/
def issuePc (x : Ctx) : Word :=
  match x.issue with
  | some i => i.pc
  | none => x.pc

/-- The repetition being issued (R91). -/
def issueRep (x : Ctx) : Nat :=
  match x.issue with
  | some i => i.rep
  | none => 0

/-! ### Queues -/

/-- A queue of a context. -/
def getQueue (x : Ctx) (b : Bank) (n : Nat) : Queue :=
  match b with
  | .v => x.v.toList.getD n default
  | .s => x.s.toList.getD n default

/-- A queue replaced. -/
def setQueue (x : Ctx) (b : Bank) (n : Nat) (q : Queue) : Ctx :=
  match b with
  | .v => { x with v := x.v.setIfInBounds n q }
  | .s => { x with s := x.s.setIfInBounds n q }

/-- A queue marked dead (R85): its entries discarded; results in flight find no entry. -/
def killQueue (x : Ctx) (b : Bank) (n : Nat) : Ctx := setQueue x b n { dead := true, entries := [] }

/-- An entry joined to a queue, reviving a dead one as empty (R85). -/
def joinQueue (q : Queue) (e : QEntry) : Queue :=
  if q.dead then { dead := false, entries := [e] } else { q with entries := q.entries ++ [e] }

/-- Whether the head of a queue has landed. -/
def headLanded (q : Queue) : Bool :=
  match q.entries with
  | e :: _ => e.val.isSome
  | [] => false

/-- The number of landed entries (R105). -/
def landedCount (q : Queue) : Nat := (q.entries.filter fun e => e.val.isSome).length

/-! ### Leaving a context -/

/-- A context emptied: the core's shared paths free of it, and the count of empty cycles begun when its other
context is empty too (R42). -/
def vacate (s : State) (c : CtxId) : State :=
  let s := delCtx s c
  let s := modCore s c.core fun k =>
    { k with
      emptySince := s.now
      dp := match k.dp with
        | some (n, u) => if n = c.ctx then none else some (n, u)
        | none => none }
  if (getCtx s (otherCtx c)).isNone then addTimer s (s.now + 65536) (.coreGating c.core) else s

/-- A command that reaches a partition record in this cycle (R358). -/
def reachPart (s : State) (p : Nat) (o : PartOp) : State := { s with partOps := s.partOps ++ [(p, s.now, o)] }

/-- The policy snapshot a context holds released (R160, R355): a release on its way to the partition record. -/
def releaseSnap (s : State) (region : Nat) (snap : Option (Word × Bool)) : State :=
  match snap, (getRegion s region).part with
  | some (_, idx), some p => reachPart s p (.release idx)
  | _, _ => s

/-- The snapshot a task holds, resident or saved. -/
def taskSnap (s : State) (t : Task) : Option (Word × Bool) :=
  match ctxOfTask s t.uid with
  | some c => (getCtx s c).bind fun x => x.snap
  | none => t.saved.bind fun x => x.snap

/-! ### The fault domain -/

/-- What a trap carries (R91). -/
structure TrapInfo where
  code : Nat
  slot : Nat
  cls : Nat
  opnd : Nat
  tpc : Word
  tinfo : Word
deriving DecidableEq, Repr, Inhabited

/-- TCAUSE of a trap (R91). -/
def tcauseOf (i : TrapInfo) : Word :=
  BitVec.ofNat 32 (i.code % 256 + i.slot % 8 * 2 ^ 8 + i.cls % 4 * 2 ^ 11 + i.opnd % 64 * 2 ^ 13)

/-- The 32-byte record of the fault domain (R318). -/
def domainRecord (i : TrapInfo) (core ctx rcb task : Nat) : BitVec 256 :=
  BitVec.ofNat 256 ((tcauseOf i).toNat + i.tpc.toNat * 2 ^ 32 + i.tinfo.toNat * 2 ^ 64 + core % 1024 * 2 ^ 96 +
    ctx % 2 * 2 ^ 106 + rcb % 2 ^ 64 * 2 ^ 128 + task % 2 ^ 64 * 2 ^ 192)

/-- The record sent to the service firmware, which passes it to the host with FDOM (R318, R363). -/
def reportFault (s : State) (r : BitVec 256) (fdom : Nat) : State :=
  sendDevice (emit s (.domainRecord r)) 0x82 0 (bytesOf 32 r.toNat ++ bytesOf 2 fdom)

/-- The pieces of a task that are current merge as the identity (R318, R320). -/
def blankPieces (s : State) (uid : Nat) : State :=
  { s with pieces := s.pieces.map fun p =>
      if p.task = uid && !p.ended then { p with ended := true, identity := true } else p }

/-- The pieces that a task ended at a spawn whose hand-over has not been made are taken with their contents, as its window goes
(R318, R320); one whose spill has begun was copied then. -/
def seizePieces (s : State) (t : Task) : State :=
  { s with pieces := s.pieces.map fun p =>
      if p.task = t.uid && p.ended && !p.taken && !p.identity && p.spill.isNone then
        { p with taken := true, bytes := windowBytes s t p.view.off p.view.size }
      else p }

/-- A task enters ENDED as aborted from any other state (R32, R318): its slice stops at once, its results in
flight with it, its policy snapshot is released, its current pieces merge blank, the other side of its paired step abandons
that step (R210). -/
def abortTask (s : State) (t : Task) : State :=
  if t.st = .ended then s else
  let s := releaseSnap s t.region (taskSnap s t)
  let s := blankPieces (seizePieces s t) t.uid
  let s := match ctxOfTask s t.uid with
    | some c =>
      let s := match getCtx s c with
        | some x => abandonOther s s.now (some c) x
        | none => s
      addTurn (vacate s c) (.arbiterDecision (dieOf c.core))
    | none => match t.saved with
      | some x => abandonOther s s.now none x
      | none => s
  modTask s t.uid fun t => { t with st := .ended, aborted := true, saved := none, scratch := .none, slots := .none, tiles := .none }

/-- The STATE codes of R297. -/
def stateCode (st : RegionState) : Nat :=
  match st with
  | .admitted => 1
  | .ended => 3
  | .aborted => 4

/-- A region's state set and written to its RCB (R297); a root region's end is reported to the host (R363). -/
def setRegionState (s : State) (r : Nat) (st : RegionState) : State :=
  let g := getRegion s r
  let s := modRegion s r fun g => { g with st := st }
  let old := match sysRead s g.rcbAsid 1 (g.rcb + 56) with
    | some [b] => b.toNat
    | _ => 0
  let s := sysWrite s g.rcbAsid (g.rcb + 56) [BitVec.ofNat 8 (putBits old 3 0 (stateCode st))]
  if g.parent = 0 then sendDevice s 0x84 0 (bytesOf 8 g.rcb ++ bytesOf 1 (stateCode st)) else s

/-- One region of an aborted subtree (R318). -/
def abortRegion (s : State) (r : Nat) : State :=
  let s := (s.tasks.filter fun t => t.region = r).foldl abortTask s
  if (getRegion s r).st = .admitted then setRegionState s r .aborted else s

/-- The fault domain aborts a region and every descendant (R318) and sends the record. -/
def faultDomainAbort (s : State) (r : Nat) (record : BitVec 256) : State :=
  let s := reportFault s record (getRegion s r).fdom
  (subtree s r).foldl abortRegion s

/-- The fault domain's abort for a trap of a slice in a context (R318). -/
def abortSlice (s : State) (c : CtxId) (x : Ctx) (i : TrapInfo) : State :=
  let g := getRegion s x.region
  let task := match getTask s x.task with
    | some t => taskId t
    | none => 0
  faultDomainAbort { s with ops := [], undo := none } x.region (domainRecord i c.core c.ctx g.rcb task)

/-! ### Taking a trap -/

/-- The code of BUDGET (R92). -/
def codeBudget : Nat := 0x0B

/-- Whether a trap enters the region's handler (R316, R311): HNDL names one, the context is not in handler mode, and
it is not a second BUDGET. -/
def entersHandler (s : State) (x : Ctx) (code : Nat) : Bool :=
  (getRegion s x.region).hndl.toNat ≠ noneWord && !x.handler && !(code = codeBudget && x.extended)

/-- Handler entry (R317): TCAUSE, TPC and TINFO set, handler mode entered, a taken transfer to HNDL, which empties
sticky memory; latches, queues, loop stack and predicates kept. A BUDGET extends the slice once (R311). A paired step in
progress is abandoned on both sides (R210, log 28). -/
def enterHandler (s : State) (c : CtxId) (x : Ctx) (i : TrapInfo) : State :=
  let entry := (getRegion s x.region).hndl
  let own := pairOpen x || ((partnerCtx s c x).bind (getCtx s)).any pairOpen
  let s := abandonOther s s.now (some c) x
  let s := if (currentPair x).isSome then modCore s c.core fun k => { k with dp := k.dp.filter fun d => d.1 ≠ c.ctx } else s
  let x := if own then abandonCtx s.now c x else x
  let x := { x with
    tcause := tcauseOf i, tpc := i.tpc, tinfo := i.tinfo, handler := true,
    pc := entry, sticky := [], rep := 0, issue := none, wait := .none, awaited := none,
    sizing := none, nextIssue := s.now + 3 }
  let x := if i.code = codeBudget then { x with sbudget := 4096, extended := true } else x
  setCtx { s with ops := [], undo := none } c x

/-- TAKING A TRAP: a precise or imprecise trap of the context c, whose contents x are as the trap leaves them (R316):
the handler where one is entered, else the fault domain. -/
def takeTrap (s : State) (c : CtxId) (x : Ctx) (i : TrapInfo) : State :=
  if entersHandler s x i.code then enterHandler s c x i else abortSlice s c x i

/-- The context as it stood before the bundle being issued (R78): its stepping, pops and effects undone. -/
def undone (s : State) (x : Ctx) : Ctx := s.undo.getD x

/-- A precise trap at the bundle being issued (R78, R91), which it leaves without effect. -/
def preciseTrap (s : State) (x : Ctx) (code slot opnd : Nat) (tinfo : Option Word) : State :=
  takeTrap s s.cur (undone s x)
    { code := code, slot := slot, cls := 0, opnd := opnd, tpc := issuePc x,
      tinfo := tinfo.getD (BitVec.ofNat 32 (issueRep x % 16)) }

/-- An asynchronous trap, which skips the handler (R316). -/
def asyncTrap (s : State) (c : CtxId) (x : Ctx) (code slot : Nat) (tinfo : Word) : State :=
  abortSlice s c x { code := code, slot := slot, cls := 2, opnd := 0, tpc := x.pc, tinfo := tinfo }

/-- The end of handler mode (R317): TCAUSE, TPC and TINFO read zero from then on. -/
def leaveHandler (x : Ctx) : Ctx := { x with handler := false, tcause := 0, tpc := 0, tinfo := 0 }

/-! ### Imprecise faults -/

/-- The held fault delivered at a barrier instruction or yield (R137, R316), which is left without effect; the held
fault is cleared. -/
def reportHeld (s : State) (x : Ctx) (f : HeldFault) : State :=
  takeTrap s s.cur { undone s x with held := none }
    { code := f.code.toNat, slot := f.slot, cls := 1, opnd := f.opnd, tpc := issuePc x, tinfo := f.tinfo }

/-! ### Instruction fetch (R62, R258, R279) -/

/-- The instruction-store line of a virtual address: its 4 KiB-aligned base. -/
def lineVa (va : Nat) : Nat := va / 4096 * 4096

/-- The byte range a context's `lbuf` pins, as virtual addresses. -/
def pinned (x : Ctx) (va : Nat) : Bool :=
  match x.lbuf with
  | some (lo, hi) => decide (x.image + lo < va + 4096) && decide (va < x.image + hi)
  | none => false

/-- A line of the store that serves a context's fetch at a virtual address: of its region's ASID and the current
generation, or pinned (R249, R258). -/
def findLine (s : State) (c : CtxId) (x : Ctx) (va : Nat) : Option ILine :=
  let asid := (getRegion s x.region).asid
  (getCore s c.core).lines.find? fun l =>
    l.va = lineVa va && l.asid = asid && (l.gen = (getAsid s asid).gen || pinned x l.va)

/-- The parcel at a PC, if its line is in the store (R62). -/
def parcelAt (s : State) (c : CtxId) (x : Ctx) (pc : Nat) : Option Word :=
  let va := x.image + pc
  (findLine s c x va).map fun l => l.data.extractLsb' (8 * (va % 4096)) 32

/-- The slot states of a template in the order C, T, V, M, K (R63). -/
def slotState (t : Word) (i : Nat) : Nat := field t (27 - 2 * i) (26 - 2 * i)

/-- The number of present slots of a template (R64). -/
def presentCount (t : Word) : Nat := ((List.range 5).filter fun i => slotState t i = 2).length

/-- The parcels of the bundle whose template this is (R62). -/
def bundleParcels (t : Word) : Nat := 1 + 2 * presentCount t

/-- The parcels of the bundle at a PC, if its template is in the store. -/
def sizeAt (s : State) (c : CtxId) (x : Ctx) (pc : Word) : Option Nat :=
  (parcelAt s c x pc.toNat).map bundleParcels

/-- The line a fetch of a context needs. -/
def fetchLine (x : Ctx) (pc : Word) : Nat := lineVa (x.image + pc.toNat)

/-- Whether a command is a fill of a line for a core that is under way: joined to another it is queued (R279). -/
def fillUnderWay (core asid va : Nat) (k : Cmd) : Bool :=
  k.kind = .ifill && k.c.core = core && k.asid = asid && k.recAddr = va &&
    (match k.st with
     | .queued | .ending | .done _ => false
     | _ => true)

/-- The instruction fill of a line, started unless one is under way for it, which a fetch miss then waits on and an `ifill`
joins (R258, R279). -/
def startFill (s : State) (c : CtxId) (x : Ctx) (va : Nat) (tag : Option Nat) : State :=
  let g := getRegion s x.region
  let busy := s.cmds.any (fillUnderWay c.core g.asid va)
  if tag.isNone && busy then s
  else
    let (id, s) := fresh s
    let k : Cmd :=
      { blankCmd with
        id := id, kind := .ifill, cluster := clusterOf c.core, c := c, task := x.task, region := x.region, asid := g.asid
        owner := g.owner, agent := .ctx x.task, tag := tag.getD 64, recAddr := va
        st := if busy then .queued else .walking (getAsid s g.asid).gen va false }
    let s := { s with cmds := s.cmds ++ [k] }
    if busy then s else addFreeTimer s (.instructionFillComplete id)

/-- A bundle held before it issues until a parcel at a PC is present (R62): the context as it stood, waiting on the
fill, in which a pending pre-emption halts it at once (R280). A fill that fails is reported at `tpc`. -/
def holdForFill (s : State) (c : CtxId) (x : Ctx) (pc tpc : Word) : State :=
  startFill (setCtx { s with ops := [], undo := none } c
    { x with wait := .fill pc tpc, issue := none, halting := x.halting || x.preempt.isSome }) c x
    (fetchLine x pc) none

/-- Every pending fmt write applied, the newest last (R122). -/
def applyFmts (x : Ctx) : Ctx :=
  match x.fmtPend.getLast? with
  | some (_, w) => { x with fmt := w, fmtPend := [] }
  | none => x

/-- What every boundary point does to a context (R35, R79, R122): sticky memory idle, pending fmt writes applied. -/
def passBoundary (x : Ctx) : Ctx := applyFmts { x with sticky := [] }

/-- A bundle held before it issues on a wait for a tag, a barrier or a pool (R30, R33): the context as it stood, waiting.
The wait is a boundary point from its start (R35), so that the bundle reads the same fmt whether or not a halt falls in it
(R122), and in which a pending one halts it (R314). A `barw` keeps the phase it waits to leave. Log 23. -/
def holdBundle (s : State) (c : CtxId) (x : Ctx) (w : Wait) : State :=
  let aw := match w with
    | .barrier d b r => some ((d, b), r)
    | _ => x.awaited
  setCtx { s with ops := [], undo := none } c
    (passBoundary { x with wait := w, awaited := aw, issue := none, halting := x.halting || x.preempt.isSome })

/-! ### The shared entry of slot meanings -/

/-- What a slot instruction that executes does: its effect, a precise trap with an operand number (TINFO the
repetition unless given), the report of a held fault, or the hold of its bundle on a wait. -/
inductive SlotRes
  | done (s : State) (x : Ctx)
  | trap (code opnd : Nat) (tinfo : Option Word)
  | report (f : HeldFault)
  | hold (w : Wait)

/-- The shared entry of every slot meaning: the context whose bundle is being issued, the guard of R81, the effect or
the trap. `slot` is the slot's number in TCAUSE (R91). -/
def slotOp (slot : Nat) (pred : BitVec 3) (psense : Bool) (s : State) (k : Ctx → SlotRes) : Ans :=
  match getCtx s s.cur with
  | none => .fault .emptyContext
  | some x =>
    if !executes x pred psense then .next s
    else match k x with
      | .done s' x' => .next (setCtx s' s'.cur x')
      | .trap code opnd tinfo => .next (preciseTrap s x code slot opnd tinfo)
      | .report f => .next (reportHeld s x f)
      | .hold w => .next (holdBundle s s.cur (undone s x) w)

end Sys2Proof.Machine
end

