-- ==== Sys2Proof/Machine/Operands.lean ====
section
/-! DEFINITION. Every operand form of the slots: queue heads, peeks, last uses, dead queues, latches as scalars
and vectors (R67, R83 to R87, R101, R135, R166, R213), address registers (R108, R136), immediates. -/

namespace Sys2Proof.Machine

/-- A value read as a scalar: a vector gives lane 0 (R87). -/
def valS (v : Val) : Word :=
  match v with
  | .s w => w
  | .v x => vlane x 0

/-- A value read as a vector: a scalar is broadcast (R87). -/
def valV (v : Val) : Vec :=
  match v with
  | .s w => vsplat w
  | .v x => x

/-- The zero that a dead queue or lost latch reads as in relaxed mode (R86, R87). -/
def zeroVal (b : Bank) : Val :=
  match b with
  | .v => .v 0
  | .s => .s 0

/-- The kernel's dead-read mode is strict (R86). -/
def strict (x : Ctx) : Bool := hdrStrict x.hdr

/-- A latch read (R87): never pops, never waits; a lost latch reads zero or takes LATCH_LOST. -/
def readLatch (x : Ctx) (n : Nat) (b : Bank) : Except (Nat × Nat) Val :=
  match x.latches.toList.getD n .lost with
  | .lost => if strict x then .error (0x07, n) else .ok (zeroVal b)
  | .scalar w => .ok (.s w)
  | .vector v => .ok (.v v)

/-- The head of a queue removed, with the writes its taker now sees (R83, R240). -/
def popQueue (x : Ctx) (b : Bank) (n : Nat) (e : QEntry) (q : Queue) : Ctx :=
  modIssue (setQueue x b n { q with entries := q.entries.drop 1 }) fun i => { i with carried := i.carried ++ e.carry }

/-- A queue read (R83 to R86): the landed head, popped unless PEEK; a dead queue reads zero or takes DEAD_READ; no
landed head takes UNDERFLOW. -/
def readQueue (x : Ctx) (b : Bank) (n : Nat) (peek : Bool) : Except (Nat × Nat) (Val × Ctx) :=
  let q := getQueue x b n
  if q.dead then (if strict x then .error (0x06, n) else .ok (zeroVal b, x))
  else match q.entries with
    | [] => .error (0x05, n)
    | e :: _ =>
      match e.val with
      | none => .error (0x05, n)
      | some v => .ok (v, if peek then x else popQueue x b n e q)

/-- A source selector read (R67): a queue of the bank, marked dead after the read by LAST (R85), or a latch. An error
is a trap code with the operand number. -/
def readSel (x : Ctx) (sel : BitVec 8) (b : Bank) : Except (Nat × Nat) (Val × Ctx) :=
  let n := sel.toNat % 64
  if n < 32 then
    match readQueue x b n (sel.getLsbD 7) with
    | .error e => .error e
    | .ok (v, x) => .ok (v, if sel.getLsbD 6 then addMark x (b, n) else x)
  else match readLatch x (n - 32) b with
    | .error e => .error e
    | .ok v => .ok (v, x)

/-- A scalar operand on the s bank. -/
def readS (x : Ctx) (sel : BitVec 8) : Except (Nat × Nat) (Word × Ctx) :=
  match readSel x sel .s with
  | .error e => .error e
  | .ok (v, x) => .ok (valS v, x)

/-- A vector operand on the v bank. -/
def readV (x : Ctx) (sel : BitVec 8) : Except (Nat × Nat) (Vec × Ctx) :=
  match readSel x sel .v with
  | .error e => .error e
  | .ok (v, x) => .ok (valV v, x)

/-- A scalar operand, its value and the context after the read handed on; a trap otherwise. -/
def withS (x : Ctx) (sel : BitVec 8) (k : Word → Ctx → SlotRes) : SlotRes :=
  match readS x sel with
  | .error (c, o) => .trap c o none
  | .ok (w, x) => k w x

/-- A vector operand, its value and the context after the read handed on; a trap otherwise. -/
def withV (x : Ctx) (sel : BitVec 8) (k : Vec → Ctx → SlotRes) : SlotRes :=
  match readV x sel with
  | .error (c, o) => .trap c o none
  | .ok (v, x) => k v x

/-- An address register as the T and M slots of the bundle see it (R109). -/
def seenG (x : Ctx) (n : Nat) : Word := x.seen.g.toList.getD n 0

/-- An extent register (R119). -/
def getE (x : Ctx) (n : Nat) : Word := x.e.toList.getD n 0

/-- The 24-bit immediate, signed. -/
def immS (f : CFields) : Word := f.imm.signExtend 32

/-- Bits [hi:lo] of the 24-bit immediate. -/
def immBits (f : CFields) (hi lo : Nat) : Nat := field f.imm hi lo

/-- The effective scratchpad address of a T instruction (R136). -/
def eaT (x : Ctx) (f : TFields) : Nat := (seenG x f.gidx.toNat + f.imm.signExtend 32).toNat

/-- The record address of a copy or command (R144). -/
def recordAddr (x : Ctx) (f : TFields) : Nat :=
  (seenG x f.gidx.toNat + ((f.imm.extractLsb' 6 14).signExtend 32) * 64).toNat / 64 * 64

/-- The tag a copy or command names (R144). -/
def tagOf (f : TFields) : Nat := field f.imm 5 0

end Sys2Proof.Machine
end

