-- ==== Sys2Proof/Machine/Flags.lean ====
section
/-! DEFINITION. Every condition and predicate computation: the condition codes of R73 on integers and floats,
predicate writes (R81, R106), skip flags (R119). -/

namespace Sys2Proof.Machine

/-- A condition code on integers (R73): codes 2 to 5 on the values of the type, codes 6 and 7 on the raw bits as
unsigned numbers. -/
def condInt (c : Nat) (a b : Int) (ua ub : Nat) : Bool :=
  match c with
  | 0 => ua = ub
  | 1 => ua ≠ ub
  | 2 => a < b
  | 3 => a ≤ b
  | 4 => b < a
  | 5 => b ≤ a
  | 6 => ua < ub
  | _ => ub ≤ ua

/-- A condition code on i32 words (R107). -/
def condWord (c : Nat) (a b : Word) : Bool := condInt c a.toInt b.toInt a.toNat b.toNat

/-- Whether two values that are not NaN are equal, −0 equal to +0 (R176). -/
def feq (a b : FVal) : Bool := !flt a b && !flt b a

/-- A condition code on floating values (R73, R176): false with a NaN except under codes 1 and 6. -/
def condFloat (c : Nat) (a b : FVal) : Bool :=
  let un := a = .nan || b = .nan
  match c with
  | 0 => !un && feq a b
  | 1 => un || !feq a b
  | 2 => !un && flt a b
  | 3 => !un && !flt b a
  | 4 => !un && flt b a
  | 5 => !un && !flt a b
  | 6 => un
  | _ => !un

/-- A predicate register written; a write to p0 is discarded (R81). -/
def setPred (x : Ctx) (n : Nat) (b : Bool) : Ctx :=
  if n = 0 then x
  else { x with p := if b then x.p ||| (BitVec.ofNat 8 1 <<< n) else x.p &&& ~~~(BitVec.ofNat 8 1 <<< n) }

/-- A predicate as the bundle's instructions read it (R81). -/
def seenPred (x : Ctx) (n : Nat) : Bool := n = 0 || x.seen.p.getLsbD n

/-- The skip flags with the masked ones set from the bits of a word (R119). -/
def maskFlags (j mask a : BitVec 16) : BitVec 16 := (j &&& ~~~mask) ||| (a &&& mask)

end Sys2Proof.Machine
end

