-- ==== Sys2Proof/Machine/Scratch.lean ====
section
/-! DEFINITION. The scratchpad window with its bounds and guard granules (R136, R137), the scratchpad loads and
stores (R141), operand slots and accumulator tiles (R142, R143), guards (R161), and the checks of R77 that name a slot,
a tile, a tag or a barrier of a T instruction. -/

namespace Sys2Proof.Machine

/-! ### The window (R136, R137) -/

/-- What a byte of the window raises when it is touched: SCRATCH_BOUNDS beyond the window, GUARD in a guard granule. -/
def byteFault (x : Ctx) (a : Nat) : Option Byte :=
  if hdrScratch x.hdr ≤ a then some 0x11
  else if x.guards.contains (a / 64) then some 0x10
  else none

/-- The bank and the granule offset of a window address, as TINFO gives them (R91, R136). -/
def granuleInfo (x : Ctx) (a : Nat) : Word :=
  let g := (x.window + a) / 64
  BitVec.ofNat 32 (g % 32 + g / 32 % 2 ^ 13 * 32)

/-- A range cut at granule boundaries: (address, length) of each part. -/
def granules : Nat → Nat → Nat → List (Nat × Nat)
  | 0, _, _ => []
  | fuel + 1, a, n =>
    if n = 0 then []
    else
      let k := min n (64 - a % 64)
      (a, k) :: granules fuel (a + k) (n - k)

/-- The parts of a range of n bytes. -/
def parts (a n : Nat) : List (Nat × Nat) := granules (n / 64 + 2) a n

/-- The first byte of a range that faults, as its code and address (R137). -/
def firstFault (x : Ctx) (a n : Nat) : Option (Byte × Nat) :=
  (parts a n).findSome? fun p => (byteFault x p.1).map fun c => (c, p.1)

/-- The context with the range's first fault held (R137, R244) for a hart or itself, under a slot number and operand number
of TCAUSE. -/
def noteFor (who : Option Role) (x : Ctx) (slot opnd a n : Nat) : Ctx :=
  match firstFault x a n with
  | some (c, b) => holdFault x { who := who, code := c, slot := slot, opnd := opnd, tinfo := granuleInfo x b }
  | none => x

/-- The same for the context's own access. -/
def noteRange (x : Ctx) (slot opnd a n : Nat) : Ctx := noteFor none x slot opnd a n

/-- The parts of a range read one by one: zero where a byte faults. -/
def readParts (ag : Agent) (core : Nat) (x : Ctx) : List (Nat × Nat) → State → List Byte × State
  | [], s => ([], s)
  | (a, n) :: rest, s =>
    if (byteFault x a).isSome then
      let (bs, s) := readParts ag core x rest s
      (List.replicate n 0 ++ bs, s)
    else
      let (b, s) := readAs s ag (.scratch core) (x.window + a) n
      let (bs, s) := readParts ag core x rest s
      (b ++ bs, s)

/-- The n bytes at a window address as an agent of the slice reads them (R137). -/
def spRead (s : State) (ag : Agent) (core : Nat) (x : Ctx) (a n : Nat) : List Byte × State :=
  match firstFault x a n with
  | none => readAs s ag (.scratch core) (x.window + a) n
  | some _ => readParts ag core x (parts a n) s

/-- The parts of a range written one by one: dropped where a byte faults. -/
def writeParts (ag : Agent) (core : Nat) (x : Ctx) : List (Nat × Nat) → List Byte → State → State
  | [], _, s => s
  | (a, n) :: rest, bs, s =>
    let s := if (byteFault x a).isSome then s else writeAs s ag (.scratch core) (x.window + a) (bs.take n)
    writeParts ag core x rest (bs.drop n) s

/-- Bytes written at a window address by an agent of the slice (R137). -/
def spWrite (s : State) (ag : Agent) (core : Nat) (x : Ctx) (a : Nat) (bs : List Byte) : State :=
  match firstFault x a bs.length with
  | none => writeAs s ag (.scratch core) (x.window + a) bs
  | some _ => writeParts ag core x (parts a bs.length) bs s

/-- A load by a slot instruction of the context whose turn it is: the bytes, the state and the context with the first
fault held. -/
def loadT (s : State) (x : Ctx) (slot a n : Nat) : List Byte × State × Ctx :=
  let (bs, s) := spRead s (.ctx x.task) s.cur.core x a n
  (bs, s, noteRange x slot 0 a n)

/-- A store by a T instruction of the context whose turn it is. -/
def storeT (s : State) (x : Ctx) (a : Nat) (bs : List Byte) : State × Ctx :=
  (spWrite s (.ctx x.task) s.cur.core x a bs, noteRange x 1 0 a bs.length)

/-! ### The shared entry -/

/-- The first tag and the number of tags that a range names (R156). -/
def tagRange (f : TFields) : Nat × Nat := (field f.imm 5 0, field f.imm 11 6 + 1)

/-- The number, at or beyond a limit, that a trap reports. -/
def beyond (lim first count : Nat) : Option Nat :=
  if lim < first + count then some (max lim first) else none

/-- The checks of R77's rows UNPROVISIONED and BARRIER_UNPROVISIONED on a T instruction's slot, tile, tags or barrier:
the trap and its operand number. -/
def tProvision (x : Ctx) (opc : Nat) (f : TFields) : Option (Nat × Nat) :=
  let h := x.hdr
  let up := fun (o : Option Nat) => o.map fun n => (0x08, n)
  let n := f.dst.toNat % 16
  match opc with
  | 0x09 | 0x0A | 0x0B | 0x0C => up (beyond (hdrOsl h) n 1)
  | 0x0D | 0x0E | 0x0F => up (beyond (hdrZt h) n 1)
  | 0x17 | 0x18 | 0x19 | 0x1C => up (beyond (hdrTags h) (tagRange f).1 (tagRange f).2)
  | 0x1A => up (beyond (hdrTags h) (32 * field f.imm 0 0) 1)
  | 0x1D | 0x1E | 0x1F | 0x20 =>
    let b := field f.imm 5 0
    if (if f.mod = 1 then hdrCbar h else hdrDbar h) ≤ b then some (0x09, b) else none
  | 0x10 | 0x11 | 0x12 | 0x13 | 0x14 | 0x15 | 0x16 | 0x1B | 0x22 | 0x23 | 0x24 | 0x25 | 0x27 | 0x2B =>
    up (beyond (hdrTags h) (tagOf f) 1)
  | _ => none

/-- The check of R77's row UNCLAIMED_SLOT (R143): the slot of an `old` or `oldp`. -/
def tUnclaimed (x : Ctx) (opc : Nat) (f : TFields) : Option Nat :=
  if (opc = 0x0B ∨ opc = 0x0C) ∧ !x.claimed.getLsbD (f.dst.toNat % 16) then some (f.dst.toNat % 16) else none

/-- The shared entry of T meanings: the guard, then the checks of R77. -/
def tOp (opc : Nat) (f : TFields) (s : State) (k : Ctx → SlotRes) : Ans :=
  slotOp 1 f.pred f.psense s fun x =>
    match tProvision x opc f with
    | some (code, n) => .trap code n none
    | none =>
      match tUnclaimed x opc f with
      | some n => .trap 0x0A n none
      | none => k x

/-- A result of the T slot, for l2 or l3 (R135). -/
def tResult (s : State) (x : Ctx) (f : TFields) (bank : Bank) (lat : Nat) (v : Val) : SlotRes :=
  .done s (addResult x f.dst bank 2 lat v)

/-- The effective address with its low 6 bits cleared, for an entry or a tile (R136). -/
def eaTile (x : Ctx) (f : TFields) : Nat := eaT x f / 64 * 64

/-- The effective address with its low 2 bits cleared, for a word (R136). -/
def eaWord (x : Ctx) (f : TFields) : Nat := eaT x f / 4 * 4

/-! ### Loads and stores (R141) -/

/-- `ldv`: the 512 bytes at EA. -/
def execLdv (f : TFields) (s : State) : Ans :=
  tOp 0x01 f s fun x =>
    let (bs, s, x) := loadT s x 1 (eaTile x f) 512
    tResult s x f .v 6 (.v (vecOfBytes bs))

/-- `stv`: the 512 bytes at EA := A. -/
def execStv (f : TFields) (s : State) : Ans :=
  tOp 0x02 f s fun x => withV x f.srcA fun v x =>
    let (s, x) := storeT s x (eaTile x f) (vecBytes v)
    .done s x

/-- `lds`: the word at EA. -/
def execLds (f : TFields) (s : State) : Ans :=
  tOp 0x03 f s fun x =>
    let (bs, s, x) := loadT s x 1 (eaWord x f) 4
    tResult s x f .s 6 (.s (BitVec.ofNat 32 (natOfBytes bs)))

/-- `sts`: the word at EA := A. -/
def execSts (f : TFields) (s : State) : Ans :=
  tOp 0x04 f s fun x => withS x f.srcA fun a x =>
    let (s, x) := storeT s x (eaWord x f) (bytesOf 4 a.toNat)
    .done s x

/-- A lane's address: modulo 2^32, low 2 bits cleared (R141). -/
def laneAddr (ea : Nat) (off : Word) : Nat := (BitVec.ofNat 32 ea + off).toNat / 4 * 4

/-- The words at lane addresses, each checked on its own. -/
def loadLanes : List Nat → State → Ctx → List Nat × State × Ctx
  | [], s, x => ([], s, x)
  | a :: rest, s, x =>
    let (bs, s, x) := loadT s x 1 a 4
    let (ws, s, x) := loadLanes rest s x
    (natOfBytes bs :: ws, s, x)

/-- Words stored to lane addresses, lanes ascending. -/
def storeLanes : List (Nat × Nat) → State → Ctx → State × Ctx
  | [], s, x => (s, x)
  | (a, w) :: rest, s, x =>
    let (s, x) := storeT s x a (bytesOf 4 w)
    storeLanes rest s x

/-- The lane addresses of a stride: EA + i × B. -/
def strideAddrs (ea : Nat) (b : Word) : List Nat :=
  (List.range 128).map fun i => laneAddr ea (BitVec.ofNat 32 i * b)

/-- The lane addresses of an index vector: EA + A(i). -/
def indexAddrs (ea : Nat) (v : Vec) : List Nat := (velems 32 v).map fun o => laneAddr ea (BitVec.ofNat 32 o)

/-- `ldvx`: lane i := the word at EA + i × B. -/
def execLdvx (f : TFields) (s : State) : Ans :=
  tOp 0x05 f s fun x => withS x f.srcB fun b x =>
    let (ws, s, x) := loadLanes (strideAddrs (eaT x f) b) s x
    tResult s x f .v 6 (.v (vpackE 32 ws))

/-- `stvx`: the word at EA + i × B := lane i of A. -/
def execStvx (f : TFields) (s : State) : Ans :=
  tOp 0x06 f s fun x => withV x f.srcA fun v x => withS x f.srcB fun b x =>
    let (s, x) := storeLanes ((strideAddrs (eaT x f) b).zip (velems 32 v)) s x
    .done s x

/-- `gthv`: lane i := the word at EA + A(i). -/
def execGthv (f : TFields) (s : State) : Ans :=
  tOp 0x07 f s fun x => withV x f.srcA fun v x =>
    let (ws, s, x) := loadLanes (indexAddrs (eaT x f) v) s x
    tResult s x f .v 10 (.v (vpackE 32 ws))

/-- `sctv`: the word at EA + B(i) := lane i of A. -/
def execSctv (f : TFields) (s : State) : Ans :=
  tOp 0x08 f s fun x => withV x f.srcA fun v x => withV x f.srcB fun i x =>
    let (s, x) := storeLanes ((indexAddrs (eaT x f) i).zip (velems 32 v)) s x
    .done s x

/-! ### Operand slots and accumulators (R142, R143) -/

/-- `oclm`: slot N claimed. -/
def execOclm (f : TFields) (s : State) : Ans :=
  tOp 0x09 f s fun x => .done s { x with claimed := x.claimed ||| (BitVec.ofNat 16 1 <<< (f.dst.toNat % 16)) }

/-- `orel`: slot N unclaimed. -/
def execOrel (f : TFields) (s : State) : Ans :=
  tOp 0x0A f s fun x => .done s { x with claimed := x.claimed &&& ~~~(BitVec.ofNat 16 1 <<< (f.dst.toNat % 16)) }

/-- The tile port occupied for n cycles from this issue (R139). -/
def takePort (s : State) (n : Nat) : State := modCore s s.cur.core fun k => { k with tilePort := s.now + n }

/-- The address of operand slot n of a context in its core's operand memory (R27). -/
def slotAddr (x : Ctx) (n : Nat) : Nat := 8192 * (x.slotBase + n)

/-- The address of accumulator tile n of a context in its core's accumulators (R27). -/
def tileAddr (x : Ctx) (n : Nat) : Nat := 16384 * (x.tileBase + n)

/-- `old`: slot N := the 8 KiB at EA; busy for 16 cycles. -/
def execOld (f : TFields) (s : State) : Ans :=
  tOp 0x0B f s fun x =>
    let n := f.dst.toNat % 16
    let (bs, s, x) := loadT s x 1 (eaTile x f) 8192
    let s := writeAs s (.ctx x.task) (.opmem s.cur.core) (slotAddr x n) bs
    .done (takePort s 16) { x with slotBusy := x.slotBusy.setIfInBounds n (s.now + 16) }

/-- `oldp`: pieces f to f + c − 1 of slot N, those past 15 not written; busy for c cycles. -/
def execOldp (f : TFields) (s : State) : Ans :=
  tOp 0x0C f s fun x => withS x f.srcB fun b x =>
    let n := f.dst.toNat % 16
    let first := field b 3 0
    let c := field b 7 4 + 1
    let (bs, s, x) := loadT s x 1 (eaTile x f) (512 * c)
    let s := writeAs s (.ctx x.task) (.opmem s.cur.core) (slotAddr x n + 512 * first) (bs.take (512 * (16 - first)))
    .done (takePort s c) { x with slotBusy := x.slotBusy.setIfInBounds n (s.now + c) }

/-- `zld`: tile N := the 16 KiB at EA; busy for 32 cycles. -/
def execZld (f : TFields) (s : State) : Ans :=
  tOp 0x0D f s fun x =>
    let n := f.dst.toNat % 16
    let (bs, s, x) := loadT s x 1 (eaTile x f) 16384
    let s := writeAs s (.ctx x.task) (.acc s.cur.core) (tileAddr x n) bs
    .done (takePort s 32) { x with accBusyT := x.accBusyT.setIfInBounds n (s.now + 32) }

/-- `zst`: the 16 KiB at EA := tile N, streamed over 32 cycles (R138). -/
def execZst (f : TFields) (s : State) : Ans :=
  tOp 0x0E f s fun x =>
    let n := f.dst.toNat % 16
    let (bs, s) := readAs s (.ctx x.task) (.acc s.cur.core) (tileAddr x n) 16384
    let (s, x) := storeT s x (eaTile x f) bs
    .done (takePort s 32) { x with zstUntil := s.now + 32, zstLo := eaTile x f }

/-- `zclr`: every element of tile N := +0. -/
def execZclr (f : TFields) (s : State) : Ans :=
  tOp 0x0F f s fun x =>
    let n := f.dst.toNat % 16
    let s := writeAs s (.ctx x.task) (.acc s.cur.core) (tileAddr x n) (List.replicate 16384 0)
    .done s { x with accBusyT := x.accBusyT.setIfInBounds n (s.now + 2) }

/-! ### Guards (R161) -/

/-- The granules that a guard instruction names inside the window, and the context with SCRATCH_BOUNDS held where it
names any at or beyond it. -/
def guardRange (x : Ctx) (f : TFields) (b : Word) : List Nat × Ctx :=
  let g := eaT x f / 64
  let lim := hdrScratch x.hdr / 64
  let inside := (List.range (min b.toNat (lim - g))).map (g + ·)
  if lim < g + b.toNat ∧ b ≠ 0 then
    (inside, holdFault x { who := none, code := 0x11, slot := 1, opnd := 0, tinfo := granuleInfo x (64 * max g lim) })
  else (inside, x)

/-- The guards that accesses issued from the next cycle on meet (R161). -/
def dueGuards (x : Ctx) : List Nat := x.guardsDue.getD x.guards

/-- `grd`: B granules from EA marked, for the accesses issued from the next cycle on. -/
def execGrd (f : TFields) (s : State) : Ans :=
  tOp 0x29 f s fun x => withS x f.srcB fun b x =>
    let (gs, x) := guardRange x f b
    .done s { x with guardsDue := some (gs.foldl (fun l g => setInsert g l) (dueGuards x)) }

/-- `grdc`: B granules from EA cleared, for the same accesses. -/
def execGrdc (f : TFields) (s : State) : Ans :=
  tOp 0x2A f s fun x => withS x f.srcB fun b x =>
    let (gs, x) := guardRange x f b
    .done s { x with guardsDue := some ((dueGuards x).filter fun g => !gs.contains g) }

end Sys2Proof.Machine
end

