-- ==== Sys2Proof/Machine/Command.lean ====
section
/-! DEFINITION. Commands: tags (R155), issue to a copy engine (R144), the issuer's scratchpad as a command reaches it
wherever it stands (R137, R148), the end of a command with its arrival, RESULT and tag (R148, R149, R151, R163), and
the observation of a tag (R285). -/

namespace Sys2Proof.Machine

/-! ### The slice of a task, resident or saved -/

/-- The context state of a task: resident, else saved. -/
def sliceOf (s : State) (task : Nat) : Option Ctx :=
  match ctxOfTask s task with
  | some c => getCtx s c
  | none => (getTask s task).bind fun t => t.saved

/-- The context state of a task changed where it stands. -/
def modSlice (s : State) (task : Nat) (f : Ctx → Ctx) : State :=
  match ctxOfTask s task with
  | some c => modCtx s c f
  | none => modTask s task fun t => { t with saved := t.saved.map f }

/-! ### Tags (R155) -/

/-- A tag of a context. -/
def getTag (x : Ctx) (n : Nat) : Tag := x.tags.toList.getD n { st := .idle, count := 0, status := 0 }

/-- A tag replaced. -/
def setTag (x : Ctx) (n : Nat) (t : Tag) : Ctx := { x with tags := x.tags.setIfInBounds n t }

/-- A tag after a command is issued on it. -/
def tagIssued (t : Tag) : Tag :=
  match t.st with
  | .busy => { t with count := t.count + 1 }
  | _ => { st := .busy, count := 1, status := 0 }

/-- The status of a tag after a command ends (R155). -/
def statusAfter (old new : Byte) : Byte :=
  if old ≠ 0 ∧ old ≠ 7 then old
  else if new ≠ 0 ∧ new ≠ 7 then new
  else if old = 7 ∨ new = 7 then 7 else 0

/-- A tag after one of its commands ends with a status. -/
def tagEnded (t : Tag) (status : Byte) : Tag :=
  match t.st with
  | .busy =>
    { st := if t.count ≤ 1 then .done else .busy, count := t.count - 1, status := statusAfter t.status status }
  | _ => t

/-- A tag after `cclr`. -/
def tagCleared (t : Tag) : Tag :=
  match t.st with
  | .busy => t
  | _ => { st := .idle, count := 0, status := 0 }

/-- The statuses of R149. -/
def stOk : Nat := 0
def stFaulted : Nat := 1
def stProtection : Nat := 2
def stUnreachable : Nat := 3
def stIndeterminate : Nat := 4
def stVersionBusy : Nat := 5
def stNoFrame : Nat := 6
def stShared : Nat := 7
def stAborted : Nat := 8
def stStale : Nat := 9

/-! ### Issue (R144) -/

/-- A command of an agent of the context c, not yet handed over: its identity and place in the queue are given by
`sendCmd`. -/
def newCmd (s : State) (c : CtxId) (x : Ctx) (kind : CmdKind) (agent : Agent) (hart tag : Nat) : Cmd :=
  let g := getRegion s x.region
  { blankCmd with
    kind := kind, cluster := clusterOf c.core, c := c, hart := hart, task := x.task, region := x.region
    asid := g.asid, owner := g.owner, agent := agent, tag := tag, snapVer := x.snap }

/-- The `pvsnap` commands of a task that have not reached their partition record (R358). -/
def pendingSnaps (s : State) (task : Nat) : List Nat :=
  s.partOps.filterMap fun p => match p.2.2 with
    | .snapshot t id => if t = task then some id else none
    | _ => none

/-- Whether a command has ended. -/
def cmdDone (k : Cmd) : Bool :=
  match k.st with
  | .done _ => true
  | _ => false

/-- A command and its view forgotten. -/
def forgetCmd (s : State) (id : Nat) : State :=
  { delCmd s id with views := s.views.filter fun v => v.agent ≠ .cmd id }

/-- The observed commands of a tag that is not BUSY forgotten: the tag begins anew. An agent that sees the tag DONE only after it
has been used again takes nothing from the earlier commands (DESIGN CHOICE, log 145). -/
def forgetSeen (s : State) (task tag : Nat) : State :=
  let ks := s.cmds.filter fun k => k.task = task && k.tag = tag && decide (tag < 64)
  if ks.all cmdDone then (ks.filter fun k => !k.seen.isEmpty).foldl (fun s k => forgetCmd s k.id) s else s

/-- A command handed to its engine (R144): its reads stand on the issuer's snapshot and writes as of now (R288), and it
is held by the issuer's publications that are not complete (R159) and by its `pvsnap` not yet applied (R358). -/
def sendCmd (s : State) (k : Cmd) : Nat × State :=
  let (id, s) := fresh (forgetSeen s k.task k.tag)
  let v := getView s k.agent
  let s := setView s { agent := .cmd id, snap := v.snap ++ v.own, floor := v.floor, own := [], mine := [], insts := [] }
  let k := { k with id := id, heldBy := pendingPubs s k.agent ++ pendingSnaps s k.task }
  (id, addFreeTimer { s with cmds := s.cmds ++ [k] } (.walkComplete id))

/-- A command counted on its tag in the issuing context (R144, R155). -/
def countTag (x : Ctx) (tag : Nat) : Ctx :=
  { setTag x tag (tagIssued (getTag x tag)) with outstanding := x.outstanding + 1 }

/-- A command of the context whose turn it is, sent and counted. -/
def issueCmd (s : State) (x : Ctx) (k : Cmd) : State × Ctx := ((sendCmd s k).2, countTag x k.tag)

/-- A copy or command of the form of R144: its 64-byte record is read at DA as it stands. -/
def recordCmd (opc : Nat) (kind : CmdKind) (acquire : BitVec 512 → Bool) (f : TFields) (s : State)
    (data : Ctx → Except (Nat × Nat) (List Byte × Ctx)) : Ans :=
  tOp opc f s fun x =>
    match data x with
    | .error (c, o) => .trap c o none
    | .ok (bytes, x) =>
      let (bs, s, x) := loadT s x 1 (recordAddr x f) 64
      let rec512 := BitVec.ofNat 512 (natOfBytes bs)
      let k := { newCmd s s.cur x kind (.ctx x.task) 0 (tagOf f) with
        record := rec512, recAddr := recordAddr x f, data := bytes, acquire := acquire rec512 }
      let (s, x) := issueCmd s x k
      .done s x

/-! ### The issuer's scratchpad, wherever it stands (R137, R148, R310) -/

/-- The slot number that a command's scratchpad fault carries in TCAUSE: T for a context's, 7 for a hart's. -/
def cmdSlot (k : Cmd) : Nat := if k.hart = 0 then 1 else 7

/-- The hart that issued a command, if one did: its faults are that hart's (R244). -/
def cmdWho (k : Cmd) : Option Role :=
  match k.agent with
  | .hart _ r => some r
  | _ => none

/-- One granule of a window read where it stands: on the core, or saved. -/
def readPart (k : Cmd) (core : Nat) (x : Ctx) (gone : List (Nat × Nat)) (m : Mem) (acc : List Byte × State)
    (p : Nat × Nat) : List Byte × State :=
  if inGone gone p.1 then
    (acc.1 ++ (List.range p.2).map fun i => if (byteFault x (p.1 + i)).isSome then 0 else memGet m (p.1 + i), acc.2)
  else
    let (bs, s) := spRead acc.2 (.cmd k.id) core x p.1 p.2
    (acc.1 ++ bs, s)

/-- The n bytes at an offset of the issuer's window: the window in a core's scratchpad, or the saved one; faults held
for the issuer. A task with no window left reads as zeros. -/
def cmdRead (s : State) (k : Cmd) (a n : Nat) : List Byte × State :=
  match getTask s k.task, sliceOf s k.task with
  | some t, some x =>
    let s := modSlice s k.task fun x => noteFor (cmdWho k) x (cmdSlot k) 0 a n
    match t.scratch with
    | .here core base [] _ => spRead s (.cmd k.id) core { x with window := base } a n
    | .here core base gone m => (parts a n).foldl (readPart k core { x with window := base } gone m) ([], s)
    | .saved m =>
      ((List.range n).map fun i => if (byteFault x (a + i)).isSome then 0 else memGet m (a + i), s)
    | .none => (List.replicate n 0, s)
  | _, _ => (List.replicate n 0, s)

/-- The bytes of a range that the window accepts, each with its address. -/
def okBytes (x : Ctx) (a : Nat) (bs : List Byte) : List (Nat × Byte) :=
  (bs.zipIdx.map fun p => (a + p.2, p.1)).filter fun p => (byteFault x p.1).isNone

/-- Saved bytes written where the window accepts them. -/
def putSaved (x : Ctx) (m : Mem) (a : Nat) (bs : List Byte) : Mem :=
  (okBytes x a bs).foldl (fun m p => memPut m p.1 [p.2]) m

/-- Bytes written at an offset of the issuer's window, wherever it stands. -/
def cmdWrite (s : State) (k : Cmd) (a : Nat) (bs : List Byte) : State :=
  match getTask s k.task, sliceOf s k.task with
  | some t, some x =>
    let s := modSlice s k.task fun x => noteFor (cmdWho k) x (cmdSlot k) 0 a bs.length
    match t.scratch with
    | .here core base [] _ => spWrite s (.cmd k.id) core { x with window := base } a bs
    | .here core base gone m =>
      let cut := (parts a bs.length).map fun p => (p.1, (bs.drop (p.1 - a)).take p.2)
      let s := (cut.filter fun p => !inGone gone p.1).foldl
        (fun s p => spWrite s (.cmd k.id) core { x with window := base } p.1 p.2) s
      let m := (cut.filter fun p => inGone gone p.1).foldl (fun m p => putSaved x m p.1 p.2) m
      modTask s k.task fun t => { t with scratch := .here core base gone m }
    | .saved m => modTask s k.task fun t => { t with scratch := .saved (putSaved x m a bs) }
    | .none => s
  | _, _ => s

/-! ### Barrier arrivals by copies (R151, R163) -/

/-- The barrier that a BAR value names for a region on a core: none for 0xFFFF or where the value or the region's
declaration does not allow it. -/
def barKey (s : State) (r : Nat) (core bar : Nat) : Option (Bool × Nat × Nat) :=
  let g := getRegion s r
  let n := bits bar 5 0
  if bar.testBit 15 then
    if bits bar 14 6 = 0 ∧ n < hdrDbar g.hdr then some (true, dieOf core, g.dbase + n) else none
  else if bits bar 14 5 = 0 ∧ n < hdrCbar g.hdr then some (false, clusterOf core, g.cbase + n) else none

/-- The instance of a barrier. -/
def barInst (k : Bool × Nat × Nat) : Inst := if k.1 then .die k.2.1 else .cluster k.2.1

/-- An arrival at a barrier (R157). -/
def arriveAt (s : State) (k : Bool × Nat × Nat) : State := setBar s k (arriveBar s.now (getBar s k))

/-- The arrival that a copy carries: it publishes the copy's writes to the barrier's instance (R285). -/
def copyArrival (s : State) (id : Nat) (k : Bool × Nat × Nat) : State :=
  let own := (getView s (.cmd id)).own
  let s := publish s own [barInst k]
  arriveAt s k

/-! ### The end of a command -/

/-- The kinds whose record is a copy descriptor (R145). -/
def isCopy (k : CmdKind) : Bool :=
  match k with
  | .copy | .copym | .copyr | .copyd | .copya | .copyf | .copyq => true
  | _ => false

/-- The kinds whose record takes RESULT when they end (R148, R328). -/
def takesResult (k : CmdKind) : Bool :=
  match k with
  | .aqry | .kvap | .kvmsk | .kvtr => true
  | k => isCopy k

/-- The BAR field of a descriptor (R145). -/
def descBar (d : BitVec 512) : Nat := field d 415 400

/-- A command is no longer outstanding, and its tag, where the slice still stands, takes its status (R155). A task that
has ended takes no tag update (R154). -/
def tagEnd (s : State) (k : Cmd) (status : Nat) : State :=
  if k.tag < 64 then
    modSlice s k.task fun x =>
      { setTag x k.tag (tagEnded (getTag x k.tag) (BitVec.ofNat 8 status)) with outstanding := x.outstanding - 1 }
  else s

/-- A command ends (R148, R149): RESULT is written into the record, then the tag. The command stays known until its tag is
observed, for its writes (R285). The mask record of a commit ends with the commit's release (R353). -/
def endCmd (s : State) (id status : Nat) (result : Nat) : State :=
  match getCmd s id with
  | none => s
  | some k =>
    let s := if takesResult k.kind && k.tag < 64 then cmdWrite s k (k.recAddr + 56) (bytesOf 8 result) else s
    let s := if k.frees then releaseSnap s k.region k.snapVer else s
    let s := modCmd s id fun k => { k with st := .done status, status := status }
    tagEnd s k status

/-- One finished command observed by an agent of its slice (R285, R240): by each once, and by the issuer with the first. -/
def observeCmd (observer : Agent) (s : State) (k : Cmd) : State :=
  if k.seen.contains observer then s
  else
    let ids := (getView s (.cmd k.id)).own
    let s := if k.seen.contains k.agent then s else bringIf k.acquire (giveOwn s k.agent ids) k.agent
    let s := if observer = k.agent then s else bringIf k.acquire (giveFloor s observer ids) observer
    modCmd s k.id fun q => { q with seen := (q.seen ++ [observer, k.agent]).eraseDups }

/-- The observation of a tag of a slice by an agent of it. -/
def observeTag (s : State) (observer : Agent) (task tag : Nat) : State :=
  (s.cmds.filter fun k => k.task = task && k.tag = tag && cmdDone k).foldl (observeCmd observer) s

/-- The observation of several tags. -/
def observeTags (s : State) (observer : Agent) (task : Nat) (tags : List Nat) : State :=
  tags.foldl (fun s n => observeTag s observer task n) s

/-- The commands of a task that have not ended. -/
def openCmds (s : State) (task : Nat) : List Cmd :=
  s.cmds.filter fun k => k.task = task && !cmdDone k && k.kind ≠ .ifill && k.kind ≠ .fill && k.kind ≠ .spill &&
    k.kind ≠ .merge && k.kind ≠ .viewFill && k.kind ≠ .ready

end Sys2Proof.Machine
end

