-- ==== Sys2Proof/Machine/Tags.lean ====
section
/-! DEFINITION. Tag instructions (R156), barriers (R157, R158), phase boundaries (R159) and the completion of their
publications (R284). -/

namespace Sys2Proof.Machine

/-! ### Tags (R156)

The T slot reads tags as they stood before its bundle: a command that the C slot of the bundle issues on a tag (R120, R130)
is not seen by a tag instruction beside it. -/

/-- The tags of a range. -/
def tagsIn (first count : Nat) : List Nat := (List.range count).map (first + ·)

/-- The lowest DONE tag of a list. -/
def firstDone (x : Ctx) (ns : List Nat) : Option Nat := ns.find? fun n => (getTag x n).st = .done

/-- Whether a tag of a list is BUSY. -/
def anyBusy (x : Ctx) (ns : List Nat) : Bool := ns.any fun n => (getTag x n).st = .busy

/-- Whether a `cwait` (or, with `any`, a `cany`) of a range still waits. -/
def tagHeld (x : Ctx) (first count : Nat) (any : Bool) : Bool :=
  let ns := tagsIn first count
  anyBusy x ns && (!any || (firstDone x ns).isNone)

/-- The number that `cany` and `cfirst` return: a tag, else 0xFFFF_FFFF. -/
def tagWord (o : Option Nat) : Word :=
  match o with
  | some n => BitVec.ofNat 32 n
  | none => 0xFFFFFFFF

/-- `cwait`: waits until no tag of the range is BUSY; a boundary point. -/
def execCwait (f : TFields) (s : State) : Ans :=
  tOp 0x17 f s fun x =>
    let (first, count) := tagRange f
    if tagHeld (undone s x) first count false then .hold (.tag first count false)
    else .done (observeTags s (.ctx x.task) x.task (tagsIn first count)) (addBoundary x)

/-- `cany`: waits until a tag of the range is DONE, unless none is BUSY; a boundary point. -/
def execCany (f : TFields) (s : State) : Ans :=
  tOp 0x18 f s fun x =>
    let (first, count) := tagRange f
    if tagHeld (undone s x) first count true then .hold (.tag first count true)
    else
      let t := firstDone (undone s x) (tagsIn first count)
      tResult (observeTags s (.ctx x.task) x.task t.toList) (addBoundary x) f .s 2 (.s (tagWord t))

/-- `cfirst`: the lowest DONE tag of the range. -/
def execCfirst (f : TFields) (s : State) : Ans :=
  tOp 0x19 f s fun x =>
    let (first, count) := tagRange f
    let t := firstDone (undone s x) (tagsIn first count)
    tResult (observeTags s (.ctx x.task) x.task t.toList) x f .s 2 (.s (tagWord t))

/-- The declared tags of a half that are DONE. -/
def doneInHalf (x : Ctx) (half : Nat) : List Nat :=
  (tagsIn (32 * half) 32).filter fun n => decide (n < hdrTags x.hdr) && decide ((getTag x n).st = .done)

/-- `ctags`: bit i is 1 when tag 32 × half + i is DONE. -/
def execCtags (f : TFields) (s : State) : Ans :=
  tOp 0x1A f s fun x =>
    let ns := doneInHalf (undone s x) (field f.imm 0 0)
    let w := (ns.map fun n => 2 ^ (n % 32)).foldl (· + ·) 0
    tResult (observeTags s (.ctx x.task) x.task ns) x f .s 2 (.s (BitVec.ofNat 32 w))

/-- The word of `cstat` (R156). -/
def tagStat (t : Tag) : Word :=
  BitVec.ofNat 32 (t.status.toNat + (match t.st with
    | .idle => 0
    | .busy => 1
    | .done => 2) * 2 ^ 8 + t.count % 256 * 2 ^ 10)

/-- The tag, if it is DONE, for its observation. -/
def doneTag (x : Ctx) (n : Nat) : List Nat := if (getTag x n).st = .done then [n] else []

/-- `cstat`: status, state and count of a tag. -/
def execCstat (f : TFields) (s : State) : Ans :=
  tOp 0x1B f s fun x =>
    let n := tagOf f
    let y := undone s x
    tResult (observeTags s (.ctx x.task) x.task (doneTag y n)) x f .s 2 (.s (tagStat (getTag y n)))

/-- `cclr`: every tag of the range that is not BUSY becomes IDLE with status OK (R155). -/
def execCclr (f : TFields) (s : State) : Ans :=
  tOp 0x1C f s fun x =>
    let (first, count) := tagRange f
    .done ((tagsIn first count).foldl (fun s n => forgetSeen s x.task n) s)
      ((tagsIn first count).foldl (fun x n => setTag x n (tagCleared (getTag x n))) x)

/-- TAG_WAIT_END (R156): a tag wait whose condition holds ends, and its bundle may issue. -/
def execTagWaitEnd (c : CtxId) (s : State) : Ans :=
  .next (match getCtx s c with
    | none => s
    | some x =>
      match x.wait with
      | .tag first count any => if tagHeld x first count any then s else setCtx s c { x with wait := .none }
      | _ => s)

/-! ### Barriers (R157, R158) -/

/-- The barrier a context names: (die bank, global bank number, barrier). -/
def barOf (s : State) (region core : Nat) (die : Bool) (n : Nat) : Bool × Nat × Nat :=
  let g := getRegion s region
  if die then (true, dieOf core, g.dbase + n) else (false, clusterOf core, g.cbase + n)

/-- The barrier change that a publication carries: an arrival that drops n ≥ 0 from the expected count, or a join of
−n < 0 (R157, R158). -/
def applyBar (s : State) (k : Bool × Nat × Nat) (n : Int) : State :=
  let b := getBar s k
  if n < 0 then
    if b.e = 0 then setBar s k { b with e := (-n).toNat }
    else setBar s k { b with pending := satPending (b.pending - n) }
  else setBar s k (arriveBar s.now { b with pending := satPending (b.pending - n) })

/-- The phase a context last recorded at a barrier (R157). -/
def getRecord (rs : List ((Bool × Nat) × Word)) (die : Bool) (n : Nat) : Option Word := alGet rs (die, n)

/-- The shared entry of the barrier instructions: an imprecise fault held when the bundle was offered is reported first
(R137), which a bundle's issue has then done before any of its slots acted. The continuation
takes the scope, the barrier's number and the barrier. -/
def barOp (opc : Nat) (f : TFields) (s : State) (k : Ctx → Bool → Nat → Bool × Nat × Nat → SlotRes) : Ans :=
  tOp opc f s fun x =>
    match (undone s x).held with
    | some h => .report h
    | none =>
      let die := decide (f.mod = 2)
      let n := field f.imm 5 0
      k x die n (barOf s x.region s.cur.core die n)

/-- MODE of a copy's descriptor (R145), and the scope of a `copya` or `copyf` in it (R289). -/
def dMode (d : BitVec 512) : Nat := field d 367 352
def dScope (d : BitVec 512) : Nat := bits (dMode d) 14 12

/-- The scope of a synchronising operation that a command carries (R289). -/
def syncScope (k : Cmd) : Option Nat :=
  match k.kind with
  | .copya | .copyf => some (dScope k.record)
  | .pvpub => some 3
  | _ => none

/-- Whether a command has made every effect. -/
def effectsMade (k : Cmd) : Bool :=
  match k.st with
  | .ending | .arriving .. | .done _ => true
  | _ => false

/-- The scope of a barrier's instance. -/
def barScope (k : Bool × Nat × Nat) : Nat := if k.1 then 2 else 1

/-- The earlier synchronising operations of an agent in a barrier's scope that have not been performed: commands, and barrier
changes that wait themselves. Those of one scope instance keep program order (R290; DEDUCED, log 117). -/
def syncsBefore (s : State) (a : Agent) (scope : Nat) : List Nat :=
  ((s.cmds.filter fun q => q.agent = a && syncScope q = some scope && !effectsMade q).map fun q => q.id) ++
    (s.pubs.filter fun p => p.agent = a && !p.after.isEmpty && p.arrive.any fun c => barScope c.1 = scope).map fun p => p.id

/-- A barrier change that waits for commands and publications, and holds nothing itself. -/
def holdBar (s : State) (a : Agent) (k : Bool × Nat × Nat) (n : Int) (after : List Nat) : State :=
  let (id, s) := fresh s
  let p : Publication := { id := id, agent := a, insts := [], writes := [], arrive := some (k, n), after := after }
  addTimer { s with pubs := s.pubs ++ [p] } (s.now + 1) (.publicationComplete id)

/-- An arrival by an agent (R158): a phase boundary of the barrier's scope, then the arrival, behind the agent's
publications that are not complete (R159) and its earlier synchronising operations of that scope (R290). -/
def arrival (s : State) (a : Agent) (k : Bool × Nat × Nat) (n : Nat) : State :=
  let before := syncsBefore s a (barScope k)
  if !before.isEmpty then
    let s := boundaryLater s a (barScope k) none
    holdBar s a k n (before ++ pendingPubs s a)
  else if (pendingPubs s a).isEmpty then applyBar (boundaryNow s a (barScope k)) k n
  else boundaryLater s a (barScope k) (some (k, n))

/-- `barr`: record := phase; arrive. -/
def execBarr (f : TFields) (s : State) : Ans :=
  barOp 0x1D f s fun x die n k =>
    let x := { x with records := alSet x.records (die, n) (getBar s k).phase }
    .done (arrival s (.ctx x.task) k 0) x

/-- Whether a wait on a barrier goes on: the phase has not left the record, or too few cycles have passed since the flip
(R158). -/
def barHeld (s : State) (k : Bool × Nat × Nat) (record : Word) : Bool :=
  let b := getBar s k
  b.phase = record || decide (s.now < b.flipAt + (if k.1 then 12 else 4))

/-- The phase that a `barw` waits to leave: the recorded one, else the phase at issue (R158). -/
def barRecord (s : State) (x : Ctx) (die : Bool) (n : Nat) (k : Bool × Nat × Nat) : Word :=
  match getRecord x.records die n with
  | some r => r
  | none =>
    match x.awaited with
    | some (key, r) => if key = (die, n) then r else (getBar s k).phase
    | none => (getBar s k).phase

/-- `barw`: waits until the phase differs from the record; an acquire and a boundary point. -/
def execBarw (f : TFields) (s : State) : Ans :=
  barOp 0x1E f s fun x die n k =>
    let r := barRecord s x die n k
    if barHeld s k r then .hold (.barrier die n r)
    else .done (bringUp s (.ctx x.task)) { addBoundary x with awaited := none }

/-- `bard`: pending := pending − n; record := phase; arrive. -/
def execBard (f : TFields) (s : State) : Ans :=
  barOp 0x1F f s fun x die n k =>
    let x := { x with records := alSet x.records (die, n) (getBar s k).phase }
    .done (arrival s (.ctx x.task) k (field f.imm 15 6)) x

/-- `barj`: E := n on an idle barrier, else pending := pending + n; not an arrival. -/
def execBarj (f : TFields) (s : State) : Ans :=
  barOp 0x20 f s fun x _ _ k =>
    let n : Int := -(field f.imm 15 6 : Int)
    let a : Agent := .ctx x.task
    let before := syncsBefore s a (barScope k) ++ pendingPubs s a
    if before.isEmpty then .done (applyBar s k n) x else .done (holdBar s a k n before) x

/-- BARRIER_WAIT_END (R158): a barrier wait whose phase has left the record, long enough ago, ends. -/
def execBarrierWaitEnd (c : CtxId) (s : State) : Ans :=
  .next (match getCtx s c with
    | none => s
    | some x =>
      match x.wait with
      | .barrier die n r =>
        if barHeld s (barOf s x.region c.core die n) r then s else setCtx s c { x with wait := .none }
      | _ => s)

/-! ### Phases (R159, R284) -/

/-- `phase`: a phase boundary of a scope, whose publication completes later. -/
def execPhase (f : TFields) (s : State) : Ans :=
  tOp 0x21 f s fun x => .done (boundaryLater s (.ctx x.task) f.mod.toNat none) x

/-- A publication's effects when it completes: its writes reach its instances, the arrival behind it is made, and the
commands it held may start. -/
def completePub (s : State) (p : Publication) : State :=
  let s := publish s p.writes p.insts
  let s := match p.arrive with
    | some (k, n) => applyBar s k n
    | none => s
  { s with
    pubs := s.pubs.filter fun q => q.id ≠ p.id
    cmds := s.cmds.map fun k => { k with heldBy := k.heldBy.filter fun i => i ≠ p.id } }

/-- Whether what a publication must follow is over: the earlier ones of its agent (R284), or what a barrier change waits for. -/
def pubMay (s : State) (p : Publication) : Bool :=
  if p.after.isEmpty then (pendingPubs s p.agent).head? = some p.id
  else p.after.all fun i => !(s.pubs.any fun q => q.id = i) && !(s.cmds.any fun q => q.id = i && !effectsMade q)

/-- PUBLICATION_COMPLETE (R284): the publication completes once it may. -/
def execPublicationComplete (id : Nat) (s : State) : Ans :=
  .next (match s.pubs.find? fun p => p.id = id with
    | none => s
    | some p => if pubMay s p then completePub s p else addTimer s (s.now + 1) (.publicationComplete id))

end Sys2Proof.Machine
end

