-- ==== Sys2Proof/Machine/Engine.lean ====
section
/-! DEFINITION. What the copy engines do for every command: lanes, walks, parks and replays (R164, R252 to R256),
the places that a virtual range or a window stands for, with allocation, copy-on-write and versions (R146, R262 to
R277), and accesses to other packages (R262, R264). -/

namespace Sys2Proof.Machine

/-! ### Places -/

/-- What another package is asked for: a physical address, a byte of a block reached through the reference at an address here,
or a window. -/
inductive FarTo
  | pa (a : Nat)
  | block (gbn off ref : Nat)
  | window (a : Nat)
deriving DecidableEq, Repr, Inhabited

/-- Where a piece of an operand stands. -/
inductive Place
  | hbm (pa : Nat)
  | zeros                                -- an invalid block reference, read (R269)
  | win (c : CtxId) (kind off : Nat)     -- a window of a context (R24)
  | entry (off : Nat)                    -- the popped entry of a `copyq`
  | far (pkg : Nat) (at' : FarTo)
deriving DecidableEq, Repr, Inhabited

/-- Why a command cannot go on at once: a walk, an end with a status, a park with its KIND (R255), a wait at the engine
for a cycle, a target slice, room in a queue, a full/empty word, an element for the reduction unit, an answer. -/
inductive Stop
  | walk (va : Nat) (write : Bool)
  | ends (status : Nat)
  | park (va kind : Nat)
  | again
  | target
  | room
  | word
  | element
  | sent
deriving DecidableEq, Repr, Inhabited

/-- An answer of the engine: a value, or why not yet, with the state. -/
abbrev Got (α : Type) := Except Stop α × State

/-! ### Translation by an engine -/

/-- Whether a translation serves an address of an ASID now (R249, R263). -/
def serves (s : State) (asid va : Nat) (t : TlbEntry) : Bool :=
  t.asid = asid && t.gen = (getAsid s asid).gen && t.va = pageBase t.level va &&
    (!teRem t.entry.toNat || t.inc = knownInc s (teAux t.entry.toNat))

/-- The translation of an address: one the command walked for, else the TLB's (R254). -/
def leafFor (s : State) (k : Cmd) (va : Nat) : Option TlbEntry :=
  match k.trans.find? (serves s k.asid va) with
  | some t => some t
  | none => tlbLookup s k.cluster k.asid va

/-- A versioned page (R277): the frame that a read or write uses, its stamp set before a write. -/
def versionFrame (s : State) (k : Cmd) (e : Nat) (write : Bool) : Got Nat :=
  let da := versAddr e
  let d := hbmNat s da 32
  let pver := field k.record 447 416
  let pver := if isCopy k.kind then pver else 0
  if (getRegion s k.region).part ≠ some (bits d 133 128) then (.error (.ends stProtection), s)
  else
    let p := getPart s (bits d 133 128)
    if write then
      if pver = 0 then (.error (.ends stProtection), s)
      else if pver ≤ p.ver.toNat then (.error (.ends stAborted), s)
      else if p.cur then (.ok (bits d 31 0 * 2 ^ 16), hbmPut s (da + 4) 4 pver)
      else (.ok (bits d 95 64 * 2 ^ 16), hbmPut s (da + 12) 4 pver)
    else
      let v := if pver ≠ 0 then pver else match k.snapVer with
        | some (w, _) => w.toNat
        | none => p.ver.toNat
      if bits d 63 32 = v then (.ok (bits d 31 0 * 2 ^ 16), s)
      else if bits d 127 96 = v then (.ok (bits d 95 64 * 2 ^ 16), s)
      else (.error (.ends stAborted), s)

/-- A block's bytes, full/empty bits and entry copied to a block taken for an owner (R274), with one reference: its GBN and
frame. -/
def dupBlock (s : State) (owner e : Nat) : Option (Nat × Nat × State) :=
  match takeBlock s owner with
  | none => none
  | some (ng, pa, s) =>
    let ne := newGbnEntry pa owner
    let ne := putBits (putBits ne 55 40 (geValid e)) 103 64 (geBase e)
    let ne := putBits (putBits ne 191 128 (geFp e)) 208 208 (if geFpv e then 1 else 0)
    some (ng, pa, setGbn (copyFrame s (geFrame e) pa 4096) ng ne)

/-- Copy-on-write of a shared block (R274): the writer's reference comes to name a new GBN. -/
def cowBlock (s : State) (owner ra g e : Nat) : Got Nat :=
  match dupBlock s owner e with
  | none => (.error (.ends stNoFrame), s)
  | some (ng, pa, s) => (.ok pa, hbmPut (releaseGbn s g) ra 8 (mkRef s.pkg ng))

/-- A write to a block other than by `copyd` clears FPV and takes the block out of the index (R271). -/
def touchBlock (s : State) (g : Nat) : State :=
  dedupDrop (setGbn s g (putBits (gbnEntry s g) 208 208 0)) g

/-- A block reached through its reference at an address (R268 to R270, R274), at a byte of it; `va` is named in a park. A write
by `copyd` leaves the block its place in the index (R271). -/
def blockPlaceBy (copyd : Bool) (s : State) (owner ra off va : Nat) (write : Bool) : Got Place :=
  let r := hbmNat s ra 8
  if !refV r then
    if !write then (.ok .zeros, s)
    else match takeBlock s owner with
      | none => (.error (.ends stNoFrame), s)
      | some (g, pa, s) => (.ok (.hbm (pa + off)), hbmPut (setGbn s g (newGbnEntry pa owner)) ra 8 (mkRef s.pkg g))
  else if refTier r = 3 then (.error (.ends stProtection), s)
  else if refTier r ≠ 0 then (.error (.park va 5), s)
  else if refPkg r ≠ s.pkg then (.ok (.far (refPkg r) (.block (refGbn r) off ra)), s)
  else
    let g := refGbn r
    let e := gbnEntry s g
    if !geLive e || geOwner e ≠ owner then (.error (.ends stProtection), s)
    else if geCmp e then (.error .again, s)
    else if !write then (.ok (.hbm (geFrame e + off)), s)
    else if geShr e then
      match cowBlock s owner ra g e with
      | (.error x, s) => (.error x, s)
      | (.ok pa, s) => (.ok (.hbm (pa + off)), if copyd then s else touchBlock s (refGbn (hbmNat s ra 8)))
    else (.ok (.hbm (geFrame e + off)), if copyd then s else touchBlock s g)

/-- A block reached through its reference by any access but a `copyd`'s own. -/
def blockPlace (s : State) (owner ra off va : Nat) (write : Bool) : Got Place := blockPlaceBy false s owner ra off va write

/-- The place that a leaf at a level gives an address (R252, in the order of its rows after the walk). -/
def leafPlace (s : State) (k : Cmd) (va : Nat) (write : Bool) (level e : Nat) : Got Place :=
  let off := va % pageSize level
  if write && !teW e && !teShr e then (.error (.ends stProtection), s)
  else if write && teShr e then
    if level = 1 then (.error (.park va 6), s)
    else if teRem e then (.error .again, s)
    else match ownFrame s k.asid k.owner va e with
      | none => (.error (.ends stNoFrame), s)
      | some (pa, s) => (.ok (.hbm (pa + off)), s)
  else if teRem e then (.ok (.far (teAux e) (.pa (teAddr e + off))), s)
  else if teVers e then
    match versionFrame s k e write with
    | (.error x, s) => (.error x, s)
    | (.ok pa, s) => (.ok (.hbm (pa + off)), s)
  else if teBlk e then blockPlace s k.owner (refAddr e va) (va % 4096) va write
  else (.ok (.hbm (teAddr e + off)), s)

/-- One virtual address under a command. -/
def translate (s : State) (k : Cmd) (va : Nat) (write : Bool) : Got Place :=
  match leafFor s k va with
  | none => (.error (.walk va write), s)
  | some t => leafPlace s k va write t.level t.entry.toNat

/-- A virtual range cut at 4 KiB: (address, length) of each piece; addresses are taken modulo 2^56. -/
def pagePieces : Nat → Nat → Nat → List (Nat × Nat)
  | 0, _, _ => []
  | fuel + 1, va, n =>
    if n = 0 then []
    else
      let m := min n (4096 - va % 4096)
      (va % 2 ^ 56, m) :: pagePieces fuel (va + m) (n - m)

/-- Virtual pieces translated one after another. Where one stops the command, none has had an effect: no block or page is
allotted that the command does not then write (R270). -/
def piecesOf (k : Cmd) (write : Bool) : List (Nat × Nat) → State → Got (List (Place × Nat))
  | [], s => (.ok [], s)
  | (va, n) :: rest, s =>
    match translate s k va write with
    | (.error x, _) => (.error x, s)
    | (.ok p, t) =>
      match piecesOf k write rest t with
      | (.error x, _) => (.error x, s)
      | (.ok ps, t) => (.ok ((p, n) :: ps), t)

/-! ### Windows (R24, R146) -/

/-- Whether an address field holds a window address. -/
def isWin (a : Nat) : Bool := a.testBit 63

/-- KIND of a window address. -/
def winKind (a : Nat) : Nat := bits a 39 37

/-- The global core of a window address (R21). -/
def winCore (a : Nat) : Nat := bits a 36 34 * 96 + bits a 33 27

/-- The offset of a window address, without the context bit. -/
def winOff (a : Nat) : Nat := bits a 25 0

/-- Whether a slice's placement is still writing its stores: its saved state or its images (R193, R310). -/
def beingPlaced (x : Ctx) : Bool :=
  x.blocked.any fun b => match b with
    | .restore _ => true
    | .clear _ => true
    | .wave => false

/-- Whether a resident slice qualifies as a target (R146): of the issuer's region; for `copyr`, of its owner. A slice is
resident once its placement has written its stores. DEDUCED: the time of those writes is counted into the placement (R193). -/
def qualifies (s : State) (k : Cmd) (x : Ctx) : Bool :=
  !beingPlaced x && if k.kind = .copyr then (getRegion s x.region).owner = k.owner else x.region = k.region

/-- The context that a window names (R146). -/
def targetCtx (s : State) (k : Cmd) (a : Nat) : Option CtxId :=
  let ok := fun (n : Nat) => match getCtx s ⟨winCore a, n⟩ with
    | some x => qualifies s k x
    | none => false
  match ok 0, ok 1 with
  | true, true => some ⟨winCore a, if a.testBit 26 then 1 else 0⟩
  | true, false => some ⟨winCore a, 0⟩
  | false, true => some ⟨winCore a, 1⟩
  | false, false => none

/-- The size of a context's allotment of a window kind. -/
def allotment (x : Ctx) (kind : Nat) : Nat :=
  match kind with
  | 0 => hdrScratch x.hdr
  | 1 => 8192 * hdrOsl x.hdr
  | _ => 16384 * hdrZt x.hdr

/-- A guard granule that a command reaches in a context's window, held for the issuer (R137). -/
def noteWindow (s : State) (k : Cmd) (x : Ctx) (off n : Nat) : State :=
  match firstFault x off n with
  | some (c, b) => modSlice s k.task fun y =>
      holdFault y { who := cmdWho k, code := c, slot := cmdSlot k, opnd := 0, tinfo := granuleInfo x b }
  | none => s

/-- Bytes of a window. -/
def winRead (s : State) (k : Cmd) (c : CtxId) (kind off n : Nat) : List Byte × State :=
  match getCtx s c with
  | none => (List.replicate n 0, s)
  | some x =>
    match kind with
    | 0 => spRead (noteWindow s k x off n) (.cmd k.id) c.core x off n
    | 1 => readAs s (.cmd k.id) (.opmem c.core) (8192 * x.slotBase + off) n
    | _ => readAs s (.cmd k.id) (.acc c.core) (16384 * x.tileBase + off) n

/-- Bytes of a window as they stand, newest in coherence order. -/
def winRaw (s : State) (c : CtxId) (kind off n : Nat) : List Byte :=
  match getCtx s c with
  | none => List.replicate n 0
  | some x =>
    match kind with
    | 0 => (List.range n).map fun i =>
        if (byteFault x (off + i)).isSome then 0 else memGet (getCore s c.core).scratch (x.window + off + i)
    | 1 => rawRead s (.opmem c.core) (8192 * x.slotBase + off) n
    | _ => rawRead s (.acc c.core) (16384 * x.tileBase + off) n

/-- Bytes written to a window. -/
def winWrite (s : State) (k : Cmd) (c : CtxId) (kind off : Nat) (bs : List Byte) : State :=
  match getCtx s c with
  | none => s
  | some x =>
    match kind with
    | 0 => spWrite (noteWindow s k x off bs.length) (.cmd k.id) c.core x off bs
    | 1 => writeAs s (.cmd k.id) (.opmem c.core) (8192 * x.slotBase + off) bs
    | _ => writeAs s (.cmd k.id) (.acc c.core) (16384 * x.tileBase + off) bs

/-- n bytes of an answer of another package; what it leaves out reads as zero. -/
def answerBytes (a : List Byte) (n : Nat) : List Byte := a.take n ++ List.replicate (n - a.length) 0

/-- The bytes of places, read as the command's issuer may (R288); the answers of other packages in order for those that lie
there. -/
def readPlaces (k : Cmd) : List (List Byte) → List (Place × Nat) → State → List Byte × State
  | _, [], s => ([], s)
  | ans, (p, n) :: rest, s =>
    let (bs, s) := match p with
      | .hbm pa => readAs s (.cmd k.id) .hbm pa n
      | .zeros => (List.replicate n 0, s)
      | .win c kind off => winRead s k c kind off n
      | .entry off => ((k.data.drop off).take n, s)
      | .far _ _ => (answerBytes (ans.headD []) n, s)
    let ans := match p with
      | .far _ _ => ans.drop 1
      | _ => ans
    let (more, s) := readPlaces k ans rest s
    (bs ++ more, s)

/-- Bytes written to places; those of another package have been sent. -/
def writePlaces (k : Cmd) : List (Place × Nat) → List Byte → State → State
  | [], _, s => s
  | (p, n) :: rest, bs, s =>
    let s := match p with
      | .hbm pa => writeAs s (.cmd k.id) .hbm pa (bs.take n)
      | .win c kind off => winWrite s k c kind off (bs.take n)
      | .zeros | .entry _ | .far _ _ => s
    writePlaces k rest (bs.drop n) s

/-! ### Other packages (R262, R264) -/

/-- A request of a command to another package: the package, what it asks, and the address here of the reference that it goes
through, 0 for none. -/
abbrev FarAsk := Nat × RemoteWhat × Nat

/-- The address of the reference that a far piece is reached through. -/
def farRef (p : FarTo) : Nat :=
  match p with
  | .block _ _ ra => ra
  | _ => 0

/-- What reads the far pieces of places, in order. -/
def farReads (k : Cmd) (ps : List (Place × Nat)) : List FarAsk :=
  ps.filterMap fun p => match p.1 with
    | .far pkg (.pa a) => some (pkg, .readPa a p.2, 0)
    | .far pkg (.block g o ra) => some (pkg, .block k.owner g o [] p.2 false, ra)
    | _ => none

/-- What writes the far pieces of places, in order. -/
def farWrites (k : Cmd) : List (Place × Nat) → List Byte → List FarAsk
  | [], _ => []
  | (p, n) :: rest, bs =>
    let more := farWrites k rest (bs.drop n)
    match p with
    | .far pkg (.pa a) => (pkg, .writePa a (bs.take n), 0) :: more
    | .far pkg (.block g o ra) => (pkg, .block k.owner g o (bs.take n) n true, ra) :: more
    | .far pkg (.window a) => (pkg, .copyr k.id k.owner a (bs.take n), 0) :: more
    | _ => more

/-- A link; one that has not trained yet is down (R371). -/
def getLink (s : State) (l : Nat) : Link :=
  (alGet s.links l).getD
    { up := false, training := false, since := 0, expect := 0, fails := 0, received := [], next := 0, sent := [], pending := []
      asked := (0, 0) }

/-- A link replaced. -/
def setLink (s : State) (l : Nat) (k : Link) : State := { s with links := alSet s.links l k }

/-- The links that reach a package (R360): every one in a switched domain, else those of the routing table. -/
def routesOf (s : State) (pkg : Nat) : List Nat := if s.switched then List.range 36 else (alGet s.routes pkg).getD []

/-- The routes to a package that are up. -/
def upRoutes (s : State) (pkg : Nat) : List Nat := (routesOf s pkg).filter fun l => (getLink s l).up

/-- Whether a link carries flits: it is up and does not retrain. -/
def linkReady (k : Link) : Bool := k.up && !k.training

/-- A flit sent on a link (R359): numbered, and kept among the last 256; while the link retrains it waits. -/
def sendFlit (l : Nat) (s : State) (b : BitVec 512) : State :=
  let k := getLink s l
  if linkReady k then
    let sent := k.sent ++ [(k.next, b)]
    emit (setLink s l { k with next := k.next + 1, sent := sent.drop (sent.length - 256) }) (.flit l k.next b)
  else setLink s l { k with pending := k.pending ++ [b] }

/-- What travels to another package sent on a link in its flits; without a route it does not leave. -/
def sendOn (l : Option Nat) (out : Out) (s : State) : State :=
  match l with
  | none => s
  | some l => (Config.packetFlits out).foldl (sendFlit l) (emit s out)

/-- A packet sent to another package under a number (R360): kept until it is acknowledged, its flits on the first of the routes.
Answers and probes are such packets too; one without a route waits for it (DEDUCED, log 155). -/
def sendNumbered (s : State) (pkg num : Nat) (out : Out) : State :=
  let l := (upRoutes s pkg).head?
  sendOn l out { s with packets := s.packets ++ [{ pkg := pkg, num := num, link := l, what := out }] }

/-- A packet sent to another package under a number of its own. -/
def sendMessage (s : State) (pkg : Nat) (what : Nat → Out) : Nat × State :=
  let (num, s) := fresh s
  (num, sendNumbered s pkg num (what num))

/-- The answer to a packet of another package, a packet of its own (R360). -/
def answerTo (s : State) (pkg req : Nat) (r : Reply) : State := (sendMessage s pkg fun num => .answer pkg num req r).2

/-- The receipt of a packet acknowledged (R360): by a message that is not acknowledged itself. -/
def ackPacket (s : State) (src num : Nat) : State := sendOn (upRoutes s src).head? (.received src num) s

/-- A packet of another package taken in (R360): its receipt acknowledged; a duplicate is discarded. -/
def takePacket (s : State) (src num : Nat) (act : State → State) : State :=
  if !s.up then s
  else if s.seenPackets.contains (src, num) then ackPacket s src num
  else act (ackPacket { s with seenPackets := s.seenPackets ++ [(src, num)] } src num)

/-- A probe sent to a package whose incarnation is unknown, unless one is under way: no reply within 50 us ends it
(R262). R374 makes that an upper bound; the model waits exactly as long (DESIGN CHOICE, log 110). -/
def sendProbe (s : State) (pkg : Nat) : State :=
  if s.probes.contains pkg then s
  else
    let (_, s) := sendMessage { s with probes := s.probes ++ [pkg] } pkg (.probe pkg)
    addTimer s (s.now + 70000) (.incarnationProbeTimeout pkg)

/-- An access sent to another package under its known incarnation (R262): its number. Where the incarnation is unknown, the access
waits for a probe. -/
def sendPacket (s : State) (pkg : Nat) (what : RemoteWhat) : Nat × State :=
  let inc := knownInc s pkg
  let (num, s) := fresh s
  if inc = 0 then (num, sendProbe { s with unsent := s.unsent ++ [(pkg, num, what)] } pkg)
  else (num, sendNumbered s pkg num (.remote pkg num inc what))

/-- Whether a request writes at the other package. -/
def isWrite (w : RemoteWhat) : Bool :=
  match w with
  | .readPa .. | .query _ | .copyrCheck .. | .blockInfo _ | .frameCopy .. => false
  | .block _ _ _ _ _ write => write
  | .word _ _ mode _ => mode ≠ 2 && mode ≠ 4
  | _ => true

/-- A request of a command to another package (R262): a probe first where the incarnation is unknown; the command then
waits for the answer. -/
def askFar (s : State) (k : Cmd) (a : FarAsk) : Got Unit :=
  let (pkg, what, ref) := a
  if 576 ≤ pkg then (.error (.ends stUnreachable), s)
  else if knownInc s pkg = 0 then
    (.error .sent, sendProbe (modCmd s k.id fun k => { k with st := .remoteWait pkg 0 }) pkg)
  else
    let (num, s) := sendPacket s pkg what
    (.error .sent, modCmd s k.id fun k => { k with st := .remoteWait pkg num, asks := (isWrite what, ref) })

/-- The requests of a run from the `first`-th on made one after another, each sent once and answered before the next. -/
def exchange (s : State) (k : Cmd) (first : Nat) (asks : List FarAsk) : Got Unit :=
  match asks[k.acks - first]? with
  | none => (.ok (), s)
  | some a => if k.acks < first then (.ok (), s) else askFar s k a

/-! ### Copy-on-write of pages (R274) -/

/-- The bytes and full/empty bits of a 64 KiB frame of another package, as its answer brings them, in a page frame taken here
(the exchange is the model's: log 50). -/
def landFrame (s : State) (owner np : Nat) (bs : List Byte) : State :=
  let s := stampFrame s np (2 ^ 16) owner 1
  let s := dropLog (rawWrite s .hbm np (bs.take (2 ^ 16))) .hbm np (2 ^ 16)
  let bits := natOfBytes (bs.drop (2 ^ 16))
  { s with full := ((List.range 8192).filter fun i => bits.testBit i).foldl (fun l i => setInsert (np + 8 * i) l) s.full }

/-- The copy-on-write of a shared 64 KiB page of another package (R274): asked for there with a free frame kept here, then installed
where the page still stands as it stood. -/
def ownFar (s : State) (k : Cmd) (va e : Nat) : Got Unit :=
  let room := decide (s.freePages ≠ [])
  if knownInc s (teAux e) = 0 || decide (576 ≤ teAux e) then askFar s k (teAux e, .frameCopy (teAddr e) room, 0)
  else
    let s := modCmd { s with freePages := s.freePages.drop 1 } k.id fun q => { q with cow := some (s.freePages.head?, va) }
    askFar s k (teAux e, .frameCopy (teAddr e) room, 0)

/-- The answer to a copy-on-write that another package has been asked for: the page's entry rewritten, its generation raised, and
the frame kept for it used or given back. -/
def endOwn (s : State) (k : Cmd) (np : Option Nat) (va : Nat) : State :=
  let bs := k.answers.getLast?.getD []
  let s := modCmd s k.id fun q => { q with cow := none, acks := q.acks - 1, answers := q.answers.dropLast }
  let back := { s with freePages := np.toList ++ s.freePages }
  match walk s k.asid va with
  | .leaf 0 e =>
    if !(teRem e && teShr e) then back
    else if bs.length ≤ 1 then installOwn back k.asid va (putBits e 6 6 0)
    else match np with
      | none => back
      | some np =>
        let own := putBits (putBits (putBits (putBits e 6 6 0) 7 7 0) 57 48 0) 47 12 (np / 4096)
        installOwn (landFrame s k.owner np (bs.drop 1)) k.asid va own
  | _ => back

/-- The first page of a write that is shared comes to be the writer's own, and the write walks anew under the raised generation
(R274); none where no page of it is. -/
def ownPages (s : State) (k : Cmd) : List (Nat × Nat) → Option (Got Unit)
  | [] => none
  | (va, _) :: rest =>
    match leafFor s k va with
    | none => ownPages s k rest
    | some t =>
      let e := t.entry.toNat
      if !teShr e || t.level = 1 then ownPages s k rest
      else if teRem e then some (ownFar s k va e)
      else some (match ownFrame s k.asid k.owner va e with
        | none => (.error (.ends stNoFrame), s)
        | some (_, s) => (.error (.walk va true), s))

/-- The places of n bytes of a virtual range (R252): a page that a write shares with others is copied first (R274). -/
def virtPlaces (s : State) (k : Cmd) (write : Bool) (va n : Nat) : Got (List (Place × Nat)) :=
  let ps := pagePieces (n / 4096 + 2) va n
  match k.cow with
  | some (np, va) => (.error (.walk va true), endOwn s k np va)
  | none =>
    match (if write then ownPages s k ps else none) with
    | some (.error x, s) => (.error x, s)
    | _ => piecesOf k write ps s

/-- The places of n bytes at an address field (R146): a window's context must be resident and its allotment hold them. -/
def placesAt (s : State) (k : Cmd) (a n : Nat) (write : Bool) : Got (List (Place × Nat)) :=
  if isWin a then
    match targetCtx s k a with
    | none => (.error .target, s)
    | some c =>
      match getCtx s c with
      | none => (.error .target, s)
      | some x =>
        if winOff a + n ≤ allotment x (winKind a) then (.ok [(.win c (winKind a) (winOff a), n)], s)
        else (.error (.ends stProtection), s)
  else virtPlaces s k write (a % 2 ^ 56) n

/-- The bytes of a source: what lies on other packages is asked for first (R262). -/
def fetchPlaces (s : State) (k : Cmd) (ps : List (Place × Nat)) : Got (List Byte) :=
  match exchange s k 0 (farReads k ps) with
  | (.error x, s) => (.error x, s)
  | (.ok _, s) =>
    let (bs, s) := readPlaces k k.answers ps s
    (.ok bs, s)

/-- What a translation would give, with none of its effects: where it stops, it stops. -/
def tryPlaces (s : State) (place : State → Got (List (Place × Nat))) : Got (List (Place × Nat)) :=
  match place s with
  | (.error x, s) => (.error x, s)
  | (.ok ps, _) => (.ok ps, s)

/-- Bytes written to a destination once they are at hand: what lies here as it is translated and allotted (R270), once, then what
lies on other packages, after `first` other requests of the run (R262). -/
def storePlaces (s : State) (k : Cmd) (first : Nat) (place : State → Got (List (Place × Nat))) (bs : List Byte) : Got Unit :=
  match (if k.stored then tryPlaces s place else place s) with
  | (.error x, s) => (.error x, s)
  | (.ok ps, s) =>
    let asks := farWrites k ps bs
    let s := if k.stored then s else writePlaces k ps bs s
    if asks.isEmpty then (.ok (), s)
    else exchange (modCmd s k.id fun q => { q with stored := true }) { k with stored := true } first asks

/-! ### Lanes, parks (R164, R255) -/

/-- Whether a kind of command keeps one of the engine's lanes while it runs: the copies and commands that an agent
issues through the engine, not the hardware's own work, nor what other units perform once the engine has handed it on. -/
def usesLane (k : CmdKind) : Bool :=
  match k with
  | .ifill | .fill | .spill | .merge | .viewFill | .ready | .pvpub | .codesw | .launch | .aqry | .kvap | .kvmsk | .kvtr => false
  | _ => true

/-- Whether a command holds one of its engine's lanes (R164). A push that waits for space holds one, of a query's record too. A
command that waits for another package keeps its lane, but for a `copyf`, whose words wait there without limit (DESIGN CHOICE,
log 44). -/
def holdsLane (k : Cmd) : Bool :=
  match k.st with
  | .active | .walking .. => usesLane k.kind
  | .pushWait => true
  | .remoteWait .. => usesLane k.kind && k.kind ≠ .copyf
  | _ => false

/-- The state in which a command that has waited for another package goes on: one that gave its lane back takes one again. -/
def wakeState (k : Cmd) : CmdState := if k.kind = .copyf then .queued else .active

/-- Whether an engine has a free lane. -/
def laneFree (s : State) (cl : Nat) : Bool :=
  decide ((s.cmds.filter fun k => k.cluster = cl && holdsLane k).length < 16)

/-- Whether a command is parked. -/
def isParked (k : Cmd) : Bool :=
  match k.st with
  | .parked .. => true
  | _ => false

/-- The converted length of n source bytes. -/
def convLen (code n : Nat) : Nat :=
  match code with
  | 1 | 2 => n / 2
  | 3 | 4 | 5 => 2 * n
  | 6 => n / 3 * 4
  | _ => n

/-- Whether a copy's units are the entries of 512 bytes that it pushes into a queue (R24, R151). -/
def pushesEntries (k : Cmd) : Bool :=
  (match k.kind with
   | .copy | .copym | .copyr | .copyq => true
   | _ => false) && (field k.record 127 64).testBit 63 && winKind (field k.record 127 64) = 3

/-- The completion index of a command in the terms of RESULT (R147, R148): a push counts the runs whose every byte stands in a
landed entry of 512 bytes. -/
def doneIndex (k : Cmd) : Nat :=
  let run := convLen (field k.record 355 352) (field k.record 159 128)
  if pushesEntries k then k.index * 512 / max 1 run else k.index

/-- The fault record of a park (R255). -/
def faultRecord (k : Cmd) (va kind gen : Nat) : BitVec 256 :=
  BitVec.ofNat 256 (va % 2 ^ 56 + kind % 16 * 2 ^ 56 + k.asid % 4096 * 2 ^ 64 + gen % 2 ^ 16 * 2 ^ 76 +
    k.c.core % 1024 * 2 ^ 92 + k.c.ctx % 2 * 2 ^ 102 + k.hart % 4 * 2 ^ 103 + doneIndex k % 2 ^ 32 * 2 ^ 128)

/-- A command parks (R255): with the list of 64 full it keeps its lane and tries again in a cycle. -/
def parkCmd (s : State) (k : Cmd) (va kind gen : Nat) : State :=
  if 64 ≤ (s.cmds.filter fun q => q.cluster = k.cluster && isParked q).length then
    addTimer (modCmd s k.id fun k => { k with st := .active }) (s.now + 1) (.walkComplete k.id)
  else emit (modCmd s k.id fun k => { k with st := .parked va kind }) (.faultRecord (faultRecord k va kind gen))

/-- A command has made every effect; its end is reported after a duration that R374 leaves open. -/
def finishCmd (s : State) (id status result : Nat) : State :=
  let s := modCmd s id fun k => { k with st := .ending, status := status, result := BitVec.ofNat 64 result }
  addFreeTimer s (.copyComplete id)

/-- A walk begun for a command (R254). -/
def startWalk (s : State) (k : Cmd) (va : Nat) (write : Bool) : State :=
  addFreeTimer (modCmd s k.id fun q => { q with st := .walking (getAsid s k.asid).gen va write }) (.walkComplete k.id)

/-- What the end of a walk leaves (R252, R254): restarted where the generation moved, parked, ended on a malformed entry,
or the translation in the TLB and with the command, which is active again. -/
inductive Walked
  | goOn (s : State)
  | stopped (s : State)
  | failed (s : State)

/-- A walk ends. `kind` is the KIND that a park reports. -/
def endWalk (s : State) (k : Cmd) (gen va : Nat) (write : Bool) (kind : Nat) : Walked :=
  if gen ≠ (getAsid s k.asid).gen then .stopped (startWalk s k va write)
  else match walk s k.asid va with
    | .park => .stopped (parkCmd s k va kind gen)
    | .bad pa => .failed (emit s (.malformedEntry pa))
    | .leaf level e =>
      let t : TlbEntry :=
        { asid := k.asid, gen := gen, va := pageBase level va, level := level, entry := BitVec.ofNat 64 e,
          inc := if teRem e then knownInc s (teAux e) else 0 }
      let s := tlbFill s k.cluster k.asid va level e
      .goOn (modCmd s k.id fun k => { k with st := .active, trans := k.trans ++ [t] })

end Sys2Proof.Machine
end

