-- ==== Sys2Proof/Machine/Copy.lean ====
section
/-! DEFINITION. The seven copy kinds: descriptors and their checks (R145, R146, R150 to R153), conversions and atomic
operations (R151, R152), the traversal (R147), multicast (R163), pushes (R151, R164), full/empty words (R153), and the
events that start, move and end a copy. -/

namespace Sys2Proof.Machine

/-! ### Descriptors (R145) -/

def dSaddr (d : BitVec 512) : Nat := field d 63 0
def dDaddr (d : BitVec 512) : Nat := field d 127 64
def dRun (d : BitVec 512) : Nat := field d 159 128
def dCnt1 (d : BitVec 512) : Nat := max 1 (field d 191 160)
def dCnt2 (d : BitVec 512) : Nat := max 1 (field d 287 256)
def dEsize (d : BitVec 512) : Nat := field d 375 368
def dCmask (d : BitVec 512) : Nat := field d 383 376
def dKmask (d : BitVec 512) : Nat := field d 399 384

/-- The number of runs (R147). -/
def dRuns (d : BitVec 512) : Nat := dCnt1 d * dCnt2 d

/-- The signed 32-bit stride whose low bit is `lo`. -/
def dStride (d : BitVec 512) (lo : Nat) : Int := sext 32 (field d (lo + 31) lo)

/-- The byte offset of a run from its side's address (R147). -/
def runOffset (d : BitVec 512) (dst : Bool) (r : Nat) : Int :=
  ((r / dCnt1 d : Nat) : Int) * dStride d (if dst then 320 else 288) +
    ((r % dCnt1 d : Nat) : Int) * dStride d (if dst then 224 else 192)

/-- The lowest and highest run offsets of a side: the strides are linear, so they stand at the corners. -/
def offsetSpan (d : BitVec 512) (dst : Bool) : Int × Int :=
  let n1 := dCnt1 d
  let n2 := dCnt2 d
  let cs := [0, n1 - 1, (n2 - 1) * n1, n2 * n1 - 1].map (runOffset d dst)
  (cs.foldl min 0, cs.foldl max 0)

/-- An address field moved by an offset: a virtual address modulo 2^56, a window's offset within its field (checked
before any byte moves). -/
def addrAt (a : Nat) (off : Int) : Nat :=
  if isWin a then a - winOff a + (((winOff a : Nat) : Int) + off).toNat % 2 ^ 26
  else wrapI 56 ((a : Int) + off)

/-! ### Conversions (R151) -/

/-- Source bytes that a conversion takes together. -/
def convGrain (code : Nat) : Nat :=
  match code with
  | 1 | 2 => 4
  | 3 | 4 => 2
  | 6 => 3
  | _ => 1

/-- Elements of bytes, w bits each. -/
def elemsOf (w : Nat) (bs : List Byte) : List Nat := unpackW w (8 * bs.length / w) (natOfBytes bs)

/-- Elements of w bits as bytes. -/
def elemBytes (w : Nat) (es : List Nat) : List Byte := bytesOf (w * es.length / 8) (packW w es)

/-- Source bytes converted (R45, R48, R50, R151). -/
def convert (code : Nat) (bs : List Byte) : List Byte :=
  let float := fun (a b : FFmt) => elemBytes b.width ((elemsOf a.width bs).map fun x => rne b (fdec a x))
  let int := fun (w : Nat) => elemBytes 8 ((elemsOf w bs).map fun x => wrapI 8 (sext w x))
  match code with
  | 1 => float f32 bf16
  | 2 => float f32 f16
  | 3 => float bf16 f32
  | 4 => float f16 f32
  | 5 => int 4
  | 6 => int 6
  | _ => bs

/-! ### Atomic operations (R152) -/

/-- An element size that an operation accepts: ESIZE 2 or 3. -/
def atomSize (op esize : Nat) : Bool :=
  match op with
  | 0x01 | 0x03 | 0x04 | 0x05 | 0x06 | 0x09 | 0x0A => esize = 2
  | 0x02 | 0x07 | 0x08 => esize = 3
  | 0x0B | 0x0C | 0x0D | 0x0E | 0x0F => esize = 2 || esize = 3
  | _ => false

/-- The new value of an element of w bits: its old value, the operand and, for cas, the compare value. -/
def atomValue (op w old arg cmp : Nat) : Nat :=
  let nan := f32.nanBits
  let half := fun (i : Nat) => rne bf16 (fsum .rne [fdec bf16 (elemW 16 old i), fdec bf16 (elemW 16 arg i)])
  match op with
  | 0x01 | 0x02 => (old + arg) % 2 ^ w
  | 0x03 => sum32 [old, arg]
  | 0x04 => half 0 + half 1 * 2 ^ 16
  | 0x05 | 0x07 => if sext w old ≤ sext w arg then old else arg
  | 0x06 | 0x08 => if sext w old ≤ sext w arg then arg else old
  | 0x09 => if fisNan f32 old || fisNan f32 arg then nan else if fkey f32 old ≤ fkey f32 arg then old else arg
  | 0x0A => if fisNan f32 old || fisNan f32 arg then nan else if fkey f32 old ≤ fkey f32 arg then arg else old
  | 0x0B => old &&& arg
  | 0x0C => old ||| arg
  | 0x0D => old ^^^ arg
  | 0x0E => arg
  | _ => if old = cmp then arg else old

/-! ### The checks of a descriptor -/

/-- The shape of an address field (R23, R24, R146): a virtual address, or a window of a kind up to `mx`; a `copyr`
destination also holds a package number. -/
def addrOk (a : Nat) (mx : Option Nat) (pkg : Bool) : Bool :=
  if isWin a then
    bits a 62 (if pkg then 50 else 40) = 0 && decide (bits a 33 27 < 96) &&
      (match mx with
       | some m => decide (winKind a ≤ m) && (winKind a ≠ 3 || bits a 25 5 = 0)
       | none => false)
  else bits a 62 56 = 0

/-- Whether a destination is a push port (R24). -/
def isPush (d : BitVec 512) : Bool := isWin (dDaddr d) && winKind (dDaddr d) = 3

/-- The destination length of a run. -/
def outRun (d : BitVec 512) : Nat := convLen (bits (dMode d) 3 0) (dRun d)

/-- The limits of a plain kind's MODE and RUN (R150, R151). -/
def plainOk (d : BitVec 512) : Bool :=
  let conv := bits (dMode d) 3 0
  decide (dMode d < 7) && dRun d % convGrain conv = 0 && (!isPush d || dRuns d * outRun d % 512 = 0)

/-- The element size in bytes that ESIZE names. -/
def esizeBytes (d : BitVec 512) : Nat := 2 ^ dEsize d

/-- The checks of a descriptor that need no target slice: R145, R146, and the kind's entry. The record's own bits alone
decide them. -/
def copyFieldsOk (kind : CmdKind) (d : BitVec 512) : Bool :=
  let m := dMode d
  let masks := dCmask d = 0 && dKmask d = 0
  let common := dRun d ≠ 0 && (kind = .copym || masks) && (kind = .copya || kind = .copyf || dEsize d = 0)
  let span := offsetSpan d false
  common && match kind with
  | .copy => addrOk (dSaddr d) (some 2) false && addrOk (dDaddr d) (some 3) false && plainOk d
  | .copym =>
    addrOk (dSaddr d) (some 2) false && isWin (dDaddr d) &&
      addrOk (putBits (dDaddr d) 33 27 0) (some 3) false && plainOk d && dCmask d ≠ 0 && dKmask d ≠ 0 &&
      decide (dKmask d < 2 ^ 12)
  | .copyr => addrOk (dSaddr d) (some 2) false && isWin (dDaddr d) && addrOk (dDaddr d) (some 3) true && plainOk d
  | .copyd =>
    addrOk (dSaddr d) (some 2) false && addrOk (dDaddr d) none false && decide (m < 2) && dRun d = 4096 &&
      dDaddr d % 4096 = 0 &&
      (dCnt1 d = 1 || dStride d 224 % 4096 = 0) && (dCnt2 d = 1 || dStride d 320 % 4096 = 0)
  | .copya =>
    addrOk (dSaddr d) (some 2) false && addrOk (dDaddr d) none false && atomSize (bits m 7 0) (dEsize d) &&
      bits m 11 9 = 0 && m < 2 ^ 15 && decide (dScope d ≤ 4) && dRun d % esizeBytes d = 0
  | .copyf =>
    let fm := bits m 1 0
    bits m 11 2 = 0 && m < 2 ^ 15 && decide (dScope d ≤ 4) && dEsize d = 3 && dRun d % 8 = 0 &&
      (if fm = 3 then dSaddr d = 0 && addrOk (dDaddr d) none false
       else if fm = 0 then addrOk (dSaddr d) (some 2) false && addrOk (dDaddr d) none false
       else addrOk (dSaddr d) none false && addrOk (dDaddr d) (some 3) false && (!isPush d || dRuns d * dRun d % 512 = 0))
  | .copyq =>
    dSaddr d = 0 && dRuns d * dRun d = 512 && decide (0 ≤ span.1) && decide (span.2 + dRun d ≤ 512) &&
      addrOk (dDaddr d) (some 3) false && plainOk d
  | _ => true

/-- The targets of a copy, as destination address fields: one, or those of a `copym` in ascending order of cluster, then
core (R150, R163). -/
def targetsOf (kind : CmdKind) (d : BitVec 512) : List Nat :=
  if kind = .copym then
    (List.range 12).flatMap fun c => (List.range 8).filterMap fun i =>
      if (dKmask d).testBit c && (dCmask d).testBit i then some (putBits (dDaddr d) 33 27 (8 * c + i)) else none
  else if kind = .copyr then [putBits (dDaddr d) 49 40 0]
  else [dDaddr d]

/-- The package of a `copyr` (R150), else the own one. -/
def copyPkg (s : State) (k : Cmd) : Nat := if k.kind = .copyr then bits (dDaddr k.record) 49 40 else s.pkg

/-- Whether a copy goes to another package. -/
def goesFar (s : State) (k : Cmd) : Bool := decide (copyPkg s k ≠ s.pkg)

/-- Bytes of a source run: a cas operand is a pair (R152). -/
def srcRun (kind : CmdKind) (d : BitVec 512) : Nat :=
  if kind = .copya ∧ bits (dMode d) 7 0 = 0x0F then 2 * dRun d else dRun d

/-- Bytes of a destination run. -/
def dstRun (kind : CmdKind) (d : BitVec 512) : Nat :=
  match kind with
  | .copy | .copym | .copyr | .copyq => outRun d
  | _ => dRun d

/-- Whether a traversal stays in the allotment that a window names (R146), or its queue is declared (R151). -/
def windowFits (x : Ctx) (a : Nat) (span : Int × Int) (n : Nat) : Bool :=
  if winKind a = 3 then decide (bits a 4 0 < hdrVq x.hdr)
  else decide (0 ≤ (winOff a : Int) + span.1) && decide ((winOff a : Int) + span.2 + n ≤ allotment x (winKind a))

/-- The owners of the slices that a core holds, those still being placed among them. -/
def coreOwners (s : State) (core : Nat) : List Nat :=
  (List.range 2).filterMap fun n => (getCtx s ⟨core, n⟩).map fun x => (getRegion s x.region).owner

/-- Whether a core holds slices none of which is of an owner: a `copyr` may not reach them (R150). -/
def wrongOwner (s : State) (owner core : Nat) : Bool :=
  !(coreOwners s core).isEmpty && !(coreOwners s core).contains owner

/-- The check of one window operand: fine, no target resident yet, or PROTECTION. -/
def checkWindow (s : State) (k : Cmd) (a : Nat) (span : Int × Int) (n : Nat) : Option Stop :=
  if !isWin a then none else
  match targetCtx s k a with
  | none => if k.kind = .copyr && wrongOwner s k.owner (winCore a) then some (.ends stProtection) else some .target
  | some c =>
    match getCtx s c with
    | some x => if windowFits x a span n then none else some (.ends stProtection)
    | none => some .target

/-- The first window operand that stops a copy before any byte moves, every target of a `copym` among them (R146): one that fails
its checks, else one without a resident slice. -/
def checkWindows (s : State) (k : Cmd) : Option Stop :=
  let d := k.record
  let src := if k.kind = .copyq then none else checkWindow s k (dSaddr d) (offsetSpan d false) (srcRun k.kind d)
  let dsts := if goesFar s k then [] else
    (targetsOf k.kind d).filterMap fun a => checkWindow s k a (offsetSpan d true) (dstRun k.kind d)
  let all := src.toList ++ dsts
  (all.find? fun x => x ≠ .target).orElse fun _ => all.head?

/-- The current target's address field. -/
def curTarget (k : Cmd) : Nat := nth (targetsOf k.kind k.record) k.target 0

/-- What stops the windows of the current target (R146). -/
def checkCurrent (s : State) (k : Cmd) : Option Stop :=
  let d := k.record
  let src := if k.kind = .copyq then none else checkWindow s k (dSaddr d) (offsetSpan d false) (srcRun k.kind d)
  match src with
  | some x => some x
  | none =>
    if goesFar s k then none
    else checkWindow s k (curTarget k) (offsetSpan d true) (dstRun k.kind d)

/-- What stops the windows of a copy as it stands (R146): of every target while no byte has moved, then of the current one. -/
def checkNow (s : State) (k : Cmd) : Option Stop :=
  if k.index = 0 ∧ k.target = 0 then checkWindows s k else checkCurrent s k

/-! ### Holds (R147, R256) -/

/-- The span of the n-byte runs of a destination from the `first`-th on: the rest of its row, then the full rows, whose lowest
and highest offsets stand at their corners, for the strides are linear. -/
def restSpan (d : BitVec 512) (first n : Nat) : Int × Int :=
  let n1 := dCnt1 d
  let row := first / n1
  let rows := if row + 1 < dCnt2 d then [(row + 1) * n1, (row + 2) * n1 - 1, (dCnt2 d - 1) * n1, dRuns d - 1] else []
  let at' := runOffset d true first
  let cs := (((row + 1) * n1 - 1) :: rows).map (runOffset d true)
  (cs.foldl min at', cs.foldl max at' + n)

/-- The n-byte destination runs at an address field from the `first`-th on: one by one where there are few, else their span. -/
def runRanges (d : BitVec 512) (a first n : Nat) : List (Nat × Nat) :=
  if dRuns d ≤ first then []
  else if dRuns d ≤ 64 then
    (List.range' first (dRuns d - first)).map fun r => (addrAt a (runOffset d true r), addrAt a (runOffset d true r) + n)
  else
    let sp := restSpan d first n
    [(addrAt a sp.1, addrAt a sp.1 + (sp.2 - sp.1).toNat)]

/-- The destination byte ranges of a copy from a run of a target on, and those of the later targets (R163). Pushes
interleave and EMPTY writes no data. Token record i of a `commit` is 32 bytes at 32 × i from TRADDR (R353). -/
def destRanges (k : Cmd) (target first : Nat) : List (Nat × Nat) :=
  let d := k.record
  let n := dstRun k.kind d
  if k.kind = .commit then
    (if first < field d 147 144 then [(field d 311 256 + 32 * first, field d 311 256 + 32 * field d 147 144)] else [])
  else if isPush d || (k.kind = .copyf && bits (dMode d) 1 0 = 3) then []
  else ((targetsOf k.kind d).zipIdx.drop target).flatMap fun a => runRanges d a.1 (if a.2 = target then first else 0) n

/-- One range from the lowest to the highest byte of several. -/
def spanOf (rs : List (Nat × Nat)) : List (Nat × Nat) :=
  match rs with
  | [] => []
  | r :: rest => [rest.foldl (fun a b => (min a.1 b.1, max a.2 b.2)) r]

/-- Whether two sets of ranges share a byte. -/
def overlap (a b : List (Nat × Nat)) : Bool := a.any fun x => b.any fun y => decide (x.1 < y.2) && decide (y.1 < x.2)

/-- The runs of a copy's current target that are done, from its completion index. -/
def doneRuns (k : Cmd) : Nat :=
  match k.kind with
  | .copya => k.index / max 1 (dRun k.record / esizeBytes k.record)
  | .copyf => k.index / max 1 (dRun k.record / 8)
  | _ => k.index

/-- Where bytes stand, so that two names of one byte meet: HBM by physical address, a block with no frame here by its package and
GBN, a block still to be allotted by the address of its reference, a core's store of a window kind, a page or a window that does
not stand yet by its name, another package's. -/
inductive Where
  | hbm
  | block (pkg gbn : Nat)
  | reference (at' : Nat)
  | store (kind core : Nat)
  | named (asid : Nat)
  | window (core : Nat)
  | far (pkg : Nat)
deriving DecidableEq, Repr, Inhabited

/-- A byte of a block resolved through the reference at an address. A write of a shared block goes to one of its own (R274). -/
def resolveBlock (s : State) (ra off : Nat) : Where × Nat :=
  let r := hbmNat s ra 8
  if !refV r then (.reference ra, off)
  else if refPkg r ≠ s.pkg || refTier r ≠ 0 then (.block (refPkg r) (refGbn r), off)
  else
    let e := gbnEntry s (refGbn r)
    if geShr e then (.reference ra, off) else (.hbm, geFrame e + off)

/-- A page that a command writes resolved, with no effect: where its bytes stand and the first of them; of a versioned page the
frame that the write uses (R277), of a shared frame the page's own copy to come (R274). -/
def resolvePage (s : State) (k : Cmd) (va : Nat) : Where × Nat :=
  match walk s k.asid va with
  | .leaf level e =>
    let off := va % pageSize level
    if teRem e then (.far (teAux e), teAddr e + off)
    else if teVers e then
      match (versionFrame s k e true).1 with
      | .ok pa => (.hbm, pa + off)
      | .error _ => (.named k.asid, va)
    else if teBlk e then resolveBlock s (refAddr e va) (va % 4096)
    else if teShr e && decide (1 < (getFrame s (teAddr e)).shares) then (.named k.asid, va)
    else (.hbm, teAddr e + off)
  | _ => (.named k.asid, va)

/-- The first byte of a context's allotment of a window kind in its core's store. -/
def allotBase (x : Ctx) (kind : Nat) : Nat :=
  match kind with
  | 0 => x.window
  | 1 => 8192 * x.slotBase
  | _ => 16384 * x.tileBase

/-- A destination range resolved: where its bytes stand, and the range there. Which contexts qualify on another package is known
only there, so that both names of a window of one core are taken as one (R146). -/
def resolveRange (s : State) (k : Cmd) (r : Nat × Nat) : List (Where × Nat × Nat) :=
  if goesFar s k then [(.far (copyPkg s k), putBits r.1 26 26 0, putBits r.1 26 26 0 + (r.2 - r.1))]
  else if isWin r.1 then
    match (targetCtx s k r.1).bind fun c => (getCtx s c).map fun x => (c, x) with
    | some (c, x) =>
      let lo := allotBase x (winKind r.1) + winOff r.1
      [(.store (winKind r.1) c.core, lo, lo + (r.2 - r.1))]
    | none => [(.window (winCore r.1), winOff r.1, winOff r.1 + (r.2 - r.1))]
  else (pagePieces ((r.2 - r.1) / 4096 + 2) r.1 (r.2 - r.1)).map fun p =>
    let (w, a) := resolvePage s k p.1
    (w, a, a + p.2)

/-- The bytes that a copy has still to write, resolved. -/
def bytesLeft (s : State) (k : Cmd) : List (Where × Nat × Nat) := (destRanges k k.target (doneRuns k)).flatMap (resolveRange s k)

/-- Whether two sets of resolved ranges share a byte. -/
def meetsAt (a b : List (Where × Nat × Nat)) : Bool :=
  a.any fun x => b.any fun y => x.1 = y.1 && decide (x.2.1 < y.2.2) && decide (y.2.1 < x.2.2)

/-- Whether an earlier synchronising operation of the same agent and scope has not been performed: those of one scope instance
keep program order (R290), also behind one that is parked. DEDUCED, log 117. -/
def behindSync (s : State) (k : Cmd) : Bool :=
  (syncScope k).isSome && s.cmds.any fun q =>
    q.id < k.id && q.agent = k.agent && syncScope q = syncScope k && !effectsMade q

/-- Whether an earlier copy of the same context holds a copy back: it has one of the same bytes to write (R147), by whatever
name, it is parked and their destination spans overlap (R256), or both synchronise (R290). The token writes of a `commit` are
copies too (R353). -/
def heldBack (s : State) (k : Cmd) : Bool :=
  behindSync s k || s.cmds.any fun q =>
    q.id < k.id && q.task = k.task && (isCopy q.kind || decide (q.kind = .commit)) && !effectsMade q &&
      (meetsAt (bytesLeft s q) (bytesLeft s k) ||
        (isParked q && overlap (spanOf (destRanges q q.target (doneRuns q))) (spanOf (destRanges k 0 0))))

/-! ### One unit: a run, an element, a word, an entry -/

/-- The elements or words of a run of a `copya` or `copyf`; 1 for the other kinds, whose unit is the run. -/
def perRun (k : Cmd) : Nat :=
  match k.kind with
  | .copya => max 1 (dRun k.record / esizeBytes k.record)
  | .copyf => max 1 (dRun k.record / 8)
  | _ => 1

/-- The units of a copy for one target. -/
def unitsOf (k : Cmd) : Nat :=
  if pushesEntries k then dRuns k.record * outRun k.record / 512 else dRuns k.record * perRun k

/-- RESULT of a copy that ends (R148). -/
def resultOf (k : Cmd) (status : Nat) : Nat :=
  if k.kind = .copyd && (status = stOk || status = stShared) then k.result.toNat
  else if k.kind = .copym && status ≠ stOk then doneIndex k % 2 ^ 32 + k.target % 2 ^ 16 * 2 ^ 32
  else doneIndex k % 2 ^ 32

/-- The unit counted as done. -/
def countUnit (s : State) (k : Cmd) : State :=
  modCmd s k.id fun q => { q with index := k.index + 1, trans := [], acks := 0, answers := [], wrote := false, stored := false }

/-- The places of n bytes of the source from a byte of run r. -/
def sourcePlaces (s : State) (k : Cmd) (r skip n : Nat) : Got (List (Place × Nat)) :=
  let off := runOffset k.record false r + skip
  if k.kind = .copyq then (.ok [(.entry off.toNat, n)], s)
  else placesAt s k (addrAt (dSaddr k.record) off) n false

/-- The places of n bytes of the current target from a byte of run r. -/
def destPlaces (s : State) (k : Cmd) (r skip n : Nat) : Got (List (Place × Nat)) :=
  let a := addrAt (curTarget k) (runOffset k.record true r + skip)
  if copyPkg s k ≠ s.pkg then (.ok [(.far (copyPkg s k) (.window a), n)], s)
  else placesAt s k a n true

/-- A run of a copy whose bytes are not kept, or of a `copym`, whose source is read once (R150). The destination is tried first,
and translated and allotted once the bytes to be written are at hand (R270). -/
def moveRun (s : State) (k : Cmd) : Got Unit :=
  let n := dRun k.record
  let m := outRun k.record
  let keep := decide (k.kind = .copym)
  let cached := keep && decide (m * (k.index + 1) ≤ k.buf.length)
  match (if cached then ((.ok [] : Except Stop (List (Place × Nat))), s) else sourcePlaces s k k.index 0 n) with
  | (.error x, s) => (.error x, s)
  | (.ok src, s) =>
    match tryPlaces s fun s => destPlaces s k k.index 0 m with
    | (.error x, s) => (.error x, s)
    | (.ok _, s) =>
      match fetchPlaces s k src with
      | (.error x, s) => (.error x, s)
      | (.ok bs, s) =>
        let bs := if cached then (k.buf.drop (m * k.index)).take m else convert (bits (dMode k.record) 3 0) bs
        match storePlaces s k (farReads k src).length (fun s => destPlaces s k k.index 0 m) bs with
        | (.error x, s) => (.error x, s)
        | (.ok _, s) =>
          let s := countUnit s k
          (.ok (), if keep && !cached then modCmd s k.id fun q => { q with buf := q.buf ++ bs } else s)

/-- A vector landed in a queue behind its reservations (R151, R85). -/
def landVec (s : State) (x : Ctx) (n : Nat) (bs : List Byte) : State × Ctx :=
  let (id, s) := fresh s
  (s, setQueue x .v n (joinQueue (getQueue x .v n) { id := id, val := some (.v (vecOfBytes bs)), carry := [] }))

/-- Whether a queue has room for an entry; a dead one revives. -/
def hasRoom (x : Ctx) (b : Bank) (n : Nat) : Bool :=
  (getQueue x b n).dead || decide ((getQueue x b n).entries.length < 4)

/-- What keeps an entry out of the queue that a push-port address names (R146, R151), if anything does. -/
def portStop (s : State) (k : Cmd) (a : Nat) : Option Stop :=
  match (targetCtx s k a).bind (getCtx s) with
  | none => some .target
  | some x =>
    if hdrVq x.hdr ≤ bits a 4 0 then some (.ends stProtection) else if !hasRoom x .v (bits a 4 0) then some .room else none

/-- An entry landed in the queue that a push-port address names. -/
def landEntry (s : State) (k : Cmd) (a : Nat) (bs : List Byte) : State :=
  match (targetCtx s k a).bind fun c => (getCtx s c).map fun x => (c, x) with
  | none => s
  | some (c, x) =>
    let (s, x) := landVec s x (bits a 4 0) bs
    setCtx s c x

/-- An entry of a push (R151): read on until 512 bytes stand ready, then landed where the queue has room, here or at another
package. -/
def movePush (s : State) (k : Cmd) : Got Unit :=
  let m := outRun k.record
  if k.buf.length < 512 * (k.index + 1) then
    let r := k.buf.length / max 1 m
    match sourcePlaces s k r 0 (dRun k.record) with
    | (.error x, s) => (.error x, s)
    | (.ok src, s) =>
      match fetchPlaces s k src with
      | (.error x, s) => (.error x, s)
      | (.ok bs, s) =>
        (.ok (), modCmd s k.id fun q =>
          { q with buf := q.buf ++ convert (bits (dMode k.record) 3 0) bs, trans := [], acks := 0, answers := [] })
  else
    let entry := (k.buf.drop (512 * k.index)).take 512
    let a := curTarget k
    if goesFar s k then
      match exchange s k 0 [(copyPkg s k, .copyr k.id k.owner a entry, 0)] with
      | (.error x, s) => (.error x, s)
      | (.ok _, s) => (.ok (), countUnit s k)
    else match portStop s k a with
      | some x => (.error x, s)
      | none => (.ok (), countUnit (landEntry s k a entry) k)

/-- Fingerprint of a block's bytes (R271). -/
def fingerprint (bs : List Byte) : Nat := natOfBytes (shake256 bs 8)

/-- A `copyd` run done, with its fingerprint and whether it shared (R148, R273). -/
def endBlock (s : State) (k : Cmd) (fp : Nat) (shared : Bool) : Got Unit :=
  (.ok (), modCmd (countUnit s k) k.id fun q =>
    { q with result := BitVec.ofNat 64 fp, shared := q.shared || shared })

/-- The bytes of a `copyd` run written through their reference, which then holds their fingerprint (R273). -/
def writeBlock (s : State) (k : Cmd) (ra va fp : Nat) (bs : List Byte) : Got Unit :=
  match blockPlaceBy true s k.owner ra 0 va true with
  | (.error x, s) => (.error x, s)
  | (.ok p, s) =>
    let s := writePlaces k [(p, 4096)] bs s
    let g := refGbn (hbmNat s ra 8)
    let e := putBits (putBits (gbnEntry s g) 191 128 fp) 208 208 1
    let s := setGbn s g e
    let known := s.dedup.any fun x => x.1 = k.owner && x.2.1.toNat = fp
    let s := if dMode k.record = 1 ∧ geValid e = 0xFFFF ∧ !known then
        { s with dedup := s.dedup ++ [(k.owner, BitVec.ofNat 64 fp, g)] }
      else s
    endBlock s k fp false

/-- A `copyd` run against its block's reference (R269, R273). -/
def dedupRun (s : State) (k : Cmd) (ra va : Nat) (bs : List Byte) : Got Unit :=
  let fp := fingerprint bs
  let r := hbmNat s ra 8
  let e := gbnEntry s (refGbn r)
  if refV r && (refPkg r ≠ s.pkg || refTier r ≠ 0) then (.error (.ends stProtection), s)
  else if refV r && (!geLive e || geOwner e ≠ k.owner) then (.error (.ends stProtection), s)
  else if refV r && geCmp e then (.error .again, s)
  else
    let cand := if dMode k.record = 1 && (!refV r || geValid e = 0xFFFF) then
        (s.dedup.find? fun x => x.1 = k.owner && x.2.1.toNat = fp).map fun x => x.2.2
      else none
    match cand with
    | none => writeBlock s k ra va fp bs
    | some c =>
      let ce := gbnEntry s c
      if geCmp ce then (.error .again, s)
      else if rawRead s .hbm (geFrame ce) 4096 ≠ bs then writeBlock s k ra va fp bs
      else if refV r && refGbn r = c then endBlock s k fp false
      else if geRefcnt ce < 65535 then
        let s := setGbn s c (putBits (geSetRefcnt ce (geRefcnt ce + 1)) 204 204 1)
        let s := if refV r then releaseGbn s (refGbn r) else s
        endBlock (hbmPut s ra 8 (mkRef s.pkg c)) k fp true
      else writeBlock s k ra va fp bs

/-- A run of a `copyd` (R150, R273): its destination must be reached through a block aperture. -/
def moveBlock (s : State) (k : Cmd) : Got Unit :=
  match sourcePlaces s k k.index 0 4096 with
  | (.error x, s) => (.error x, s)
  | (.ok src, s) =>
    let va := addrAt (dDaddr k.record) (runOffset k.record true k.index)
    match leafFor s k va with
    | none => (.error (.walk va true), s)
    | some t =>
      let e := t.entry.toNat
      if !teW e || !teBlk e then (.error (.ends stProtection), s)
      else
        match fetchPlaces s k src with
        | (.error x, s) => (.error x, s)
        | (.ok bs, s) => dedupRun s k (refAddr e va) va bs

/-- The places of the current element of a `copya`: of its destination. -/
def targetPlaces (s : State) (k : Cmd) : Got (List (Place × Nat)) :=
  let e := esizeBytes k.record
  destPlaces s k (k.index / perRun k) (k.index % perRun k * e) e

/-- The bytes of its source that an element takes: a cas operand is a pair (R152). -/
def operandLen (d : BitVec 512) : Nat := if bits (dMode d) 7 0 = 0x0F then 2 * esizeBytes d else esizeBytes d

/-- The places of the current element of a `copya`: those that RET writes. -/
def returnPlaces (s : State) (k : Cmd) : Got (List (Place × Nat)) :=
  let d := k.record
  let at' := runOffset d false (k.index / perRun k) + ((k.index % perRun k * operandLen d : Nat) : Int)
  if (dMode d).testBit 8 then placesAt s k (addrAt (dSaddr d) at') (esizeBytes d) true else (.ok [], s)

/-- The source and destination places of the current element of a `copya`, and those that RET writes, with nothing allotted yet.
An element that is not aligned to its size, or that crosses a page, is performed over the bytes at its address, piece by piece
(DESIGN CHOICE, log 139). -/
def elementPlaces (s : State) (k : Cmd) : Got (List (Place × Nat) × List (Place × Nat) × List (Place × Nat)) :=
  let sz := operandLen k.record
  match sourcePlaces s k (k.index / perRun k) (k.index % perRun k * sz) sz with
  | (.error x, s) => (.error x, s)
  | (.ok src, s) =>
    match tryPlaces s fun s => targetPlaces s k with
    | (.error x, s) => (.error x, s)
    | (.ok dst, s) =>
      match tryPlaces s fun s => returnPlaces s k with
      | (.error x, s) => (.error x, s)
      | (.ok ret, s) => (.ok (src, dst, ret), s)

/-- The places that an operation reads where it writes: a piece whose block is still to be allotted reads as zeros (R269). -/
def oldPlaces (read : Except Stop (List (Place × Nat))) (write : List (Place × Nat)) : List (Place × Nat) :=
  match read with
  | .ok ps => if ps.length = write.length then (ps.zip write).map fun p => if p.1.1 = .zeros then p.1 else p.2 else write
  | .error _ => write

/-- The bytes of places as they stand at their point in coherence order, which the command has then read (R293, R294); the answers
of other packages in order for those that lie there. -/
def newestBytes (k : Cmd) : List (List Byte) → List (Place × Nat) → State → List Byte × State
  | _, [], s => ([], s)
  | ans, (p, n) :: rest, s =>
    let (bs, s) := match p with
      | .hbm pa => readNewest s (.cmd k.id) .hbm pa n
      | .far _ _ => (answerBytes (ans.headD []) n, s)
      | .win c kind off => (winRaw s c kind off n, s)
      | _ => (List.replicate n 0, s)
    let ans := match p with
      | .far _ _ => ans.drop 1
      | _ => ans
    let (more, s) := newestBytes k ans rest s
    (bs ++ more, s)

/-- What asks another package for an atomic element that stands there. -/
def farAtomic (k : Cmd) (dst : List (Place × Nat)) (operand : List Byte) : List FarAsk :=
  let d := k.record
  dst.filterMap fun p => match p.1 with
    | .far pkg (.pa a) => some (pkg, .atomic none a (dMode d) (dEsize d) operand, 0)
    | .far pkg (.block g o ra) => some (pkg, .atomic (some (k.owner, g)) o (dMode d) (dEsize d) operand, ra)
    | _ => none

/-- The read-modify-write of an element, here or by another package's unit after `first` other requests: its old value, which
`buf` keeps while RET is still to be written. -/
def applyElement (s : State) (k : Cmd) (first : Nat) (dst : List (Place × Nat)) (operand : List Byte) : Got (List Byte) :=
  let e := esizeBytes k.record
  if !k.buf.isEmpty then (.ok k.buf, s)
  else
    match exchange s k first (farAtomic k dst operand) with
    | (.error x, s) => (.error x, s)
    | (.ok _, s) =>
     let a := addrAt (dDaddr k.record) (runOffset k.record true (k.index / perRun k) + ((k.index % perRun k * e : Nat) : Int))
     let before := (placesAt s k a e false).1
     match targetPlaces s k with
     | (.error x, s) => (.error x, s)
     | (.ok dst, s) =>
      let (old, s) := newestBytes k (k.answers.drop first) (oldPlaces before dst) s
      let new := atomValue (bits (dMode k.record) 7 0) (8 * e) (natOfBytes old)
        (natOfBytes (operand.drop (operand.length - e))) (natOfBytes (operand.take e))
      (.ok old, modCmd (writePlaces k dst (bytesOf e new) s) k.id fun q => { q with buf := old })

/-- A unit counted whose first part `buf` kept. -/
def countKept (s : State) (k : Cmd) : State := modCmd (countUnit s k) k.id fun q => { q with buf := [] }

/-- One element of a `copya` (R152, R293): a read-modify-write of its destination, the old value returned under RET. A
far element is performed by its own package's unit. -/
def moveElement (s : State) (k : Cmd) : Got Unit :=
  match elementPlaces s k with
  | (.error x, s) => (.error x, s)
  | (.ok (src, dst, _), s) =>
    match fetchPlaces s k src with
    | (.error x, s) => (.error x, s)
    | (.ok operand, s) =>
      let n := (farReads k src).length
      match applyElement s k n dst operand with
      | (.error x, s) => (.error x, s)
      | (.ok old, s) =>
        match storePlaces s k (n + (farAtomic k dst operand).length) (fun s => returnPlaces s k) old with
        | (.error x, s) => (.error x, s)
        | (.ok _, s) => (.ok (), countKept s k)

/-- The physical address of the full/empty word that a place holds; none for an invalid reference, which reads empty. Of an
address that is not 8-byte aligned it is the word in which the eight bytes start (DESIGN CHOICE, log 138). -/
def wordOf (ps : List (Place × Nat)) : Option Nat :=
  match ps with
  | (.hbm pa, _) :: _ => some (pa / 8 * 8)
  | _ => none

/-- What asks another package for an operation on a full/empty word that stands there. -/
def farWord (k : Cmd) (mode : Nat) (ps : List (Place × Nat)) (bs : List Byte) : List FarAsk :=
  ps.filterMap fun p => match p.1 with
    | .far pkg (.pa a) => some (pkg, .word none a mode bs, 0)
    | .far pkg (.block g o ra) => some (pkg, .word (some (k.owner, g)) o mode bs, ra)
    | _ => none

/-- A FILL of a word (R153): here once it is empty, when its block is allotted (R270), or by its own package's write queue. -/
def fillWord (s : State) (k : Cmd) (src dst : List (Place × Nat)) (place : State → Got (List (Place × Nat))) : Got Unit :=
  match fetchPlaces s k src with
  | (.error x, s) => (.error x, s)
  | (.ok bs, s) =>
    match exchange s k (farReads k src).length (farWord k 0 dst bs) with
    | (.error x, s) => (.error x, s)
    | (.ok _, s) =>
      match place s with
      | (.error x, s) => (.error x, s)
      | (.ok dst, t) =>
        match wordOf dst with
        | none => (.ok (), countUnit s k)
        | some w =>
          if isFull t w then (.error .word, s)
          else
            let t := markFill (writePlaces k dst bs t) w (instAt k.c.core (dScope k.record))
            (.ok (), countUnit (setFull t w true) k)

/-- An EMPTY of a word (R153): here, or by its own package's write queue. Through an invalid reference the word reads empty, and
nothing is allotted (R269). -/
def emptyWord (s : State) (k : Cmd) (va : Nat) (dst : List (Place × Nat)) (place : State → Got (List (Place × Nat))) : Got Unit :=
  match exchange s k 0 (farWord k 3 dst []) with
  | (.error x, s) => (.error x, s)
  | (.ok _, s) =>
    if (placesAt s k va 8 false).1 matches .ok ((.zeros, _) :: _) then (.ok (), countUnit s k)
    else match place s with
      | (.error x, s) => (.error x, s)
      | (.ok dst, s) =>
        (.ok (), countUnit (match wordOf dst with
          | some w => setFull s w false
          | none => s) k)

/-- A full word taken (R153, R294), emptied by a DRAIN: its bytes, which `buf` keeps until they stand at the destination. That
emptying is no write of its page or block (DEDUCED, log 147). -/
def takeWord (s : State) (k : Cmd) (src : List (Place × Nat)) (drain : Bool) : Got (List Byte) :=
  let mode := if drain then 1 else 2
  if !k.buf.isEmpty && !isPush k.record then (.ok k.buf, s)
  else
    match exchange s k 0 (farWord k mode src []) with
    | (.error x, s) => (.error x, s)
    | (.ok _, s) =>
      let keep := fun (bs : List Byte) (s : State) =>
        ((.ok bs : Except Stop (List Byte)), if isPush k.record then s else modCmd s k.id fun q => { q with buf := bs })
      if (farWord k mode src []).isEmpty then
        match wordOf src with
        | none => (.error .word, s)
        | some w =>
          if !isFull s w then (.error .word, s)
          else
            let (bs, s) := readNewest s (.cmd k.id) .hbm w 8
            keep bs (if drain then setFull s w false else s)
      else keep (answerBytes (k.answers.headD []) 8) s

/-- A word of a DRAIN or READFULL into a push port: every 64 words make an entry, whose last one is taken only when the queue
has room (R151, R153). -/
def pushWord (s : State) (k : Cmd) (src : List (Place × Nat)) (drain : Bool) : Got Unit :=
  let last := decide (k.index % 64 = 63)
  match (if last then portStop s k (curTarget k) else none) with
  | some x => (.error x, s)
  | none =>
    match takeWord s k src drain with
    | (.error x, s) => (.error x, s)
    | (.ok bs, s) =>
      let entry := k.buf ++ bs
      let s := if last then landEntry s k (curTarget k) entry else s
      (.ok (), modCmd (countUnit s k) k.id fun q => { q with buf := if last then [] else entry })

/-- One word of a `copyf` (R153, R294): it waits for its condition. A far word waits at its own package. -/
def moveWord (s : State) (k : Cmd) : Got Unit :=
  let d := k.record
  let fm := bits (dMode d) 1 0
  let r := k.index / perRun k
  let skip := 8 * (k.index % perRun k)
  match (if fm = 3 then ((.ok [] : Except Stop (List (Place × Nat))), s) else sourcePlaces s k r skip 8) with
  | (.error x, s) => (.error x, s)
  | (.ok src, s) =>
    if isPush d then pushWord s k src (fm = 1)
    else
      let place := fun (s : State) => destPlaces s k r skip 8
      match tryPlaces s place with
      | (.error x, s) => (.error x, s)
      | (.ok dst, s) =>
        if fm = 0 then fillWord s k src dst place
        else if fm = 3 then emptyWord s k (addrAt (dDaddr d) (runOffset d true r + skip)) dst place
        else match takeWord s k src (fm = 1) with
          | (.error x, s) => (.error x, s)
          | (.ok bs, s) =>
            match storePlaces s k (farWord k fm src []).length place bs with
            | (.error x, s) => (.error x, s)
            | (.ok _, s) => (.ok (), countKept s k)

/-- The next unit of a copy. An element of a `copya` whose places are all translated is left to the reduction unit. -/
def moveUnit (s : State) (k : Cmd) : Got Unit :=
  match k.kind with
  | .copyd => moveBlock s k
  | .copya =>
    (match elementPlaces s k with
     | (.error x, s) => (.error x, s)
     | (.ok _, s) => (.error .element, s))
  | .copyf => moveWord s k
  | _ => if pushesEntries k then movePush s k else moveRun s k

/-! ### The engine's loop -/

/-- What a copy does when its next unit cannot be moved at once. -/
def stopCopy (s : State) (k : Cmd) (x : Stop) : State :=
  let st := fun (v : CmdState) => modCmd s k.id fun q => { q with st := v }
  match x with
  | .walk va w => startWalk s k va w
  | .ends status => finishCmd s k.id status (resultOf k status)
  | .park va kind => parkCmd s k va kind (getAsid s k.asid).gen
  | .again => addTimer (st .active) (s.now + 1) (.walkComplete k.id)
  | .target => addTimer (st (.targetWait s.now)) (s.now + 1) (.walkComplete k.id)
  | .room => st .pushWait
  | .word => st .wordWait
  | .element => addFreeTimer (st .active) (.atomicElementApply k.id)
  | .sent => s

/-- The checks of a `copyr` made at the package of its target, before any byte moves (R146, R151). A valid BAR makes the copy's
arrival due there. -/
def checkFar (s : State) (k : Cmd) : Got Unit :=
  let d := k.record
  let sp := offsetSpan d true
  match exchange s k 0 [(copyPkg s k,
    .copyrCheck k.id k.owner (nth (targetsOf .copyr d) 0 0) sp.1 sp.2 (dstRun .copyr d) (descBar d), 0)] with
  | (.error x, s) => (.error x, s)
  | (.ok _, s) =>
    (.ok (), modCmd s k.id fun q =>
      { q with checked := true, arrive := decide (descBar d ≠ 0xFFFF), acks := 0, answers := [], wrote := false })

/-- The next thing that a copy does: its checks where its target stands, else its next unit. -/
def nextOf (s : State) (k : Cmd) : Got Unit :=
  if goesFar s k && !k.checked then checkFar s k
  else match (if k.index = 0 then checkCurrent s k else none) with
    | some x => (.error x, s)
    | none => moveUnit s k

/-- A copy goes on, up to a number of units at this event; then the engine turns to it again. -/
def advance : Nat → Nat → State → State
  | 0, id, s => addFreeTimer s (.walkComplete id)
  | n + 1, id, s =>
    match getCmd s id with
    | none => s
    | some k =>
      if k.index < unitsOf k then
        match nextOf s k with
        | (.ok _, s) => advance n id s
        | (.error x, s) =>
          match getCmd s id with
          | some k => stopCopy s k x
          | none => s
      else if k.target + 1 < (targetsOf k.kind k.record).length then
        advance n id (modCmd s id fun q => { q with index := 0, target := k.target + 1 })
      else
        let status := if k.kind = .copyd ∧ k.shared then stShared else stOk
        finishCmd s id status (resultOf k status)

/-- The barrier of a copy (R151): none where BAR names none; `none` outside where the checks fail. -/
def copyBarrier (s : State) (k : Cmd) : Option (Option (Bool × Nat × Nat)) :=
  let b := descBar k.record
  if b = 0xFFFF || goesFar s k then some none
  else if k.kind = .copyr then
    match (targetCtx s k (nth (targetsOf .copyr k.record) 0 0)).bind fun c => (getCtx s c).map fun x => (c, x) with
    | some (c, x) => (barKey s x.region c.core b).map some
    | none => some none
  else (barKey s k.region k.c.core b).map some

/-- A copy whose descriptor breaks a rule: it moves no byte, but still arrives at a valid barrier (R145, R163), at another
package once that has checked it. -/
def refuseCopy (s : State) (k : Cmd) : State :=
  let named := k.kind ≠ .copyr || addrOk (dDaddr k.record) (some 3) true
  let bar := if named then (copyBarrier s k).join else none
  let far := k.kind = .copyr && named && goesFar s k && descBar k.record ≠ 0xFFFF && decide (copyPkg s k < 576)
  finishCmd (modCmd s k.id fun q => { q with bar := bar, arrive := far }) k.id stProtection (resultOf k stProtection)

/-- Whether a `copyr` that ends before its target's package has checked it is still to arrive there: at the barrier that BAR names
there, if it is valid (R163). -/
def owesArrival (s : State) (k : Cmd) : Bool := goesFar s k && !k.checked && decide (descBar k.record ≠ 0xFFFF)

/-- What a copy meets at its barrier and its windows: PROTECTION without an arrival where BAR fails its checks, else the barrier
noted and what stops it (R146, R151, R163). -/
def enterCopy (s : State) (k : Cmd) (stop : Option Stop) (go : State → State) : State :=
  match copyBarrier s k with
  | none => finishCmd s k.id stProtection (resultOf k stProtection)
  | some bar =>
    let s := modCmd s k.id fun q => { q with bar := bar.orElse fun _ => q.bar }
    match stop with
    | some x => stopCopy (if owesArrival s k then modCmd s k.id fun q => { q with arrive := true } else s) k x
    | none => go (if owesArrival s k then modCmd s k.id fun q => { q with arrive := false } else s)

/-- A copy begins or resumes at its engine: its descriptor, its barrier, its windows, then its next units. -/
def startCopy (s : State) (k : Cmd) : State :=
  if !copyFieldsOk k.kind k.record then refuseCopy s k
  else if k.kind = .copyr ∧ 576 ≤ copyPkg s k then finishCmd s k.id stUnreachable (resultOf k stUnreachable)
  else enterCopy s k (checkNow s k) fun s => advance 64 k.id (modCmd s k.id fun q => { q with st := .active })

/-- The KIND of a park (R255). -/
def parkKind (k : Cmd) (write : Bool) : Nat :=
  match k.kind with
  | .copya => 2
  | .copyf => 3
  | _ => if write then 1 else 0

/-- A turn of the engine for a copy that waits for its target slice (R146): 65,536 cycles without one end it; once it stands
there, the copy goes on when a lane is free (R164). -/
def awaitTarget (s : State) (k : Cmd) (since : Nat) : State :=
  let later := fun (s : State) => addTimer s (s.now + 1) (.walkComplete k.id)
  match checkNow s k with
  | some .target => if since + 65536 ≤ s.now then addTurn s (.copyTargetTimeout k.id) else later s
  | x => enterCopy s k x fun s =>
      if laneFree s k.cluster then advance 64 k.id (modCmd s k.id fun q => { q with st := .active })
      else later (modCmd s k.id fun q => { q with st := .targetWait s.now })

/-- A turn of the engine for a copy: it starts, waits on, or its walk ends. -/
def turnCopy (s : State) (k : Cmd) : State :=
  let later := addTimer s (s.now + 1) (.walkComplete k.id)
  match k.st with
  | .queued =>
    if !k.heldBy.isEmpty || !laneFree s k.cluster || heldBack s k then later else startCopy s k
  | .targetWait since => awaitTarget s k since
  | .active => if heldBack s k then later else advance 64 k.id s
  | .walking gen va w =>
    (match endWalk s k gen va w (parkKind k w) with
     | .goOn s => advance 64 k.id s
     | .stopped s => s
     | .failed s => finishCmd s k.id stFaulted (resultOf k stFaulted))
  | _ => s

/-- COPY_TARGET_TIMEOUT (R146): 65,536 cycles without a qualifying slice end the copy ABORTED. -/
def execCopyTargetTimeout (id : Nat) (s : State) : Ans :=
  .next (match getCmd s id with
    | none => s
    | some k =>
      match k.st with
      | .targetWait since =>
        if since + 65536 ≤ s.now ∧ checkNow s k = some .target then
          finishCmd s id stAborted (resultOf k stAborted)
        else s
      | _ => s)

/-- PUSH_ENTRY_FREED (R151, R164): a waiting push goes on; with its target gone it waits for another slice. -/
def execPushEntryFreed (id : Nat) (s : State) : Ans :=
  .next (match getCmd s id with
    | none => s
    | some k =>
      if k.st ≠ .pushWait then s
      else
        let s := modCmd s id fun q => { q with st := .active }
        if isCopy k.kind then advance 64 id s else addTurn s (.walkComplete id))

/-- COPYF_WORD_READY (R153, R164): the waiting word is tried again in a free lane, and moved where its condition holds. -/
def execCopyfWordReady (id : Nat) (s : State) : Ans :=
  .next (match getCmd s id with
    | none => s
    | some k => if k.st = .wordWait && laneFree s k.cluster then advance 64 id (modCmd s id fun q => { q with st := .active }) else s)

/-- ATOMIC_ELEMENT_APPLY (R293): the reduction unit performs the current element, once. -/
def execAtomicElementApply (id : Nat) (s : State) : Ans :=
  .next (match getCmd s id with
    | none => s
    | some k =>
      if k.kind = .copya ∧ k.st = .active ∧ k.index < unitsOf k then
        match moveElement s k with
        | (.ok _, s) => advance 64 id s
        | (.error x, s) => (match getCmd s id with
          | some k => stopCopy s k x
          | none => s)
      else s)

/-- The one arrival of a `copyr` at the package of its target, after its last write there (R151, R163): the tag waits for its
acknowledgement. A package that is not known is probed first (R262); one that does not reply takes none (DESIGN CHOICE, log
133). -/
def arriveFar (s : State) (k : Cmd) : State :=
  let pkg := copyPkg s k
  if knownInc s pkg = 0 then sendProbe (modCmd s k.id fun q => { q with st := .arriving pkg 0 }) pkg
  else
    let (num, s) := sendPacket s pkg (.copyrEnd k.id k.owner (nth (targetsOf .copyr k.record) 0 0) (descBar k.record))
    modCmd s k.id fun q => { q with arrive := false, st := .arriving pkg num }

/-- COPY_COMPLETE (R148, R163, R285): a command that has made every effect ends: the arrival of a copy with a barrier,
RESULT, the tag. -/
def execCopyComplete (id : Nat) (s : State) : Ans :=
  .next (match getCmd s id with
    | none => s
    | some k =>
      if k.st = .ending then
        if k.arrive then arriveFar s k
        else
          let s := match k.bar with
            | some b => copyArrival s id b
            | none => s
          endCmd s id k.status k.result.toNat
      else s)

/-! ### Issue (R144, R150) -/

/-- No operand besides the record. -/
def noData (x : Ctx) : Except (Nat × Nat) (List Byte × Ctx) := .ok ([], x)

/-- `copy`. -/
def execCopy (f : TFields) (s : State) : Ans := recordCmd 0x10 .copy (fun _ => false) f s noData

/-- `copym`. -/
def execCopym (f : TFields) (s : State) : Ans := recordCmd 0x11 .copym (fun _ => false) f s noData

/-- `copyr`. -/
def execCopyr (f : TFields) (s : State) : Ans := recordCmd 0x12 .copyr (fun _ => false) f s noData

/-- `copyd`. -/
def execCopyd (f : TFields) (s : State) : Ans := recordCmd 0x13 .copyd (fun _ => false) f s noData

/-- Whether a `copya` acquires: RET is 1 (R289). -/
def copyaAcquires (d : BitVec 512) : Bool := (dMode d).testBit 8

/-- `copya`. -/
def execCopya (f : TFields) (s : State) : Ans := recordCmd 0x14 .copya copyaAcquires f s noData

/-- Whether a `copyf` acquires: DRAIN and READFULL (R289). -/
def copyfAcquires (d : BitVec 512) : Bool := bits (dMode d) 1 0 = 1 || bits (dMode d) 1 0 = 2

/-- The shared issue of the four forms of `copyf`, whose record's MODE picks the form. -/
def issueCopyf (f : TFields) (s : State) : Ans := recordCmd 0x15 .copyf copyfAcquires f s noData

/-- `copyf` FILL. -/
def execCopyfFill (f : TFields) (s : State) : Ans := issueCopyf f s

/-- `copyf` DRAIN. -/
def execCopyfDrain (f : TFields) (s : State) : Ans := issueCopyf f s

/-- `copyf` READFULL. -/
def execCopyfReadfull (f : TFields) (s : State) : Ans := issueCopyf f s

/-- `copyf` EMPTY. -/
def execCopyfEmpty (f : TFields) (s : State) : Ans := issueCopyf f s

/-- `copyq`: its source is the entry read from vA. -/
def execCopyq (f : TFields) (s : State) : Ans :=
  recordCmd 0x16 .copyq (fun _ => false) f s fun x =>
    match readV x f.srcA with
    | .error e => .error e
    | .ok (v, x) => .ok (vecBytes v, x)

end Sys2Proof.Machine
end

