-- ==== Sys2Proof/Machine/KeyValue.lean ====
section
/-! DEFINITION. Position-striped key-value state at its home package: sequence records, first-stage tables, segments and the
pewter store (R323, R324), positions (R325), the position map (R326, R327), and the commands `kvap`, `kvmsk` and `kvtr`
COMPACT, TRIM and PSHARE (R328 to R335). -/

namespace Sys2Proof.Machine

/-! ### Sequences, maps and rows -/

/-- The stripe entries of the group that covers a sequence (R326). -/
def groupOf (s : State) (seq : Nat) : List StripeEntry :=
  s.map.filter fun e => decide (e.seq ≤ seq) && decide (seq ≤ e.seq + e.span)

/-- The generation of a group's map. -/
def groupGen (g : List StripeEntry) : Nat := ((g.head?.map fun e => e.gen)).getD 0

/-- The home package of a group. -/
def groupHome (g : List StripeEntry) : Nat := ((g.head?.map fun e => e.home)).getD 0

/-- The stripe of a block number. -/
def stripeOf (g : List StripeEntry) (b : Nat) : Option StripeEntry :=
  g.find? fun e => decide (e.first ≤ b) && decide (b ≤ e.last)

/-- The open stripe of a group. -/
def openStripe (g : List StripeEntry) : Option StripeEntry := g.find? fun e => e.last = 0xFFFFF

/-- The record of a sequence homed here (R323). -/
def getSeq (s : State) (seq : Nat) : Option SeqRec := s.seqs.find? fun q => q.seq = seq

/-- A sequence record replaced. -/
def putSeq (s : State) (q : SeqRec) : State := { s with seqs := s.seqs.map fun r => if r.seq = q.seq then q else r }

/-- dh of a DHC code. -/
def dhOf (dhc : Nat) : Nat := 64 * 2 ^ dhc

/-- B: tokens per block (R265). -/
def tokensOf (dhc : Nat) : Nat := 1024 / dhOf dhc

/-- The VALID bits of a new block of B slots: those held at 1 (R268, R329). -/
def heldBits (b : Nat) : Nat := 0xFFFF - (2 ^ b - 1)

/-- The rows that a sequence's table has: none before its first block. -/
def tableRows (q : SeqRec) : Nat := if q.tail = 0 ∧ q.tfill = 0 then 0 else q.tail + 1

/-- The address of a row of a table (R324). -/
def rowAddr (q : SeqRec) (b : Nat) : Nat := q.table + 8 * b

/-- The segment of a sequence. -/
def getSegment (s : State) (seq : Nat) : List (Nat × DWord) :=
  ((s.segments.find? fun g => g.seq = seq).map fun g => g.rows).getD []

/-- A row of a segment written. -/
def putRowHere (s : State) (seq b : Nat) (r : DWord) : State :=
  let rows := alSet (getSegment s seq) b r
  { s with segments := s.segments.filter (fun g => g.seq ≠ seq) ++ [{ seq := seq, rows := rows }] }

/-- The reference of a block of a sequence as this package holds it: the home's table, else the segment. -/
def rowOf (s : State) (seq b : Nat) : Nat :=
  match getSeq s seq with
  | some q => if b < tableRows q then hbmNat s (rowAddr q b) 8 else 0
  | none => ((alGet (getSegment s seq) b).map fun r => r.toNat).getD 0

/-- The rows of a sequence's table or segment here. -/
def unitRows (s : State) (seq : Nat) : Nat :=
  match getSeq s seq with
  | some q => tableRows q
  | none => (getSegment s seq).length

/-- Whether a sequence's table or segment may be used at once: hot, too long ever to be hot, or without rows (R324). -/
def usable (s : State) (seq : Nat) : Bool :=
  s.pewter.contains seq || unitRows s seq = 0 || decide (131072 < unitRows s seq)

/-- The rows that the hot units of a half hold (R19). -/
def halfRows (s : State) (half : Nat) : Nat :=
  ((s.pewter.filter fun q => q % 2 = half).map (unitRows s)).foldl (· + ·) 0

/-- A unit that has grown stays hot where its half still holds it, and is cold otherwise. -/
def keepHot (s : State) (seq : Nat) : State :=
  let t := { s with pewter := if s.pewter.contains seq then s.pewter else s.pewter ++ [seq] }
  if unitRows s seq ≤ 131072 ∧ halfRows t (seq % 2) ≤ 131072 then t
  else { s with pewter := s.pewter.filter fun q => q ≠ seq }

/-- A row of this package's segment written by a command; a hot segment that outgrows its half is hot no longer. -/
def putSegmentRow (s : State) (seq b : Nat) (r : DWord) : State :=
  let hot := s.pewter.contains seq
  let s := putRowHere s seq b r
  if hot then keepHot s seq else s

/-! ### Stripe states (R327) -/

/-- The sequences of which rows stand here: those homed here, and those of segments. -/
def seqsHere (s : State) : List Nat := ((s.seqs.map fun q => q.seq) ++ s.segments.map fun g => g.seq).eraseDups

/-- Whether a sequence has a block of a stripe on another tier, by the rows of its table or segment here. -/
def seqCold (s : State) (e : StripeEntry) (seq : Nat) : Bool :=
  let nums := match getSeq s seq with
    | some q => List.range (tableRows q)
    | none => (getSegment s seq).map fun (r : Nat × DWord) => r.1
  nums.any fun b => decide (e.first ≤ b) && decide (b ≤ e.last) && refV (rowOf s seq b) && decide (refTier (rowOf s seq b) ≠ 0)

/-- Whether some sequence of its group has a block of a stripe on another tier. -/
def stripeCold (s : State) (e : StripeEntry) : Bool :=
  (seqsHere s).any fun seq => decide (e.seq ≤ seq) && decide (seq ≤ e.seq + e.span) && seqCold s e seq

/-- The stripe of a row made HOT or COLD as its blocks stand (R327). -/
def settleStripe (s : State) (row : Option (Nat × Nat)) : State :=
  match row with
  | none => s
  | some (seq, b) =>
    { s with map := s.map.map fun e =>
        if e.seq ≤ seq ∧ seq ≤ e.seq + e.span ∧ e.first ≤ b ∧ b ≤ e.last ∧ e.st ≤ 1 then
          { e with st := if stripeCold s e then 1 else 0 }
        else e }

/-! ### The commands at home -/

/-- Bits [hi:lo] of a command's record. -/
def kr (k : Cmd) (hi lo : Nat) : Nat := field k.record hi lo

/-- MODE of a `kvtr` record (R331). -/
def trMode (k : Cmd) : Nat := kr k 3 0

/-- SEQ of a command's record. -/
def kvSeq (k : Cmd) : Nat := if k.kind = .kvtr then kr k 63 32 else kr k 31 0

/-- SPAN of a command's record, for those that take it. -/
def kvSpan (k : Cmd) : Nat :=
  match k.kind with
  | .kvmsk => kr k 47 32
  | .kvtr => if trMode k = 3 then kr k 175 160 else 0
  | _ => 0

/-- GEN of a command's record. -/
def kvGen (k : Cmd) : Nat :=
  match k.kind with
  | .kvmsk => kr k 63 48
  | .kvtr => kr k 31 16
  | _ => kr k 47 32

/-- The checks of a record that need nothing but its bits (R328). -/
def kvFieldsOk (k : Cmd) : Bool :=
  match k.kind with
  | .kvap =>
    decide (1 ≤ kr k 55 48) && decide (kr k 55 48 ≤ 64) && kr k 63 56 = 0 && kr k 127 105 = 0 && kr k 447 192 = 0 &&
      (kr k 104 104 = 0 || kr k 103 64 = 0)
  | .kvmsk => kr k 447 104 = 0
  | .kvtr =>
    let range := kr k 83 64 = 0 && kr k 115 96 = 0
    kr k 15 4 = 0 && kr k 95 84 = 0 && kr k 127 116 = 0 && kr k 159 138 = 0 && kr k 191 176 = 0 && kr k 255 232 = 0 &&
      kr k 447 288 = 0 &&
      (match trMode k with
       | 0 => decide (kr k 137 128 < 576) && kr k 175 160 = 0 && kr k 231 192 = 0 && kr k 287 256 = 0
       | 1 => kr k 137 128 = 0 && kr k 175 160 = 0 && kr k 231 192 = 0 && kr k 287 256 = 0
       | 2 => range && kr k 137 128 = 0 && kr k 175 160 = 0 && kr k 287 256 = 0
       | 3 => range && kr k 137 128 = 0
       | _ => false)
  | _ => true

/-- The sequences that a command works on, as the first and the last id. -/
def kvRange (s : State) (k : Cmd) : Nat × Nat :=
  if k.kind = .kvtr ∧ trMode k = 0 then
    match groupOf s (kvSeq k) with
    | e :: _ => (e.seq, e.seq + e.span)
    | [] => (kvSeq k, kvSeq k)
  else (kvSeq k, kvSeq k + kvSpan k)

/-- Whether a command is one of the key-value commands. -/
def isKv (k : Cmd) : Bool := k.kind = .kvap || k.kind = .kvmsk || k.kind = .kvtr

/-- The packet to another home in which a command has been sent, until the answer. -/
def kvSent (k : Cmd) : Option (Nat × Nat) :=
  match k.st with
  | .remoteWait pkg num => if k.checked || num = 0 then none else some (pkg, num)
  | _ => none

/-- Whether an earlier key-value command of the same context has still to arrive at its home here, or to be sent to another
(R328). -/
def kvArrives (s : State) (k : Cmd) : Bool :=
  s.cmds.any fun q => isKv q && q.id < k.id && q.agent = k.agent && q.target = 0 && !q.checked && !effectsMade q &&
    (kvSent q).isNone

/-- The packet of the context's command before one that is sent to the same home: that home takes it up first (R328;
log 156). -/
def kvAfter (s : State) (k : Cmd) (home : Nat) : Option Nat :=
  ((s.cmds.filter fun q => isKv q && q.id < k.id && q.agent = k.agent).filterMap fun q =>
    (kvSent q).bind fun p => if p.1 = home then some p.2 else none).max?

/-- The key-value commands that arrived here before one, in the order in which they arrived: a command that arrives goes to the
end of the list. -/
def arrivedBefore (s : State) (k : Cmd) : List Cmd :=
  (s.cmds.takeWhile fun q => q.id ≠ k.id).filter fun q => isKv q && q.checked && !effectsMade q

/-- Whether a command that arrived earlier on one of the same sequences comes first (R328). -/
def kvBehind (s : State) (k : Cmd) : Bool :=
  let r := kvRange s k
  (arrivedBefore s k).any fun q =>
    let t := kvRange s q
    decide (t.1 ≤ r.2) && decide (r.1 ≤ t.2)

/-- A command arrives at its home (R328). -/
def arriveHome (s : State) (k : Cmd) : State :=
  { s with cmds := s.cmds.filter (fun q => q.id ≠ k.id) ++ [{ k with checked := true }] }

/-- A command that another package sent answered (R328); what it has written is that access's (R295). -/
def answerKv (s : State) (k : Cmd) (status result : Nat) : State :=
  let src := k.target - 1
  let ids := (getView s (.cmd k.id)).own
  let s := { s with farWrites := s.farWrites ++ [(src, k.recAddr, ids)] }
  forgetCmd (answerTo s src k.recAddr (.done (bytesOf 1 status ++ bytesOf 8 result) none none)) k.id

/-- A command's effect is made: it ends with a status and RESULT once the packages it has written to have answered. -/
def endKv (s : State) (id status result : Nat) : State :=
  match getCmd s id with
  | none => s
  | some k =>
    let status := if k.status = stOk then status else k.status
    let s := modCmd s id fun q => { q with st := .active, shared := true, status := status, result := BitVec.ofNat 64 result }
    if !k.heldBy.isEmpty then addTimer s (s.now + 1) (.walkComplete id)
    else if k.target = 0 then finishCmd s id status result
    else answerKv s k status result

/-- A command tries again in a cycle. -/
def kvLater (s : State) (k : Cmd) : State := addTimer s (s.now + 1) (.walkComplete k.id)

/-- A request sent to a stripe owner on another package, whose answer the command's end waits for; one that is no longer known
cannot be reached, and the command ends so (R264). -/
def sendFar (s : State) (id pkg : Nat) (what : RemoteWhat) : State :=
  if knownInc s pkg = 0 then modCmd s id fun q => { q with status := if q.status = stOk then stUnreachable else q.status }
  else
    let (num, s) := sendPacket s pkg what
    modCmd s id fun q => { q with heldBy := q.heldBy ++ [num] }

/-- The first of several packages whose incarnation is unknown, other than this one (R262). -/
def unknownPkg (s : State) (pkgs : List Nat) : Option Nat := pkgs.find? fun p => p ≠ s.pkg && knownInc s p = 0

/-- A probe sent for a command, which then waits for the answer (R262). -/
def probeFor (s : State) (k : Cmd) (pkg : Nat) : State :=
  if 576 ≤ pkg then endKv s k.id stUnreachable (if k.kind = .kvap then k.index else 0)
  else sendProbe (modCmd s k.id fun k => { k with st := .remoteWait pkg 0 }) pkg

/-- Several packages' incarnations probed for before a command goes on (R262). -/
def afterProbes (s : State) (k : Cmd) (pkgs : List Nat) (go : State → State) : State :=
  match unknownPkg s pkgs with
  | some p => probeFor s k p
  | none => go s

/-- A row of a sequence rewritten at home, which may leave its stripe HOT (R327), and in the segment of its stripe's owner where
that is another package (R324). -/
def putRow (s : State) (id : Nat) (q : SeqRec) (owner b ref : Nat) : State :=
  let s := settleStripe (hbmPut s (rowAddr q b) 8 ref) (some (q.seq, b))
  if owner = s.pkg then s else sendFar s id owner (.segmentRow q.seq b (BitVec.ofNat 64 ref))

/-! ### Blocks -/

/-- The number of valid slots of a block of B slots below slot t (R325). -/
def rankOf (valid t : Nat) : Nat := ((List.range t).filter fun i => valid.testBit i).length

/-- The position of slot t (R325). -/
def slotPos (base valid t : Nat) : Nat := base + rankOf valid t

/-- What asks the owners of blocks on other packages for their entries. -/
def infoAsks (s : State) (rows : List (Nat × Nat)) : List FarAsk :=
  rows.filterMap fun r => if refPkg r.2 = s.pkg then none else some (refPkg r.2, .blockInfo (refGbn r.2), 0)

/-- The answer to a request for a block's entry: VALID, BASE and its owner, 0 where it is not LIVE. -/
def infoBytes (e : Nat) : List Byte :=
  bytesOf 2 (geValid e) ++ bytesOf 5 (geBase e) ++ bytesOf 2 (if geLive e then geOwner e else 0)

/-- A block as its home knows it: its number, its reference, VALID, BASE and owner. -/
structure BlockInfo where
  b : Nat
  ref : Nat
  valid : Nat
  base : Nat
  owner : Nat
deriving DecidableEq, Repr, Inhabited

/-- The entries of blocks: those here, the answers of other packages in order for the rest. -/
def blockInfos (s : State) : List (List Byte) → List (Nat × Nat) → List BlockInfo
  | _, [] => []
  | ans, (b, ref) :: rest =>
    let here := decide (refPkg ref = s.pkg)
    let bs := if here then infoBytes (gbnEntry s (refGbn ref)) else ans.headD []
    let i : BlockInfo := { b := b, ref := ref, valid := natOfBytes (bs.take 2), base := natOfBytes ((bs.drop 2).take 5),
                           owner := natOfBytes ((bs.drop 7).take 2) }
    i :: blockInfos s (if here then ans else ans.drop 1) rest

/-- VALID and BASE of a block replaced, in its entry here or by its owner; a block no longer full of valid slots leaves the
deduplication index (R273). -/
def putInfo (s : State) (id ref : Nat) (old : Nat × Nat) (valid base : Nat) : State :=
  if old = (valid, base) then s
  else if refPkg ref = s.pkg then
    let g := refGbn ref
    let s := putValid s (.cmd id) g (putBits (putBits (gbnEntry s g) 55 40 valid) 103 64 base)
    if valid = 0xFFFF then s else dedupDrop s g
  else
    sendFar s id (refPkg ref)
      (.blockEntry (refGbn ref) (valid &&& (0xFFFF - old.1)) (old.1 &&& (0xFFFF - valid)) (some base))

/-- A block released, here or by its owner (R272). -/
def dropBlock (s : State) (id ref : Nat) : State :=
  if refPkg ref = s.pkg then releaseGbn s (refGbn ref) else sendFar s id (refPkg ref) (.blockRelease (refGbn ref))

/-- A new block at a stripe's owner with a base and VALID: its reference, or NO_FRAME (R270). Another package is asked after
`first` other requests of the command. -/
def newBlock (s : State) (k : Cmd) (first pkg base valid : Nat) : Got Nat :=
  if pkg = s.pkg then
    match takeBlock s k.owner with
    | none => (.error (.ends stNoFrame), s)
    | some (g, pa, s) =>
      let e := putBits (putBits (newGbnEntry pa k.owner) 55 40 valid) 103 64 base
      (.ok (mkRef s.pkg g), setGbn s g e)
  else
    match exchange s k first [(pkg, .blockNew k.owner base valid, 0)] with
    | (.error x, s) => (.error x, s)
    | (.ok _, s) => (.ok (natOfBytes (k.answers.getD first [])), s)

/-- The references of a sequence that are not vacant in a range of block numbers: (number, reference). -/
def liveRows (s : State) (q : SeqRec) (lo hi : Nat) : List (Nat × Nat) :=
  ((List.range' lo (hi + 1 - lo)).map fun b => (b, hbmNat s (rowAddr q b) 8)).filter fun p => refV p.2

/-- The packages that hold blocks of a list. -/
def blockPkgs (rows : List (Nat × Nat)) : List Nat := (rows.map fun p => refPkg p.2).eraseDups

/-! ### `kvap` (R329) -/

/-- The block number that the next token opens, if it opens one. -/
def opensBlock (q : SeqRec) : Option Nat :=
  if q.tail = 0 ∧ q.tfill = 0 then some 0
  else if q.tfill = tokensOf q.dhc then some (q.tail + 1)
  else none

/-- The block for the next token allotted where it needs one: the record after it, or the end of the command. `buf` says that the
token's block has been opened. -/
def openBlock (s : State) (k : Cmd) (q : SeqRec) (o : StripeEntry) : Got SeqRec :=
  match (if k.buf.isEmpty then opensBlock q else none) with
  | none => (.ok q, s)
  | some nb =>
    if 0xFFFFF < nb then (.error (.ends stProtection), s)
    else match newBlock s k 0 o.owner q.nextPos (heldBits (tokensOf q.dhc)) with
      | (.error x, s) => (.error x, s)
      | (.ok ref, s) =>
        let hot := usable s q.seq
        let s := putRow s k.id q o.owner nb ref
        let q := { q with tail := nb, tfill := 0 }
        let s := modCmd (putSeq s q) k.id fun k => { k with buf := bytesOf 8 ref, acks := 0, answers := [] }
        (.ok q, if hot then keepHot s q.seq else s)

/-- Token t's K and V rows among those that the command carries. -/
def rowBytes (k : Cmd) (dhc t : Nat) : List Byte × List Byte :=
  let w := 2 * dhOf dhc
  let n := kr k 55 48
  ((k.data.drop (w * t)).take w, (k.data.drop (w * (n + t))).take w)

/-- A unit's writes published as they are made, to the package and the domain. -/
def publishWide (s t : State) : State :=
  publish t ((t.log.drop s.log.length).map fun r => r.id) [.package, .domain]

/-- The rows of a token written into slot `tfill` of the tail block, then its VALID bit, here or by the block's owner. -/
def writeToken (s : State) (k : Cmd) (q : SeqRec) (t : Nat) : Got Unit :=
  let ra := rowAddr q q.tail
  let ref := hbmNat s ra 8
  let (kb, vb) := rowBytes k q.dhc t
  let ko := 2 * dhOf q.dhc * q.tfill
  let vo := 2048 + ko
  let bit := 2 ^ q.tfill
  if refPkg ref ≠ s.pkg && refTier ref = 0 then
    match exchange s k 0 [(refPkg ref, .block k.owner (refGbn ref) ko kb kb.length true, ra),
        (refPkg ref, .block k.owner (refGbn ref) vo vb vb.length true, ra), (refPkg ref, .blockEntry (refGbn ref) bit 0 none, 0)] with
    | (.error x, s) => (.error x, s)
    | (.ok _, s) =>
      -- a shared block has been copied: its owner's segment takes the new reference too
      (.ok (), if (k.answers.headD []).isEmpty then s else sendFar s k.id (refPkg ref) (.segmentRow q.seq q.tail (BitVec.ofNat 64 ref)))
  else match blockPlace s k.owner ra ko 0 true with
    | (.error x, s) => (.error x, s)
    | (.ok p, s) =>
      let p' := match p with
        | .hbm pa => Place.hbm (pa - ko + vo)
        | p => p
      let s := writePlaces k [(p, kb.length), (p', vb.length)] (kb ++ vb) s
      let g := refGbn (hbmNat s ra 8)
      let e := gbnEntry s g
      (.ok (), putValid s (.cmd k.id) g (putBits e 55 40 (geValid e ||| bit)))

/-- One token appended. -/
def appendToken (s : State) (k : Cmd) (o : StripeEntry) (q : SeqRec) : Got Unit :=
  match openBlock s k q o with
  | (.error x, s) => (.error x, s)
  | (.ok q, s) =>
    match writeToken s ((getCmd s k.id).getD k) q k.index with
    | (.error x, s) => (.error x, s)
    | (.ok _, s) =>
      (.ok (), modCmd (putSeq s { q with tfill := q.tfill + 1, nextPos := q.nextPos + 1 }) k.id fun k =>
        { k with index := k.index + 1, buf := [], acks := 0, answers := [] })

/-- A command parked for a block on another tier. The rows of a block have no address in an
ASID, so that the VA of the park's record (R255) is a free value (log 70). -/
def parkKv (s : State) (k : Cmd) (kind : Nat) : State :=
  let (n, s) := fresh s
  let (m, s) := fresh s
  parkCmd s k ((Config.freeWord n).toNat + (Config.freeWord m).toNat * 2 ^ 32) kind (getAsid s k.asid).gen

/-- What a key-value command does when it cannot go on at once: its end leaves `index` in RESULT. -/
def stopKv (s : State) (k : Cmd) (x : Stop) : State :=
  match x with
  | .ends st => endKv s k.id st k.index
  | .park _ kind => parkKv s k kind
  | .sent => s
  | _ => kvLater s k

/-- The tokens left appended one after another; `index` counts those done. -/
def advanceAppend (o : StripeEntry) : Nat → Nat → State → State
  | 0, id, s => addTimer s (s.now + 1) (.walkComplete id)
  | n + 1, id, s =>
    match getCmd s id with
    | none => s
    | some k =>
      if kr k 55 48 ≤ k.index then endKv s id stOk k.index
      else match getSeq s (kvSeq k) with
        | none => endKv s id stProtection k.index
        | some q =>
          match appendToken s k o q with
          | (.ok _, s) => advanceAppend o n id s
          | (.error x, s) => stopKv s ((getCmd s id).getD k) x

/-- `kvap` at home. -/
def runAppend (s : State) (k : Cmd) (g : List StripeEntry) : State :=
  match getSeq s (kvSeq k), openStripe g with
  | some q, some o =>
    if 3 ≤ q.dhc then endKv s k.id stProtection 0
    else if k.index = 0 ∧ k.acks = 0 ∧ k.buf.isEmpty ∧ kr k 104 104 = 0 ∧ kr k 103 64 ≠ q.nextPos then endKv s k.id stAborted 0
    else if o.st = 2 ∨ !usable s q.seq then kvLater s k
    else afterProbes s k (o.owner :: blockPkgs (liveRows s q q.tail q.tail)) fun s => advanceAppend o 65 k.id s
  | _, _ => endKv s k.id stProtection 0

/-! ### `kvmsk` (R330) -/

/-- VALID with every slot of a position from `from'` on cleared; held bits stay. -/
def maskValid (b base valid from' : Nat) : Nat :=
  ((List.range b).filter fun t => valid.testBit t && decide (from' ≤ slotPos base valid t)).foldl
    (fun v t => v &&& (0xFFFF - 2 ^ t)) valid

/-- Whether a block of B slots holds a valid one. -/
def anyValid (b valid : Nat) : Bool := valid % 2 ^ b ≠ 0

/-- One sequence truncated, by the entries of its blocks. -/
def maskSeq (id from' : Nat) (infos : List BlockInfo) (s : State) (q : SeqRec) : State :=
  let b := tokensOf q.dhc
  let masked := infos.map fun i => (i, maskValid b i.base i.valid from')
  let keep := (masked.reverse.dropWhile fun m => !anyValid b m.2).length
  let s := (masked.zipIdx).foldl (fun s p =>
    let i := p.1.1
    putInfo s id i.ref (i.valid, i.base) p.1.2 (if keep ≤ p.2 then from' else i.base)) s
  putSeq s { q with nextPos := from' }

/-- The rows of a sequence that are not vacant. -/
def allRows (s : State) (q : SeqRec) : List (Nat × Nat) := if tableRows q = 0 then [] else liveRows s q 0 q.tail

/-- Sequences truncated one after another, with the answers of other packages for their blocks in order. -/
def maskSeqs (id from' : Nat) : List (List Byte) → List SeqRec → State → State
  | _, [], s => s
  | ans, q :: rest, s =>
    let rows := allRows s q
    maskSeqs id from' (ans.drop (infoAsks s rows).length) rest (maskSeq id from' (blockInfos s ans rows) s q)

/-- `kvmsk` at home: the sequences of the span with a record and tokens from FROM on. -/
def runMask (s : State) (k : Cmd) : State :=
  let from' := kr k 103 64
  let qs := s.seqs.filter fun q =>
    decide (kvSeq k ≤ q.seq) && decide (q.seq ≤ kvSeq k + kvSpan k) && decide (from' < q.nextPos) && decide (q.dhc < 3)
  if qs.any fun q => !usable s q.seq then kvLater s k
  else match exchange s k 0 (infoAsks s (qs.flatMap (allRows s))) with
    | (.error x, s) => stopKv s k x
    | (.ok _, s) => endKv (maskSeqs k.id from' k.answers qs s) k.id stOk qs.length

/-! ### `kvtr` TRIM and COMPACT (R333, R334) -/

/-- Whether a window that starts at `wpos` no longer needs a block of B slots. -/
def trimmed (b wpos valid base : Nat) : Bool :=
  if anyValid b valid then decide (base + rankOf valid b ≤ wpos) else decide (base ≤ wpos)

/-- A row made vacant. -/
def vacateRow (s : State) (id : Nat) (q : SeqRec) (g : List StripeEntry) (b : Nat) : State :=
  putRow s id q (((stripeOf g b).map fun e => e.owner).getD s.pkg) b 0

/-- The owners of the stripes of rows. -/
def rowOwners (g : List StripeEntry) (rows : List (Nat × Nat)) : List Nat :=
  rows.filterMap fun r => (stripeOf g r.1).map fun e => e.owner

/-- `kvtr` TRIM at home. -/
def runTrim (s : State) (k : Cmd) (g : List StripeEntry) (q : SeqRec) : State :=
  let rows := if q.tail = 0 then [] else liveRows s q 0 (q.tail - 1)
  afterProbes s k (rowOwners g rows) fun s =>
  match exchange s k 0 (infoAsks s rows) with
  | (.error x, s) => stopKv s k x
  | (.ok _, s) =>
    let gone := (blockInfos s k.answers rows).filter fun i => trimmed (tokensOf q.dhc) (kr k 231 192) i.valid i.base
    let s := gone.foldl (fun s i => vacateRow (dropBlock s k.id i.ref) k.id q g i.b) s
    endKv s k.id stOk 0

/-- CMP of a block set or cleared, here or by its owner. -/
def setCmp (id b : Nat) (s : State) (r : Nat × Nat) : State :=
  if refPkg r.2 = s.pkg then setGbn s (refGbn r.2) (putBits (gbnEntry s (refGbn r.2)) 206 206 b)
  else sendFar s id (refPkg r.2) (.blockCmp (refGbn r.2) b)

/-- What asks the owners of blocks on other packages for their bytes. -/
def byteAsks (s : State) (owner : Nat) (rows : List (Nat × Nat)) : List FarAsk :=
  rows.filterMap fun r =>
    if refPkg r.2 = s.pkg then none else some (refPkg r.2, .block owner (refGbn r.2) 0 [] 4096 false, 0)

/-- The bytes of blocks: read here, the answers of other packages in order for the rest. -/
def blockBytes (id : Nat) : List (List Byte) → List (Nat × Nat) → State → List (List Byte) × State
  | _, [], s => ([], s)
  | ans, (_, ref) :: rest, s =>
    let here := decide (refPkg ref = s.pkg)
    let (bs, s) := if here then readAs s (.cmd id) .hbm (geFrame (gbnEntry s (refGbn ref))) 4096
      else (answerBytes (ans.headD []) 4096, s)
    let (more, s) := blockBytes id (if here then ans else ans.drop 1) rest s
    (bs :: more, s)

/-- What a command that reads whole blocks asks of other packages: their entries, then their bytes. -/
def wholeAsks (s : State) (owner : Nat) (rows : List (Nat × Nat)) : List FarAsk := infoAsks s rows ++ byteAsks s owner rows

/-- The entries and bytes of blocks, by the answers to `wholeAsks`. -/
def wholeBlocks (s : State) (k : Cmd) (rows : List (Nat × Nat)) : List (BlockInfo × List Byte) × State :=
  let (bs, s) := blockBytes k.id (k.answers.drop (infoAsks s rows).length) rows s
  ((blockInfos s k.answers rows).zip bs, s)

/-- The rows of the valid tokens of blocks, in position order: (K, V). -/
def validTokens (dhc : Nat) (blocks : List (BlockInfo × List Byte)) : List (List Byte × List Byte) :=
  let w := 2 * dhOf dhc
  blocks.flatMap fun p =>
    ((List.range (tokensOf dhc)).filter fun t => p.1.valid.testBit t).map fun t =>
      ((p.2.drop (w * t)).take w, (p.2.drop (2048 + w * t)).take w)

/-- The bytes of a block with tokens in its slots from 0. -/
def packTokens (dhc : Nat) (ts : List (List Byte × List Byte)) : List Byte :=
  let w := 2 * dhOf dhc
  let side := fun (f : List Byte × List Byte → List Byte) =>
    let bs := ts.flatMap f
    bs ++ List.replicate (w * tokensOf dhc - bs.length) 0
  side (fun t => t.1) ++ side fun t => t.2

/-- Blocks written to a block here, or by its owner, slot by slot where a token stands. -/
def fillBlock (s : State) (k : Cmd) (ref : Nat) (dhc n : Nat) (bs : List Byte) : State :=
  let w := 2 * dhOf dhc
  let kb := bs.take (w * n)
  let vb := (bs.drop 2048).take (w * n)
  if refPkg ref = s.pkg then
    let pa := geFrame (gbnEntry s (refGbn ref))
    writePlaces k [(.hbm pa, w * n), (.hbm (pa + 2048), w * n)] (kb ++ vb) s
  else
    let s := sendFar s k.id (refPkg ref) (.block k.owner (refGbn ref) 0 kb (w * n) true)
    sendFar s k.id (refPkg ref) (.block k.owner (refGbn ref) 2048 vb (w * n) true)

/-- New blocks for groups of tokens, with their bases, asked for after `first` other requests: their references. -/
def newBlocks (k : Cmd) (pkg dhc : Nat) : Nat → Nat → List (List (List Byte × List Byte)) → State → Got (List Nat)
  | _, _, [], s => (.ok [], s)
  | first, base, ts :: rest, s =>
    match newBlock s k first pkg base (heldBits (tokensOf dhc) ||| (2 ^ ts.length - 1)) with
    | (.error x, s) => (.error x, s)
    | (.ok ref, s) =>
      match newBlocks k pkg dhc (first + 1) (base + tokensOf dhc) rest s with
      | (.error x, s) => (.error x, s)
      | (.ok refs, s) => (.ok (ref :: refs), s)

/-- New blocks filled with their groups of tokens. -/
def fillBlocks (k : Cmd) (dhc : Nat) (refs : List Nat) (groups : List (List (List Byte × List Byte))) (s : State) : State :=
  (refs.zip groups).foldl (fun s p => fillBlock s k p.1 dhc p.2.length (packTokens dhc p.2)) s

/-- The rows of a range given new references in order, the rest vacant. -/
def renameRows (id : Nat) (q : SeqRec) (owner : Nat) : List Nat → List Nat → State → State
  | [], _, s => s
  | b :: bs, refs, s => renameRows id q owner bs (refs.drop 1) (putRow s id q owner b (refs.headD 0))

/-- A COMPACT that has failed: the blocks made at another package go again, and the range is compacting no longer. -/
def failCompact (s : State) (k : Cmd) (pkg first : Nat) (rows : List (Nat × Nat)) (status : Nat) : State :=
  let s := if pkg = s.pkg then s else (k.answers.drop first).foldl (fun s bs => dropBlock s k.id (natOfBytes bs)) s
  endKv (rows.foldl (setCmp k.id 0) s) k.id status 0

/-- The second part of a COMPACT: the tokens of the range in new blocks. -/
def fillCompact (s : State) (k : Cmd) (q : SeqRec) (lo hi pkg : Nat) (rows : List (Nat × Nat)) : State :=
  let asks := wholeAsks s k.owner rows
  match exchange s k 0 asks with
  | (.error x, s) => stopKv s k x
  | (.ok _, s) =>
    let (blocks, s) := wholeBlocks s k rows
    let toks := validTokens q.dhc blocks
    let b := tokensOf q.dhc
    let base := ((blocks.head?.map fun i => i.1.base)).getD 0
    let groups := chunks b ((toks.length + b - 1) / b) toks
    match newBlocks k pkg q.dhc asks.length base groups s with
    | (.error (.ends st), _) => failCompact s k pkg asks.length rows st
    | (.error x, t) => stopKv t k x
    | (.ok refs, s) =>
      let s := fillBlocks k q.dhc refs groups (rows.foldl (setCmp k.id 0) s)
      let s := renameRows k.id q pkg (List.range' lo (hi + 1 - lo)) refs s
      endKv (rows.foldl (fun s r => dropBlock s k.id r.2) s) k.id stOk 0

/-- `kvtr` COMPACT at home: the owners checked and CMP set first, then the tokens of the range in new blocks. `index` 1 marks the
second part. A block on another tier is brought to tier 0 first (R269). -/
def runCompact (s : State) (k : Cmd) (g : List StripeEntry) (q : SeqRec) : State :=
  let lo := kr k 83 64
  let hi := kr k 115 96
  match stripeOf g lo with
  | none => endKv s k.id stProtection 0
  | some st =>
    if hi < lo ∨ st.last < hi ∨ q.tail ≤ hi ∨ tableRows q = 0 then endKv s k.id stProtection 0
    else
      let rows := liveRows s q lo hi
      if k.index = 1 then fillCompact s k q lo hi st.owner rows
      else if rows.any fun r => refTier r.2 ≠ 0 then parkKv s k 5
      else afterProbes s k [st.owner] fun s =>
        match exchange s k 0 (infoAsks s rows) with
        | (.error x, s) => stopKv s k x
        | (.ok _, s) =>
          if (blockInfos s k.answers rows).any fun i => i.owner ≠ k.owner then endKv s k.id stProtection 0
          else
            let s := modCmd (rows.foldl (setCmp k.id 1) s) k.id fun q => { q with index := 1, acks := 0, answers := [] }
            addFreeTimer s (.walkComplete k.id)

/-- A key-value command ends for what another unit or the firmware has found: a COMPACT in its second part leaves its range
compacting no longer. -/
def abandonKv (s : State) (k : Cmd) (status : Nat) : State :=
  match getSeq s (kvSeq k), stripeOf (groupOf s (kvSeq k)) (kr k 83 64) with
  | some q, some st =>
    if k.kind = .kvtr ∧ trMode k = 1 ∧ k.index = 1 then
      let rows := liveRows s q (kr k 83 64) (kr k 115 96)
      failCompact s k st.owner (wholeAsks s k.owner rows).length rows status
    else endKv s k.id status (if k.kind = .kvap then k.index else 0)
  | _, _ => endKv s k.id status (if k.kind = .kvap then k.index else 0)

/-! ### `kvtr` PSHARE (R335) -/

/-- The token ids that a PSHARE carries. -/
def prefixToks (k : Cmd) : List Nat := (chunks 4 (k.data.length / 4) k.data).map natOfBytes

/-- The key of a prefix: the first 128 bits of SHAKE256 over its token ids. -/
def prefixKey (toks : List Nat) : BitVec 128 :=
  BitVec.ofNat 128 (natOfBytes (shake256 (toks.flatMap (bytesOf 4)) 16))

/-- A reference counted once more (R272). -/
def raiseGbn (s : State) (g : Nat) : State :=
  let e := gbnEntry s g
  setGbn s g (geSetRefcnt e (geRefcnt e + 1))

/-- A physical address that the owning package chooses, which the manual leaves to it. Log 64. -/
def freeAddress (s : State) : DWord × State :=
  let (n, s) := fresh s
  let (m, s) := fresh s
  (BitVec.ofNat 64 ((Config.freeWord n).toNat + (Config.freeWord m).toNat % 2 ^ 8 * 2 ^ 32), s)

/-- A block here with one reference more (R272, R275): the GBN that the new reference names, its own or, where its count is
full, that of a copy; none where no block is free for one. -/
def shareBlock (s : State) (g : Nat) : Option (Nat × State) :=
  let e := gbnEntry s g
  if geRefcnt e < 65535 then some (g, raiseGbn s g)
  else match dupBlock s (geOwner e) e with
    | none => none
    | some (n, pa, s) =>
      match s.tiered.find? fun t => t.1 = g with
      | some (_, bs, _) => some (n, dropLog (rawWrite s .hbm pa bs) .hbm pa 4096)
      | none => some (n, s)

/-- References duplicated one after another: each names its own block, or a copy where that block's count is full (R275); none
where no block is free for one. -/
def shareRefs : List DWord → State → Option (List DWord × State)
  | [], s => some ([], s)
  | r :: rest, s =>
    match shareBlock s (refGbn r.toNat) with
    | none => none
    | some (g, s) =>
      (shareRefs rest s).map fun o => ((if g = refGbn r.toNat then r else BitVec.ofNat 64 (mkRef s.pkg g)) :: o.1, o.2)

/-- The winner's references taken for the issuer's where they differ, whose blocks are released (R335). -/
def takeShared : List (DWord × DWord) → State → Option (List DWord × State)
  | [], s => some ([], s)
  | (mine, theirs) :: rest, s =>
    if mine = theirs then (takeShared rest s).map fun o => (theirs :: o.1, o.2)
    else match shareRefs [theirs] s with
      | none => none
      | some (won, s) => (takeShared rest (releaseGbn s (refGbn mine.toNat))).map fun o => (won ++ o.1, o.2)

/-- Compare-and-install at the owning package (R335): none within where an entry is installed, else the references that the issuer
takes of the entry that matches; none where no block is free for a copy that R275 asks for. -/
def sharePrefixHere (s : State) (owner span nb : Nat) (toks : List Nat) (refs : List DWord) :
    Option (Option (List DWord) × State) :=
  let key := prefixKey toks
  match s.prefixes.find? fun p => p.owner = owner && p.key = key && p.span = span && p.nb = nb && p.toks = toks with
  | some p => (takeShared (refs.zip p.refs) s).map fun o => (some o.1, o.2)
  | none => (shareRefs refs s).map fun o =>
    let (id, s) := fresh o.2
    let (at', s) := freeAddress s
    let (tokAt, s) := freeAddress s
    let (refsAt, s) := freeAddress s
    let new : Prefix := { id := id, at' := at', key := key, owner := owner, span := span, nb := nb, toks := toks, refs := o.1,
                          tokAt := tokAt, refsAt := refsAt, next := 0 }
    let chain := fun (p : Prefix) => decide (p.owner = owner) && decide (p.key = key)
    let linked := s.prefixes.map fun p => if chain p && p.next = 0 then { p with next := at' } else p
    (none, { s with prefixes := linked ++ [new] })

/-- Rows of several sequences rewritten where the winner's reference differs; the number rewritten. -/
def adoptRows (id owner nb : Nat) : List SeqRec → List DWord → State → Nat × State
  | [], _, s => (0, s)
  | q :: rest, refs, s =>
    let new := (refs.take nb).zipIdx
    let diff := new.filter fun p => hbmNat s (rowAddr q p.2) 8 ≠ p.1.toNat
    let s := diff.foldl (fun s p => putRow s id q owner p.2 p.1.toNat) s
    let (n, s) := adoptRows id owner nb rest (refs.drop nb) s
    (diff.length + n, s)

/-- The answer to an install: a byte that says whether an entry matched, then its references. -/
def shareBytes (won : Option (List DWord)) : List Byte :=
  match won with
  | none => [0]
  | some refs => 1 :: refs.flatMap fun r => bytesOf 8 r.toNat

/-- The references that an answer to an install names, if an entry matched. -/
def shareOf (bs : List Byte) : Option (List DWord) :=
  if bs.headD 0 = 0 then none
  else some ((chunks 8 ((bs.length - 1) / 8) (bs.drop 1)).map fun r => BitVec.ofNat 64 (natOfBytes r))

/-- The install at the owner of the blocks, here or on another package after `first` other requests. -/
def installPrefix (s : State) (k : Cmd) (first owner nb : Nat) (toks : List Nat) (refs : List DWord) : Got (Option (List DWord)) :=
  if owner = s.pkg then
    match sharePrefixHere s k.owner (kvSpan k) nb toks refs with
    | some (won, s) => (.ok won, s)
    | none => (.error (.ends stNoFrame), s)
  else match exchange s k first [(owner, .sharePrefix k.owner (kvSpan k) nb toks refs, 0)] with
    | (.error x, s) => (.error x, s)
    | (.ok _, s) => (.ok (shareOf (k.answers.getD first [])), s)

/-- `kvtr` PSHARE at home. -/
def runShare (s : State) (k : Cmd) (g : List StripeEntry) (qs : List SeqRec) (b : Nat) : State :=
  let plen := kr k 231 192
  let nb := plen / b
  let toks := prefixToks k
  let rows := qs.map fun q => if nb ≤ tableRows q then liveRows s q 0 (nb - 1) else []
  let flat := rows.flatMap fun r => r
  match (stripeOf g 0) with
  | none => endKv s k.id stProtection 0
  | some st =>
    if plen = 0 ∨ plen % b ≠ 0 ∨ st.last + 1 < nb ∨ (toks.any fun t => 2 ^ 24 ≤ t) ∨ (rows.any fun r => r.length ≠ nb) ∨
        (flat.any fun r => refTier r.2 ≠ 0 || refPkg r.2 ≠ st.owner) then endKv s k.id stProtection 0
    else
      let asks := infoAsks s flat
      match exchange s k 0 asks with
      | (.error x, s) => stopKv s k x
      | (.ok _, s) =>
        if (blockInfos s k.answers flat).any fun i => i.owner ≠ k.owner || i.valid ≠ 0xFFFF || i.base ≠ b * i.b then
          endKv s k.id stProtection 0
        else match installPrefix s k asks.length st.owner nb toks (flat.map fun r => BitVec.ofNat 64 r.2) with
          | (.error x, s) => stopKv s k x
          | (.ok none, s) => endKv s k.id stOk 0
          | (.ok (some ws), s) =>
            let (n, s) := adoptRows k.id st.owner nb qs ws s
            endKv s k.id stShared n

/-- PSHARE checked: every sequence of the span has a record, all of one dh. -/
def startShare (s : State) (k : Cmd) (g : List StripeEntry) : State :=
  let qs := s.seqs.filter fun q => decide (kvSeq k ≤ q.seq) && decide (q.seq ≤ kvSeq k + kvSpan k)
  let qs := sortBy (fun (a b : SeqRec) => decide (a.seq < b.seq)) qs
  match qs.head? with
  | none => endKv s k.id stProtection 0
  | some q =>
    if qs.length ≠ kvSpan k + 1 ∨ (qs.any fun r => r.dhc ≠ q.dhc) ∨ 3 ≤ q.dhc then endKv s k.id stProtection 0
    else if qs.any fun q => !usable s q.seq then kvLater s k
    else runShare s k g qs (tokensOf q.dhc)

/-! ### Dispatch of the commands -/

/-- A key-value command at the home of its sequences, MOVE left to the continuation. -/
def runKv (s : State) (k : Cmd) (g : List StripeEntry) (move : State → State) : State :=
  match k.kind with
  | .kvap => runAppend s k g
  | .kvmsk => runMask s k
  | _ =>
    match trMode k with
    | 0 => move s
    | 3 => startShare s k g
    | m =>
      match getSeq s (kvSeq k) with
      | none => endKv s k.id stProtection 0
      | some q =>
        if 3 ≤ q.dhc then endKv s k.id stProtection 0
        else if !usable s q.seq then kvLater s k
        else if m = 1 then runCompact s k g q
        else runTrim s k g q

/-- A command for sequences homed on another package: sent there, and ended as its answer says. -/
def forwardKv (s : State) (k : Cmd) (home : Nat) : State :=
  let what := RemoteWhat.command (match k.kind with
    | .kvap => 0x23
    | .kvmsk => 0x24
    | _ => 0x25) k.asid k.owner k.record k.data (kvAfter s k home)
  match exchange s k 0 [(home, what, 0)] with
  | (.error x, s) => stopKv s k x
  | (.ok _, s) =>
    let bs := k.answers.headD []
    endKv s k.id (natOfBytes (bs.take 1)) (natOfBytes ((bs.drop 1).take 8))

/-- A key-value command in its turn at its home (R328): after those that arrived before it, under the group's generation. -/
def performKv (s : State) (k : Cmd) (g : List StripeEntry) (move : State → Cmd → List StripeEntry → State) : State :=
  if kvBehind s k then kvLater s k
  else if k.index = 0 ∧ k.acks = 0 ∧ k.buf.isEmpty ∧ kvGen k ≠ groupGen g then endKv s k.id stStale 0
  else runKv s k g fun s => move s k g

/-- A key-value command arrived: its record's checks, its group's map, its home, its place in the order. -/
def arriveKv (s : State) (k : Cmd) (move : State → Cmd → List StripeEntry → State) : State :=
  let g := groupOf s (kvSeq k)
  if !kvFieldsOk k || g.isEmpty then endKv s k.id stProtection 0
  else if groupHome g ≠ s.pkg then 
    (if k.target ≠ 0 then endKv s k.id stProtection 0
     else if k.acks = 0 && kvArrives s k then kvLater s k
     else forwardKv s k (groupHome g))
  else if k.checked then performKv s k g move
  else if k.target = 0 && kvArrives s k then kvLater s k
  else performKv (arriveHome s k) { k with checked := true } g move

/-- A turn of a key-value command. -/
def turnKv (s : State) (k : Cmd) (move : State → Cmd → List StripeEntry → State) : State :=
  match k.st with
  | .queued =>
    if !k.heldBy.isEmpty || (k.target = 0 && !laneFree s k.cluster) then kvLater s k
    else arriveKv (modCmd s k.id fun q => { q with st := .active }) { k with st := .active } move
  | .active => if k.shared then endKv s k.id k.status k.result.toNat else arriveKv s k move
  | _ => s

/-! ### Issue -/

/-- dh's code for a sequence as the issuing package knows it: its record, else a free choice (the manual gives DHC to the
home's record alone). -/
def dhcHere (s : State) (seq : Nat) : Nat × State :=
  match getSeq s seq with
  | some q => (q.dhc, s)
  | none =>
    let (n, s) := fresh s
    (Config.raceChoice n % 3, s)

/-- The shared issue of the key-value commands: the record read at DA, then what it names in the scratchpad. -/
def issueKv (opc : Nat) (kind : CmdKind) (f : TFields) (s : State)
    (rows : State → Ctx → Cmd → List Byte × State × Ctx) : Ans :=
  tOp opc f s fun x =>
    let (bs, s, x) := loadT s x 1 (recordAddr x f) 64
    let k := { newCmd s s.cur x kind (.ctx x.task) 0 (tagOf f) with
      record := BitVec.ofNat 512 (natOfBytes bs), recAddr := recordAddr x f }
    let (data, s, x) := if kvFieldsOk k then rows s x k else ([], s, x)
    let (s, x) := issueCmd s x { k with data := data }
    .done s x

/-- `kvap` (R329): the K rows, then the V rows, read at issue. -/
def execKvap (f : TFields) (s : State) : Ans :=
  issueKv 0x23 .kvap f s fun s x k =>
    let (c, s) := dhcHere s (kvSeq k)
    let n := 2 * dhOf c * kr k 55 48
    let (kb, s, x) := loadT s x 1 (kr k 159 128) n
    let (vb, s, x) := loadT s x 1 (kr k 191 160) n
    (kb ++ vb, s, x)

/-- `kvmsk` (R330). -/
def execKvmsk (f : TFields) (s : State) : Ans := issueKv 0x24 .kvmsk f s fun s x _ => ([], s, x)

/-- The shared issue of the four forms of `kvtr`, whose record's MODE picks the form: a PSHARE's token ids are read at
issue. -/
def issueKvtr (f : TFields) (s : State) : Ans :=
  issueKv 0x25 .kvtr f s fun s x k =>
    if trMode k = 3 ∧ kr k 231 192 ≤ 2 ^ 24 then loadT s x 1 (kr k 287 256) (4 * kr k 231 192) else ([], s, x)

/-- `kvtr` MOVE. -/
def execKvtrMove (f : TFields) (s : State) : Ans := issueKvtr f s

/-- `kvtr` COMPACT. -/
def execKvtrCompact (f : TFields) (s : State) : Ans := issueKvtr f s

/-- `kvtr` TRIM. -/
def execKvtrTrim (f : TFields) (s : State) : Ans := issueKvtr f s

/-- `kvtr` PSHARE. -/
def execKvtrPshare (f : TFields) (s : State) : Ans := issueKvtr f s

/-! ### The service firmware's part -/

/-- SEQUENCE_RECORD_CREATE (R323). -/
def execSequenceRecordCreate (seq dhc table : Nat) (s : State) : Ans :=
  .next (if (getSeq s seq).isSome ∨ 3 ≤ dhc ∨ 2 ^ 32 ≤ seq then s
    else { s with seqs := s.seqs ++
      [{ seq := seq, dhc := dhc, home := s.pkg, nextPos := 0, tail := 0, tfill := 0, table := table }] })

/-- SEQUENCE_RECORD_REMOVE (R323). -/
def execSequenceRecordRemove (seq : Nat) (s : State) : Ans :=
  .next { s with seqs := s.seqs.filter (fun q => q.seq ≠ seq), pewter := s.pewter.filter fun q => q ≠ seq }

/-- POSITION_MAP_INSTALL (R326): the replica's entries of these groups, and at home the other packages that hold them (R332). -/
def execPositionMapInstall (m : MapInstall) (s : State) : Ans :=
  .next {
    s with
    map := s.map.filter (fun e => !(m.entries.any fun f => f.seq = e.seq)) ++ m.entries
    mapHolders := s.mapHolders.filter (fun h => !(m.entries.any fun f => f.seq = h.1)) ++
      ((m.entries.map fun e => e.seq).eraseDups.map fun q => (q, m.holders)) }

/-- PEWTER_LOAD (R324): a unit becomes hot where its half has room for its rows. -/
def execPewterLoad (seq : Nat) (s : State) : Ans :=
  .next (
    let t := { s with pewter := s.pewter ++ [seq] }
    if s.pewter.contains seq ∨ 131072 < unitRows s seq ∨ 131072 < halfRows t (seq % 2) then s else t)

/-- PEWTER_EVICT (R324): a unit that no command in flight is using becomes cold. -/
def execPewterEvict (seq : Nat) (s : State) : Ans :=
  .next (
    let used := (s.queries.any fun q => field q.msg.record 31 0 = seq) ||
      s.cmds.any fun k => isKv k && k.checked && !effectsMade k && !kvBehind s k &&
        decide ((kvRange s k).1 ≤ seq) && decide (seq ≤ (kvRange s k).2)
    if used then s else { s with pewter := s.pewter.filter fun q => q ≠ seq })

/-- PREFIX_INDEX_EVICT (R335): an entry leaves the index and its references are released. -/
def execPrefixIndexEvict (entry : Nat) (s : State) : Ans :=
  .next (match s.prefixes.find? fun p => p.id = entry with
    | none => s
    | some p =>
      let s := p.refs.foldl (fun s r => releaseGbn s (refGbn r.toNat)) s
      { s with prefixes := (s.prefixes.filter fun q => q.id ≠ entry).map fun q =>
          if q.next = p.at' then { q with next := p.next } else q })

end Sys2Proof.Machine
end

