-- ==== Sys2Proof/Machine/Memory.lean ====
section
/-! DEFINITION. What the root monitor and the service firmware do to memory: installs (R253, R260, R366), the completion of
generation raises (R249), page migration (R257), the hardware free lists (R261), PIN (R272), and blocks on other tiers
(R269). -/

namespace Sys2Proof.Machine

/-! ### Frames (R260) -/

/-- The address of the entry of a virtual address at a level, below well-formed pointers. -/
def entryAt (s : State) (va level : Nat) : Nat → Nat → Option Nat
  | 0, base => if level = 0 then some (base + 8 * levelIndex va 0) else none
  | l + 1, base =>
    let pa := base + 8 * levelIndex va (l + 1)
    if l + 1 = level then some pa
    else
      let e := hbmNat s pa 8
      if teV e && !teLeaf e && !malformed (l + 1) e then entryAt s va level l (teAddr e) else none

/-- The frame that an entry at a level maps, for a plain leaf of this package. -/
def mapsFrame (level e : Nat) : Option Nat :=
  if teV e && teLeaf e && !malformed level e && !teRem e && !teVers e && !teBlk e then some (teAddr e) else none

/-- Whether a byte range meets another. -/
def meets (a m b n : Nat) : Bool := decide (a < b + n) && decide (b < a + m)

/-- The frame table's entries whose frames meet a range: each has the size that the root monitor knows, 4 KiB where it has given
none. -/
def framesIn (s : State) (pa n : Nat) : List Frame :=
  (s.frames.filter fun f => meets pa n (4096 * f.1) (max 4096 f.2.size)).map fun f => f.2

/-- Whether a frame is free (R253). -/
def frameFree (s : State) (pa n : Nat) : Bool :=
  ((framesIn s pa n).all fun f => f.owner = 0 && f.shares = 0) &&
    !(s.rootFrames.any fun f => meets pa n f 4096) &&
    !(s.freeBlocks.any fun f => meets pa n f 4096) && !(s.freePages.any fun f => meets pa n f (2 ^ 16))

/-- Whether a range is an owner's: it has bytes of that owner's frames and of no other's; of owner 0, of no owner's. -/
def frameOf (s : State) (owner pa n : Nat) : Bool :=
  let fs := (framesIn s pa n).filter fun f => f.owner ≠ 0
  fs.all (fun f => f.owner = owner) && (owner = 0 || !fs.isEmpty)

/-- The frames that an entry at a level maps, itself or below it, as (address, size): of a versioned page those that its descriptor
names (R276); blocks are reached through references, a frame of another package is not here. -/
def framesUnder (s : State) : Nat → Nat → List (Nat × Nat)
  | level, e =>
    if !teV e || malformed level e then []
    else if teLeaf e then
      if teRem e || teBlk e then []
      else if teVers e then
        let d := hbmNat s (versAddr e) 32
        [(bits d 31 0 * 2 ^ 16, 2 ^ 16), (bits d 95 64 * 2 ^ 16, 2 ^ 16)]
      else [(teAddr e, pageSize level)]
    else match level with
      | 0 => []
      | l + 1 => (List.range 512).flatMap fun i => framesUnder s l (hbmNat s (teAddr e + 8 * i) 8)

/-- The 4 KiB frames of the tables, block maps and version descriptors that an entry at a level leads to, which are the root
monitor's. -/
def tablesUnder (s : State) : Nat → Nat → List Nat
  | level, e =>
    if !teV e || malformed level e then []
    else if teLeaf e then (if teVers e || teBlk e then [teAddr e] else [])
    else match level with
      | 0 => []
      | l + 1 => teAddr e :: (List.range 512).flatMap fun i => tablesUnder s l (hbmNat s (teAddr e + 8 * i) 8)

/-- Whether the root monitor accepts an install into an ASID of an owner (R253, R366): every frame that the entry maps is the
owner's or free, and every table that it leads to the root monitor's own. -/
def installOk (s : State) (owner level e : Nat) : Bool :=
  ((framesUnder s level e).all fun f => frameOf s owner f.1 f.2 || (owner ≠ 0 && frameFree s f.1 f.2)) &&
    (tablesUnder s level e).all fun pa => (framesIn s pa 4096).all fun f => f.owner = 0

/-- The frame table's entries within a frame but its first forgotten: it is one frame now. -/
def joinFrame (s : State) (pa n : Nat) : State :=
  { s with frames := s.frames.filter fun f => !(decide (pa < 4096 * f.1) && decide (4096 * f.1 < pa + n)) }

/-- A frame mapped by one leaf more: a free one is stamped (R253). -/
def gainLeaf (owner : Nat) (s : State) (p : Nat × Nat) : State :=
  let f := getFrame s p.1
  if f.owner = owner then
    if f.size = p.2 then setFrame s p.1 { f with shares := f.shares + 1 }
    else setFrame (claimKeys (joinFrame s p.1 p.2) p.1 p.2 owner) p.1 { owner := owner, shares := 1, size := p.2 }
  else stampFrame (joinFrame s p.1 p.2) p.1 p.2 owner 1

/-- A frame mapped by one leaf less; a 64 KiB frame that no leaf maps any more returns to its free list (R260, R261). -/
def loseLeaf (s : State) (p : Nat × Nat) : State :=
  let f := getFrame s p.1
  if 1 < f.shares then setFrame s p.1 { f with shares := f.shares - 1 }
  else
    let s := clearFrame s p.1
    if p.2 = 2 ^ 16 then { s with freePages := s.freePages ++ [p.1] } else s

/-- A 32 MiB frame split by a table of 64 KiB leaves: each part is a frame of the same owner, mapped by the other leaves
of the whole (R255, R260). -/
def splitFrame (s : State) (pa : Nat) : State :=
  let f := getFrame s pa
  (List.range 512).foldl (fun s i => setFrame s (pa + 2 ^ 16 * i) { f with shares := f.shares - 1, size := 2 ^ 16 }) s

/-- The frame table after an entry at a level changes from one value to another: the frames mapped anew gain a leaf, those no longer
mapped lose one. -/
def countLeaves (s : State) (owner level old new : Nat) : State :=
  let a := framesUnder s level old
  let b := framesUnder s level new
  let split := level = 1 && teLeaf old && teV new && !teLeaf new
  let gone := a.filter fun f => !b.contains f
  let s := if split then gone.foldl (fun s f => splitFrame s f.1) s else s
  let s := (b.filter fun f => !a.contains f).foldl (gainLeaf owner) s
  if split then s
  else (gone.filter fun f => !(b.any fun g => meets f.1 f.2 g.1 g.2)).foldl loseLeaf s

/-- Whether an entry rewritten ends a migration of its page (R257 step 4): MIG goes from 1 to 0, and nothing but ADDR changes
with it. -/
def endsMigration (old new : Nat) : Bool :=
  teMig old && teLeaf old && putBits (putBits old 5 5 0) 47 12 0 = putBits new 47 12 0

/-- TRANSLATION_INSTALL (R253): an entry of an ASID's tables rewritten. One that removes or changes a valid entry then
raises the generation; the end of a migration needs no raise (R257 step 4). -/
def execTranslationInstall (asid va level : Nat) (entry : DWord) (s : State) : Ans :=
  .next (
    let a := getAsid s asid
    let e := entry.toNat
    match (if a.root = 0 then none else entryAt s va level 4 a.root) with
    | none => s
    | some pa =>
      let old := hbmNat s pa 8
      if old = e || !installOk s a.owner level e then s
      else
        let s := hbmPut (countLeaves s a.owner level old e) pa 8 e
        if teV old && !endsMigration old e then raiseGen s asid else s)

/-! ### Generations and migration -/

/-- Whether a raise still waits for an access that had been translated before it (R249). -/
def raiseHeld (s : State) (r : Nat × Nat × List Nat) : Bool := r.2.2.any fun n => s.packets.any fun p => p.num = n

/-- The raises of an ASID that nothing holds back have completed. -/
def endRaise (s : State) (asid : Nat) : State :=
  { s with raises := s.raises.filter fun r => r.1 ≠ asid || raiseHeld s r }

/-- GENERATION_RAISE_COMPLETE (R249). -/
def execGenerationRaiseComplete (asid : Nat) (s : State) : Ans := .next (endRaise s asid)

/-- The entry of the leaf that maps an address, valid or migrating, with its level. -/
def leafEntry (s : State) (asid va : Nat) : Option (Nat × Nat) :=
  let root := (getAsid s asid).root
  let at' := fun (level : Nat) => (entryAt s va level 4 root).bind fun pa =>
    let e := hbmNat s pa 8
    if teV e && teLeaf e then some (level, e) else none
  if root = 0 then none else (at' 1).orElse fun _ => at' 0

/-- PAGE_MIGRATION (R257 step 3): with the page's entry migrating and the raise complete, its data and full/empty bits come
to stand in the new frame. -/
def execPageMigration (asid va pa : Nat) (s : State) : Ans :=
  .next (match leafEntry s asid va with
    | none => s
    | some (level, e) =>
      let k := (getAsid s asid).owner
      let n := pageSize level
      match mapsFrame level e with
      | none => s
      | some src =>
        let own := decide ((getFrame s pa).owner = k)
        if !teMig e || (s.raises.any fun r => r.1 = asid) || pa % n ≠ 0 || !stackOk pa || meets src n pa n ||
            !(own || frameFree s pa n) then s
        else copyFrame (if own then s else stampFrame s pa n k 0) src pa n)

/-! ### Free lists, PIN (R261, R272) -/

/-- One item added to a free list: a free frame of the list's size, or a backed number not in use. -/
def fillOne (list : FreeKind) (s : State) (x : Nat) : State :=
  match list with
  | .block => if x % 4096 = 0 && stackOk x && frameFree s x 4096 then { s with freeBlocks := s.freeBlocks ++ [x] } else s
  | .page => if x % 2 ^ 16 = 0 && stackOk x && frameFree s x (2 ^ 16) then { s with freePages := s.freePages ++ [x] } else s
  | .gbn =>
    if x < 2 ^ 30 && !s.freeGbns.contains x && !geLive (gbnEntry s x) then { s with freeGbns := s.freeGbns ++ [x] } else s

/-- FREE_LIST_FILL (R261). -/
def execFreeListFill (list : FreeKind) (items : List Nat) (s : State) : Ans := .next (items.foldl (fillOne list) s)

/-- PIN_CLEAR (R272): a block at REFCNT 0 is released then. -/
def execPinClear (gbn : Nat) (s : State) : Ans :=
  .next (
    let e := putBits (gbnEntry s gbn) 205 205 0
    if !gePin (gbnEntry s gbn) then s
    else if geRefcnt e = 0 then freeGbn s gbn
    else setGbn s gbn e)

/-! ### Other tiers (R269) -/

/-- The sequence homed here and the block number whose row stands at an address. -/
def rowAt (s : State) (ra : Nat) : Option (Nat × Nat) :=
  s.seqs.findSome? fun q =>
    if q.table ≤ ra ∧ ra < q.table + 8 * tableRows q ∧ (ra - q.table) % 8 = 0 then some (q.seq, (ra - q.table) / 8) else none

/-- The row that a reference is, if it is one. -/
def tierRow (s : State) (x : TierBlock) : Option (Nat × Nat) :=
  match x with
  | .reference pa => rowAt s pa
  | .row seq b => some (seq, b)

/-- The reference that names a block. -/
def tierRef (s : State) (x : TierBlock) : Nat :=
  match x with
  | .reference pa => hbmNat s pa 8
  | .row seq b => rowOf s seq b

/-- Another package whose table holds the row too (R324): the home of a segment's sequence. -/
def tierHome (s : State) (x : TierBlock) : Option Nat :=
  match x with
  | .reference _ => none
  | .row seq _ => if (getSeq s seq).isSome then none else some (groupHome (groupOf s seq))

/-- A reference rewritten by the firmware, in both copies of a row (R269, R324). -/
def putTierRef (s : State) (x : TierBlock) (r : Nat) : State :=
  match x with
  | .reference pa => settleStripe (hbmPut s pa 8 r) (tierRow s x)
  | .row seq b =>
    match getSeq s seq with
    | some q => settleStripe (hbmPut s (rowAddr q b) 8 r) (tierRow s x)
    | none =>
      let s := settleStripe (putRowHere s seq b (BitVec.ofNat 64 r)) (tierRow s x)
      (sendPacket s (groupHome (groupOf s seq)) (.segmentRow seq b (BitVec.ofNat 64 r))).2

/-- A block's bytes leave tier 0: its frame returns to its list. -/
def leaveTier0 (s : State) (g : Nat) : State :=
  let e := gbnEntry s g
  let pa := geFrame e
  let full := (s.full.filter fun a => decide (pa ≤ a) && decide (a < pa + 4096)).map fun a => a - pa
  let s := dedupDrop (setGbn s g (putBits e 35 0 0)) g
  { clearFrame s pa with freeBlocks := s.freeBlocks ++ [pa], tiered := s.tiered ++ [(g, rawRead s .hbm pa 4096, full)] }

/-- A block moved off tier 0 through one of its references. A shared block stays for the others: the reference comes to
name a block of its own. -/
def evictBlock (s : State) (x : TierBlock) (tier : Nat) : State :=
  let r := tierRef s x
  let g := refGbn r
  let e := gbnEntry s g
  if !refV r || refPkg r ≠ s.pkg || refTier r ≠ 0 || !geLive e || gePin e || geCmp e then s
  else if geRefcnt e ≤ 1 then putTierRef (leaveTier0 s g) x (putBits r 43 42 tier)
  else match dupBlock s (geOwner e) e with
    | none => s
    | some (ng, _, s) => putTierRef (leaveTier0 (releaseGbn s g) ng) x (putBits (mkRef s.pkg ng) 43 42 tier)

/-- A block brought to tier 0 and its reference rewritten (R269), where a frame is free. A row whose block another package owns is
rewritten by that package (R324). -/
def bringBlock (s : State) (x : TierBlock) : State :=
  let r := tierRef s x
  let g := refGbn r
  if !refV r || refTier r = 0 || refTier r = 3 || (refPkg r ≠ s.pkg && (tierRow s x).isSome) then s
  else match (if refPkg r = s.pkg then s.tiered.find? fun t => t.1 = g else none) with
    | none => putTierRef s x (putBits r 43 42 0)
    | some (_, bs, full) =>
      let e := gbnEntry s g
      match takeBlockFrame s (geOwner e) with
      | none => s
      | some (pa, s) =>
        let s := dropLog (rawWrite s .hbm pa bs) .hbm pa 4096
        let s := setGbn s g (putBits e 35 0 (pa / 4096))
        let s := { s with
          full := full.foldl (fun l a => setInsert (pa + a) l) s.full
          tiered := s.tiered.filter fun t => t.1 ≠ g }
        putTierRef s x (putBits r 43 42 0)

/-- BLOCK_TIER_EVICT (R269, R327): the block that a reference or a segment's row here names moves to tier 1 or 2; tier 0
brings it back. A home whose incarnation is unknown is probed first (R262). -/
def execBlockTierEvict (x : TierBlock) (tier : Nat) (s : State) : Ans :=
  .next (match (tierHome s x).filter fun p => knownInc s p = 0 with
    | some p => if p < 576 then sendProbe s p else s
    | none => if tier = 0 then bringBlock s x else if tier < 3 then evictBlock s x tier else s)

end Sys2Proof.Machine
end

