-- ==== Sys2Proof/Machine/Vector.lean ====
section
/-! DEFINITION. The V-slot instructions (R165 to R192). -/

namespace Sys2Proof.Machine

/-- The shared entry of V meanings. -/
def vOp (f : VFields) (s : State) (k : Ctx → SlotRes) : Ans := slotOp 2 f.pred f.psense s k

/-- A vector result of the V slot, for l4 or l5 (R166). -/
def vResult (s : State) (x : Ctx) (f : VFields) (lat : Nat) (v : Vec) : SlotRes :=
  .done s (addResult x f.dst .v 4 lat (.v v))

/-- The rounding mode that V and K results use (R49, R168). -/
def rndMode (x : Ctx) : Rnd := rndOf (field x.seen.fmt 10 9)

/-- fmt.SAT (R47). -/
def satMode (x : Ctx) : Bool := x.seen.fmt.getLsbD 11

/-- rnd(x, T) of R61 for a floating type code. -/
def rndT (x : Ctx) (t : Nat) (v : FVal) : Nat := fround (fmtOfType t) (rndMode x) (satMode x) v

/-- An exact integer result wrapped, or saturated under the flag (R169). -/
def intResult (t : Nat) (sat : Bool) (i : Int) : Nat := narrowInt sat t i

/-- Latency of arithmetic, min, max, compare and conversion by type: integer 2, short float 4, FP64 6 (R170). -/
def latOf (t : Nat) : Nat := if t = 11 then 6 else if typeF t then 4 else 2

/-- TYPE, STYPE and IMM8 as numbers. -/
def vt (f : VFields) : Nat := f.type.toNat
def vst (f : VFields) : Nat := f.stype.toNat
def vimm (f : VFields) : Nat := f.imm8.toNat

/-- One vector mapped element by element. -/
def vmap1 (w : Nat) (g : Nat → Nat) (a : Vec) : Vec := vpackE w ((velems w a).map g)

/-- Two vectors mapped element by element. -/
def vmap2 (w : Nat) (g : Nat → Nat → Nat) (a b : Vec) : Vec :=
  vpackE w (List.zipWith g (velems w a) (velems w b))

/-- Three vectors mapped element by element. -/
def vmap3 (w : Nat) (g : Nat → Nat → Nat → Nat) (a b c : Vec) : Vec :=
  vpackE w (List.zipWith (fun p z => g p.1 p.2 z) ((velems w a).zip (velems w b)) (velems w c))

/-- `op vD, vA`. -/
def vUnary (lat : Nat) (g : Ctx → Vec → Vec) (f : VFields) (s : State) : Ans :=
  vOp f s fun x => withV x f.srcA fun a x => vResult s x f lat (g x a)

/-- `op vD, vA, vB`. -/
def vBinary (lat : Nat) (g : Ctx → Vec → Vec → Vec) (f : VFields) (s : State) : Ans :=
  vOp f s fun x => withV x f.srcA fun a x => withV x f.srcB fun b x => vResult s x f lat (g x a b)

/-- `op vD, vA, vB, vC`. -/
def vTernary (lat : Nat) (g : Ctx → Vec → Vec → Vec → Vec) (f : VFields) (s : State) : Ans :=
  vOp f s fun x => withV x f.srcA fun a x => withV x f.srcB fun b x => withV x f.srcC fun c x =>
    vResult s x f lat (g x a b c)

/-! ### Arithmetic (R173 to R175) -/

/-- One element of a two-operand arithmetic instruction: exact, then rounded or narrowed. -/
def arith2 (x : Ctx) (t : Nat) (sat : Bool) (gi : Int → Int → Int) (gf : Rnd → FVal → FVal → FVal) (a b : Nat) : Nat :=
  if typeF t then
    let F := fmtOfType t
    rndT x t (gf (rndMode x) (fdec F a) (fdec F b))
  else intResult t sat (gi (intVal t a) (intVal t b))

/-- One element of a fused instruction: the product exact, added exactly, rounded once. -/
def arith3 (x : Ctx) (t : Nat) (sat : Bool) (gi : Int → Int → Int → Int) (gf : FVal → FVal → List FVal)
    (a b c : Nat) : Nat :=
  if typeF t then
    let F := fmtOfType t
    rndT x t (fsum (rndMode x) (gf (fmul (fdec F a) (fdec F b)) (fdec F c)))
  else intResult t sat (gi (intVal t a) (intVal t b) (intVal t c))

/-- The shared form of vadd, vsub and vmul. -/
def vArith2 (gi : Int → Int → Int) (gf : Rnd → FVal → FVal → FVal) (f : VFields) (s : State) : Ans :=
  vBinary (latOf (vt f))
    (fun x => vmap2 (typeWidth (vt f)) (arith2 x (vt f) (f.imm8.getLsbD 0) gi gf)) f s

/-- The shared form of vfma, vfms and vfnm. -/
def vArith3 (gi : Int → Int → Int → Int) (gf : FVal → FVal → List FVal) (f : VFields) (s : State) : Ans :=
  vTernary (latOf (vt f))
    (fun x => vmap3 (typeWidth (vt f)) (arith3 x (vt f) (f.imm8.getLsbD 0) gi gf)) f s

/-- `vadd` (R173). -/
def execVadd (f : VFields) (s : State) : Ans := vArith2 (fun a b => a + b) (fun r a b => fsum r [a, b]) f s

/-- `vsub` (R173). -/
def execVsub (f : VFields) (s : State) : Ans := vArith2 (fun a b => a - b) (fun r a b => fsum r [a, fneg b]) f s

/-- `vmul` (R173). -/
def execVmul (f : VFields) (s : State) : Ans := vArith2 (fun a b => a * b) (fun _ a b => fmul a b) f s

/-- `vfma` (R173): A × B + C. -/
def execVfma (f : VFields) (s : State) : Ans := vArith3 (fun a b c => a * b + c) (fun p c => [p, c]) f s

/-- `vfms` (R173): A × B − C. -/
def execVfms (f : VFields) (s : State) : Ans := vArith3 (fun a b c => a * b - c) (fun p c => [p, fneg c]) f s

/-- `vfnm` (R173): C − A × B. -/
def execVfnm (f : VFields) (s : State) : Ans := vArith3 (fun a b c => c - a * b) (fun p c => [c, fneg p]) f s

/-- One element of vmin (R174). -/
def vminE (t a b : Nat) : Nat :=
  if typeF t then fminB (fmtOfType t) a b else if intVal t b < intVal t a then b else a

/-- One element of vmax (R174). -/
def vmaxE (t a b : Nat) : Nat :=
  if typeF t then fmaxB (fmtOfType t) a b else if intVal t a < intVal t b then b else a

/-- `vmin` (R174). -/
def execVmin (f : VFields) (s : State) : Ans :=
  vBinary (latOf (vt f)) (fun _ => vmap2 (typeWidth (vt f)) (vminE (vt f))) f s

/-- `vmax` (R174). -/
def execVmax (f : VFields) (s : State) : Ans :=
  vBinary (latOf (vt f)) (fun _ => vmap2 (typeWidth (vt f)) (vmaxE (vt f))) f s

/-- A float's bits with the sign changed by g, a NaN canonical (R174). -/
def signE (F : FFmt) (g : Nat → Nat) (a : Nat) : Nat := if fisNan F a then F.nanBits else g a

/-- One element of vabs (R173, R174). -/
def vabsE (t : Nat) (sat : Bool) (a : Nat) : Nat :=
  if typeF t then signE (fmtOfType t) (fun a => a % (fmtOfType t).signBit) a
  else intResult t sat (intVal t a).natAbs

/-- One element of vneg (R173, R174). -/
def vnegE (t : Nat) (sat : Bool) (a : Nat) : Nat :=
  if typeF t then
    let b := (fmtOfType t).signBit
    signE (fmtOfType t) (fun a => if a / b % 2 = 1 then a - b else a + b) a
  else intResult t sat (-(intVal t a))

/-- `vabs` (R173). -/
def execVabs (f : VFields) (s : State) : Ans :=
  vUnary (latOf (vt f)) (fun _ => vmap1 (typeWidth (vt f)) (vabsE (vt f) (f.imm8.getLsbD 0))) f s

/-- `vneg` (R173). -/
def execVneg (f : VFields) (s : State) : Ans :=
  vUnary (latOf (vt f)) (fun _ => vmap1 (typeWidth (vt f)) (vnegE (vt f) (f.imm8.getLsbD 0))) f s

/-- A divide-class function of one operand, of latency 12 (R170, R175). -/
def vDivide1 (g : FVal → FVal) (f : VFields) (s : State) : Ans :=
  vUnary 12 (fun x => vmap1 (typeWidth (vt f)) fun a => rndT x (vt f) (g (fdec (fmtOfType (vt f)) a))) f s

/-- `vrcp` (R175). -/
def execVrcp (f : VFields) (s : State) : Ans := vDivide1 (fun a => fdiv (fofInt 1) a) f s

/-- `vrsq` (R175). -/
def execVrsq (f : VFields) (s : State) : Ans := vDivide1 frsqrt f s

/-- `vsqrt` (R175). -/
def execVsqrt (f : VFields) (s : State) : Ans := vDivide1 fsqrt f s

/-- `vdiv` (R175). -/
def execVdiv (f : VFields) (s : State) : Ans :=
  vBinary 12 (fun x => vmap2 (typeWidth (vt f)) fun a b =>
    rndT x (vt f) (fdiv (fdec (fmtOfType (vt f)) a) (fdec (fmtOfType (vt f)) b))) f s

/-! ### Compare, select, classify (R176 to R178) -/

/-- Whether a condition holds of two elements (R176). -/
def vcond (t c a b : Nat) : Bool :=
  if typeF t then condFloat c (fdec (fmtOfType t) a) (fdec (fmtOfType t) b)
  else condInt c (intVal t a) (intVal t b) a b

/-- `vcmp` (R176): all ones where the condition holds. -/
def execVcmp (f : VFields) (s : State) : Ans :=
  let w := typeWidth (vt f)
  vBinary (latOf (vt f))
    (fun _ => vmap2 w fun a b => if vcond (vt f) (vimm f % 8) a b then 2 ^ w - 1 else 0) f s

/-- `vsel` (R177). -/
def execVsel (f : VFields) (s : State) : Ans :=
  vTernary 2 (fun _ => vmap3 (typeWidth (vt f)) fun a b c => if c ≠ 0 then a else b) f s

/-- The class bit of R178. -/
def vclassE (F : FFmt) (a : Nat) : Nat :=
  let neg := a / F.signBit % 2 = 1
  let ex := a / 2 ^ F.fbits % 2 ^ F.ebits
  let fr := a % 2 ^ F.fbits
  let i := if ex = 2 ^ F.ebits - 1 then
      (if fr = 0 then (if neg then 0 else 7) else if fr / 2 ^ (F.fbits - 1) = 0 then 8 else 9)
    else if ex = 0 then (if fr = 0 then (if neg then 3 else 4) else if neg then 2 else 5)
    else if neg then 1 else 6
  2 ^ i

/-- `vclass` (R178). -/
def execVclass (f : VFields) (s : State) : Ans :=
  vUnary 2 (fun _ => vmap1 (typeWidth (vt f)) (vclassE (fmtOfType (vt f)))) f s

/-! ### Conversions (R179 to R183) -/

/-- conv(x, S → T) of R179. -/
def conv (x : Ctx) (st t a : Nat) : Nat :=
  if typeF st then
    let v := fdec (fmtOfType st) a
    if typeF t then rndT x t v else cvtInt (rndMode x) t v
  else
    let i := intVal st a
    if typeF t then rndT x t (fofInt i) else narrowInt (satMode x) t i

/-- Latency of a conversion (R170): FP64 with an f64 side, short float with another float side, else integer. -/
def latConv (t st : Nat) : Nat :=
  if t = 11 ∨ st = 11 then 6 else if typeF t || typeF st then 4 else 2

/-- `vcvt` (R180). -/
def execVcvt (f : VFields) (s : State) : Ans :=
  vUnary (latConv (vt f) (vst f)) (fun x => vmap1 (typeWidth (vt f)) (conv x (vst f) (vt f))) f s

/-- `vpack` (R180): A's elements narrowed, then B's. -/
def execVpack (f : VFields) (s : State) : Ans :=
  vBinary (latConv (vt f) (vst f)) (fun x a b =>
    vpackE (typeWidth (vt f))
      ((velems (typeWidth (vst f)) a ++ velems (typeWidth (vst f)) b).map (conv x (vst f) (vt f)))) f s

/-- The elements that `vunpk` widens (R180, R50). -/
def vunpkElems (x : Ctx) (t st h : Nat) (a : Vec) : List Nat :=
  match st with
  | 12 => ((unpackW 4 1024 a.toNat).drop (512 * h)).take 512 |>.map fun e => wrapI 8 (sext 4 e)
  | 13 => (unpackW 6 512 a.toNat).map fun e => wrapI 8 (sext 6 e)
  | _ =>
    let n := 4096 / typeWidth t
    ((velems (typeWidth st) a).drop (n * h)).take n |>.map (conv x st t)

/-- `vunpk` (R180). -/
def execVunpk (f : VFields) (s : State) : Ans :=
  vUnary (latConv (vt f) (vst f)) (fun x a =>
    vpackE (typeWidth (vt f)) (vunpkElems x (vt f) (vst f) (vimm f % 2) a)) f s

/-- `vsat` (R181): clamped to the intersection of the ranges of T and S, written at S's width. -/
def execVsat (f : VFields) (s : State) : Ans :=
  let (lo, hi) := intRange (vt f)
  let (lo', hi') := intRange (vst f)
  vUnary 2 (fun _ => vmap1 (typeWidth (vst f)) fun a =>
    wrapI (typeWidth (vst f)) (clampI (max lo lo') (min hi hi') (intVal (vst f) a))) f s

/-- One element rounded to an integral value (R182). -/
def vrndE (F : FFmt) (r : Rnd) (a : Nat) : Nat :=
  match fdec F a with
  | .fin neg m e => fround F .rne false (.fin neg (froundInt r neg m e).natAbs 0)
  | v => fround F .rne false v

/-- `vrnd` (R182): IMM8 picks the mode, 4 the dynamic one. -/
def execVrnd (f : VFields) (s : State) : Ans :=
  vUnary (latOf (vt f)) (fun x => vmap1 (typeWidth (vt f))
    (vrndE (fmtOfType (vt f)) (if vimm f % 8 = 4 then rndMode x else rndOf (vimm f)))) f s

/-- A value times a power of two. -/
def fscale (v : FVal) (k : Int) : FVal :=
  match v with
  | .fin neg m e => .fin neg m (e + k)
  | v => v

/-- `vscale` (R183): A × 2^B, B read as a signed integer of the same width. -/
def execVscale (f : VFields) (s : State) : Ans :=
  let w := typeWidth (vt f)
  vBinary (latOf (vt f)) (fun x => vmap2 w fun a b =>
    rndT x (vt f) (fscale (fdec (fmtOfType (vt f)) a) (sext w b))) f s

/-! ### Bits, shifts, counts (R184) -/

/-- A bitwise instruction. -/
def vBitwise (g : Vec → Vec → Vec) (f : VFields) (s : State) : Ans := vBinary 2 (fun _ => g) f s

/-- `vand` (R184). -/
def execVand (f : VFields) (s : State) : Ans := vBitwise (fun a b => a &&& b) f s

/-- `vor` (R184). -/
def execVor (f : VFields) (s : State) : Ans := vBitwise (fun a b => a ||| b) f s

/-- `vxor` (R184). -/
def execVxor (f : VFields) (s : State) : Ans := vBitwise (fun a b => a ^^^ b) f s

/-- `vandn` (R184). -/
def execVandn (f : VFields) (s : State) : Ans := vBitwise (fun a b => a &&& ~~~b) f s

/-- One element shifted left, right zero-filled, right sign-filled (R184). -/
def shlE (w a n : Nat) : Nat := a * 2 ^ n % 2 ^ w
def shrE (_w a n : Nat) : Nat := a / 2 ^ n
def sraE (w a n : Nat) : Nat := wrapI w (sext w a / 2 ^ n)

/-- The register form of a shift: counts B modulo the width. -/
def vShiftReg (g : Nat → Nat → Nat → Nat) (f : VFields) (s : State) : Ans :=
  let w := typeWidth (vt f)
  vBinary 2 (fun _ => vmap2 w fun a b => g w a (b % w)) f s

/-- The immediate form of a shift: IMM8[5:0]. -/
def vShiftImm (g : Nat → Nat → Nat → Nat) (f : VFields) (s : State) : Ans :=
  let w := typeWidth (vt f)
  vUnary 2 (fun _ => vmap1 w fun a => g w a (vimm f % 64)) f s

/-- `vshl` (R184). -/
def execVshl (f : VFields) (s : State) : Ans := vShiftReg shlE f s

/-- `vshl` with an immediate (R184). -/
def execVshlImm (f : VFields) (s : State) : Ans := vShiftImm shlE f s

/-- `vshr` (R184). -/
def execVshr (f : VFields) (s : State) : Ans := vShiftReg shrE f s

/-- `vshr` with an immediate (R184). -/
def execVshrImm (f : VFields) (s : State) : Ans := vShiftImm shrE f s

/-- `vsra` (R184). -/
def execVsra (f : VFields) (s : State) : Ans := vShiftReg sraE f s

/-- `vsra` with an immediate (R184). -/
def execVsraImm (f : VFields) (s : State) : Ans := vShiftImm sraE f s

/-- `vmulh` (R184): the high half of the product, signed or unsigned by T. -/
def execVmulh (f : VFields) (s : State) : Ans :=
  let w := typeWidth (vt f)
  vBinary 2 (fun _ => vmap2 w fun a b => wrapI w (intVal (vt f) a * intVal (vt f) b / 2 ^ w)) f s

/-- Leading zero bits of a w-bit element. -/
def clzE (w a : Nat) : Nat := if a = 0 then w else w - 1 - Nat.log2 a

/-- One bits of an element of w bits. -/
def popE (w a : Nat) : Nat := ((List.range w).filter fun i => a.testBit i).length

/-- `vclz` (R184). -/
def execVclz (f : VFields) (s : State) : Ans :=
  vUnary 2 (fun _ => vmap1 (typeWidth (vt f)) (clzE (typeWidth (vt f)))) f s

/-- `vpopc` (R184). -/
def execVpopc (f : VFields) (s : State) : Ans :=
  vUnary 2 (fun _ => vmap1 (typeWidth (vt f)) (popE (typeWidth (vt f)))) f s

/-! ### Paired dot product (R185) -/

/-- One lane of vdot2. -/
def vdot2E (x : Ctx) (t : Nat) (sat : Bool) (a b c : Nat) : Nat :=
  let a0 := a % 2 ^ 16
  let a1 := a / 2 ^ 16
  let b0 := b % 2 ^ 16
  let b1 := b / 2 ^ 16
  if t = 1 then intResult 2 sat (sext 16 a0 * sext 16 b0 + sext 16 a1 * sext 16 b1 + sext 32 c)
  else
    let F := fmtOfType t
    rndT x 10 (fsum (rndMode x) [fmul (fdec F a0) (fdec F b0), fmul (fdec F a1) (fdec F b1), fdec f32 c])

/-- `vdot2` (R185). -/
def execVdot2 (f : VFields) (s : State) : Ans :=
  vTernary (if typeF (vt f) then 4 else 2) (fun x => vmap3 32 (vdot2E x (vt f) (f.imm8.getLsbD 0))) f s

/-! ### Lane movement (R186 to R190) -/

/-- `vbcast` (R186). -/
def execVbcast (f : VFields) (s : State) : Ans :=
  vOp f s fun x => withS x f.srcA fun a x =>
    let w := typeWidth (vt f)
    if w = 64 then withS x f.srcB fun b x =>
      vResult s x f 2 (vpackE 64 (List.replicate 64 (b.toNat * 2 ^ 32 + a.toNat)))
    else vResult s x f 2 (vpackE w (List.replicate (4096 / w) a.toNat))

/-- `viota` (R187): X + e × step. -/
def execViota (f : VFields) (s : State) : Ans :=
  vOp f s fun x => withS x f.srcA fun a x =>
    let w := typeWidth (vt f)
    let base : Int := if vt f = 3 then a.toInt else a.toNat
    vResult s x f 2 (vpackE w ((List.range (4096 / w)).map fun (e : Nat) =>
      wrapI w (base + (e : Int) * (vimm f : Int))))

/-- `vlane` (R188): lane l of A to the s bank. -/
def execVlane (f : VFields) (s : State) : Ans :=
  vOp f s fun x => withV x f.srcA fun a x =>
    .done s (addResult x f.dst .s 4 2 (.s (vlane a (vimm f % 128))))

/-- `vins` (R188). -/
def execVins (f : VFields) (s : State) : Ans :=
  vOp f s fun x => withV x f.srcA fun a x => withS x f.srcB fun b x =>
    vResult s x f 2 (vpackE 32 ((velems 32 a).set (vimm f % 128) b.toNat))

/-- `vslide` (R189). -/
def execVslide (f : VFields) (s : State) : Ans :=
  let w := typeWidth (vt f)
  vBinary 2 (fun _ a b => vpackE w (((velems w a ++ velems w b).drop (vimm f)).take (4096 / w))) f s

/-- `vperm` (R190). -/
def execVperm (f : VFields) (s : State) : Ans :=
  let w := typeWidth (vt f)
  let n := 4096 / w
  vTernary 2 (fun _ a b c => vpackE w ((velems w b).map fun i =>
    let j := i % (2 * n)
    if j < n then elemW w a.toNat j else elemW w c.toNat (j - n))) f s

/-- `vrev` (R189). -/
def execVrev (f : VFields) (s : State) : Ans :=
  vUnary 2 (fun _ a => vpackE (typeWidth (vt f)) (velems (typeWidth (vt f)) a).reverse) f s

/-- `vzip` (R189). -/
def execVzip (f : VFields) (s : State) : Ans :=
  let w := typeWidth (vt f)
  let m := 4096 / w / 2
  vBinary 2 (fun _ a b => vpackE w ((List.range m).flatMap fun e =>
    [elemW w a.toNat (vimm f % 2 * m + e), elemW w b.toNat (vimm f % 2 * m + e)])) f s

/-- `vunzip` (R189). -/
def execVunzip (f : VFields) (s : State) : Ans :=
  let w := typeWidth (vt f)
  let m := 4096 / w / 2
  vBinary 2 (fun _ a b => vpackE w
    (((List.range m).map fun e => elemW w a.toNat (2 * e + vimm f % 2)) ++
     ((List.range m).map fun e => elemW w b.toNat (2 * e + vimm f % 2)))) f s

/-- `vmov` (R189). -/
def execVmov (f : VFields) (s : State) : Ans := vUnary 2 (fun _ a => a) f s

/-! ### Bit planes (R191, R192) -/

/-- Bits of the elements of width w selected by g, packed one bit each. -/
def packBits (xs : List Bool) : Nat := packW 1 (xs.map fun b => if b then 1 else 0)

/-- `vplx` (R191): plane q of chunk c of A put into C. -/
def execVplx (f : VFields) (s : State) : Ans :=
  vOp f s fun x => withV x f.srcA fun a x => withV x f.srcC fun c x =>
    let q := vimm f % 8
    let ch := vimm f / 8 % 8
    let plane := packBits ((velems 8 a).map fun e => e.testBit (7 - q))
    vResult s x f 2 (BitVec.ofNat 4096 (putBits c.toNat (512 * ch + 511) (512 * ch) plane))

/-- `vplc` (R192): C plus the weight of plane q where chunk c of A has a bit set, and the offset of a last step. -/
def execVplc (f : VFields) (s : State) : Ans :=
  vOp f s fun x => withV x f.srcA fun a x => withV x f.srcC fun c x =>
    let q := vimm f % 8
    let ch := vimm f / 8 % 8
    let off : Int := if f.imm8.getLsbD 6 ∧ q < 7 then 2 ^ (6 - q) else 0
    let wgt : Int := if q = 0 then -128 else 2 ^ (7 - q)
    vResult s x f 2 (vpackE 8 ((List.range 512).map fun e =>
      wrapI 8 (elemW 8 c.toNat e + (if a.toNat.testBit (512 * ch + e) then wgt else 0) + off)))

end Sys2Proof.Machine
end

