-- ==== Sys2Proof/Machine/Reduce.lean ====
section
/-! DEFINITION. The K-slot instructions (R213 to R233): exponentials, reductions, online softmax, sorting, the
candidate file, random draws. -/

namespace Sys2Proof.Machine

/-- The shared entry of K meanings. -/
def kOp (f : VFields) (s : State) (k : Ctx → SlotRes) : Ans := slotOp 4 f.pred f.psense s k

/-- A vector result of the K slot, for l6 or l7 (R213). -/
def kResultV (s : State) (x : Ctx) (f : VFields) (lat : Nat) (v : Vec) : SlotRes :=
  .done s (addResult x f.dst .v 6 lat (.v v))

/-- A scalar result of the K slot. -/
def kResultS (s : State) (x : Ctx) (f : VFields) (lat n : Nat) : SlotRes :=
  .done s (addResult x f.dst .s 6 lat (.s (BitVec.ofNat 32 n)))

/-! ### Exponentials and logarithms (R220) -/

/-- `kexp2` (R220), the plain form. -/
def execKexp2 (f : VFields) (s : State) : Ans :=
  kOp f s fun x => withV x f.srcA fun a x => kResultV s x f 6 (vmap1 32 kexp2f a)

/-- `kexp2` (R220), the biased form: the bias is lane 0 of B. -/
def execKexp2Biased (f : VFields) (s : State) : Ans :=
  kOp f s fun x => withV x f.srcA fun a x => withV x f.srcB fun b x =>
    kResultV s x f 6 (vmap1 32 (fun e => kexp2f (sub32 e (vlane b 0).toNat)) a)

/-- `klog2` (R220). -/
def execKlog2 (f : VFields) (s : State) : Ans :=
  kOp f s fun x => withV x f.srcA fun a x => kResultV s x f 6 (vmap1 32 klog2f a)

/-! ### Reductions and scans (R221, R222) -/

/-- The maximum of the lanes in a type's order (R221). -/
def maxLanes (t : Nat) (xs : List Nat) : Nat :=
  match xs with
  | [] => 0
  | x :: rest => rest.foldl (vmaxE t) x

/-- `kmax` (R221): any NaN lane makes the result the canonical NaN. -/
def execKmax (f : VFields) (s : State) : Ans :=
  kOp f s fun x => withV x f.srcA fun a x =>
    let xs := velems 32 a
    let m := maxLanes (vt f) xs
    kResultS s x f 4 (if vt f = 10 ∧ xs.any (fisNan f32) then f32.nanBits else m)

/-- The key of a lane for kargmx (R221): NaN below −∞. -/
def argKey (t a : Nat) : Int :=
  if t = 10 then (if fisNan f32 a then -(2 ^ 33) else fkey f32 a) else intVal t a

/-- The first index of the largest key. -/
def argMax (keys : List Int) : Nat :=
  ((keys.zipIdx).foldl (fun (b : Int × Nat × Bool) (p : Int × Nat) =>
    if b.2.2 = false ∨ b.1 < p.1 then (p.1, p.2, true) else b) (0, 0, false)).2.1

/-- `kargmx` (R221). -/
def execKargmx (f : VFields) (s : State) : Ans :=
  kOp f s fun x => withV x f.srcA fun a x => kResultS s x f 4 (argMax ((velems 32 a).map (argKey (vt f))))

/-- R of R216 on a list: an exact sum, rounded once in the mode, or wrapped or saturated. -/
def sumLanes (x : Ctx) (t : Nat) (sat : Bool) (fs : List FVal) (is : List Int) : Nat :=
  if t = 10 then rndT x 10 (fsum (rndMode x) fs) else intResult 2 sat (is.foldl (· + ·) 0)

/-- `ksum` (R222). -/
def execKsum (f : VFields) (s : State) : Ans :=
  kOp f s fun x => withV x f.srcA fun a x =>
    let xs := velems 32 a
    kResultS s x f 6 (sumLanes x (vt f) (f.imm8.getLsbD 0) (xs.map (fdec f32)) (xs.map (intVal 2)))

/-- `ksumw` (R222). -/
def execKsumw (f : VFields) (s : State) : Ans :=
  kOp f s fun x => withV x f.srcA fun a x => withV x f.srcB fun b x =>
    let xs := (velems 32 a).zip (velems 32 b)
    kResultS s x f 6 (sumLanes x (vt f) (f.imm8.getLsbD 0)
      (xs.map fun p => fmul (fdec f32 p.1) (fdec f32 p.2)) (xs.map fun p => intVal 2 p.1 * intVal 2 p.2))

/-- `kscan` (R222): inclusive prefixes, or exclusive ones from +0. -/
def execKscan (f : VFields) (s : State) : Ans :=
  kOp f s fun x => withV x f.srcA fun a x =>
    let xs := velems 32 a
    let excl := f.imm8.getLsbD 0
    kResultV s x f 6 (vpackE 32 ((List.range 128).map fun i =>
      let p := xs.take (if excl then i else i + 1)
      if p.isEmpty then 0
      else sumLanes x (vt f) (f.imm8.getLsbD 1) (p.map (fdec f32)) (p.map (intVal 2))))

/-! ### Online softmax (R223, R224) -/

/-- 1.0 as FP32 bits. -/
def one32 : Nat := 0x3F800000

/-- ksmx on a state (m, l) and scores: m2, l, alpha (R223). -/
def softmaxStep (m l : Nat) (scores : List Nat) : Nat × Nat × Nat :=
  let all := m :: scores
  let m2 := if all.any (fisNan f32) then f32.nanBits else maxLanes 10 all
  if m2 = ninf32 then (ninf32, l, one32)
  else
    let alpha := kexp2f (sub32 m m2)
    let ps := scores.map fun a => kexp2f (sub32 a m2)
    (m2, sum32 (mul32 l alpha :: ps), alpha)

/-- `ksmx` (R223). -/
def execKsmx (f : VFields) (s : State) : Ans :=
  kOp f s fun x => withV x f.srcA fun a x => withV x f.srcC fun c x =>
    let (m, l, al) := softmaxStep (vlane c 0).toNat (vlane c 1).toNat (velems 32 a)
    kResultV s x f 10 (vpackE 32 [m, l, al])

/-- `ksmrg` (R224), the header form. -/
def execKsmrg (f : VFields) (s : State) : Ans :=
  kOp f s fun x => withV x f.srcA fun a x => withV x f.srcB fun b x =>
    let (m, l, sA, sB) :=
      mergeHeader (vlane a 0).toNat (vlane a 1).toNat (vlane b 0).toNat (vlane b 1).toNat
    kResultV s x f 6 (vpackE 32 [m, l, sA, sB])

/-- `ksmrg` (R224), the body form. -/
def execKsmrgBody (f : VFields) (s : State) : Ans :=
  kOp f s fun x => withV x f.srcA fun a x => withV x f.srcB fun b x => withV x f.srcC fun c x =>
    kResultV s x f 6 (vmap2 32 (fun p q => mergeBody p q (vlane c 2).toNat (vlane c 3).toNat) a b)

/-! ### Sorting and the candidate file (R225 to R230) -/

/-- A score's key in candidate order: NaN below −∞, −0 below +0 (R225). -/
def scoreKey (a : Word) : Int := argKey 10 a.toNat

/-- Candidate order (R225): a greater score, then a smaller id; an earlier pair stays first. -/
def pairBefore (x y : Word × BitVec 24) : Bool :=
  decide (scoreKey y.1 < scoreKey x.1) || (decide (scoreKey x.1 = scoreKey y.1) && decide (x.2.toNat < y.2.toNat))

/-- Pairs in candidate order (R225). -/
def candSort (ps : List (Word × BitVec 24)) : List (Word × BitVec 24) := sortBy pairBefore ps

/-- A pair vector (R225). -/
def pairVec (ps : List (Word × BitVec 24)) : Vec :=
  vpackE 32 (ps.flatMap fun p => [p.1.toNat, p.2.toNat])

/-- The 64 pairs of a pair vector; id bits [31:24] dropped. -/
def vecPairs (v : Vec) : List (Word × BitVec 24) :=
  (List.range 64).map fun e => (vlane v (2 * e), (vlane v (2 * e + 1)).setWidth 24)

/-- `ksort` (R226). -/
def execKsort (f : VFields) (s : State) : Ans :=
  kOp f s fun x => withV x f.srcA fun a x => withV x f.srcB fun b x =>
    let h := 64 * (vimm f % 2)
    kResultV s x f 12 (pairVec (candSort ((List.range 64).map fun e =>
      (vlane a (h + e), (vlane b (h + e)).setWidth 24))))

/-- Whether a score keeps its pair out of the file (R227, R229): NaN or −∞. -/
def deadScore (a : Word) : Bool := fisNan f32 a.toNat || a.toNat = ninf32

/-- A write of the candidate file, which holds later file instructions for its latency (R218). -/
def setFile (s : State) (x : Ctx) (lat : Nat) (ps : List (Word × BitVec 24)) : SlotRes :=
  .done s { x with cand := ps, fileUntil := s.now + lat }

/-- `kmrg` (R227). -/
def execKmrg (f : VFields) (s : State) : Ans :=
  kOp f s fun x => withV x f.srcA fun a x =>
    let ps := (vecPairs a).filter fun p => !deadScore p.1
    setFile s x 8 ((candSort (x.cand ++ ps)).take 64)

/-- `kcclr` (R228). -/
def execKcclr (f : VFields) (s : State) : Ans := kOp f s fun x => setFile s x 1 []

/-- `kcrd` (R228): entries past the file read −∞ with id 0xFFFFFF. -/
def execKcrd (f : VFields) (s : State) : Ans :=
  kOp f s fun x => kResultV s x f 4
    (pairVec (x.cand ++ List.replicate (64 - x.cand.length) (BitVec.ofNat 32 ninf32, 0xFFFFFF)))

/-- `kpick` (R228): the id of the first entry. -/
def execKpick (f : VFields) (s : State) : Ans :=
  kOp f s fun x => kResultS s x f 2 (match x.cand with
    | p :: _ => p.2.toNat
    | [] => 0xFFFFFFFF)

/-- `kpick` (R228): the score of the first entry. -/
def execKpickScore (f : VFields) (s : State) : Ans :=
  kOp f s fun x => kResultS s x f 2 (match x.cand with
    | p :: _ => p.1.toNat
    | [] => ninf32)

/-- The file with its scores changed, those in `drop` removed, in candidate order again. -/
def rescore (g : Nat → Word → Nat) (drop : Word → Bool) (ps : List (Word × BitVec 24)) : List (Word × BitVec 24) :=
  candSort (((ps.zipIdx).map fun p => (BitVec.ofNat 32 (g p.2 p.1.1), p.1.2)).filter fun p => !drop p.1)

/-- `ktemp` (R229). -/
def execKtemp (f : VFields) (s : State) : Ans :=
  kOp f s fun x => withS x f.srcA fun r x =>
    setFile s x 8 (rescore (fun _ a => mul32 a.toNat r.toNat) deadScore x.cand)

/-- The entries that `ktopp` keeps (R230). -/
def topP (ps : List (Word × BitVec 24)) (p : Nat) : List (Word × BitVec 24) :=
  match ps with
  | [] => []
  | h :: _ =>
    if h.1.toNat = f32.infBits then ps.filter fun e => e.1.toNat = f32.infBits
    else
      let qs := ps.map fun e => kexp2f (sub32 e.1.toNat h.1.toNat)
      let pv := fdec f32 p
      if pv = .nan ∨ !flt pv (fofInt 1) then ps
      else if !flt (fofInt 0) pv then [h]
      else
        let t := fdec f32 (mul32 p (sum32 qs))
        let k := (List.range ps.length).find? fun e => !flt (fdec f32 (sum32 (qs.take (e + 1)))) t
        ps.take (match k with
          | some e => e + 1
          | none => ps.length)

/-- `ktopp` (R230). -/
def execKtopp (f : VFields) (s : State) : Ans :=
  kOp f s fun x => withS x f.srcA fun p x => setFile s x 12 (topP x.cand p.toNat)

/-! ### Random draws and noise (R231 to R233) -/

/-- `krngk` (R231). -/
def execKrngk (f : VFields) (s : State) : Ans :=
  kOp f s fun x => withV x f.srcA fun a x =>
    .done s { x with rng :=
      { k0 := vlane a 0, k1 := vlane a 1, seq := vlane a 2,
        pos := (vlane a 3).toNat + (vlane a 4).toNat % 256 * 2 ^ 32, lane := (vlane a 5).setWidth 16, idx := 0 } }

/-- The four words of a draw at an index (R58, R232). -/
def drawWords (r : Rng) (i : Nat) : List Nat :=
  philox (r.lane.toNat * 2 ^ 16 + i % 2 ^ 16, r.pos % 2 ^ 32, r.pos / 2 ^ 32 % 256, r.seq.toNat) (r.k0.toNat, r.k1.toNat)

/-- Whether a draw of c counter values would pass the last index or position (R59, R232). -/
def rngExhausted (r : Rng) (c : Nat) : Bool := decide (r.idx + c - 1 > 0xFFFF) || decide (2 ^ 40 ≤ r.pos)

/-- `krng` (R232): c counter values drawn, or RNG_EXHAUSTED with no effect. -/
def execKrng (f : VFields) (s : State) : Ans :=
  kOp f s fun x =>
    let c := vimm f
    if rngExhausted x.rng c then .trap 0x0E 0 none
    else
      let ws := (List.range c).flatMap fun j => drawWords x.rng (x.rng.idx + j)
      kResultV s { x with rng := { x.rng with idx := x.rng.idx + c } } f 6 (vpackE 32 ws)

/-- −klog2(−klog2(u)) of R233. -/
def gumbel (w : Nat) : Nat :=
  let neg := fun a => vnegE 10 false a
  neg (klog2f (neg (klog2f (unif w))))

/-- `kgmb` (R233): Gumbel noise added to every entry; a NaN score removes it. -/
def execKgmb (f : VFields) (s : State) : Ans :=
  kOp f s fun x => withV x f.srcA fun a x =>
    setFile s x 12 (rescore (fun e sc => sum32 [sc.toNat, gumbel (vlane a e).toNat])
      (fun sc => fisNan f32 sc.toNat) x.cand)

end Sys2Proof.Machine
end

