-- ==== Sys2Proof/Machine/Query.lean ====
section
/-! DEFINITION. Queries: `aqry` (R336), the NMA units' partials (R337 to R339), merge trees and their nodes (R340 to
R342, R346), and the delivered record (R343, R344, R347). -/

namespace Sys2Proof.Machine

/-! ### The record (R336) -/

def qSeq (r : BitVec 512) : Nat := field r 31 0
def qGen (r : BitVec 512) : Nat := field r 47 32
def qHeads (r : BitVec 512) : Nat := field r 50 48 + 1
def qCausal (r : BitVec 512) : Bool := field r 51 51 = 1
def qDeg (r : BitVec 512) : Bool := field r 52 52 = 1
def qNorm (r : BitVec 512) : Bool := field r 53 53 = 1
def qPos (r : BitVec 512) : Nat := field r 103 64
def qWin (r : BitVec 512) : Nat := field r 151 112
def qScale (r : BitVec 512) : Nat := field r 191 160
def qTree (r : BitVec 512) : Nat := field r 199 192
def qTmo (r : BitVec 512) : Nat := if field r 215 200 = 0 then 50 else field r 215 200
def qOff (r : BitVec 512) : Nat := field r 255 224
def qDest (r : BitVec 512) : Nat := field r 319 256

/-- The checks of a query's record that its bits decide. -/
def queryFieldsOk (r : BitVec 512) : Bool :=
  field r 63 54 = 0 && field r 111 104 = 0 && field r 159 152 = 0 && field r 223 216 = 0 && field r 447 320 = 0 &&
    qOff r % 64 = 0 && addrOk (qDest r) (some 3) false

/-- dh of a query, by the rows it carries. -/
def msgDh (m : QueryMsg) : Nat := m.q.length / qHeads m.record

/-- The empty partial (R339). -/
def emptyPartial (dh : Nat) : Partial := { m := BitVec.ofNat 32 ninf32, l := 0, o := List.replicate dh 0 }

/-- The empty partial of every head of a query. -/
def emptyHeads (m : QueryMsg) : List Partial := List.replicate (qHeads m.record) (emptyPartial (msgDh m))

/-! ### Trees (R340) -/

/-- The tree table under an id. -/
def getTree (s : State) (id : Nat) : Option Tree := s.trees.find? fun t => t.id = id

/-- A node's fields. -/
def nodeParent (w : Word) : Nat := field w 9 0
def nodePkg (w : Word) : Nat := field w 19 10
def nodeLeaf (w : Word) : Bool := field w 20 20 = 1

/-- A node of a table. -/
def treeNode (t : Tree) (n : Nat) : Word := nth t.nodes n 0

/-- The children of a node, ascending. -/
def childrenOf (t : Tree) (n : Nat) : List Nat :=
  (List.range t.nodes.length).filter fun c => c ≠ 0 && nodeParent (treeNode t c) = n

/-- The leaf that names a package. -/
def leafOf (t : Tree) (pkg : Nat) : Option Nat :=
  (List.range t.nodes.length).find? fun n => nodeLeaf (treeNode t n) && nodePkg (treeNode t n) = pkg

/-- The leaves of a node's subtree, ascending. -/
def leavesUnder (t : Tree) : Nat → Nat → List Nat
  | 0, _ => []
  | fuel + 1, n => if nodeLeaf (treeNode t n) then [n] else (childrenOf t n).flatMap (leavesUnder t fuel)

/-- The height of a node's subtree. -/
def heightOf (t : Tree) : Nat → Nat → Nat
  | 0, _ => 0
  | fuel + 1, n => ((childrenOf t n).map fun c => heightOf t fuel c + 1).foldl max 0

/-- Whether a table is refused with TOPOLOGY (R340). -/
def badTree (ws : List Word) : Bool :=
  match ws with
  | [] => true
  | h :: nodes =>
    let t : Tree := { id := 0, version := 0, nodes := nodes, late := (0, 0) }
    let leaves := (nodes.filter nodeLeaf).map nodePkg
    field h 10 0 = 0 || decide (1024 < field h 10 0) || field h 15 11 ≠ 0 || field h 10 0 ≠ nodes.length ||
      (nodes.any fun w => field w 31 21 ≠ 0) || nodeParent (treeNode t 0) ≠ 0 ||
      ((List.range nodes.length).any fun n => n ≠ 0 &&
        (decide (n ≤ nodeParent (treeNode t n)) || nodeLeaf (treeNode t (nodeParent (treeNode t n))))) ||
      leaves.eraseDups.length ≠ leaves.length

/-- TREE_TABLE_INSTALL (R340, R346): a table installed with its late counters at 0, or refused whole. -/
def execTreeTableInstall (id : Nat) (ws : List Word) (s : State) : Ans :=
  .next (
    if badTree ws ∨ 256 ≤ id then emit s (.topology id)
    else
      let t : Tree := { id := id, version := field (nth ws 0 0) 31 16, nodes := ws.drop 1, late := (0, 0) }
      { s with trees := s.trees.filter (fun u => u.id ≠ id) ++ [t] })

/-- The hub die whose solder unit serves a node here (R20): that of the link toward the node's parent, or the destination of a
root; where no link lies on the way, die 14 for an even tree id and 15 for an odd one. -/
def solderDie (s : State) (t : Tree) (m : QueryMsg) (n : Nat) : Nat :=
  let dest := if n = 0 then m.src else nodePkg (treeNode t (nodeParent (treeNode t n)))
  if dest = s.pkg then (if t.id % 2 = 0 then 14 else 15) else if (upRoutes s dest).headD 0 < 18 then 14 else 15

/-- A partial, STALE or ABORTED answer, or a root's record, discarded at a node and counted by its solder unit (R346). -/
def countLate (s : State) (t : Tree) (m : QueryMsg) (n : Nat) : State :=
  let up := fun (l : Word × Word) => if solderDie s t m n = 14 then (l.1 + 1, l.2) else (l.1, l.2 + 1)
  { s with trees := s.trees.map fun u => if u.id = t.id then { u with late := up u.late } else u }

/-! ### The NMA arithmetic (R338) -/

/-- Elements of a BF16 row. -/
def rowElems (bs : List Byte) : List FVal := (elemsOf 16 bs).map (fdec bf16)

/-- The exact sum of the products of two rows, with the special values of R55. -/
def exactDot (a b : List FVal) : FVal := fsum .rne ((a.zip b).map fun p => fmul p.1 p.2)

/-- Whether slot t of a block counts for a query (R338). -/
def slotLive (r : BitVec 512) (valid base t : Nat) : Bool :=
  let p := slotPos base valid t
  valid.testBit t && !(qCausal r && decide (qPos r < p)) && !(decide (0 < qWin r) && decide (p + qWin r ≤ qPos r))

/-- One head's partial updated by one block: `toks` are its slots as (counts, K, V). -/
def scoreBlock (scale : Nat) (q : List FVal) (p : Partial) (toks : List (Bool × List FVal × List FVal)) : Partial :=
  let ss := toks.map fun t => if t.1 then rne f32 (fmul (fdec f32 scale) (exactDot q t.2.1)) else ninf32
  let m2 := maxLanes 10 (p.m.toNat :: ss)
  if m2 = ninf32 then p
  else
    let alpha := kexp2f (sub32 p.m.toNat m2)
    let ws := (toks.zip ss).map fun t => if t.1.1 then kexp2f (sub32 t.2 m2) else 0
    let fw := ws.map (fdec f32)
    let l := sum32 (mul32 p.l.toNat alpha :: ws)
    let o := (p.o.zipIdx).map fun e =>
      let terms := (fw.zip toks).map fun t => fmul t.1 (t.2.2.2.getD e.2 (.fin false 0 0))
      BitVec.ofNat 32 (rne f32 (fsum .rne (fdec f32 (mul32 e.1.toNat alpha) :: terms)))
    { m := BitVec.ofNat 32 m2, l := BitVec.ofNat 32 l, o := o }

/-- The slots of a block for a query: whether each counts, its K row and its V row. -/
def blockToks (r : BitVec 512) (dh valid base : Nat) (bs : List Byte) : List (Bool × List FVal × List FVal) :=
  (List.range (1024 / max 1 dh)).map fun t =>
    (slotLive r valid base t, rowElems ((bs.drop (2 * dh * t)).take (2 * dh)),
      rowElems ((bs.drop (2048 + 2 * dh * t)).take (2 * dh)))

/-- Blocks of one stack read one after another by an NMA unit, each once: VALID, BASE and rows (R295, R338). -/
def readBlocks (a : Agent) : List (Nat × Nat) → State → List (Nat × Nat × List Byte) × State
  | [], s => ([], s)
  | (_, ref) :: rest, s =>
    let (head, s) := readAs s a .hbm (gbnAddr s (refGbn ref)) 16
    let e := natOfBytes head
    let (bs, s) := readAs s a .hbm (geFrame (gbnEntry s (refGbn ref))) 4096
    let (more, s) := readBlocks a rest s
    ((geValid e, geBase e, bs) :: more, s)

/-- The partials of one NMA unit over its blocks (R338). -/
def unitPartials (m : QueryMsg) (blocks : List (Nat × Nat × List Byte)) : List Partial :=
  let dh := msgDh m
  let toks := blocks.map fun b => blockToks m.record dh b.1 b.2.1 b.2.2
  (List.range (qHeads m.record)).map fun h =>
    let q := ((m.q.drop (dh * h)).take dh).map fun e => fdec bf16 e.toNat
    toks.foldl (scoreBlock (qScale m.record) q) (emptyPartial dh)

/-- Two packages' or units' partials merged head by head (R341), the first on the left. -/
def mergeHeads (a b : List Partial) : List Partial := (a.zip b).map fun p => mergePartial p.1 p.2

/-- A fold of partials from left to right; nothing folded is the empty partial. -/
def foldHeads (m : QueryMsg) (ps : List (List Partial)) : List Partial :=
  match ps with
  | [] => emptyHeads m
  | p :: rest => rest.foldl mergeHeads p

/-! ### Merge nodes (R341, R342) -/

/-- The node of a query at this package. -/
def getNode (s : State) (m : QueryMsg) (n : Nat) : Option MergeNode :=
  s.nodes.find? fun e => e.msg.src = m.src && e.msg.id = m.id && e.node = n

/-- A node replaced. -/
def putNode (s : State) (e : MergeNode) : State :=
  { s with nodes := s.nodes.map fun f => if f.key = e.key then e else f }

/-- The node of a query at this package, made where it does not stand yet. -/
def ensureNode (s : State) (m : QueryMsg) (n : Nat) : MergeNode × State :=
  match getNode s m n with
  | some e => (e, s)
  | none =>
    let (key, s) := fresh s
    let e : MergeNode := { key := key, msg := m, node := n, got := [], lost := [], forwarded := false, leaving := none, sentAs := 0 }
    (e, { s with nodes := s.nodes ++ [e] })

/-- What a node answers by now, if it can: the first STALE or ABORTED that it met, ABORTED for a loss in strict mode, or the
fold of its children in ascending order once each has arrived or is lost. -/
def nodeAnswer (t : Tree) (e : MergeNode) : Option Answer :=
  let bad := e.got.find? fun g => match g.2 with
    | .part _ _ => false
    | _ => true
  match bad with
  | some (_, a) => some a
  | none =>
    if !e.lost.isEmpty && !qDeg e.msg.record then some .aborted
    else
      let cs := childrenOf t e.node
      if cs.all fun c => (alGet e.got c).isSome || e.lost.contains c then
        let parts := cs.filterMap fun c => match alGet e.got c with
          | some (.part hs ls) => some (hs, ls)
          | _ => none
        let gone := (e.lost.flatMap (leavesUnder t 1024)) ++ parts.flatMap fun p => p.2
        some (.part (foldHeads e.msg (parts.map fun p => p.1)) (sortBy (fun a b => decide (a < b)) gone.eraseDups))
      else none

/-- A node's answer on its way: a fold takes a duration that R374 leaves open, ABORTED and STALE go at once (R342). -/
def sendUp (s : State) (e : MergeNode) (a : Answer) : State :=
  let (due, s) := match a with
    | .part _ _ => freeDue s
    | _ => (s.now, s)
  putNode s { e with forwarded := true, leaving := some (due, a) }

/-- A node with its children's news: forwarded where it can answer. -/
def settleNode (s : State) (t : Tree) (e : MergeNode) : State :=
  match nodeAnswer t e with
  | some a => sendUp s e a
  | none => putNode s e

/-- A child's answer noted at its parent's node here (R341, R342): late ones are discarded and counted; one of another
VERSION is a child that failed. -/
def noteChild (s : State) (m : QueryMsg) (t : Tree) (child : Nat) (a : Answer) : State :=
  let n := nodeParent (treeNode t child)
  let (e, s) := ensureNode s m n
  if e.forwarded || (alGet e.got child).isSome || e.lost.contains child then countLate s t m n
  else if t.version ≠ m.version then settleNode s t { e with lost := e.lost ++ [child] }
  else settleNode s t { e with got := e.got ++ [(child, a)] }

/-! ### The delivered record (R343, R344) -/

/-- Words as bytes. -/
def wordBytes (ws : List Word) : List Byte := ws.flatMap fun w => bytesOf 4 w.toNat

/-- Whether a head's l is zero. -/
def emptyHead (p : Partial) : Bool := p.l.toNat % 2 ^ 31 = 0

/-- o as the record holds it: divided by l under NORM (R344). -/
def normO (norm : Bool) (p : Partial) : List Word :=
  if !norm then p.o
  else if emptyHead p then p.o.map fun _ => 0
  else p.o.map fun o => BitVec.ofNat 32 (rne f32 (fdiv (fdec f32 o.toNat) (fdec f32 p.l.toNat)))

/-- A head's state vector and o vectors. -/
def headBytes (norm : Bool) (dh : Nat) (p : Partial) : List Byte :=
  let nv := (dh + 127) / 128
  let o := normO norm p
  wordBytes ([p.m, p.l] ++ List.replicate 126 0 ++ o ++ List.replicate (128 * nv - o.length) 0)

/-- The lost leaves of an answer. -/
def answerLost (a : Answer) : List Nat :=
  match a with
  | .part _ ls => ls
  | _ => []

/-- The 512-byte header of a record. -/
def recordHeader (m : QueryMsg) (a : Answer) (hs : List Partial) : List Byte :=
  let r := m.record
  let ls := answerLost a
  let empty := packW 1 (hs.map fun p => if emptyHead p then 1 else 0)
  let flag := fun (b : Bool) (i : Nat) => if b then 2 ^ i else 0
  let leaves := packW 16 ((List.range 16).map fun i => ls.getD i 0xFFFF)
  bytesOf 512 (empty + flag (!ls.isEmpty) 8 + flag (decide (a = .aborted)) 9 + flag (decide (a = .stale)) 10 +
    flag (qNorm r) 11 + flag (decide (16 < ls.length)) 12 + ls.length % 2 ^ 16 * 2 ^ 16 + qSeq r * 2 ^ 32 +
    qPos r * 2 ^ 64 + qTree r * 2 ^ 112 + leaves * 2 ^ 128)

/-- The whole record. -/
def recordBytes (m : QueryMsg) (a : Answer) : List Byte :=
  let hs := match a with
    | .part hs _ => hs
    | _ => emptyHeads m
  recordHeader m a hs ++ hs.flatMap (headBytes (qNorm m.record) (msgDh m))

/-- The status that an answer ends the tag with. -/
def answerStatus (a : Answer) : Nat :=
  match a with
  | .part _ _ => stOk
  | .stale => stStale
  | .aborted => stAborted

/-- One 512-byte entry of a record pushed (R151). -/
def pushRecord (s : State) (k : Cmd) : Got Unit :=
  let a := qDest k.record
  match portStop s k a with
  | some x => (.error x, s)
  | none => (.ok (), countUnit (landEntry s k a ((k.buf.drop (512 * k.index)).take 512)) k)

/-- A whole record written to memory or a window, never a part of it (R347). -/
def writeRecord (s : State) (k : Cmd) : Got Unit :=
  match storePlaces s k 0 (fun s => placesAt s k (qDest k.record) k.buf.length true) k.buf with
  | (.error x, s) => (.error x, s)
  | (.ok _, s) => (.ok (), modCmd (countUnit s k) k.id fun q => { q with index := k.buf.length / 512 })

/-- The end of a record's delivery; a root on another package learns whether the record was discarded (R347). -/
def endDeliver (s : State) (k : Cmd) (status : Nat) (discarded : Bool) : State :=
  let s := match k.root with
    | some (pkg, num) => if num = 0 then s else answerTo s pkg num (if discarded then .ends stAborted else .done [] none none)
    | none => s
  finishCmd s k.id status 0

/-- A delivery whose target slice does not stand waits for one; while nothing of the record is written, for 65,536 cycles from
the root's fold, or from when the slice left (R164, R347). A record begun waits without limit: none is written in part (log 122). -/
def awaitDest (s : State) (k : Cmd) : State :=
  match k.st with
  | .targetWait since =>
    if k.index = 0 ∧ since + 65536 ≤ s.now then addTurn s (.windowDestTimeout k.id) else kvLater s k
  | _ => kvLater (modCmd s k.id fun q => { q with st := .targetWait s.now }) k

/-- What a delivery does when it cannot go on at once. A push waits for room in one of its engine's lanes (R164). -/
def stopDeliver (s : State) (k : Cmd) (x : Stop) : State :=
  match x with
  | .walk va w => startWalk s k va w
  | .ends st => endDeliver s k st false
  | .park va kind => parkCmd s k va kind (getAsid s k.asid).gen
  | .sent => s
  | .target => awaitDest s k
  | .room => if laneFree s k.cluster then modCmd s k.id fun q => { q with st := .pushWait } else kvLater s k
  | _ => kvLater s k

/-- The delivery of a record goes on, as a copy of the issuer (R295, R342), while its engine has a lane free (R164). -/
def advanceDeliver : Nat → Nat → State → State
  | 0, id, s => addTimer s (s.now + 1) (.walkComplete id)
  | n + 1, id, s =>
    match getCmd s id with
    | none => s
    | some k =>
      if k.buf.length ≤ 512 * k.index then endDeliver s k k.status false
      else if !laneFree s k.cluster then kvLater s k
      else
        let push := isWin (qDest k.record) && decide (winKind (qDest k.record) = 3)
        match (if push then pushRecord s k else writeRecord s k) with
        | (.ok _, s) => advanceDeliver n id (modCmd s id fun q => { q with st := .active })
        | (.error x, s) => stopDeliver s k x

/-- The root's answer delivered at the issuing package, once, with the packet that a root elsewhere sent it by. A window's
slice may come within 65,536 cycles of the root's fold, `age` cycles ago (R347). `root` names the packet of a root elsewhere, none
a root here; (this package, 0) stands for a record that no root has made (R336). -/
def deliverQuery (s : State) (m : QueryMsg) (a : Answer) (root : Option (Nat × Nat)) (age : Nat) : State :=
  match getCmd s m.id with
  | none => s
  | some k =>
    if k.kind ≠ .aqry ∨ k.shared then s
    else
      let s := modCmd s k.id fun q =>
        { q with st := .targetWait (s.now - age), shared := true, status := answerStatus a, buf := recordBytes m a, index := 0, trans := [],
                 acks := 0, answers := [], root := root }
      advanceDeliver 65 k.id s

/-- A root's record sent to the issuer on another package. -/
def sendRoot (s : State) (m : QueryMsg) (a : Answer) : State :=
  let (num, s) := sendMessage s m.src fun num => .answerUp m.src num m 0 a
  { s with nodes := s.nodes.map fun e => if e.msg.src = m.src ∧ e.msg.id = m.id ∧ e.node = 0 then { e with sentAs := num } else e }

/-- A node's answer passed on: to its parent's node here, to the parent's package, or from the root to the issuer. -/
def passUp (t : Tree) (m : QueryMsg) (n : Nat) (a : Answer) (s : State) : State :=
  let p := nodePkg (treeNode t (nodeParent (treeNode t n)))
  if n = 0 then (if m.src = s.pkg then deliverQuery s m a none 0 else sendRoot s m a)
  else if p = s.pkg then noteChild s m t n a
  else (sendMessage s p fun num => .answerUp p num m n a).2

/-- An answer that another package sent: of a child to its node here, or of the root to the issuer. -/
def takeAnswer (src num age : Nat) (m : QueryMsg) (child : Nat) (a : Answer) (s : State) : State :=
  if child = 0 then (if m.src = s.pkg then deliverQuery s m a (some (src, num)) age else s)
  else match getTree s (qTree m.record) with
    | none => s
    | some t => noteChild s m t child a

/-- SOLDER_PARTIAL_ARRIVAL (R341, R342). -/
def execSolderPartialArrival (p : Arrived QueryMsg) (child : Nat) (a : Answer) (s : State) : Ans :=
  .next (takePacket s p.src p.num (takeAnswer p.src p.num p.age p.body child a))

/-- The answer of a node that is due to leave passed on. -/
def leaveNode (s : State) (e : MergeNode) : State :=
  match e.leaving with
  | none => s
  | some (due, a) =>
    if s.now < due then s
    else
      let s := putNode s { e with leaving := none }
      match getTree s (qTree e.msg.record) with
      | none => s
      | some t => passUp t e.msg e.node a s

/-- The nodes here whose answers are due. -/
def tickSolder (s : State) : State :=
  (s.nodes.map fun e => e.key).foldl (fun s key =>
    match s.nodes.find? fun e => e.key = key with
    | some e => leaveNode s e
    | none => s) s

/-- Children of a node lost, with what the node then does (R342). -/
def loseChildren (s : State) (e : MergeNode) (cs : List Nat) : State :=
  match getTree s (qTree e.msg.record) with
  | none => s
  | some t => if e.forwarded ∨ cs.isEmpty then s else settleNode s t { e with lost := e.lost ++ cs }

/-- The children of a node that have not arrived. -/
def missing (t : Tree) (e : MergeNode) : List Nat :=
  (childrenOf t e.node).filter fun c => (alGet e.got c).isNone && !e.lost.contains c

/-- MERGE_CHILD_TIMEOUT (R342): every child still missing when a node's timer runs out is lost. -/
def execMergeChildTimeout (key node : Nat) (s : State) : Ans :=
  .next (match s.nodes.find? fun e => e.key = key && e.node = node with
    | none => s
    | some e =>
      match getTree s (qTree e.msg.record) with
      | none => s
      | some t => loseChildren s e (missing t e))

/-- The children on a package that can no longer be reached are lost at every node here (R342, R360). -/
def losePackage (pkg : Nat) (s : State) : State :=
  s.nodes.foldl (fun s f =>
    match s.nodes.find? fun e => e.key = f.key, getTree s (qTree f.msg.record) with
    | some e, some t => loseChildren s e ((missing t e).filter fun c => nodePkg (treeNode t c) = pkg)
    | _, _ => s) s

/-- The owners of a group's stripes that are not LOST (R336). -/
def liveOwners (g : List StripeEntry) : List Nat := ((g.filter fun e => e.st ≠ 3).map fun e => e.owner).eraseDups

/-- A start notice at a node here (R341): its timer of k × TMO microseconds starts, and the leaves of owners whose stripes
are LOST count as lost (R336). R374 makes time limits upper bounds; the model waits exactly as long (DESIGN CHOICE, log 110). -/
def startNode (s : State) (m : QueryMsg) (n : Nat) : State :=
  match getTree s (qTree m.record) with
  | none => s
  | some t =>
    let (e, s) := ensureNode s m n
    let s := addTimer s (s.now + heightOf t 1024 n * qTmo m.record * 1400) (.mergeChildTimeout e.key n)
    let g := groupOf s (qSeq m.record)
    let gone := (missing t e).filter fun c =>
      nodeLeaf (treeNode t c) && (g.any fun f => f.owner = nodePkg (treeNode t c)) &&
        !(liveOwners g).contains (nodePkg (treeNode t c))
    loseChildren s e gone

/-- START_NOTICE (R341). -/
def execStartNotice (p : Arrived QueryMsg) (n : Nat) (s : State) : Ans :=
  .next (takePacket s p.src p.num fun s => startNode s p.body n)

/-! ### Serving a query (R337 to R339) -/

/-- A query's answer from this package, as a leaf. -/
def answerLeaf (s : State) (m : QueryMsg) (a : Answer) : State :=
  match getTree s (qTree m.record) with
  | none => s
  | some t =>
    match leafOf t s.pkg with
    | none => s
    | some n => passUp t m n a s

/-- The block numbers of a sequence in the stripes that this package owns. -/
def ownBlocks (s : State) (seq : Nat) : List Nat :=
  let nums := match getSeq s seq with
    | some q => List.range (tableRows q)
    | none => sortBy (fun a b => decide (a < b)) ((getSegment s seq).map fun (r : Nat × DWord) => r.1)
  let mine := (groupOf s seq).filter fun e => e.owner = s.pkg && e.st ≠ 3
  nums.filter fun b => refV (rowOf s seq b) && mine.any fun e => decide (e.first ≤ b) && decide (b ≤ e.last)

/-- The stack of a block's frame (R247). -/
def blockStack (s : State) (ref : Nat) : Nat := bits (geFrame (gbnEntry s (refGbn ref))) 39 36

/-- A query being served, changed. -/
def modQuery (s : State) (key : Nat) (f : Query → Query) : State :=
  { s with queries := s.queries.map fun q => if q.key = key then f q else q }

/-- A query's rows taken up: STALE where the generation differs; a wait while the unit is cold or a block is on another
tier; then its references handed to the units of their stacks (R324, R327, R337, R338). -/
def gatherQuery (s : State) (q : Query) : State :=
  let seq := qSeq q.msg.record
  let g := groupOf s seq
  let done := { s with queries := s.queries.filter fun p => p.key ≠ q.key }
  if g.isEmpty ∨ groupGen g ≠ qGen q.msg.record then answerLeaf done q.msg .stale
  else
    let rows := (ownBlocks s seq).map fun b => (b, rowOf s seq b)
    if !usable s seq || rows.any fun r => refTier r.2 ≠ 0 then addTimer s (s.now + 1) (.nmaPartial q.key 0)
    else
      let rows := rows.filter fun r => refPkg r.2 = s.pkg
      let banks := sortBy (fun a b => decide (a < b)) (rows.map fun r => blockStack s r.2).eraseDups
      if banks.isEmpty then answerLeaf done q.msg (.part (emptyHeads q.msg) [])
      else
        let s := modQuery s q.key fun q =>
          { q with gathered := true, units := [], pending := banks.map fun k => (k, rows.filter fun r => blockStack s r.2 = k) }
        banks.foldl (fun s k => addFreeTimer s (.nmaPartial q.key k)) s

/-- What the NMA unit of a stack sees of a query's blocks (R295): what has been published, as the query arrives, to the package
where its issuer is here, else to the domain; and nothing older than the unit has read before (R283). -/
def nmaView (src key : Nat) (s : State) (stack : Nat) : State :=
  let is := if src = s.pkg then [Inst.package, .domain] else [.domain]
  setView s { agent := .nma stack key, snap := publishedTo s is, floor := (getView s (.nma stack 0)).floor, own := [], mine := [],
              insts := [] }

/-- A query arrives at an owner (R337). -/
def serveQuery (s : State) (m : QueryMsg) : State :=
  let (key, s) := fresh s
  let q : Query := { key := key, msg := m, gathered := false, pending := [], units := [] }
  let s := (List.range 12).foldl (nmaView m.src key) s
  gatherQuery { s with queries := s.queries ++ [q] } q

/-- Whether a unit's blocks stand as they were handed to it: the group's generation, each row, its block LIVE and in the unit's
stack (R18, R337, R338). -/
def unitStands (s : State) (q : Query) (stack : Nat) (rows : List (Nat × Nat)) : Bool :=
  let seq := qSeq q.msg.record
  groupGen (groupOf s seq) = qGen q.msg.record && rows.all fun r =>
    rowOf s seq r.1 = r.2 && geLive (gbnEntry s (refGbn r.2)) && blockStack s r.2 = stack

/-- A unit reads its blocks, and what it has read binds its later queries (R283, R338). -/
def unitReads (s : State) (q : Query) (stack : Nat) (rows : List (Nat × Nat)) : List Partial × State :=
  let (blocks, s) := readBlocks (.nma stack q.key) rows s
  (unitPartials q.msg blocks, giveFloor s (.nma stack 0) (getView s (.nma stack q.key)).floor)

/-- A package's partial complete (R339): the fold of its units' in ascending stack order, and the views of the query go. -/
def endQuery (s : State) (q : Query) (units : List (Nat × List Partial)) : State :=
  let ps := (sortBy (fun a b => decide (a.1 < b.1)) units).map fun u => u.2
  let own := (List.range 12).map fun k => Agent.nma k q.key
  answerLeaf { s with queries := s.queries.filter (fun p => p.key ≠ q.key), views := s.views.filter fun v => !own.contains v.agent }
    q.msg (.part (foldHeads q.msg ps) [])

/-- NMA_PARTIAL (R338, R339): a stack's unit scores its blocks, waiting while one is being compacted; where they no longer stand
as they were taken up, the package takes the query's rows up anew. The last unit's partial completes the package's. -/
def execNmaPartial (key stack : Nat) (s : State) : Ans :=
  .next (match s.queries.find? fun q => q.key = key with
    | none => s
    | some q =>
      if !q.gathered then gatherQuery s q
      else match alGet q.pending stack with
        | none => s
        | some rows =>
          if !unitStands s q stack rows then gatherQuery (modQuery s key fun q => { q with gathered := false, pending := [] }) q
          else if rows.any fun r => geCmp (gbnEntry s (refGbn r.2)) then addTimer s (s.now + 1) (.nmaPartial key stack)
          else
            let (ps, s) := unitReads s q stack rows
            let units := q.units ++ [(stack, ps)]
            let left := alDel q.pending stack
            if left.isEmpty then endQuery s q units else modQuery s key fun q => { q with pending := left, units := units })

/-! ### Issue (R336) -/

/-- The message of a query command. -/
def queryMsg (s : State) (k : Cmd) (t : Tree) : QueryMsg :=
  { src := s.pkg, id := k.id, record := k.record, q := (elemsOf 16 k.data).map (BitVec.ofNat 16), version := t.version }

/-- A query sent: the start notices to the inner nodes, then the query to every owner. `acks` 1 marks that probes have
failed: what stands unknown then counts as unreachable. -/
def sendQuery (s : State) (k : Cmd) (t : Tree) (owners : List Nat) : State :=
  let m := queryMsg s k t
  let inner := (List.range t.nodes.length).filter fun n => !nodeLeaf (treeNode t n)
  let far := fun (p : Nat) => decide (p ≠ s.pkg)
  let gone := ((owners ++ inner.map fun n => nodePkg (treeNode t n)).eraseDups).filter fun p => far p && knownInc s p = 0
  if gone.contains (nodePkg (treeNode t 0)) then finishCmd s k.id stUnreachable 0 else
  let s := modCmd s k.id fun q => { q with index := 1 }
  let s := inner.foldl (fun s n =>
    let p := nodePkg (treeNode t n)
    if !far p then startNode s m n
    else if gone.contains p then s
    else (sendMessage s p fun num => .startNotice p num m n).2) s
  let s := gone.foldl (fun s p => losePackage p s) s
  owners.foldl (fun s p =>
    if !far p then serveQuery s m
    else if gone.contains p then s
    else (sendPacket s p (.query m)).2) s

/-- A query starts at the issuing package (R327, R336). -/
def startQuery (s : State) (k : Cmd) : State :=
  let g := groupOf s (qSeq k.record)
  if !queryFieldsOk k.record ∨ g.isEmpty then finishCmd s k.id stProtection 0
  else if qGen k.record ≠ groupGen g then
    deliverQuery s (queryMsg s k { id := 0, version := 0, nodes := [], late := (0, 0) }) .stale (some (s.pkg, 0)) 0
  else match getTree s (qTree k.record) with
    | none => finishCmd s k.id stProtection 0
    | some t =>
      let owners := liveOwners g
      let leaves := (t.nodes.filter nodeLeaf).map nodePkg
      if owners.any fun o => (leaves.filter fun p => p = o).length ≠ 1 then finishCmd s k.id stProtection 0
      else
        let pkgs := (owners ++ (t.nodes.filter fun w => !nodeLeaf w).map nodePkg).eraseDups
        let unknown := pkgs.filter fun p => p ≠ s.pkg && knownInc s p = 0 && decide (p < 576)
        match unknown with
        | p :: _ =>
          if k.acks = 0 then
            unknown.foldl sendProbe (modCmd s k.id fun q => { q with st := .remoteWait p 0 })
          else sendQuery s k t owners
        | [] => sendQuery s k t owners

/-- A turn of the engine for a query. -/
def turnQuery (s : State) (k : Cmd) : State :=
  match k.st with
  | .queued =>
    if !k.heldBy.isEmpty || !laneFree s k.cluster then kvLater s k
    else startQuery (modCmd s k.id fun q => { q with st := .active }) { k with st := .active }
  | .active | .targetWait _ =>
    if k.shared then advanceDeliver 65 k.id s else if k.index = 0 then startQuery s k else s
  | .walking gen va w =>
    (match endWalk s k gen va w 1 with
     | .goOn s => advanceDeliver 65 k.id s
     | .stopped s => s
     | .failed s => finishCmd s k.id stFaulted 0)
  | _ => s

/-- WINDOW_DEST_TIMEOUT (R347): no slice for the record within 65,536 cycles of the root's fold: the root discards it and counts
it, and the tag ends ABORTED. Of a record that has been written in part nothing is discarded. -/
def execWindowDestTimeout (id : Nat) (s : State) : Ans :=
  .next (match getCmd s id with
    | none => s
    | some k =>
      match k.st with
      | .targetWait since =>
        if k.kind = .aqry ∧ k.shared ∧ isWin (qDest k.record) ∧ k.index = 0 ∧ since + 65536 ≤ s.now ∧ (targetCtx s k (qDest k.record)).isNone then
          let s := match (if k.root.isNone then getTree s (qTree k.record) else none) with
            | some t => countLate s t (queryMsg s k t) 0
            | none => s
          endDeliver s k stAborted true
        else s
      | _ => s)

/-- A root's record that the issuer has discarded counted here, once (R346, R347). -/
def countRoot (s : State) (num : Nat) : State :=
  match s.nodes.find? fun e => e.sentAs = num && decide (num ≠ 0) with
  | none => s
  | some e =>
    let s := putNode s { e with sentAs := 0 }
    match getTree s (qTree e.msg.record) with
    | some t => countLate s t e.msg 0
    | none => s

/-- `aqry` (R336): the record and the query rows read at issue. -/
def execAqry (f : TFields) (s : State) : Ans :=
  tOp 0x22 f s fun x =>
    let (bs, s, x) := loadT s x 1 (recordAddr x f) 64
    let r := BitVec.ofNat 512 (natOfBytes bs)
    let k := { newCmd s s.cur x .aqry (.ctx x.task) 0 (tagOf f) with record := r, recAddr := recordAddr x f }
    let (data, s, x) := if queryFieldsOk r then
        (let (c, s) := dhcHere s (qSeq r)
         loadT s x 1 (qOff r) (2 * dhOf c * qHeads r))
      else ([], s, x)
    let (s, x) := issueCmd s x { k with data := data }
    .done s x

end Sys2Proof.Machine
end

