-- ==== Sys2Proof/Machine/Fill.lean ====
section
/-! DEFINITION. The instruction store: fills with their translation (R258, R279), replacement, `ifill` (R162), and the
waits that a fill ends (R62). -/

namespace Sys2Proof.Machine

/-- The PCs of the parcels of a context's next bundle that can be told: its template's, or all of them. -/
def nextPcs (s : State) (c : CtxId) (x : Ctx) : List Word :=
  let own := match sizeAt s c x x.pc with
    | some n => (List.range n).map fun i => x.pc + BitVec.ofNat 32 (4 * i)
    | none => [x.pc]
  match x.wait with
  | .fill pc _ => own ++ [pc]
  | _ => own

/-- Whether a line may be replaced (R258): neither pinned by a context of its core nor holding a parcel of the next
bundle of one. -/
def replaceable (s : State) (core : Nat) (l : ILine) : Bool :=
  (List.range 2).all fun n =>
    match getCtx s ⟨core, n⟩ with
    | none => true
    | some x =>
      (getRegion s x.region).asid ≠ l.asid ||
        (!pinned x l.va && (nextPcs s ⟨core, n⟩ x).all fun pc => fetchLine x pc ≠ l.va)

/-- A line is stale: its generation is no longer its ASID's (R249). -/
def staleLine (s : State) (l : ILine) : Bool := l.gen ≠ (getAsid s l.asid).gen

/-- The lines left after room for one more is made: lines stand in the order of their last fetch, and there are sixteen.
A stale line's place is taken first, then that of the line fetched least recently (R249, R258). -/
def makeRoom (s : State) (core : Nat) (ls : List ILine) : List ILine :=
  if ls.length < 16 then ls
  else match findIdxOpt (fun l => staleLine s l && replaceable s core l) ls with
    | some i => ls.eraseIdx i
    | none =>
      match findIdxOpt (replaceable s core) ls with
      | some i => ls.eraseIdx i
      | none => ls.drop 1

/-- A line placed in the store. -/
def placeLine (s : State) (core asid va : Nat) (bs : List Byte) : State :=
  let l : ILine := { asid := asid, gen := (getAsid s asid).gen, va := va, data := BitVec.ofNat 32768 (natOfBytes bs) }
  let ls := (getCore s core).lines
  let old := ls.filter fun m => !(m.asid = asid && m.va = va && replaceable s core m)
  modCore s core fun k => { k with lines := makeRoom s core old ++ [l] }

/-- The lines of a bundle's parcels become those fetched last. -/
def touchLines (s : State) (c : CtxId) (x : Ctx) (pcs : List Word) : State :=
  let asid := (getRegion s x.region).asid
  let hit := fun (l : ILine) => l.asid = asid && pcs.any fun pc => fetchLine x pc = l.va
  modCore s c.core fun k => { k with lines := k.lines.filter (fun l => !hit l) ++ k.lines.filter hit }

/-- What a fetch wait of a context becomes when the fill of a line ends: over, or CODE_FETCH at its bundle (R62). A context
that halts in the wait stays in it until it is saved, and fetches again when its slice resumes (R280). -/
def endFetchWait (s : State) (c : CtxId) (va : Nat) (ok : Bool) : State :=
  match getCtx s c with
  | none => s
  | some x =>
    match x.wait with
    | .fill pc tpc =>
      if fetchLine x pc ≠ va || x.halting then s
      else if ok then setCtx s c { x with wait := .none }
      else takeTrap s c { x with wait := .none }
        { code := 0x14, slot := 7, cls := 0, opnd := 0, tpc := tpc, tinfo := BitVec.ofNat 32 (x.rep % 16) }
    | _ => s

/-- The `ifill` commands joined to a fill (R279). -/
def joinedFills (s : State) (k : Cmd) : List Cmd :=
  s.cmds.filter fun q => q.kind = .ifill && q.c.core = k.c.core && q.asid = k.asid && q.recAddr = k.recAddr && q.st = .queued

/-- The end of a fill (R62, R162): a fetch's waits end, an `ifill`'s tag takes the status. -/
def endFill (s : State) (k : Cmd) (status : Nat) : State :=
  let s := (k :: joinedFills s k).foldl (fun s q => if q.tag < 64 then endCmd s q.id status 0 else delCmd s q.id) s
  let waits := fun (s : State) (n : Nat) =>
    match getCtx s ⟨k.c.core, n⟩ with
    | some x => if (getRegion s x.region).asid = k.asid then endFetchWait s ⟨k.c.core, n⟩ k.recAddr (status = stOk) else s
    | none => s
  waits (waits s 0) 1

/-- Whether a leaf serves code (R252, R258). -/
def codeLeaf (e : Nat) : Bool := teX e && !teRem e && !teVers e && !teBlk e

/-- The turn of a fill whose walk ends (R252, R254, R258). -/
def fillTurn (s : State) (k : Cmd) : State :=
  match k.st with
  | .active | .walking .. =>
    let gen := match k.st with
      | .walking g _ _ => g
      | _ => (getAsid s k.asid).gen
    if gen ≠ (getAsid s k.asid).gen then
      addFreeTimer (modCmd s k.id fun q => { q with st := .walking (getAsid s k.asid).gen k.recAddr false })
        (.instructionFillComplete k.id)
    else match walk s k.asid k.recAddr with
      | .park => parkCmd s k k.recAddr 4 gen
      | .bad pa => endFill (emit s (.malformedEntry pa)) k stFaulted
      | .leaf level e =>
        if codeLeaf e then
          let bs := rawRead s .hbm (teAddr e + k.recAddr % pageSize level) 4096
          endFill (placeLine s k.c.core k.asid k.recAddr bs) k stOk
        else endFill s k stProtection
  | _ => s

/-- INSTRUCTION_FILL_COMPLETE (R258). -/
def execInstructionFillComplete (id : Nat) (s : State) : Ans :=
  .next (match getCmd s id with
    | none => s
    | some k => if k.kind = .ifill then fillTurn s k else s)

/-- `ifill` (R162): the line of byte offset A of the image, on a tag; PROTECTION beyond the image. -/
def execIfill (f : TFields) (s : State) : Ans :=
  tOp 0x2B f s fun x => withS x f.srcA fun a x =>
    let tag := tagOf f
    let x := countTag x tag
    if hdrImglen x.hdr ≤ a.toNat then
      let (id, s) := sendCmd s { newCmd s s.cur x .ifill (.ctx x.task) 0 tag with st := .ending }
      .done (finishCmd s id stProtection 0) x
    else .done (startFill s s.cur x (fetchLine x a) (some tag)) x

end Sys2Proof.Machine
end

