-- ==== Sys2Proof/Machine/Tasks.lean ====
section
/-! DEFINITION. Task pools: descriptors (R305, R306), readiness (R307), submission by `spawn` and `ltsk` (R125, R239),
the fold order of view pieces (R319), the end of tasks and regions (R32, R304). -/

namespace Sys2Proof.Machine

/-! ### Reports -/

/-- A report of the pool on a task (R306, R307): CODE 0x15, SLOT 7, for the fault domain of its region, which aborts
nothing. The manual leaves its CORE, CTX, TPC and TINFO open: free values (log 9). -/
def poolReport (s : State) (t : Task) : State :=
  let (n, s) := fresh s
  let (m, s) := fresh s
  let (k, s) := fresh s
  let g := getRegion s t.region
  let i : TrapInfo :=
    { code := 0x15, slot := 7, cls := 0, opnd := 0, tpc := Config.freeWord m, tinfo := Config.freeWord k }
  let w := (Config.freeWord n).toNat
  reportFault s (domainRecord i w (w / 1024) g.rcb (taskId t)) g.fdom

/-! ### Save areas (R306) -/

/-- The bytes of a save area (R306). -/
def saveSize (h : BitVec 512) : Nat :=
  hdrScratch h + 8192 * hdrOsl h + 16384 * hdrZt h + 70144 + hdrLd h + hdrSd h

/-- A page of a save area written by a save: the manual does not give the layout, so each byte is free (log 9). -/
def smudgePage (asid : Nat) (s : State) (p : Nat × Nat) : State :=
  match sysPlace s asid p.1 with
  | .at' pa s => blur s pa p.2
  | _ => s

/-- A task's save area written by a save of its state (R310). -/
def smudge (s : State) (t : Task) : State :=
  let n := saveSize t.hdr
  (pagePieces (n / 4096 + 2) t.save n).foldl (smudgePage (getRegion s t.region).asid) s

/-! ### The fold order (R319) -/

/-- The order of places in the spawn tree: a task's pieces with the subtrees of its children between them. -/
def keyLt : List Nat → List Nat → Bool
  | [], [] => false
  | [], _ :: _ => true
  | _ :: _, [] => false
  | a :: as, b :: bs => decide (a < b) || (a = b && keyLt as bs)

/-- Whether two places stand in one spawn tree. -/
def sameTree (a b : List Nat) : Bool := a.head? = b.head?

/-- The place of a task's piece after its k-th spawn. -/
def pieceKey (t : Task) (k : Nat) : List Nat := t.path ++ [2 * k]

/-- The place of the child of a task's k-th spawn. -/
def childPath (t : Task) (k : Nat) : List Nat := t.path ++ [2 * k + 1]

/-- Whether nothing to a piece's left is still to merge or to come (R320): no piece on its tile, and no task that has
not ended and could still make one. -/
def leftDone (s : State) (p : Piece) : Bool :=
  !(s.pieces.any fun q => q.view.addr = p.view.addr && sameTree q.key p.key && keyLt q.key p.key) &&
    !(s.tasks.any fun t => t.st ≠ .ended && sameTree t.path p.key && keyLt (pieceKey t t.spawns) p.key)

/-- A task's current pieces end (R321), each followed by a continuation piece unless the task ends. -/
def endPieces (s : State) (t : Task) (c : CtxId) (goOn : Bool) : State :=
  let cur := s.pieces.filter fun p => p.task = t.uid && !p.ended
  let s := { s with pieces := s.pieces.map fun p =>
      if p.task = t.uid && !p.ended then { p with ended := true, c := c } else p }
  if !goOn then s
  else cur.foldl (fun s p =>
    let (id, s) := fresh s
    { s with pieces := s.pieces ++ [{ p with id := id, c := c, key := pieceKey t (t.spawns + 1) }] }) s

/-! ### The end of tasks and regions -/

/-- An ended task leaves its pool once its views have merged (R32). -/
def sweepPools (s : State) : State :=
  { s with tasks := s.tasks.filter fun t => t.st ≠ .ended || s.pieces.any fun p => p.task = t.uid }

/-- A region whose tasks have all ended and whose pieces have all merged is ENDED (R304). -/
def settleRegion (s : State) (r : Nat) : State :=
  if (getRegion s r).st = .admitted && !(s.tasks.any fun t => t.region = r && t.st ≠ .ended) &&
      !(s.pieces.any fun p => p.region = r) then setRegionState s r .ended
  else s

/-- Pools and regions brought up to date. -/
def settle (s : State) : State :=
  let s := sweepPools s
  (List.range s.regions.length).foldl settleRegion s

/-- A task enters ENDED from its context (R128, R129). -/
def endTask (s : State) (c : CtxId) (x : Ctx) : State :=
  let s := releaseSnap s x.region x.snap
  let s := vacate s c
  let s := modTask s x.task fun t =>
    { t with st := .ended, saved := none, scratch := .none, slots := .none, tiles := .none }
  settle (addTurn s (.arbiterDecision (dieOf c.core)))

/-- A task enters ENDED as aborted, by itself (R306, R307), with its report. -/
def refuseTask (s : State) (t : Task) : State := settle (poolReport (abortTask s t) t)

/-! ### Readiness (R307) -/

/-- A command that the hardware itself runs for a region, on its own behalf. -/
def unitCmd (s : State) (kind : CmdKind) (r task cluster : Nat) (c : CtxId) : Cmd :=
  let g := getRegion s r
  { blankCmd with
    kind := kind, cluster := cluster, c := c, task := task, region := r, asid := g.asid, owner := g.owner
    agent := .unit (.engine cluster), st := .active }

/-- What the pool's observation of a readiness word meets (R307): the word at its address, a word that reads empty, a walk or a
block on another tier that waits for the firmware, with the KIND of its record, or an end of the task, with the malformed
entry met. -/
inductive WordSeen
  | word (pa : Nat)
  | empty
  | parks (kind : Nat)
  | bad (entry : Option Nat)

/-- A readiness word observed as a READFULL in the region's ASID would read it (R307). -/
def seeWord (s : State) (r va : Nat) : WordSeen :=
  let k := unitCmd s .ready r 0 0 default
  match walk s k.asid va with
  | .park => .parks 3
  | .bad pa => .bad (some pa)
  | .leaf level e =>
    match (leafPlace s k va false level e).1 with
    | .ok (.hbm pa) => .word (pa / 8 * 8)
    | .ok .zeros => .empty
    | .ok _ => .bad none
    | .error (.park _ kind) => .parks kind
    | .error (.ends st) => if st = stAborted then .empty else .bad none
    | .error _ => .empty

/-- An observation that waits for the firmware (R255, R307): its fault record, whose CORE and CTX the manual leaves open for the
pool, from an engine of the task's die (log 124). -/
def parkWord (s : State) (t : Task) (i va kind : Nat) : State :=
  let (n, s) := fresh s
  let (id, s) := fresh s
  let w := (Config.freeWord n).toNat
  let k := { unitCmd s .ready t.region t.uid (12 * t.die) ⟨w % 768, w / 1024 % 2⟩ with id := id, target := i, recAddr := va }
  parkCmd { s with cmds := s.cmds ++ [k] } k va kind (getAsid s k.asid).gen

/-- Whether the observation of a task's word waits for the firmware. -/
def wordParked (s : State) (uid i : Nat) : Bool := s.cmds.any fun k => k.kind = .ready && k.task = uid && k.target = i

/-- The agents of a task's slice. -/
def sliceAgents (uid : Nat) : List Agent := [.ctx uid, .hart uid .loader, .hart uid .storer]

/-- The instance to which the fill of a word has published (R245, R289): that of the scope of its last FILL, which a plain write
after it leaves full. -/
def fillInst (recs : List WriteRec) : Option Inst := (recs.filterMap fun r => r.fill).getLast?

/-- A readiness word satisfied: the task's first slice sees what its fill released, and the word no older (R245). -/
def acquireFill (s : State) (uid pa : Nat) : State :=
  let recs := s.log.filter fun r => r.space = .hbm && r.word = pa / 8
  match recs.getLast? with
  | none => s
  | some r =>
    let ids := publishedTo s (fillInst recs).toList
    (sliceAgents uid).foldl (fun s a => giveFloor (giveSnap s a ids) a [r.id]) s

/-- A WAITING task whose used words are all satisfied is READY, and has then acquired for its first slice (R245, R289); so has a
task without a used word (log 83). -/
def makeReady (s : State) (uid : Nat) : State :=
  match getTask s uid with
  | some t =>
    if t.st = .waiting && t.ready.all fun w => w.2 then
      let s := addTurn (modTask s uid fun t => { t with st := .ready, since := s.now }) (.arbiterDecision t.die)
      (sliceAgents uid).foldl bringUp s
    else s
  | none => s

/-- One readiness word of a task observed. -/
def observeWord (s : State) (uid i : Nat) : State :=
  match getTask s uid with
  | none => s
  | some t =>
    match t.ready[i]? with
    | none => s
    | some (va, done) =>
      if t.st ≠ .waiting || done || wordParked s uid i then s
      else match seeWord s t.region va with
        | .bad entry => refuseTask (match entry with
          | some pa => emit s (.malformedEntry pa)
          | none => s) t
        | .parks kind => parkWord s t i va kind
        | .empty => s
        | .word pa =>
          if !isFull s pa then s
          else
            let s := acquireFill s uid pa
            makeReady (modTask s uid fun t => { t with ready := t.ready.set i (va, true) }) uid

/-- The firmware fails the observation of a word (R307): the task ends as aborted. -/
def failWord (s : State) (k : Cmd) : State :=
  let s := forgetCmd s k.id
  match getTask s k.task with
  | some t => if t.st = .waiting then refuseTask s t else s
  | none => s

/-- READINESS_WORD_FILLED (R307). -/
def execReadinessWordFilled (task word : Nat) (s : State) : Ans := .next (observeWord s task word)

/-- Every word of a task observed. -/
def observeTask (s : State) (uid : Nat) : State := (List.range 4).foldl (fun s i => observeWord s uid i) (makeReady s uid)

/-! ### Descriptors (R305, R306) -/

/-- The readiness words of a descriptor that are used. -/
def descWords (d : Nat) : List (Nat × Bool) :=
  ((List.range 4).map fun i => bits d (319 + 64 * i) (256 + 64 * i)).filterMap fun w =>
    if w.testBit 63 then some (w % 2 ^ 56, false) else none

/-- An entry of a descriptor outside its image or portion; 0xFFFF_FFFF is the header's. -/
def entryOut (e lim : Nat) : Bool := e ≠ noneWord && decide (lim ≤ e)

/-- The checks of R306 that the descriptor alone decides. -/
def descFails (h : BitVec 512) (d : Nat) : Bool :=
  let words := (List.range 4).map fun i => bits d (319 + 64 * i) (256 + 64 * i)
  bits d 767 704 = 0 || bits d 715 704 ≠ 0 || bits d 1023 768 ≠ 0 ||
    (words.any fun w => bits w 2 0 ≠ 0 || bits w 62 56 ≠ 0) ||
    entryOut (bits d 191 160) (hdrImglen h) || entryOut (bits d 223 192) (hdrLi h) || entryOut (bits d 255 224) (hdrSi h)

/-- The tasks of a die's pool (R33). -/
def poolSize (s : State) (die : Nat) : Nat := (s.tasks.filter fun t => t.die = die).length

/-- The lowest pool index free on a die. -/
def freeIndex (s : State) (die : Nat) : Nat :=
  let used := (s.tasks.filter fun t => t.die = die).map (·.index)
  ((List.range (used.length + 1)).find? fun i => !used.contains i).getD 0

/-- A task's slice budget from the one asked for (R131, R305). -/
def capBudget (g : Region) (n : Nat) : Nat := if n = 0 ∨ g.cbudget < n then g.cbudget else n

/-- A task entered in the pool of its region's die from a descriptor (R305): `path` is its place in the spawn tree, `va`
its descriptor's address, none for one taken from a scratchpad. -/
def enterTask (s : State) (r d : Nat) (va : Option Nat) (path : Option (List Nat)) (parent lsib : Word) : Nat × State :=
  let g := getRegion s r
  let (uid, s) := fresh s
  let index := freeIndex s g.die
  let t : Task :=
    { uid := uid, die := g.die, index := index, st := .waiting, aborted := false, region := r,
      descriptor := BitVec.ofNat 64 (va.getD 0),
      spawned := if va.isSome then none else some (BitVec.ofNat 32 (index % 4096 + g.die % 8 * 4096)),
      deadline := if bits d 127 64 = 0 then s.now + g.dloff else bits d 127 64,
      budget := capBudget g (bits d 159 128),
      entryC := BitVec.ofNat 32 (bits d 191 160), entryL := BitVec.ofNat 32 (bits d 223 192),
      entryS := BitVec.ofNat 32 (bits d 255 224),
      ready := descWords d, vlist := bits d 575 512 % 2 ^ 56, vlsize := bits d 607 576 / 512 * 512, vlused := [],
      parent := parent, lsib := lsib, fchild := BitVec.ofNat 32 noneWord, lastChild := BitVec.ofNat 32 noneWord,
      save := bits d 767 704 % 2 ^ 56, path := path.getD [uid], spawns := 0, since := s.now, placedBefore := false,
      preempted := false, saveDue := 0, placesAt := none, run := 0, yieldPc := 0, saved := none,
      scratch := .none, slots := .none, tiles := .none, hdr := g.hdr, image := g.image }
  let s := { s with tasks := s.tasks ++ [t] }
  (uid, if descFails g.hdr d then refuseTask s t else observeTask s uid)

/-! ### Submission (R125, R239) -/

/-- The outcome of a submission: PRIVILEGED, a full pool, or the child's handle. -/
inductive Submitted
  | privileged
  | full (die : Nat)
  | child (s : State) (handle : Word)

/-- The region that a child's descriptor names: the spawner's own or an admitted descendant. -/
def childRegion (s : State) (r va : Nat) : Option Nat :=
  if (getRegion s r).rcb = va then some r
  else (subtree s r).reverse.find? fun d => (getRegion s d).rcb = va && (getRegion s d).st = .admitted

/-- A child submitted by a task's slice in a context: its links (R125), its place (R241, R319), and the end of the
spawner's current pieces. -/
def submitTask (s : State) (c : CtxId) (x : Ctx) (desc : List Byte) : Submitted :=
  let d := natOfBytes desc
  match childRegion s x.region (bits d 63 0) with
  | none => .privileged
  | some r =>
    let die := (getRegion s r).die
    if 4096 ≤ poolSize s die then .full die
    else match getTask s x.task with
      | none => .privileged
      | some t =>
        let none' := BitVec.ofNat 32 noneWord
        let h := BitVec.ofNat 32 (freeIndex s die % 4096 + die % 8 * 4096)
        let s := endPieces s t c true
        let s := modTask s t.uid fun t =>
          { t with spawns := t.spawns + 1, lastChild := h, fchild := if t.fchild = none' then h else t.fchild }
        .child (enterTask s r d none (some (childPath t t.spawns)) (handleOf t) t.lastChild).2 h

end Sys2Proof.Machine
end

