-- ==== Sys2Proof/Machine/Remote.lean ====
section
/-! DEFINITION. This package as the target of other packages' accesses (R262): frames, blocks, full/empty words, atomic
elements and windows (R137, R146, R150 to R153, R163, R269, R274), queries (R336), and commands for sequences homed here or
blocks owned here (R324, R328, R333, R335). -/

namespace Sys2Proof.Machine

/-- What an access meets here: done with its answer, ended with a status, or waiting (R146, R153, R269). -/
inductive Served
  | done (s : State) (data : List Byte) (ref : Option DWord) (guard : Option Word)
  | ends (s : State) (status : Nat)
  | waits

/-- An access done that answers with bytes alone. -/
def Served.plain (s : State) (data : List Byte) : Served := .done s data none none

/-- The writes made between two states kept as those of an access or `copyr` of another package (R284). -/
def noteFar (src num : Nat) (s t : State) : State :=
  let ids := (t.log.drop s.log.length).map fun r => r.id
  if ids.isEmpty then t else { t with farWrites := t.farWrites ++ [(src, num, ids)] }

/-- The earlier writes of a package that have been published to the domain since (R284, R295). -/
def releaseFar (s : State) (src : Nat) (nums : List Nat) : State :=
  let mine := fun (f : Nat × Nat × List Nat) => f.1 = src && nums.contains f.2.1
  let ids := (s.farWrites.filter mine).flatMap fun f => f.2.2
  publish { s with farWrites := s.farWrites.filter fun f => !mine f } ids [.domain]

/-- Bytes written at a physical address for another package. -/
def farPut (s : State) (src pa : Nat) (bs : List Byte) : State := writeAs s (.unit (.peer src)) .hbm pa bs

/-- The physical address of a byte of a block for an owner (R269, R274): a write reaching a shared block goes to a block of
its own, whose reference the answer carries. -/
inductive FarBlock
  | at' (pa : Nat) (s : State) (ref : Option DWord)
  | bad (status : Nat)
  | wait

/-- A block found for an access of its owner; one that is being compacted or stands on another tier is waited for. -/
def farBlock (s : State) (owner g off : Nat) (write : Bool) : FarBlock :=
  let e := gbnEntry s g
  if !geLive e || geOwner e ≠ owner then .bad stProtection
  else if geCmp e || s.tiered.any fun t => t.1 = g then .wait
  else if !write then .at' (geFrame e + off) s none
  else if geShr e then
    match dupBlock s owner e with
    | none => .bad stNoFrame
    | some (n, pa, s) => .at' (pa + off) (touchBlock (releaseGbn s g) n) (some (BitVec.ofNat 64 (mkRef s.pkg n)))
  else .at' (geFrame e + off) (touchBlock s g) none

/-- The physical address that a word or element access names. -/
def farAt (s : State) (block : Option (Nat × Nat)) (a : Nat) (write : Bool) : FarBlock :=
  match block with
  | some (owner, g) => farBlock s owner g a write
  | none => if stackOk a then .at' a s none else .bad stProtection

/-- A full/empty word (R153): 0 FILL, 1 DRAIN, 2 READFULL, 3 EMPTY, 4 its bit. -/
def serveWord (s : State) (src : Nat) (block : Option (Nat × Nat)) (a mode : Nat) (bs : List Byte) : Served :=
  match farAt s block a (mode = 0 || mode = 3) with
  | .bad st => .ends s st
  | .wait => .waits
  | .at' pa t ref =>
    let w := pa / 8 * 8
    let full := isFull t w
    let take := fun (t : State) => readNewest t (.unit (.peer src)) .hbm w 8
    match mode with
    | 0 => if full then .waits else .done (setFull (markFill (farPut t src w (bs.take 8)) w .domain) w true) [] ref none
    | 1 => if full then (let (bs, t) := take t; .plain (setFull t w false) bs) else .waits
    | 2 => if full then (let (bs, t) := take t; .plain t bs) else .waits
    | 3 => .done (setFull t w false) [] ref none
    | _ => .plain (take t).2 [if full then 1 else 0]

/-- An atomic element (R152, R293): its old value. -/
def serveAtomic (s : State) (src : Nat) (block : Option (Nat × Nat)) (a mode esize : Nat) (arg : List Byte) : Served :=
  match farAt s block a true with
  | .bad st => .ends s st
  | .wait => .waits
  | .at' pa t ref =>
    let n := 2 ^ esize
    let (old, t) := readNewest t (.unit (.peer src)) .hbm pa n
    let new := atomValue (bits mode 7 0) (8 * n) (natOfBytes old) (natOfBytes (arg.drop (arg.length - n)))
      (natOfBytes (arg.take n))
    .done (farPut t src pa (bytesOf n new)) old ref none

/-! ### Windows (R146, R150, R151, R163) -/

/-- The context of a core that a `copyr` of an owner reaches (R146). -/
def ownerCtx (s : State) (owner a : Nat) : Option (CtxId × Ctx) :=
  let at' := fun (n : Nat) => match getCtx s ⟨winCore a, n⟩ with
    | some x => if !beingPlaced x && (getRegion s x.region).owner = owner then some ((⟨winCore a, n⟩ : CtxId), x) else none
    | none => none
  if a.testBit 26 then (at' 1).orElse fun _ => at' 0 else (at' 0).orElse fun _ => at' 1

/-- The barrier that a `copyr`'s BAR names at its target: none within where it names none, none where it fails its checks. -/
def farKey (s : State) (c : CtxId) (x : Ctx) (bar : Nat) : Option (Option (Bool × Nat × Nat)) :=
  if bar = 0xFFFF then some none else (barKey s x.region c.core bar).map some

/-- The arrival of a `copyr` here: it publishes the copy's writes to the barrier's instance (R163, R285). -/
def farArrive (s : State) (src copy : Nat) (key : Bool × Nat × Nat) : State :=
  let ids := (s.farWrites.filter fun f => f.1 = src && f.2.1 = copy).flatMap fun f => f.2.2
  arriveAt (publish s ids [barInst key]) key

/-- The checks of a `copyr` before any byte moves: its target's slice, BAR, the extent of its traversal. One that fails its
window's checks still arrives at a valid barrier; for one that passes, the barrier is kept. -/
def serveCheck (s : State) (src copy owner a : Nat) (lo hi : Int) (len bar : Nat) : Served :=
  match ownerCtx s owner a with
  | none => if wrongOwner s owner (winCore a) then .ends s stProtection else .waits
  | some (c, x) =>
    match farKey s c x bar with
    | none => .ends s stProtection
    | some key =>
      if !windowFits x a (lo, hi) len then
        .ends (match key with
          | some k => farArrive s src copy k
          | none => s) stProtection
      else .plain { s with farBars := s.farBars ++ (key.map fun k => (src, copy, k)).toList } []

/-- Bytes written to a window for another package. -/
def farWindow (s : State) (src : Nat) (c : CtxId) (x : Ctx) (kind off : Nat) (bs : List Byte) : State :=
  match kind with
  | 0 => spWrite s (.unit (.peer src)) c.core x off bs
  | 1 => writeAs s (.unit (.peer src)) (.opmem c.core) (8192 * x.slotBase + off) bs
  | _ => writeAs s (.unit (.peer src)) (.acc c.core) (16384 * x.tileBase + off) bs

/-- Bytes of a `copyr` for a window here: an entry of a push waits for room; a guard granule that is reached is named in the answer
(R137). -/
def serveWindow (s : State) (src owner a : Nat) (bs : List Byte) : Served :=
  match ownerCtx s owner a with
  | none => if wrongOwner s owner (winCore a) then .ends s stProtection else .waits
  | some (c, x) =>
    if winKind a = 3 then
      let n := bits a 4 0
      if hdrVq x.hdr ≤ n then .ends s stProtection
      else if !hasRoom x .v n then .waits
      else
        let (s, x) := landVec s x n bs
        .plain (setCtx s c x) []
    else if winOff a + bs.length ≤ allotment x (winKind a) then
      let guard := if winKind a = 0 then (firstFault x (winOff a) bs.length).map fun f => granuleInfo x f.2 else none
      .done (farWindow s src c x (winKind a) (winOff a) bs) [] none guard
    else .ends s stProtection

/-- The one arrival of a `copyr` after its last write (R151, R163), at the barrier that its checks found; of one refused for its
descriptor, at the barrier that BAR names there now. -/
def serveArrival (s : State) (src copy owner a bar : Nat) : State :=
  let kept := s.farBars.find? fun f => f.1 = src && f.2.1 = copy
  let s := { s with farBars := s.farBars.filter fun f => !(f.1 = src && f.2.1 = copy) }
  match kept with
  | some f => farArrive s src copy f.2.2
  | none =>
    match (ownerCtx s owner a).bind fun p => (farKey s p.1 p.2 bar).join with
    | some k => farArrive s src copy k
    | none => s

/-! ### Key-value state -/

/-- A key-value command for a sequence homed here arrives (R328): it answers when it ends. -/
def serveCommand (s : State) (r : RemoteReq) (code asid owner : Nat) (record : BitVec 512) (rows : List Byte) : State :=
  let kind := if code = 0x23 then CmdKind.kvap else if code = 0x24 then .kvmsk else .kvtr
  let k := { unitCmd s kind s.regions.length 0 96 ⟨0, 0⟩ with
    asid := asid, owner := owner, agent := .unit (.peer r.src), record := record, data := rows, target := r.src + 1,
    recAddr := r.num, st := .queued, checked := true }
  (sendCmd s k).2

/-- Whether another package's access has not been taken up yet. -/
def notTaken (s : State) (src num : Nat) : Bool :=
  !s.seenPackets.contains (src, num) || s.farWaits.any fun w => w.2.src = src && w.2.num = num

/-- A new block for an owner (R270): the answer holds its reference. -/
def serveNew (s : State) (owner base valid : Nat) : Served :=
  match takeBlock s owner with
  | none => .ends s stNoFrame
  | some (g, pa, s) =>
    let e := putBits (putBits (newGbnEntry pa owner) 55 40 valid) 103 64 base
    .plain (setGbn s g e) (bytesOf 8 (mkRef s.pkg g))

/-- Slots of a block's entry set and cleared, its base replaced; no longer full of valid slots, it leaves the index. -/
def serveEntry (s : State) (src g set clear : Nat) (base : Option Nat) : State :=
  let e := gbnEntry s g
  let valid := (geValid e ||| set) &&& (0xFFFF - clear % 2 ^ 16)
  let s := putValid s (.unit (.peer src)) g (putBits (putBits e 55 40 valid) 103 64 (base.getD (geBase e)))
  if valid % 2 ^ 16 = 0xFFFF then s else dedupDrop s g

/-- A reference more to a block here (R275): a copy's own reference where the count was full. -/
def serveShare (s : State) (g : Nat) : Served :=
  if !geLive (gbnEntry s g) then .ends s stProtection
  else match shareBlock s g with
    | none => .ends s stNoFrame
    | some (n, s) => .done s [] (if n = g then none else some (BitVec.ofNat 64 (mkRef s.pkg n))) none

/-- A row written by the other holder of it (R324): in the home's table, or in the segment here. -/
def serveRow (s : State) (seq b : Nat) (ref : DWord) : State :=
  settleStripe (match getSeq s seq with
    | some q => if b < tableRows q then hbmPut s (rowAddr q b) 8 ref.toNat else s
    | none => putSegmentRow s seq b ref) (some (seq, b))

/-! ### Page frames that leaves of other packages share (R274, R275) -/

/-- A page frame here mapped by one leaf of another package more or less. -/
def serveFrame (s : State) (pa level : Nat) (more : Bool) : State :=
  let f := getFrame s pa
  if more then setFrame s pa { f with shares := f.shares + 1 } else loseLeaf s (pa, pageSize level)

/-- The copy-on-write of a 64 KiB frame here for another package's leaf (R274): 0 alone where no other leaf maps it, else 1, its
bytes and its full/empty bits, and one leaf less maps it. -/
def serveCopy (s : State) (pa : Nat) (room : Bool) : Served :=
  let f := getFrame s pa
  if f.shares ≤ 1 then .plain s [0]
  else if !room then .ends s stNoFrame
  else
    let here := (List.range 8192).filter fun i => isFull s (pa + 8 * i)
    let bits := bytesOf 1024 ((here.map fun i => 2 ^ i).foldl (· + ·) 0)
    .plain (setFrame s pa { f with shares := f.shares - 1 }) (1 :: rawRead s .hbm pa (2 ^ 16) ++ bits)

/-! ### Accesses (R262) -/

/-- One access as it stands (R262). A read returns what has been published to the domain as it arrives, or later writes. -/
def serve (s : State) (r : RemoteReq) : Served :=
  let peer := Agent.unit (.peer r.src)
  match r.what with
  | .writePa a bs => if stackOk a then .plain (farPut s r.src a bs) [] else .ends s stProtection
  | .readPa a n =>
    if stackOk a then
      (let (bs, s) := readAs (bringUp s peer) peer .hbm a n
       .plain s bs)
    else .ends s stProtection
  | .block owner g off bs n write =>
    (match farBlock s owner g off write with
     | .bad st => .ends s st
     | .wait => .waits
     | .at' pa t ref =>
       if write then .done (farPut t r.src pa bs) [] ref none
       else
         let (bs, t) := readAs (bringUp t peer) peer .hbm pa n
         .plain t bs)
  | .word block a mode bs => serveWord s r.src block a mode bs
  | .atomic block a mode esize arg => serveAtomic s r.src block a mode esize arg
  | .copyrCheck copy owner a lo hi len bar => serveCheck s r.src copy owner a lo hi len bar
  | .copyr _ owner a bs => serveWindow s r.src owner a bs
  | .copyrEnd copy owner a bar => .plain (serveArrival s r.src copy owner a bar) []
  | .query m => .plain (serveQuery s m) []
  | .command code asid owner record rows after =>
    if after.any (notTaken s r.src) then .waits else .plain (serveCommand s r code asid owner record rows) []
  | .blockNew owner base valid => serveNew s owner base valid
  | .blockInfo g => .plain s (infoBytes (gbnEntry s g))
  | .blockCmp g cmp => .plain (setGbn s g (putBits (gbnEntry s g) 206 206 cmp)) []
  | .blockEntry g set clear base => .plain (serveEntry s r.src g set clear base) []
  | .blockShare g => serveShare s g
  | .blockRelease g => if geLive (gbnEntry s g) then .plain (releaseGbn s g) [] else .ends s stProtection
  | .segmentRow seq b ref => .plain (serveRow s seq b ref) []
  | .sharePrefix owner span nb toks refs =>
    (match sharePrefixHere s owner span nb toks refs with
     | some (won, s) => .plain s (shareBytes won)
     | none => .ends s stNoFrame)
  | .frameShare pa level more => if stackOk pa then .plain (serveFrame s pa level more) [] else .ends s stProtection
  | .frameCopy pa room => if stackOk pa then serveCopy s pa room else .ends s stProtection

/-- Whether the answer of an access comes later, from the command that it starts. -/
def answersLater (w : RemoteWhat) : Bool :=
  match w with
  | .command .. => true
  | _ => false

/-- The number under which an access's writes are kept: a `copyr`'s for its runs. -/
def writesUnder (r : RemoteReq) : Nat :=
  match r.what with
  | .copyr copy _ _ _ => copy
  | _ => r.num

/-- The window of a `copyr` that waits for its target. -/
def awaitedWindow (w : RemoteWhat) : Option (Nat × Nat) :=
  match w with
  | .copyrCheck _ owner a _ _ _ _ | .copyr _ owner a _ => some (owner, a)
  | _ => none

/-- An access tried, its answer sent, or its wait begun or continued. A `copyr` gives up 65,536 cycles after its target slice was
last there (R146, R164). -/
def tryServe (s : State) (since : Nat) (r : RemoteReq) : State :=
  match serve s r with
  | .done t bs ref guard =>
    let t := noteFar r.src (writesUnder r) s t
    if answersLater r.what then t else answerTo t r.src r.num (.done bs ref guard)
  | .ends t st => answerTo t r.src r.num (.ends st)
  | .waits =>
    match awaitedWindow r.what with
    | some (owner, a) =>
      if (ownerCtx s owner a).isSome then { s with farWaits := s.farWaits ++ [(s.now, r)] }
      else if since + 65536 ≤ s.now then answerTo s r.src r.num (.ends stAborted)
      else { s with farWaits := s.farWaits ++ [(since, r)] }
    | none => { s with farWaits := s.farWaits ++ [(since, r)] }

/-- The accesses that wait here tried again, in the order they came. -/
def pollFar (s : State) : State :=
  s.farWaits.foldl (fun s w => tryServe { s with farWaits := s.farWaits.drop 1 } w.1 w.2) s

/-- REMOTE_ACCESS (R262, R360): a duplicate is discarded by its number; another incarnation than this package's is refused. -/
def execRemoteAccess (r : RemoteReq) (s : State) : Ans :=
  .next (
    if !s.up || s.seenPackets.contains (r.src, r.num) then s
    else
      let s := { s with seenPackets := s.seenPackets ++ [(r.src, r.num)] }
      if r.inc ≠ s.incarnation then answerTo s r.src r.num .refused
      else tryServe (releaseFar s r.src r.released) s.now r)

/-- INCARNATION_PROBE (R262): the reply is a packet of its own (R360). -/
def execIncarnationProbe (pkg : Arrived Unit) (s : State) : Ans :=
  .next (takePacket s pkg.src pkg.num fun s => (sendMessage s pkg.src fun num => .probeReply pkg.src num s.incarnation).2)

end Sys2Proof.Machine
end

