-- ==== Sys2Proof/WellFormed.lean ====
section
/-! DEFINITION. Which terms of `Instr` stand for an instruction the manual gives: slot instructions whose fields pass
the checks of R67 to R75 and belong to their row, hart instructions whose immediates fit (R234, R239), events whose
numbers exist (R1, R21, R26). -/

namespace Sys2Proof

open Machine

/-- A context that exists (R21, R26). -/
def CtxId.wf (c : CtxId) : Bool := decide (c.core < 768) && decide (c.ctx < 2)

/-- The instruction that an opcode with fields stands for (R93 to R97). -/
def Machine.SlotForm.instr (x : SlotForm) : Option Instr :=
  match x with
  | .c o f => cInstr o f
  | .t o f => tInstr o f
  | .v o f => vInstr o f
  | .m o f => mInstr o f
  | .k o f => kInstr o f

/-- The row that a word of this instruction decodes to: an opcode that the table gives several rows stands for the
first where a record or an operand value, not the word, tells them apart (R153, R331, R239). -/
def canon (i : Instr) : Instr :=
  match i with
  | .copyfDrain f | .copyfReadfull f | .copyfEmpty f => .copyfFill f
  | .kvtrCompact f | .kvtrTrim f | .kvtrPshare f => .kvtrMove f
  | .lbarWait a b => .lbarArrive a b
  | .hartDeviceRegisterWrite op len => .hartInstruction op len
  | i => i

/-- A signed immediate of w bits, sign-extended to a word. -/
def fitsS (w : Nat) (imm : Word) : Bool :=
  decide (-(2 ^ (w - 1) : Int) ≤ imm.toInt) && decide (imm.toInt < 2 ^ (w - 1))

/-- The register-immediate operations of RV32I with Zbb's `rori`, and their immediates. -/
def immFits (k : RvOp) (imm : Word) : Bool :=
  match k with
  | .add | .slt | .sltu | .xor | .or | .and => fitsS 12 imm
  | .sll | .srl | .sra | .ror => decide (imm.toNat < 32)
  | _ => false

/-- An ordinary hart instruction whose immediates the encodings of RV32I hold (R234). -/
def Rv.wf (op : Rv) : Bool :=
  match op with
  | .lui _ imm | .auipc _ imm => imm.toNat % 4096 = 0
  | .jal _ off => fitsS 21 off && off.toNat % 2 = 0
  | .jalr _ _ imm => fitsS 12 imm
  | .branch _ _ _ off => fitsS 13 off && off.toNat % 2 = 0
  | .load _ _ _ imm => fitsS 12 imm
  | .store _ _ _ imm => fitsS 12 imm
  | .opImm k _ _ imm => immFits k imm
  | .op .. | .unary .. | .fence | .wfi | .csr .. => true
  | .illegal => false

/-- Whether a term is a well-formed instruction or event. -/
def Instr.wf (i : Instr) : Bool :=
  match formOf i with
  | some x => x.legal && x.instr = some (canon i)
  | none =>
    match i with
    | .bundleIssue c | .resultLanding c _ | .fmtWriteApply c | .tagWaitEnd c | .barrierWaitEnd c
    | .pairHalfArrival c | .pairStepTimeout c _ | .yieldSliceEnd c | .tendComplete c | .haltComplete c
    | .spawnPoolWaitEnd c | .spawnHandoverEnd c | .stateRestoreComplete c | .preemptHalt c | .budgetTrap c
    | .watchdog c | .boundaryOverrun c => c.wf
    | .mStep core | .coreGating core | .scratchClearComplete core => decide (core < 768)
    | .hartWaitEnd h => h.c.wf
    | .hartInstruction op len | .hartDeviceRegisterWrite op len => op.wf && (len = 2 || len = 4)
    | .arbiterDecision die => decide (die < 8)
    | .waveStart w => decide (w < 48)
    | .linkTrainingWave w => decide (w < 9)
    | .flitReceive l _ _ _ | .linkRetrain l | .linkRetrainEnd l _ => decide (l < 36)
    | .hbmRefresh k => decide (k < 12)
    | .incarnationProbeReply p inc => decide (p.src < 576) && inc ≠ 0
    | .incarnationProbe p => decide (p.src < 576)
    | .incarnationProbeTimeout p | .targetResetNotice p | .targetPowerDownNotice p
    | .packetAck p _ => decide (p < 576)
    | .translationInstall asid va level _ => decide (asid < 4096) && decide (va < 2 ^ 56) && decide (level < 5)
    | .generationRaiseComplete asid => decide (asid < 4096)
    | .pinClear g => decide (g < 2 ^ 30)
    | .partitionRecordApply p => decide (p < 64)
    | _ => true

end Sys2Proof
end

