-- ==== Sys2Proof/Decode.lean ====
section
/-! DEFINITION. The decoder, total on any words: slot instructions (R66 to R75, R93 to R97), templates and bundles
(R62 to R65), hart instructions (R234, R239). After it the encoder, from the same tables. -/

namespace Sys2Proof

open Machine

/-- Why bytes are no bundle (R77). -/
inductive Reject
  /-- ILLEGAL_BUNDLE: a slot state 0b11, a port code 6 or 7, a stop bit out of place. Safe: the trap is taken. -/
  | illegalBundle
  /-- ILLEGAL_OPCODE in a slot, by its number in TCAUSE (R91). Safe: the trap is taken. -/
  | illegalOpcode (slot : Nat)
  /-- PORT_MISMATCH in a slot. Safe: the trap is taken. -/
  | portMismatch (slot : Nat)
  /-- Fewer parcels than the template marks present. Safe: the fetch supplies them all (R62). -/
  | short
deriving DecidableEq, Repr, Inhabited

/-! ### Slot instructions -/

/-- The fields of a C-slot word (R66, R69). -/
def cFieldsOf (w : DWord) : CFields :=
  { pred := w.extractLsb' 53 3, psense := w.getLsbD 52, dst := w.extractLsb' 44 8, srcA := w.extractLsb' 36 8,
    srcB := w.extractLsb' 28 8, imm := w.extractLsb' 4 24, mod := w.extractLsb' 1 3 }

/-- The fields of a T-slot word (R66, R69). -/
def tFieldsOf (w : DWord) : TFields :=
  { pred := w.extractLsb' 53 3, psense := w.getLsbD 52, srcA := w.extractLsb' 44 8, srcB := w.extractLsb' 36 8,
    dst := w.extractLsb' 28 8, gidx := w.extractLsb' 24 4, imm := w.extractLsb' 4 20, mod := w.extractLsb' 1 3 }

/-- The fields of a V-slot or K-slot word (R66, R69, R72). -/
def vFieldsOf (w : DWord) : VFields :=
  { pred := w.extractLsb' 53 3, psense := w.getLsbD 52, srcA := w.extractLsb' 44 8, srcB := w.extractLsb' 36 8,
    srcC := w.extractLsb' 28 8, dst := w.extractLsb' 20 8, type := w.extractLsb' 16 4, stype := w.extractLsb' 12 4,
    imm8 := w.extractLsb' 4 8 }

/-- The fields of an M-slot word (R66, R69, R75). -/
def mFieldsOf (w : DWord) : MFields :=
  { pred := w.extractLsb' 53 3, psense := w.getLsbD 52, abase := w.extractLsb' 48 4, bbase := w.extractLsb' 44 4,
    acc := w.extractLsb' 41 3, rpt := w.getLsbD 40, rcount := w.extractLsb' 28 12, qsrc := w.extractLsb' 20 8,
    zsrc := w.extractLsb' 17 3, cnt5 := w.extractLsb' 12 5 }

/-- The reserved bits of a slot's words (R69, R75): zero in a legal instruction. -/
def reservedBits (sl : Slot) (w : DWord) : Nat :=
  match sl with
  | .c | .t => 0
  | .v | .k => (w.extractLsb' 1 3).toNat
  | .m => (w.extractLsb' 1 11).toNat

/-- A slot word as an opcode with its fields. -/
def slotForm (sl : Slot) (w : DWord) : SlotForm :=
  let opc := (w.extractLsb' 56 8).toNat
  match sl with
  | .c => .c opc (cFieldsOf w)
  | .t => .t opc (tFieldsOf w)
  | .v => .v opc (vFieldsOf w)
  | .m => .m opc (mFieldsOf w)
  | .k => .k opc (vFieldsOf w)

/-- The instruction a slot word stands for, whatever its stop bit; none takes ILLEGAL_OPCODE (R77). -/
def decodeSlot (sl : Slot) (w : DWord) : Option Instr :=
  let x := slotForm sl w
  if reservedBits sl w = 0 ∧ x.legal then x.instr else none

/-! ### Bundles -/

/-- The slots in the order of R62. -/
def slotOrder : List Slot := [.c, .t, .v, .m, .k]

/-- A slot's number in TCAUSE (R91) and in the port codes, which are one more (R63). -/
def slotNumber (sl : Slot) : Nat :=
  match sl with
  | .c => 0
  | .t => 1
  | .v => 2
  | .m => 3
  | .k => 4

/-- A slot's 2-bit state in a template (R63). -/
def templateState (t : Word) (sl : Slot) : Nat := field t (27 - 2 * slotNumber sl) (26 - 2 * slotNumber sl)

/-- The present slots of a template, in order (R64). -/
def presentSlots (t : Word) : List Slot := slotOrder.filter fun sl => templateState t sl = 2

/-- REP of a template. -/
def templateRep (t : Word) : Nat := field t 31 28

/-- The ports a template allots to a slot (R63). -/
def portsFor (t : Word) (sl : Slot) : Nat :=
  ((List.range 6).filter fun n => field t (3 * n + 2) (3 * n) = slotNumber sl + 1).length

/-- The template part of R77's first row: a state 0b11 or a port code 6 or 7. -/
def templateIllegal (t : Word) : Bool :=
  (slotOrder.any fun sl => templateState t sl = 3) || ((List.range 6).any fun n => decide (6 ≤ field t (3 * n + 2) (3 * n)))

/-- The 64-bit slot words of the parcels after a template. -/
def slotWords : List Word → List DWord
  | lo :: hi :: rest => (hi ++ lo) :: slotWords rest
  | _ => []

/-- The stop bits of R65: set on the last word and on no earlier one. -/
def stopsOk (ws : List DWord) : Bool :=
  match ws with
  | [] => true
  | [w] => w.getLsbD 0
  | w :: rest => !w.getLsbD 0 && stopsOk rest

/-- The instructions of the present slots, or the first slot whose word is no instruction. -/
def decodeSlots : List (Slot × DWord) → Except Reject (List (Slot × Instr))
  | [] => .ok []
  | (sl, w) :: rest =>
    match decodeSlot sl w with
    | none => .error (.illegalOpcode (slotNumber sl))
    | some i =>
      match decodeSlots rest with
      | .ok is => .ok ((sl, i) :: is)
      | .error e => .error e

/-- The instructions of a bundle: the checks of R77's first two rows that the stream alone decides. -/
def decodeBundle (t : Word) (parcels : List Word) : Except Reject (List (Slot × Instr)) :=
  let ws := slotWords parcels
  let present := presentSlots t
  if templateIllegal t then .error .illegalBundle
  else if ws.length < present.length then .error .short
  else if !stopsOk (ws.take present.length) then .error .illegalBundle
  else decodeSlots (present.zip ws)

/-! ### Hart instructions -/

/-- Bits [hi:lo] of an instruction word as a 32-bit word. -/
def wbits (w : Word) (hi lo : Nat) : Word := (w >>> lo) &&& BitVec.ofNat 32 (2 ^ (hi + 1 - lo) - 1)

/-- A register field. -/
def wreg (w : Word) (lo : Nat) : BitVec 5 := w.extractLsb' lo 5

/-- The I-type immediate. -/
def immI (w : Word) : Word := (w.extractLsb' 20 12).signExtend 32

/-- The S-type immediate. -/
def immSt (w : Word) : Word := (w.extractLsb' 25 7 ++ w.extractLsb' 7 5).signExtend 32

/-- The B-type immediate. -/
def immB (w : Word) : Word :=
  (w.extractLsb' 31 1 ++ w.extractLsb' 7 1 ++ w.extractLsb' 25 6 ++ w.extractLsb' 8 4 ++ (0 : BitVec 1)).signExtend 32

/-- The J-type immediate. -/
def immJ (w : Word) : Word :=
  (w.extractLsb' 31 1 ++ w.extractLsb' 12 8 ++ w.extractLsb' 20 1 ++ w.extractLsb' 21 10 ++ (0 : BitVec 1)).signExtend 32

/-- The register-register operations by funct7 and funct3 (RV32IM, Zba, Zbb). -/
def rvOpOf (f7 f3 : Nat) : Option RvOp :=
  match f7, f3 with
  | 0, 0 => some .add | 0x20, 0 => some .sub | 0, 1 => some .sll | 0, 2 => some .slt | 0, 3 => some .sltu
  | 0, 4 => some .xor | 0, 5 => some .srl | 0x20, 5 => some .sra | 0, 6 => some .or | 0, 7 => some .and
  | 1, 0 => some .mul | 1, 1 => some .mulh | 1, 2 => some .mulhsu | 1, 3 => some .mulhu
  | 1, 4 => some .div | 1, 5 => some .divu | 1, 6 => some .rem | 1, 7 => some .remu
  | 0x10, 2 => some .sh1add | 0x10, 4 => some .sh2add | 0x10, 6 => some .sh3add
  | 0x20, 7 => some .andn | 0x20, 6 => some .orn | 0x20, 4 => some .xnor
  | 5, 4 => some .min | 5, 5 => some .minu | 5, 6 => some .max | 5, 7 => some .maxu
  | 0x30, 1 => some .rol | 0x30, 5 => some .ror
  | _, _ => none

/-- The funct7 and funct3 of a register-register operation. -/
def rvOpCode (k : RvOp) : Nat × Nat :=
  match k with
  | .add => (0, 0) | .sub => (0x20, 0) | .sll => (0, 1) | .slt => (0, 2) | .sltu => (0, 3)
  | .xor => (0, 4) | .srl => (0, 5) | .sra => (0x20, 5) | .or => (0, 6) | .and => (0, 7)
  | .mul => (1, 0) | .mulh => (1, 1) | .mulhsu => (1, 2) | .mulhu => (1, 3)
  | .div => (1, 4) | .divu => (1, 5) | .rem => (1, 6) | .remu => (1, 7)
  | .sh1add => (0x10, 2) | .sh2add => (0x10, 4) | .sh3add => (0x10, 6)
  | .andn => (0x20, 7) | .orn => (0x20, 6) | .xnor => (0x20, 4)
  | .min => (5, 4) | .minu => (5, 5) | .max => (5, 6) | .maxu => (5, 7)
  | .rol => (0x30, 1) | .ror => (0x30, 5)

/-- The register-immediate form of a word. -/
def decodeOpImm (w : Word) : Rv :=
  let rd := wreg w 7
  let rs := wreg w 15
  let f7 := (w.extractLsb' 25 7).toNat
  let sh := wbits w 24 20
  let imm12 := (w.extractLsb' 20 12).toNat
  match (w.extractLsb' 12 3).toNat with
  | 0 => .opImm .add rd rs (immI w)
  | 2 => .opImm .slt rd rs (immI w)
  | 3 => .opImm .sltu rd rs (immI w)
  | 4 => .opImm .xor rd rs (immI w)
  | 6 => .opImm .or rd rs (immI w)
  | 7 => .opImm .and rd rs (immI w)
  | 1 =>
    if f7 = 0 then .opImm .sll rd rs sh
    else match imm12 with
      | 0x600 => .unary .clz rd rs
      | 0x601 => .unary .ctz rd rs
      | 0x602 => .unary .cpop rd rs
      | 0x604 => .unary .sextB rd rs
      | 0x605 => .unary .sextH rd rs
      | _ => .illegal
  | _ =>
    match f7 with
    | 0 => .opImm .srl rd rs sh
    | 0x20 => .opImm .sra rd rs sh
    | 0x30 => .opImm .ror rd rs sh
    | _ => match imm12 with
      | 0x287 => .unary .orcB rd rs
      | 0x698 => .unary .rev8 rd rs
      | _ => .illegal

/-- The register-register form of a word. -/
def decodeOp (w : Word) : Rv :=
  let f7 := (w.extractLsb' 25 7).toNat
  let f3 := (w.extractLsb' 12 3).toNat
  match rvOpOf f7 f3 with
  | some k => .op k (wreg w 7) (wreg w 15) (wreg w 20)
  | none => if f7 = 4 ∧ f3 = 4 ∧ wreg w 20 = 0 then .unary .zextH (wreg w 7) (wreg w 15) else .illegal

/-- The load form of a word. -/
def decodeLoad (w : Word) : Rv :=
  let k := match (w.extractLsb' 12 3).toNat with
    | 0 => some RvLoad.lb
    | 1 => some RvLoad.lh
    | 2 => some RvLoad.lw
    | 4 => some RvLoad.lbu
    | 5 => some RvLoad.lhu
    | _ => none
  match k with
  | some k => .load k (wreg w 7) (wreg w 15) (immI w)
  | none => .illegal

/-- The store form of a word. -/
def decodeStore (w : Word) : Rv :=
  match (w.extractLsb' 12 3).toNat with
  | 0 => .store .sb (wreg w 15) (wreg w 20) (immSt w)
  | 1 => .store .sh (wreg w 15) (wreg w 20) (immSt w)
  | 2 => .store .sw (wreg w 15) (wreg w 20) (immSt w)
  | _ => .illegal

/-- The branch form of a word. -/
def decodeBranch (w : Word) : Rv :=
  let k := match (w.extractLsb' 12 3).toNat with
    | 0 => some RvBr.eq
    | 1 => some RvBr.ne
    | 4 => some RvBr.lt
    | 5 => some RvBr.ge
    | 6 => some RvBr.ltu
    | 7 => some RvBr.geu
    | _ => none
  match k with
  | some k => .branch k (wreg w 15) (wreg w 20) (immB w)
  | none => .illegal

/-- The SYSTEM form of a word (R234, R235): `mret` is illegal. -/
def decodeSystem (w : Word) : Instr :=
  let num : BitVec 12 := w.extractLsb' 20 12
  let csr := fun k imm => Instr.hartInstruction (.csr k (wreg w 7) (wreg w 15) imm num) 4
  match (w.extractLsb' 12 3).toNat with
  | 0 =>
    if w = 0x00000073 then .hartEcall
    else if w = 0x00100073 then .hartEbreak
    else if w = 0x10500073 then .hartInstruction .wfi 4
    else .hartInstruction .illegal 4
  | 1 => csr .rw false
  | 2 => csr .rs false
  | 3 => csr .rc false
  | 5 => csr .rw true
  | 6 => csr .rs true
  | 7 => csr .rc true
  | _ => .hartInstruction .illegal 4

/-- The extension instruction of a custom-0 word (R239): register fields that the table marks x0 are zero. -/
def decodeCustom (w : Word) : Instr :=
  let d := wreg w 7
  let a := wreg w 15
  let b := wreg w 20
  match (w.extractLsb' 12 3).toNat, (w.extractLsb' 25 7).toNat with
  | 0, 0 => .lcopy d a b
  | 1, 0 => .lwait d a b
  | 1, 1 => .lpoll d a b
  | 1, 2 => if b = 0 then .lstat d a else .hartInstruction .illegal 4
  | 2, 0 => if d = 0 then .lpush a b else .hartInstruction .illegal 4
  | 3, 0 => .lpop d a b
  | 4, 0 => .lfe d a b
  | 5, 0 => if b = 0 then .ltsk d a else .hartInstruction .illegal 4
  | 6, 0 => if d = 0 then .lbarArrive a b else .hartInstruction .illegal 4
  | 7, 0 => if d = 0 ∧ a = 0 ∧ b = 0 then .lyld else .hartInstruction .illegal 4
  | _, _ => .hartInstruction .illegal 4

/-- A 32-bit hart instruction. -/
def decodeWide (w : Word) : Instr :=
  let rv := fun op => Instr.hartInstruction op 4
  match (w.extractLsb' 0 7).toNat with
  | 0x37 => rv (.lui (wreg w 7) (w &&& 0xFFFFF000))
  | 0x17 => rv (.auipc (wreg w 7) (w &&& 0xFFFFF000))
  | 0x6F => rv (.jal (wreg w 7) (immJ w))
  | 0x67 => rv (if w.extractLsb' 12 3 = 0 then .jalr (wreg w 7) (wreg w 15) (immI w) else .illegal)
  | 0x63 => rv (decodeBranch w)
  | 0x03 => rv (decodeLoad w)
  | 0x23 => rv (decodeStore w)
  | 0x13 => rv (decodeOpImm w)
  | 0x33 => rv (decodeOp w)
  | 0x0F => rv (if (w.extractLsb' 12 3).toNat ≤ 1 then .fence else .illegal)
  | 0x73 => decodeSystem w
  | 0x0B => decodeCustom w
  | _ => rv .illegal

/-- A register x8 to x15 of a compressed form. -/
def creg (h : BitVec 16) (lo : Nat) : BitVec 5 := (1 : BitVec 2) ++ h.extractLsb' lo 3

/-- The 6-bit immediate of a compressed form, sign-extended. -/
def cimm6 (h : BitVec 16) : Word := (h.extractLsb' 12 1 ++ h.extractLsb' 2 5).signExtend 32

/-- The jump offset of `c.j` and `c.jal`. -/
def cimmJ (h : BitVec 16) : Word :=
  (h.extractLsb' 12 1 ++ h.extractLsb' 8 1 ++ h.extractLsb' 9 2 ++ h.extractLsb' 6 1 ++ h.extractLsb' 7 1 ++
    h.extractLsb' 2 1 ++ h.extractLsb' 11 1 ++ h.extractLsb' 3 3 ++ (0 : BitVec 1)).signExtend 32

/-- The branch offset of `c.beqz` and `c.bnez`. -/
def cimmB (h : BitVec 16) : Word :=
  (h.extractLsb' 12 1 ++ h.extractLsb' 5 2 ++ h.extractLsb' 2 1 ++ h.extractLsb' 10 2 ++ h.extractLsb' 3 2 ++
    (0 : BitVec 1)).signExtend 32

/-- The offset of `c.lw` and `c.sw`. -/
def cimmW (h : BitVec 16) : Word := (h.extractLsb' 5 1 ++ h.extractLsb' 10 3 ++ h.extractLsb' 6 1 ++ (0 : BitVec 2)).setWidth 32

/-- Quadrant 0 of RV32C. -/
def decodeC0 (h : BitVec 16) : Rv :=
  match (h.extractLsb' 13 3).toNat with
  | 0 =>
    let imm : Word := (h.extractLsb' 7 4 ++ h.extractLsb' 11 2 ++ h.extractLsb' 5 1 ++ h.extractLsb' 6 1 ++ (0 : BitVec 2)).setWidth 32
    if imm = 0 then .illegal else .opImm .add (creg h 2) 2 imm
  | 2 => .load .lw (creg h 2) (creg h 7) (cimmW h)
  | 6 => .store .sw (creg h 7) (creg h 2) (cimmW h)
  | _ => .illegal

/-- The register forms of quadrant 1. -/
def decodeC1Alu (h : BitVec 16) : Rv :=
  let rd := creg h 7
  let sh := (h.extractLsb' 2 5).setWidth 32
  match (h.extractLsb' 10 2).toNat with
  | 0 => if h.getLsbD 12 then .illegal else .opImm .srl rd rd sh
  | 1 => if h.getLsbD 12 then .illegal else .opImm .sra rd rd sh
  | 2 => .opImm .and rd rd (cimm6 h)
  | _ =>
    if h.getLsbD 12 then .illegal
    else match (h.extractLsb' 5 2).toNat with
      | 0 => .op .sub rd rd (creg h 2)
      | 1 => .op .xor rd rd (creg h 2)
      | 2 => .op .or rd rd (creg h 2)
      | _ => .op .and rd rd (creg h 2)

/-- Quadrant 1 of RV32C. -/
def decodeC1 (h : BitVec 16) : Rv :=
  let rd : BitVec 5 := h.extractLsb' 7 5
  match (h.extractLsb' 13 3).toNat with
  | 0 => .opImm .add rd rd (cimm6 h)
  | 1 => .jal 1 (cimmJ h)
  | 2 => .opImm .add rd 0 (cimm6 h)
  | 3 =>
    if rd = 2 then
      let imm : Word := (h.extractLsb' 12 1 ++ h.extractLsb' 3 2 ++ h.extractLsb' 5 1 ++ h.extractLsb' 2 1 ++
        h.extractLsb' 6 1 ++ (0 : BitVec 4)).signExtend 32
      if imm = 0 then .illegal else .opImm .add 2 2 imm
    else if cimm6 h = 0 then .illegal else .lui rd (cimm6 h <<< 12)
  | 4 => decodeC1Alu h
  | 5 => .jal 0 (cimmJ h)
  | 6 => .branch .eq (creg h 7) 0 (cimmB h)
  | _ => .branch .ne (creg h 7) 0 (cimmB h)

/-- Quadrant 2 of RV32C. -/
def decodeC2 (h : BitVec 16) : Instr :=
  let rd : BitVec 5 := h.extractLsb' 7 5
  let rs : BitVec 5 := h.extractLsb' 2 5
  let rv := fun op => Instr.hartInstruction op 2
  match (h.extractLsb' 13 3).toNat with
  | 0 => rv (if h.getLsbD 12 then .illegal else .opImm .sll rd rd ((h.extractLsb' 2 5).setWidth 32))
  | 2 =>
    let imm : Word := (h.extractLsb' 2 2 ++ h.extractLsb' 12 1 ++ h.extractLsb' 4 3 ++ (0 : BitVec 2)).setWidth 32
    rv (if rd = 0 then .illegal else .load .lw rd 2 imm)
  | 4 =>
    if !h.getLsbD 12 then
      rv (if rs = 0 then (if rd = 0 then .illegal else .jalr 0 rd 0) else .op .add rd 0 rs)
    else if rs ≠ 0 then rv (.op .add rd rd rs)
    else if rd = 0 then .hartEbreak
    else rv (.jalr 1 rd 0)
  | 6 => rv (.store .sw 2 rs ((h.extractLsb' 7 2 ++ h.extractLsb' 9 4 ++ (0 : BitVec 2)).setWidth 32))
  | _ => rv .illegal

/-- A 16-bit hart instruction (R234: the C extension). -/
def decodeShort (h : BitVec 16) : Instr :=
  match (h.extractLsb' 0 2).toNat with
  | 0 => .hartInstruction (decodeC0 h) 2
  | 1 => .hartInstruction (decodeC1 h) 2
  | _ => decodeC2 h

/-- The hart instruction of a fetched word, whose low 16 bits stand alone where bits [1:0] are not 11; a word that no
extension assigns is the illegal instruction. -/
def decodeHart (w : Word) : Instr :=
  if w.extractLsb' 0 2 = 3 then decodeWide w else decodeShort (w.extractLsb' 0 16)

/-- Whether a fetched word is a 32-bit instruction. -/
def hartLen (w : Word) : Nat := if w.extractLsb' 0 2 = 3 then 4 else 2

/-! ### The encoder -/

/-- The word of a slot instruction, with its stop bit (R66, R69). -/
def encodeForm (x : SlotForm) (stop : Bool) : DWord :=
  let s := BitVec.ofBool stop
  let ps := fun (b : Bool) => BitVec.ofBool b
  match x with
  | .c o f =>
    BitVec.ofNat 8 o ++ f.pred ++ ps f.psense ++ f.dst ++ f.srcA ++ f.srcB ++ f.imm ++ f.mod ++ s
  | .t o f =>
    BitVec.ofNat 8 o ++ f.pred ++ ps f.psense ++ f.srcA ++ f.srcB ++ f.dst ++ f.gidx ++ f.imm ++ f.mod ++ s
  | .v o f | .k o f =>
    BitVec.ofNat 8 o ++ f.pred ++ ps f.psense ++ f.srcA ++ f.srcB ++ f.srcC ++ f.dst ++ f.type ++ f.stype ++ f.imm8 ++
      (0 : BitVec 3) ++ s
  | .m o f =>
    BitVec.ofNat 8 o ++ f.pred ++ ps f.psense ++ f.abase ++ f.bbase ++ f.acc ++ ps f.rpt ++ f.rcount ++ f.qsrc ++
      f.zsrc ++ f.cnt5 ++ (0 : BitVec 11) ++ s

/-- An R-type word. -/
def encR (f7 : Nat) (rs2 rs1 : BitVec 5) (f3 : Nat) (rd : BitVec 5) (opc : Nat) : Word :=
  BitVec.ofNat 7 f7 ++ rs2 ++ rs1 ++ BitVec.ofNat 3 f3 ++ rd ++ BitVec.ofNat 7 opc

/-- An I-type word. -/
def encI (imm : Word) (rs1 : BitVec 5) (f3 : Nat) (rd : BitVec 5) (opc : Nat) : Word :=
  imm.extractLsb' 0 12 ++ rs1 ++ BitVec.ofNat 3 f3 ++ rd ++ BitVec.ofNat 7 opc

/-- The funct3 of a branch. -/
def brCode (c : RvBr) : Nat :=
  match c with
  | .eq => 0 | .ne => 1 | .lt => 4 | .ge => 5 | .ltu => 6 | .geu => 7

/-- The funct3 of a load. -/
def loadCode (k : RvLoad) : Nat :=
  match k with
  | .lb => 0 | .lh => 1 | .lw => 2 | .lbu => 4 | .lhu => 5

/-- The funct3 of a store. -/
def storeCode (k : RvStore) : Nat :=
  match k with
  | .sb => 0 | .sh => 1 | .sw => 2

/-- The word of an immediate shift or rotate, or of another register-immediate operation. -/
def encOpImm (k : RvOp) (rd rs : BitVec 5) (imm : Word) : Word :=
  match k with
  | .sll | .srl | .sra | .ror => encR (rvOpCode k).1 (imm.extractLsb' 0 5) rs (rvOpCode k).2 rd 0x13
  | _ => encI imm rs (rvOpCode k).2 rd 0x13

/-- The word of a one-operand operation. -/
def encUnary (k : RvUnary) (rd rs : BitVec 5) : Word :=
  match k with
  | .clz => encR 0x30 0 rs 1 rd 0x13
  | .ctz => encR 0x30 1 rs 1 rd 0x13
  | .cpop => encR 0x30 2 rs 1 rd 0x13
  | .sextB => encR 0x30 4 rs 1 rd 0x13
  | .sextH => encR 0x30 5 rs 1 rd 0x13
  | .zextH => encR 4 0 rs 4 rd 0x33
  | .orcB => encR 0x14 7 rs 5 rd 0x13
  | .rev8 => encR 0x34 0x18 rs 5 rd 0x13

/-- The funct3 of a CSR operation. -/
def csrCode (k : RvCsr) (imm : Bool) : Nat :=
  (match k with
  | .rw => 1 | .rs => 2 | .rc => 3) + (if imm then 4 else 0)

/-- The 32-bit word of an ordinary hart instruction. -/
def encodeRv (op : Rv) : Word :=
  match op with
  | .lui rd imm => imm.extractLsb' 12 20 ++ rd ++ (0x37 : BitVec 7)
  | .auipc rd imm => imm.extractLsb' 12 20 ++ rd ++ (0x17 : BitVec 7)
  | .jal rd o =>
    o.extractLsb' 20 1 ++ o.extractLsb' 1 10 ++ o.extractLsb' 11 1 ++ o.extractLsb' 12 8 ++ rd ++ (0x6F : BitVec 7)
  | .jalr rd rs imm => encI imm rs 0 rd 0x67
  | .branch c a b o =>
    o.extractLsb' 12 1 ++ o.extractLsb' 5 6 ++ b ++ a ++ BitVec.ofNat 3 (brCode c) ++ o.extractLsb' 1 4 ++
      o.extractLsb' 11 1 ++ (0x63 : BitVec 7)
  | .load k rd rs imm => encI imm rs (loadCode k) rd 0x03
  | .store k a b imm =>
    imm.extractLsb' 5 7 ++ b ++ a ++ BitVec.ofNat 3 (storeCode k) ++ imm.extractLsb' 0 5 ++ (0x23 : BitVec 7)
  | .opImm k rd rs imm => encOpImm k rd rs imm
  | .op k rd a b => encR (rvOpCode k).1 b a (rvOpCode k).2 rd 0x33
  | .unary k rd rs => encUnary k rd rs
  | .fence => 0x0FF0000F
  | .wfi => 0x10500073
  | .csr k rd src imm num => num ++ src ++ BitVec.ofNat 3 (csrCode k imm) ++ rd ++ (0x73 : BitVec 7)
  | .illegal => 0

/-- The 32-bit word of a hart instruction: the extension table of R239, and RV32I. -/
def encodeHart (i : Instr) : Option Word :=
  match i with
  | .lcopy d a b => some (encR 0 b a 0 d 0x0B)
  | .lwait d a b => some (encR 0 b a 1 d 0x0B)
  | .lpoll d a b => some (encR 1 b a 1 d 0x0B)
  | .lstat d a => some (encR 2 0 a 1 d 0x0B)
  | .lpush a b => some (encR 0 b a 2 0 0x0B)
  | .lpop d a b => some (encR 0 b a 3 d 0x0B)
  | .lfe d a b => some (encR 0 b a 4 d 0x0B)
  | .ltsk d a => some (encR 0 0 a 5 d 0x0B)
  | .lbarArrive a b | .lbarWait a b => some (encR 0 b a 6 0 0x0B)
  | .lyld => some (encR 0 0 0 7 0 0x0B)
  | .hartEcall => some 0x00000073
  | .hartEbreak => some 0x00100073
  | .hartInstruction op 4 | .hartDeviceRegisterWrite op 4 => some (encodeRv op)
  | _ => none

/-- The words of a well-formed instruction, its stop bit clear: two parcels of a slot instruction, one word of a hart
instruction, none of an event (an event has no encoding; a compressed form is encoded by its 32-bit equal). -/
def encode (i : Instr) : List Word :=
  match formOf i with
  | some x => let w := encodeForm x false; [w.extractLsb' 0 32, w.extractLsb' 32 32]
  | none => (encodeHart i).toList

/-- The instruction this decoder reads from an instruction's bits as the opcode table numbers them: a 32-bit word is a
hart's, a longer one a bundle's template with its slot words, whose first present instruction is answered. -/
def decodeTableWord (nbits w : Nat) : Option Instr :=
  if nbits ≤ 32 then
    match decodeHart (BitVec.ofNat 32 w) with
    | .hartInstruction .illegal _ => none
    | i => some i
  else
    let ps := (unpackW 32 10 (w / 2 ^ 32)).map (BitVec.ofNat 32)
    match decodeBundle (BitVec.ofNat 32 w) ps with
    | .ok ((_, i) :: _) => some i
    | _ => none

end Sys2Proof
end

