-- ==== Sys2Proof/Machine/Scalar.lean ====
section
/-! DEFINITION. The scalar C-slot instructions: arithmetic, moves, compares, predicates, address registers,
extents, skip flags, the format register, dead marks, system registers and nop (R101 to R109, R119, R121,
R123, R133, R134). -/

namespace Sys2Proof.Machine

/-- The shared entry of C meanings. -/
def cOp (f : CFields) (s : State) (k : Ctx → SlotRes) : Ans := slotOp 0 f.pred f.psense s k

/-- A scalar result of the C slot, of latency 1, for l0 or l1 (R101, R102). -/
def cResult (s : State) (x : Ctx) (f : CFields) (w : Word) : SlotRes :=
  .done s (addResult x f.dst .s 0 1 (.s w))

/-- `op sD, sA, sB` (R104): A then B popped, D := g(A, B). -/
def cBinary (g : Word → Word → Word) (f : CFields) (s : State) : Ans :=
  cOp f s fun x => withS x f.srcA fun a x => withS x f.srcB fun b x => cResult s x f (g a b)

/-- `op sD, sA, imm` (R105). -/
def cUnary (g : Word → Word) (f : CFields) (s : State) : Ans :=
  cOp f s fun x => withS x f.srcA fun a x => cResult s x f (g a)

/-- The predicate that DST names, written (R106). -/
def cPred (s : State) (x : Ctx) (f : CFields) (b : Bool) : SlotRes := .done s (setPred x (f.dst.toNat % 8) b)

/-- Two predicates combined (R107). -/
def cPredOp (g : Bool → Bool → Bool) (f : CFields) (s : State) : Ans :=
  cOp f s fun x => cPred s x f (g (seenPred x (immBits f 2 0)) (seenPred x (immBits f 5 3)))

/-- The value of `add` (R104): D := A + B. -/
def aluAdd (a b : Word) : Word := a + b

/-- `add` (R104). -/
def execAdd (f : CFields) (s : State) : Ans := cBinary aluAdd f s

/-- The value of `sub` (R104): D := A − B. -/
def aluSub (a b : Word) : Word := a - b

/-- `sub` (R104). -/
def execSub (f : CFields) (s : State) : Ans := cBinary aluSub f s

/-- The value of `mul` (R104): the low 32 bits of A × B. -/
def aluMul (a b : Word) : Word := a * b

/-- `mul` (R104). -/
def execMul (f : CFields) (s : State) : Ans := cBinary aluMul f s

/-- The value of `mulh` (R104): the high 32 bits of the signed product. -/
def aluMulh (a b : Word) : Word := toWord (a.toInt * b.toInt / 2 ^ 32)

/-- `mulh` (R104). -/
def execMulh (f : CFields) (s : State) : Ans := cBinary aluMulh f s

/-- The value of `mulhn` (R104): the high 32 bits of the unsigned product. -/
def aluMulhn (a b : Word) : Word := BitVec.ofNat 32 (a.toNat * b.toNat / 2 ^ 32)

/-- `mulhn` (R104). -/
def execMulhn (f : CFields) (s : State) : Ans := cBinary aluMulhn f s

/-- The value of `and` (R104): bitwise and. -/
def aluAnd (a b : Word) : Word := a &&& b

/-- `and` (R104). -/
def execAnd (f : CFields) (s : State) : Ans := cBinary aluAnd f s

/-- The value of `or` (R104): bitwise or. -/
def aluOr (a b : Word) : Word := a ||| b

/-- `or` (R104). -/
def execOr (f : CFields) (s : State) : Ans := cBinary aluOr f s

/-- The value of `xor` (R104): bitwise exclusive or. -/
def aluXor (a b : Word) : Word := a ^^^ b

/-- `xor` (R104). -/
def execXor (f : CFields) (s : State) : Ans := cBinary aluXor f s

/-- The value of `shl` (R104): A << (B & 31). -/
def aluShl (a b : Word) : Word := a <<< (b.toNat % 32)

/-- `shl` (R104). -/
def execShl (f : CFields) (s : State) : Ans := cBinary aluShl f s

/-- The value of `shr` (R104): A >> (B & 31), zero-filled. -/
def aluShr (a b : Word) : Word := a >>> (b.toNat % 32)

/-- `shr` (R104). -/
def execShr (f : CFields) (s : State) : Ans := cBinary aluShr f s

/-- The value of `sra` (R104): A >> (B & 31), sign-filled. -/
def aluSra (a b : Word) : Word := a.sshiftRight (b.toNat % 32)

/-- `sra` (R104). -/
def execSra (f : CFields) (s : State) : Ans := cBinary aluSra f s

/-- The value of `min` (R104): signed minimum. -/
def aluMin (a b : Word) : Word := if a.toInt ≤ b.toInt then a else b

/-- `min` (R104). -/
def execMin (f : CFields) (s : State) : Ans := cBinary aluMin f s

/-- The value of `max` (R104): signed maximum. -/
def aluMax (a b : Word) : Word := if a.toInt ≤ b.toInt then b else a

/-- `max` (R104). -/
def execMax (f : CFields) (s : State) : Ans := cBinary aluMax f s

/-- The value of `minn` (R104): unsigned minimum. -/
def aluMinn (a b : Word) : Word := if a.toNat ≤ b.toNat then a else b

/-- `minn` (R104). -/
def execMinn (f : CFields) (s : State) : Ans := cBinary aluMinn f s

/-- The value of `maxn` (R104): unsigned maximum. -/
def aluMaxn (a b : Word) : Word := if a.toNat ≤ b.toNat then b else a

/-- `maxn` (R104). -/
def execMaxn (f : CFields) (s : State) : Ans := cBinary aluMaxn f s

/-- `addi` (R105): D := A + sext(IMM24). -/
def execAddi (f : CFields) (s : State) : Ans := cUnary (fun a => a + immS f) f s

/-- `ldi` (R105): D := sext(IMM24). -/
def execLdi (f : CFields) (s : State) : Ans := cOp f s fun x => cResult s x f (immS f)

/-- `ldhi` (R105): the upper half from the immediate, the low half of A. -/
def execLdhi (f : CFields) (s : State) : Ans :=
  cUnary (fun a => (BitVec.ofNat 32 (immBits f 15 0) <<< 16) ||| (a &&& 0xFFFF)) f s

/-- `sel` (R105): A or B by a predicate; both sources are popped. -/
def execSel (f : CFields) (s : State) : Ans :=
  cOp f s fun x => withS x f.srcA fun a x => withS x f.srcB fun b x =>
    cResult s x f (if seenPred x (immBits f 2 0) then a else b)

/-- `mov` (R105). -/
def execMov (f : CFields) (s : State) : Ans := cUnary (fun a => a) f s

/-- The queue that `qlen` and `dead` name (R74). -/
def namedQueue (f : CFields) : Bank × Nat := (if f.mod.getLsbD 0 then .s else .v, immBits f 4 0)

/-- `qlen` (R105): the landed entries of the named queue before this issue's reads; 0 for a dead queue. -/
def execQlen (f : CFields) (s : State) : Ans :=
  cOp f s fun x =>
    let q := getQueue x (namedQueue f).1 (namedQueue f).2
    cResult s x f (if q.dead then 0 else BitVec.ofNat 32 (landedCount q))

/-- `cmp` (R107). -/
def execCmp (f : CFields) (s : State) : Ans :=
  cOp f s fun x => withS x f.srcA fun a x => withS x f.srcB fun b x => cPred s x f (condWord f.mod.toNat a b)

/-- `cmpi` (R107). -/
def execCmpi (f : CFields) (s : State) : Ans :=
  cOp f s fun x => withS x f.srcA fun a x => cPred s x f (condWord f.mod.toNat a (immS f))

/-- `pand` (R107). -/
def execPand (f : CFields) (s : State) : Ans := cPredOp (fun a b => a && b) f s

/-- `por` (R107). -/
def execPor (f : CFields) (s : State) : Ans := cPredOp (fun a b => a || b) f s

/-- `pxor` (R107). -/
def execPxor (f : CFields) (s : State) : Ans := cPredOp (fun a b => a != b) f s

/-- `pnot` (R107). -/
def execPnot (f : CFields) (s : State) : Ans := cPredOp (fun a _ => !a) f s

/-- `pmov` (R107): pD := A ≠ 0. -/
def execPmov (f : CFields) (s : State) : Ans :=
  cOp f s fun x => withS x f.srcA fun a x => cPred s x f (a != 0)

/-- The address register that DST names (R108). -/
def gDst (f : CFields) : Nat := f.dst.toNat % 16

/-- `gset` (R108). -/
def execGset (f : CFields) (s : State) : Ans := cOp f s fun x => .done s (setG x (gDst f) (immS f))

/-- `gstep` (R108). -/
def execGstep (f : CFields) (s : State) : Ans :=
  cOp f s fun x => .done s { x with gstep := x.gstep.setIfInBounds (gDst f) (immS f) }

/-- `gadd` (R108): gN, read after the bundle's stepping (R109), plus A plus the immediate. -/
def execGadd (f : CFields) (s : State) : Ans :=
  cOp f s fun x => withS x f.srcA fun a x => .done s (setG x (gDst f) (getG x (gDst f) + a + immS f))

/-- `gget` (R108): an address register or its step. -/
def execGget (f : CFields) (s : State) : Ans :=
  cOp f s fun x =>
    cResult s x f (if f.imm.getLsbD 4 then getStep x (immBits f 3 0) else getG x (immBits f 3 0))

/-- `eset` (R119). -/
def execEset (f : CFields) (s : State) : Ans :=
  cOp f s fun x => withS x f.srcA fun a x => .done s { x with e := x.e.setIfInBounds (immBits f 2 0) a }

/-- `eget` (R119). -/
def execEget (f : CFields) (s : State) : Ans := cOp f s fun x => cResult s x f (getE x (immBits f 2 0))

/-- `jset` (R119). -/
def execJset (f : CFields) (s : State) : Ans :=
  cOp f s fun x => withS x f.srcA fun a x =>
    .done s { x with j := maskFlags x.j (f.imm.setWidth 16) (a.setWidth 16) }

/-- `fmt` (R121): a write that applies from the fourth issue cycle after this one. The count includes this issue. -/
def execFmt (f : CFields) (s : State) : Ans :=
  cOp f s fun x => .done s { x with fmtPend := x.fmtPend ++ [(4, BitVec.ofNat 32 (immBits f 12 0))] }

/-- `fmtrd` (R121): the fmt that an op issued in the same cycle uses. -/
def execFmtrd (f : CFields) (s : State) : Ans := cOp f s fun x => cResult s x f x.seen.fmt

/-- `dead` (R123): the named queue marked dead where last-use marks apply. -/
def execDead (f : CFields) (s : State) : Ans := cOp f s fun x => .done s (addMark x (namedQueue f))

/-- `nop` (R134). -/
def execNop (f : CFields) (s : State) : Ans := cOp f s fun x => .done s x

/-- The identity of the core and context (R90). -/
def cidOf (pkg : Nat) (c : CtxId) : Word :=
  BitVec.ofNat 32 (pkg % 1024 + c.core / 96 % 16 * 2 ^ 10 + c.core % 96 * 2 ^ 14 + c.ctx % 2 * 2 ^ 21)

/-- The system registers of R89 as they stand. -/
def sysReg (s : State) (c : CtxId) (x : Ctx) (n : Nat) : Word :=
  let t := (getTask s x.task).getD default
  let id := taskId t
  let g := getRegion s x.region
  let lo := fun (n : Nat) => BitVec.ofNat 32 n
  let hi := fun (n : Nat) => BitVec.ofNat 32 (n / 2 ^ 32)
  match n with
  | 0x000 => cidOf s.pkg c
  | 0x001 => lo s.now
  | 0x002 => hi s.now
  | 0x003 => lo t.deadline
  | 0x004 => hi t.deadline
  | 0x005 => lo x.sbudget
  | 0x006 => lo id
  | 0x007 => hi id
  | 0x008 => lo g.rcb
  | 0x009 => hi g.rcb
  | 0x00A => lo (field x.hdr 28 0)
  | 0x00B => x.tcause
  | 0x00C => x.tpc
  | 0x00D => x.tinfo
  | 0x010 => lo x.cycle
  | 0x011 => x.midle
  | 0x012 => x.mstall
  | _ => 0

/-- `sysrd` (R133): D := the system register as it stands at issue. -/
def execSysrd (f : CFields) (s : State) : Ans :=
  cOp f s fun x => cResult s x f (sysReg s s.cur x (immBits f 11 0))

/-- `syswr` (R133, R89): MIDLE or MSTALL written; any other register takes PRIVILEGED. -/
def execSyswr (f : CFields) (s : State) : Ans :=
  cOp f s fun x => withS x f.srcA fun a x =>
    match immBits f 11 0 with
    | 0x011 => .done s { x with midle := a, midleSet := true }
    | 0x012 => .done s { x with mstall := a, mstallSet := true }
    | _ => .trap 0x15 0 none

end Sys2Proof.Machine
end

