-- ==== Sys2Proof/Machine/Control.lean ====
section
/-! DEFINITION. The C-slot instructions that steer the stream: branches, hardware loops, the loop buffer,
boundary markers, skips, and the software trap (R110 to R118, R132). -/

namespace Sys2Proof.Machine

/-- A taken transfer (R111): its bundle's next issue comes no earlier than 3 cycles after it. -/
def taken (x : Ctx) (target : Word) (boundary : Bool) : Ctx :=
  addTransfer x { goal := .pc target, dead := 3, boundary := boundary }

/-- A loop exit past an end bundle (R113, R115): a taken transfer and a boundary point. The template of the end bundle sizes
it once this bundle has issued; where that template is still to be fetched, the context waits as at an instruction fill. -/
def exitPast (x : Ctx) (stop : Word) : Ctx :=
  addTransfer x { goal := .sized (.after stop), dead := 3, boundary := true }

/-- The PC-relative target of a C instruction (R110). -/
def relTarget (x : Ctx) (f : CFields) : Word := issuePc x + 4 * immS f

/-- `br` (R110, R111): a back-edge, and so a boundary point, when the target is at or below its PC. -/
def execBr (f : CFields) (s : State) : Ans :=
  cOp f s fun x =>
    let t := relTarget x f
    .done s (taken x t (decide (t.toNat ≤ (issuePc x).toNat)))

/-- The address in an s value with bits [1:0] cleared (R110). -/
def absTarget (a : Word) : Word := a &&& ~~~(3 : Word)

/-- `jmp` (R110, R111). -/
def execJmp (f : CFields) (s : State) : Ans :=
  cOp f s fun x => withS x f.srcA fun a x =>
    .done s (taken x (absTarget a) (decide ((absTarget a).toNat ≤ (issuePc x).toNat)))

/-- The parcels of the bundle being issued. -/
def issueParcels (x : Ctx) : Nat :=
  match x.issue with
  | some i => i.parcels
  | none => 1

/-- `call` (R110): as br, with the return address in D. -/
def execCall (f : CFields) (s : State) : Ans :=
  cOp f s fun x =>
    let x' := taken x (relTarget x f) false
    cResult s x' f (issuePc x + BitVec.ofNat 32 (4 * issueParcels x))

/-- Both harts of a slice resume after a handler (R317): a stopped hart after its ecall or ebreak, any other at its
faulting instruction again. -/
def resumeHart (h : Hart) : Hart :=
  match h.st with
  | .stopped => { h with st := .running }
  | _ => h

/-- `ret` (R110, R317): a transfer to the address in A, which ends handler mode. -/
def execRet (f : CFields) (s : State) : Ans :=
  cOp f s fun x => withS x f.srcA fun a x =>
    let x := if x.handler then
        { leaveHandler x with loader := x.loader.map resumeHart, storer := x.storer.map resumeHart }
      else x
    .done s (taken x (absTarget a) false)

/-- A loop instruction that executes (R113): count 0 exits past the end bundle, a full stack takes OVERFLOW with
OPND 63, else an entry is pushed. -/
def pushLoop (s : State) (x : Ctx) (f : CFields) (count : Word) : SlotRes :=
  let stop := issuePc x + BitVec.ofNat 32 (4 * immBits f 23 12)
  if count = 0 then .done s (exitPast x stop)
  else if 6 ≤ x.loops.length then .trap 0x04 63 none
  else
    let start := issuePc x + BitVec.ofNat 32 (4 * issueParcels x)
    .done s { x with loops := { start := start, stop := stop, count := count, index := 0 } :: x.loops }

/-- `loop n, label` (R112, R113). -/
def execLoop (f : CFields) (s : State) : Ans :=
  cOp f s fun x => pushLoop s x f (BitVec.ofNat 32 (immBits f 10 0))

/-- `loop eN, label` (R112, R113): the extent as it stands at issue. -/
def execLoopExtent (f : CFields) (s : State) : Ans :=
  cOp f s fun x => pushLoop s x f (getE x (immBits f 2 0))

/-- `loops sA, label` (R112, R113). -/
def execLoops (f : CFields) (s : State) : Ans :=
  cOp f s fun x => withS x f.srcA fun a x => pushLoop s x f a

/-- `lbrk` (R115): the top entry popped, a transfer past its end bundle; an empty stack takes UNDERFLOW, OPND 63. -/
def execLbrk (f : CFields) (s : State) : Ans :=
  cOp f s fun x =>
    match x.loops with
    | [] => .trap 0x05 63 none
    | e :: rest => .done s (exitPast { x with loops := rest } e.stop)

/-- `lidx` (R115): the index of the entry at a depth, 0 the top. -/
def execLidx (f : CFields) (s : State) : Ans :=
  cOp f s fun x =>
    match x.loops[immBits f 2 0]? with
    | none => .trap 0x05 63 none
    | some e => cResult s x f e.index

/-! ### Sizes that templates give (R113, R115, R116, R118) -/

/-- The byte offsets past n bundles from a PC (R116), as far as whole bundles fit a number of parcels: the end offset, or
the PC whose template is missing. -/
def spanBundles (s : State) (c : CtxId) (x : Ctx) : Nat → Nat → Word → Except Word Word
  | 0, _, pc => .ok pc
  | _, 0, pc => .ok pc
  | n + 1, room, pc =>
    match sizeAt s c x pc with
    | none => .error pc
    | some k => if room < k then .ok pc else spanBundles s c x n (room - k) (pc + BitVec.ofNat 32 (4 * k))

/-- The first PC in a range of parcels whose line is missing (R116). -/
def firstMissing (s : State) (c : CtxId) (x : Ctx) (pc : Word) (n : Nat) : Option Word :=
  ((List.range n).map fun i => pc + BitVec.ofNat 32 (4 * i)).find? fun p => (parcelAt s c x p.toNat).isNone

/-- The PC of the bundle, among the n from a PC, that holds a parcel. -/
def bundleHolding (s : State) (c : CtxId) (x : Ctx) : Nat → Word → Word → Word
  | 0, pc, _ => pc
  | n + 1, pc, p =>
    match sizeAt s c x pc with
    | none => pc
    | some k => if (p - pc).toNat < 4 * k then pc else bundleHolding s c x n (pc + BitVec.ofNat 32 (4 * k)) p

/-- The end check of R114 at the bundle of a PC: the loop stack, the next PC, whether a loop turned or exited. -/
def endCheck (pc next : Word) : List LoopEntry → List LoopEntry × Word × Bool
  | [] => ([], next, false)
  | e :: rest =>
    if e.stop ≠ pc then (e :: rest, next, false)
    else if e.index.toNat + 1 < e.count.toNat then ({ e with index := e.index + 1 } :: rest, e.start, true)
    else
      let (ls, pc', _) := endCheck pc next rest
      (ls, pc', true)

/-- `lbuf` (R116): an earlier pin ends, and the next n bundles, as many whole ones as fit 256 parcels, are pinned once every
parcel of them is in the instruction store. Until then the context does not issue. -/
def execLbuf (f : CFields) (s : State) : Ans :=
  cOp f s fun x =>
    let pc := issuePc x + BitVec.ofNat 32 (4 * issueParcels x)
    .done s { x with lbuf := none, sizing := some (.pin (immBits f 6 0) pc) }

/-- `bnd` (R117): a boundary point. -/
def execBnd (f : CFields) (s : State) : Ans := cOp f s fun x => .done s (addBoundary x)

/-- The target of a taken skip (R118): past n bundles, or the top loop entry's end bundle, where the skip ends and the
end check runs: the loop stack, the PC, and whether a loop turned or exited. The error is a missing template: the bundles
from it on that are still to be passed, and its PC. -/
def skipTo (s : State) (c : CtxId) (x : Ctx) : Nat → Word → Except (Nat × Word) (List LoopEntry × Word × Bool)
  | 0, pc => .ok (x.loops, pc, false)
  | n + 1, pc =>
    match sizeAt s c x pc with
    | none => .error (n + 1, pc)
    | some k =>
      if (x.loops.head?.map (·.stop)) = some pc then .ok (endCheck pc (pc + BitVec.ofNat 32 (4 * k)) x.loops)
      else skipTo s c x n (pc + BitVec.ofNat 32 (4 * k))

/-- `skip` (R118): with its flag set, a taken transfer of one dead cycle past the next n bundles. -/
def execSkip (f : CFields) (s : State) : Ans :=
  cOp f s fun x =>
    if !x.j.getLsbD (immBits f 15 12) then .done s x
    else
      let pc := issuePc x + BitVec.ofNat 32 (4 * issueParcels x)
      .done s (addTransfer x { goal := .sized (.skip (immBits f 11 0) pc), dead := 2, boundary := false })

/-- What templates give of a size still open (R113, R115, R116, R118): the context with it settled and whether a loop turned
or exited, or what stays open, the PC of a missing parcel and that of its bundle, where a failed fill is reported. R118 gives
that PC for a skipped bundle; for the end bundle of a loop exit the manual gives none, and the model reports at it too (DESIGN
CHOICE, log 115). -/
def settleSizing (s : State) (c : CtxId) (x : Ctx) (z : Sizing) : Except (Sizing × Word × Word) (Ctx × Bool) :=
  let x := { x with sizing := none }
  match z with
  | .after pc =>
    (match sizeAt s c x pc with
     | some n => .ok ({ x with pc := pc + BitVec.ofNat 32 (4 * n) }, false)
     | none => .error (z, pc, pc))
  | .skip n pc =>
    (match skipTo s c x n pc with
     | .ok (ls, t, b) => .ok ({ x with loops := ls, pc := t }, b)
     | .error (m, p) => .error (.skip m p, p, p))
  | .pin n pc =>
    (match spanBundles s c x n 256 pc with
     | .error p => .error (z, p, p)
     | .ok stop =>
       match firstMissing s c x pc ((stop - pc).toNat / 4) with
       | some p => .error (z, p, bundleHolding s c x n pc p)
       | none => .ok ({ x with lbuf := some (pc.toNat, stop.toNat) }, false))

/-- A context with a size still open: one that sizes a target stands at the bundle whose template is missing. -/
def openSize (x : Ctx) (z : Sizing) (tpc : Word) : Ctx :=
  match z with
  | .pin _ _ => { x with sizing := some z }
  | _ => { x with sizing := some z, pc := tpc }

/-- Where a transfer takes a context (R111, R118), and whether a loop turned or exited: a size that is still open keeps the
context at the bundle whose template is missing. -/
def goTo (s : State) (c : CtxId) (x : Ctx) (g : Goal) : Ctx × Bool :=
  match g with
  | .pc w => ({ x with pc := w }, false)
  | .sized z =>
    match settleSizing s c x z with
    | .ok r => r
    | .error (z, _, tpc) => (openSize x z tpc, false)

/-- `trap` (R132): the precise SOFTWARE trap with the immediate in TINFO. -/
def execTrap (f : CFields) (s : State) : Ans :=
  cOp f s fun _ => .trap 0x0F 0 (some (BitVec.ofNat 32 f.imm.toNat))

end Sys2Proof.Machine
end

