-- ==== Sys2Proof/Machine/Matrix.lean ====
section
/-! DEFINITION. The M-slot instructions, the step of the shared M datapath, and the paired product (R195 to
R212). A step's new accumulator values are written when the step ends. -/

namespace Sys2Proof.Machine

/-! ### Formats and shapes (R49, R195) -/

/-- The four legal pairs, by ATYPE and BTYPE (R49); 0 bf16, 1 f16, 2 f64, 3 i8 × planes. -/
def pairOf (fmt : Word) : Nat := field fmt 2 0

/-- Whether fmt is legal for M instructions (R49). -/
def fmtLegal (fmt : Word) : Bool :=
  field fmt 2 0 = field fmt 5 3 && decide (field fmt 2 0 < 4) && decide (field fmt 31 13 = 0)

/-- PLANES + 1. -/
def planesOf (fmt : Word) : Nat := field fmt 8 6 + 1

/-- The tile edge of the accumulator view: 32 for f64, else 64. -/
def edgeOf (fmt : Word) : Nat := if pairOf fmt = 2 then 32 else 64

/-- Bytes of an A tile (R195). -/
def aBytes (fmt : Word) : Nat := if pairOf fmt = 3 then 4096 else 8192

/-- Bytes of a B tile (R195). -/
def bBytes (fmt : Word) : Nat := if pairOf fmt = 3 then 512 * planesOf fmt else 8192

/-- Datapath cycles of one k step (R195). -/
def stepCycles (fmt : Word) : Nat :=
  match pairOf fmt with
  | 2 => 256
  | 3 => 8 * planesOf fmt
  | _ => 64

/-- Cycles of a group of `mgrp` per eight rows (R201). -/
def groupUnit (fmt : Word) : Nat :=
  match pairOf fmt with
  | 2 => 64
  | 3 => planesOf fmt
  | _ => 8

/-! ### Issue checks (R196 to R198) -/

/-- The steps of an M instruction. -/
def stepsOf (f : MFields) : Nat := if f.rpt then f.rcount.toNat + 1 else 1

/-- The base a step uses: the register with its step added once per step before it (R200), low 9 bits ignored. The steps after
the first are later issues, which find what a `gstep` of the bundle has written (R102). -/
def baseAt (x : Ctx) (g k : Nat) : Nat :=
  (seenG x g + x.seen.steps.toList.getD g 0 * BitVec.ofNat 32 k).toNat / 512 * 512

/-- The byte ranges that a product's steps read, A then B of each step (R197). -/
def productRanges (x : Ctx) (f : MFields) (fmt : Word) : List (Nat × Nat) :=
  (List.range (stepsOf f)).flatMap fun k =>
    [(baseAt x f.abase.toNat k, aBytes fmt), (baseAt x f.bbase.toNat k, bBytes fmt)]

/-- The address of `mgrp`'s group table (R206). -/
def tableBase (x : Ctx) (f : MFields) : Nat := (seenG x f.bbase.toNat).toNat / 128 * 128

/-- Bytes of a context's operand memory as it stands. -/
def opRead (s : State) (c : CtxId) (x : Ctx) (a n : Nat) : List Byte × State :=
  readAs s (.ctx x.task) (.opmem c.core) (8192 * x.slotBase + a) n

/-- The groups of `mgrp` (R206): (first row, end row, B offset) of each that computes, and whether the rows pass the
bound. -/
def groupsOf (s : State) (c : CtxId) (x : Ctx) (f : MFields) (fmt : Word) : List (Nat × Nat × Nat) × Bool :=
  let m := f.cnt5.toNat + 1
  let tbl := natOfBytes (opRead s c x (tableBase x f) (4 * m)).1
  let bound := edgeOf fmt
  let step := fun (acc : List (Nat × Nat × Nat) × Nat) (g : Nat) =>
    let e := elemW 32 tbl g
    let rows := e % 256
    let last := min (acc.2 + rows) bound
    let add := if 0 < rows ∧ acc.2 < bound then [(acc.2, last, 512 * (e / 2 ^ 16))] else []
    (acc.1 ++ add, acc.2 + rows)
  let (gs, total) := (List.range m).foldl step ([], 0)
  (gs, decide (bound < total))

/-- The byte ranges that `mgrp` reads: the A tile, the table, the B tiles of the groups that compute. -/
def groupRanges (s : State) (c : CtxId) (x : Ctx) (f : MFields) (fmt : Word) : List (Nat × Nat) :=
  [(baseAt x f.abase.toNat 0, aBytes fmt), (tableBase x f, 4 * (f.cnt5.toNat + 1))] ++
    (groupsOf s c x f fmt).1.map fun g => (g.2.2, bBytes fmt)

/-- The operand slots that byte ranges touch, in order. -/
def slotsOf (rs : List (Nat × Nat)) : List Nat :=
  rs.flatMap fun r => (List.range ((r.1 + r.2 - 1) / 8192 - r.1 / 8192 + 1)).map (r.1 / 8192 + ·)

/-- The ranges an M instruction reads from operand memory. -/
def mRanges (s : State) (c : CtxId) (x : Ctx) (opc : Nat) (f : MFields) : List (Nat × Nat) :=
  if opc ≤ 3 then productRanges x f x.seen.fmt
  else if opc = 4 then
    (let table := (tableBase x f, 4 * (f.cnt5.toNat + 1))
     if tableBase x f + 4 * (f.cnt5.toNat + 1) ≤ 8192 * hdrOsl x.hdr then groupRanges s c x f x.seen.fmt
     else [(baseAt x f.abase.toNat 0, aBytes x.seen.fmt), table])
  else []

/-- The M checks of R77's row UNPROVISIONED: accumulators, then, under a legal fmt, the bytes of R197. -/
def mUnprovisioned (s : State) (c : CtxId) (x : Ctx) (opc : Nat) (f : MFields) : Option Nat :=
  match (mAccs opc f).find? fun n => decide (hdrZt x.hdr ≤ n) with
  | some n => some n
  | none =>
    if fmtLegal x.seen.fmt then
      ((slotsOf (mRanges s c x opc f)).find? fun n => decide (hdrOsl x.hdr ≤ n)).map fun n => min n 63
    else none

/-- The M checks of R77's row UNCLAIMED_SLOT. -/
def mUnclaimed (s : State) (c : CtxId) (x : Ctx) (opc : Nat) (f : MFields) : Option Nat :=
  if fmtLegal x.seen.fmt then
    (slotsOf (mRanges s c x opc f)).find? fun n => !x.claimed.getLsbD n
  else none

/-- The shared entry of M meanings: the guard, then the checks of R196 and R197 in the order of R77, which a bundle has
passed before any of its slots acts; an instruction that reads operand memory has its turn before the bundle's T slot
(`turnOrder`), so they pass here too. -/
def mOp (opc : Nat) (f : MFields) (s : State) (k : Ctx → SlotRes) : Ans :=
  slotOp 3 f.pred f.psense s fun x =>
    match mUnprovisioned s s.cur x opc f with
    | some n => .trap 0x08 n none
    | none =>
      match mUnclaimed s s.cur x opc f with
      | some n => .trap 0x0A n none
      | none => if fmtLegal x.seen.fmt then k x else .trap 0x18 0 none

/-- A mask of operand slots. -/
def slotMask (ns : List Nat) : BitVec 16 := ns.foldl (fun m n => m ||| (BitVec.ofNat 16 1 <<< n)) 0

/-- The instruction enters the M queue (R199). -/
def enterM (s : State) (x : Ctx) (op : Instr) (opc : Nat) (f : MFields) (steps : Nat) (vec : Vec)
    (groups : List (Nat × Nat × Nat)) : SlotRes :=
  let w : MWork :=
    { op := op, fmt := x.seen.fmt, abase := seenG x f.abase.toNat, bbase := seenG x f.bbase.toNat, vec := vec,
      steps := steps, done := 0, started := false, spans := 0,
      slots := slotMask (slotsOf (mRanges s s.cur x opc f)), groups := groups, formed := none,
      planes := 0, sums := [], early := [] }
  .done s { x with mq := x.mq ++ [w] }

/-- `mma` (R203). -/
def execMma (f : MFields) (s : State) : Ans := mOp 1 f s fun x => enterM s x (.mma f) 1 f (stepsOf f) 0 []

/-- `mmaz` (R204). -/
def execMmaz (f : MFields) (s : State) : Ans := mOp 2 f s fun x => enterM s x (.mmaz f) 2 f (stepsOf f) 0 []

/-- `mmap` (R209). -/
def execMmap (f : MFields) (s : State) : Ans := mOp 3 f s fun x => enterM s x (.mmap f) 3 f (stepsOf f) 0 []

/-- An imprecise fault that the bundle raises, held at its end behind those of its earlier slots (R137). -/
def raiseLate (x : Ctx) (f : HeldFault) : Ctx := modIssue x fun i => { i with fault := some f }

/-- `mgrp` (R206): the group table is read in full at issue, where rows past the bound raise GROUP_OVERRUN, in issue order
(R137). -/
def execMgrp (f : MFields) (s : State) : Ans :=
  mOp 4 f s fun x =>
    let (gs, past) := groupsOf s s.cur x f x.seen.fmt
    let s := (opRead s s.cur x (tableBase x f) (4 * (f.cnt5.toNat + 1))).2
    let x := if past then raiseLate x { who := none, code := 0x12, slot := 3, opnd := f.acc.toNat, tinfo := 0 } else x
    enterM s x (.mgrp f) 4 f 1 0 gs

/-- `mtrn` (R208). -/
def execMtrn (f : MFields) (s : State) : Ans := mOp 5 f s fun x => enterM s x (.mtrn f) 5 f 1 0 []

/-- `mscl` (R207): the vector is popped or peeked at issue. -/
def execMscl (f : MFields) (s : State) : Ans :=
  mOp 6 f s fun x => withV x f.qsrc fun v x => enterM s x (.mscl f) 6 f 1 v []

/-- `mfill` (R208). -/
def execMfill (f : MFields) (s : State) : Ans :=
  mOp 7 f s fun x => withV x f.qsrc fun v x => enterM s x (.mfill f) 7 f 1 v []

/-- `mmov` (R208). -/
def execMmov (f : MFields) (s : State) : Ans := mOp 8 f s fun x => enterM s x (.mmov f) 8 f 1 0 []

/-- `madd` (R208). -/
def execMadd (f : MFields) (s : State) : Ans := mOp 9 f s fun x => enterM s x (.madd f) 9 f 1 0 []

/-- `mwait` (R201, R202): once its bundle may issue it has no other effect than its one datapath cycle. -/
def execMwait (f : MFields) (s : State) : Ans := mOp 10 f s fun x => enterM s x (.mwait f) 10 f 1 0 []

/-! ### Accumulators -/

/-- The address of accumulator tile n of a context. -/
def accAddr (x : Ctx) (n : Nat) : Nat := 16384 * (x.tileBase + n)

/-- Bytes of a tile in a view (R195): the FP64 view is the lower 8 KiB. -/
def viewBytes (fmt : Word) : Nat := if pairOf fmt = 2 then 8192 else 16384

/-- Element width of the accumulator view. -/
def viewWidth (fmt : Word) : Nat := if pairOf fmt = 2 then 64 else 32

/-- Format of the accumulator view. -/
def viewFmt (fmt : Word) : FFmt := if pairOf fmt = 2 then f64 else f32

/-- The elements of a tile in a view, row by row (R143), with what their reading has noted (R283). -/
def readAcc (s : State) (c : CtxId) (x : Ctx) (fmt : Word) (n : Nat) : List Nat × State :=
  let (bs, s) := readAs s (.ctx x.task) (.acc c.core) (accAddr x n) (viewBytes fmt)
  (unpackW (viewWidth fmt) (edgeOf fmt * edgeOf fmt) (natOfBytes bs), s)

/-- A tile's elements written. -/
def putTile (s : State) (c : CtxId) (x : Ctx) (fmt : Word) (n : Nat) (es : List Nat) : State :=
  writeAs s (.ctx x.task) (.acc c.core) (accAddr x n) (bytesOf (viewBytes fmt) (packW (viewWidth fmt) es))

/-- Rows of n elements. -/
def rowsOf (n : Nat) (es : List Nat) : List (List Nat) := chunks n n es

/-- Rows turned into columns, n of them. -/
def columnsOf (n : Nat) (rows : List (List Nat)) : List (List Nat) :=
  (List.range n).map fun j => rows.map fun r => nth r j 0

/-! ### Product arithmetic (R53 to R55, R203) -/

/-- The chunk sums of one element: z plus the products in chunks of k, each exact and rounded once (R54). -/
def chunkSums (F : FFmt) (k : Nat) : Nat → List (FVal × FVal) → Nat → Nat
  | 0, _, z => z
  | fuel + 1, ps, z =>
    if ps.isEmpty then z
    else chunkSums F k fuel (ps.drop k)
      (rne F (fsum .rne ((ps.take k).map (fun p => fmul p.1 p.2) ++ [fdec F z])))

/-- The operand format of a floating pair. -/
def operandFmt (fmt : Word) : FFmt :=
  match pairOf fmt with
  | 0 => bf16
  | 1 => f16
  | _ => f64

/-- The exact value of a truncated weight, offset included, from its p plane bits (R52, R53). -/
def planeWeight (p tile e : Nat) : Int :=
  let base : Int := if p < 8 then 2 ^ (7 - p) else 0
  (List.range p).foldl (fun acc q =>
    if tile.testBit (4096 * q + e) then acc + (if q = 0 then -128 else 2 ^ (7 - q)) else acc) base

/-- The FP32 of an integer half times its scales (R53). -/
def scaledHalf (acc : Int) (rs cs : Nat) : Nat :=
  mul32 (mul32 (rne f32 (fofInt acc)) rs) cs

/-- A scale of a tile widened to FP32: row scales are elements 0 to 63, column scales 64 to 127 (R48, R207). -/
def scaleAt (scales : BitVec 2048) (i : Nat) : Nat := elemW 16 scales.toNat i * 2 ^ 16

/-- The operands of one element of a step: for a floating pair the products in ascending k, and for the integer pair
the exact sum (R53, R54). -/
def floatPairs (fmt : Word) (row col : List Nat) : List (FVal × FVal) :=
  let F := operandFmt fmt
  List.zipWith (fun a b => (fdec F a, fdec F b)) row col

/-- The weight that planes lo up to hi of a tile give an element, without the offset (R53, R205). -/
def planeSpan (lo hi tile e : Nat) : Int :=
  ((List.range hi).drop lo).foldl (fun acc q =>
    if tile.testBit (4096 * q + e) then acc + (if q = 0 then -128 else 2 ^ (7 - q)) else acc) 0

/-- The exact value of a truncated weight from plane d on, offset included. -/
def weightFrom (d p tile e : Nat) : Int := planeSpan d p tile e + (if p < 8 then 2 ^ (7 - p) else 0)

/-- The exact integer of R53 for a row of A and a column of weights. -/
def intHalf (row : List Int) (col : List Int) : Int :=
  (List.zipWith (· * ·) row col).foldl (· + ·) 0

/-- Chunk size of a floating pair (R54). -/
def chunkOf (fmt : Word) : Nat := if pairOf fmt = 2 then 4 else 8

/-- A's rows as integers. -/
def intRows (a : Nat) : List (List Int) := (rowsOf 64 (unpackW 8 4096 a)).map fun r => r.map (sext 8)

/-- B's columns as truncated weights (R51, R52): element e is row e >> 6, column e & 63. -/
def weightCols (fmt : Word) (b : Nat) : List (List Int) :=
  (List.range 64).map fun j => (List.range 64).map fun k => planeWeight (planesOf fmt) b (64 * k + j)

/-- B's columns of values that each element of a tile gives. -/
def colsBy (v : Nat → Int) : List (List Int) := (List.range 64).map fun j => (List.range 64).map fun k => v (64 * k + j)

/-- The exact sums of planes lo up to hi for every element, row by row, added to those given (R53, R205). -/
def addPlanes (a : Nat) (cols : List (List Int)) (sums : List Int) : List Int :=
  let rows := intRows a
  (List.range 4096).map fun e => nth sums e 0 + intHalf (nth rows (e / 64) []) (nth cols (e % 64) [])

/-- A plane step's exact integers, from the sums of the planes done before a halt on (R53, R205). -/
def planeTotals (fmt : Word) (a b done : Nat) (sums : List Int) : List Int :=
  addPlanes a (colsBy (weightFrom done (planesOf fmt) b)) sums

/-- A tile updated by exact integers with its scales (R53). -/
def scaledRows (fmt : Word) (scales : BitVec 2048) (totals : List Int) (z : List Nat) : List Nat :=
  z.zipIdx.map fun p =>
    let one := fmt.getLsbD 12
    let rs := if one then scaleAt scales (p.2 / 64) else 0x3F800000
    let cs := if one then scaleAt scales (64 + p.2 % 64) else 0x3F800000
    sum32 [p.1, scaledHalf (nth totals p.2 0) rs cs]

/-- One row of the accumulator view updated by a step (R203): `i` the row, `scales` the tile's. -/
def rowUpdate (fmt : Word) (scales : BitVec 2048) (i : Nat) (arow : List Nat) (arowI : List Int)
    (bcols : List (List Nat)) (wcols : List (List Int)) (zrow : List Nat) : List Nat :=
  if pairOf fmt = 3 then
    (List.zip wcols zrow).zipIdx.map fun p =>
      let one := fmt.getLsbD 12
      let rs := if one then scaleAt scales i else 0x3F800000
      let cs := if one then scaleAt scales (64 + p.2) else 0x3F800000
      sum32 [p.1.2, scaledHalf (intHalf arowI p.1.1) rs cs]
  else
    List.zipWith (fun col z => chunkSums (viewFmt fmt) (chunkOf fmt) 16 (floatPairs fmt arow col) z) bcols zrow

/-- The rows [lo, hi) of a tile updated by a step with the A and B tiles given as numbers. -/
def stepRows (fmt : Word) (scales : BitVec 2048) (a b lo hi : Nat) (z : List Nat) : List Nat :=
  let n := edgeOf fmt
  let w := (operandFmt fmt).width
  let int := decide (pairOf fmt = 3)
  let arows := if int then List.replicate 64 [] else rowsOf n (unpackW w (n * n) a)
  let arowsI := if int then intRows a else []
  let bcols := if int then [] else columnsOf n (rowsOf n (unpackW w (n * n) b))
  let wcols := if int then weightCols fmt b else []
  (((rowsOf n z).zip arows).zipIdx.map fun p =>
    if lo ≤ p.2 ∧ p.2 < hi then
      rowUpdate fmt scales p.2 p.1.2 (nth arowsI p.2 []) bcols wcols p.1.1
    else p.1.1).flatten

/-- A step's halves added exactly: element (i, j) of a paired step (R209), lead first. -/
def pairRows (fmt : Word) (scales : BitVec 2048) (a b a' b' : Nat) (z : List Nat) : List Nat :=
  let n := edgeOf fmt
  let w := (operandFmt fmt).width
  if pairOf fmt = 3 then
    let r := intRows a
    let r' := intRows a'
    let c := weightCols fmt b
    let c' := weightCols fmt b'
    z.zipIdx.map fun p =>
      let i := p.2 / n
      let j := p.2 % n
      let one := fmt.getLsbD 12
      let rs := if one then scaleAt scales i else 0x3F800000
      let cs := if one then scaleAt scales (64 + j) else 0x3F800000
      sum32 [p.1, scaledHalf (intHalf (nth r i []) (nth c j []) + intHalf (nth r' i []) (nth c' j [])) rs cs]
  else
    let r := rowsOf n (unpackW w (n * n) a)
    let r' := rowsOf n (unpackW w (n * n) a')
    let c := columnsOf n (rowsOf n (unpackW w (n * n) b))
    let c' := columnsOf n (rowsOf n (unpackW w (n * n) b'))
    let k := chunkOf fmt
    z.zipIdx.map fun p =>
      let i := p.2 / n
      let j := p.2 % n
      let ps := chunks k 16 (floatPairs fmt (nth r i []) (nth c j []))
      let qs := chunks k 16 (floatPairs fmt (nth r' i []) (nth c' j []))
      chunkSums (viewFmt fmt) (2 * k) 16 ((List.zipWith (· ++ ·) ps qs).flatten) p.1

/-! ### Steps whose spans read their tiles at different times (R205, R210) -/

/-- The 8-cycle span of a float step that adds chunk c of an element of row i: one chunk of every element, or for f64 of eight
rows. That an f64 step takes its chunks in ascending order, each with its rows from the top, is log 146. -/
def spanAt (fmt : Word) (i c : Nat) : Nat := if pairOf fmt = 2 then 4 * c + i / 8 else c

/-- The tiles that a span of a step reads: those kept for it at a halt, else those that stand now. -/
def tilesAt (early : List TileSpan) (a b span : Nat) : Nat × Nat :=
  match early.find? fun t => decide (span < t.upto) with
  | some t => (t.a.toNat, t.b.toNat)
  | none => (a, b)

/-- The operands of chunk c of element (i, j) from tiles A and B (R54). -/
def chunkPairs (fmt : Word) (ab : Nat × Nat) (i j c : Nat) : List (FVal × FVal) :=
  let F := operandFmt fmt
  let n := edgeOf fmt
  let k := chunkOf fmt
  (List.range k).map fun d =>
    (fdec F (elemW F.width ab.1 (n * i + k * c + d)), fdec F (elemW F.width ab.2 (n * (k * c + d) + j)))

/-- The chunks of element (i, j) of a float step, each from the tiles that its span reads. -/
def splitChunks (fmt : Word) (early : List TileSpan) (a b i j : Nat) : List (List (FVal × FVal)) :=
  (List.range (edgeOf fmt / chunkOf fmt)).map fun c => chunkPairs fmt (tilesAt early a b (spanAt fmt i c)) i j c

/-- A tile updated by a float step that a halt cut in two (R205). -/
def splitRows (fmt : Word) (early : List TileSpan) (a b : Nat) (z : List Nat) : List Nat :=
  z.zipIdx.map fun p =>
    chunkSums (viewFmt fmt) (chunkOf fmt) 16 (splitChunks fmt early a b (p.2 / edgeOf fmt) (p.2 % edgeOf fmt)).flatten p.1

/-- The same for a paired float step: the lead's half, then the half supplied (R209, R210). -/
def splitPairRows (fmt : Word) (early : List TileSpan) (a b : Nat) (h : PairHalf) (z : List Nat) : List Nat :=
  z.zipIdx.map fun p =>
    let i := p.2 / edgeOf fmt
    let j := p.2 % edgeOf fmt
    chunkSums (viewFmt fmt) (2 * chunkOf fmt) 16
      (List.zipWith (· ++ ·) (splitChunks fmt early a b i j) (splitChunks fmt h.early h.a.toNat h.b.toNat i j)).flatten p.1

/-! ### The end of a step -/

/-- The tile an operand-memory address names, as a number of n bytes, with what its reading has noted (R283). -/
def readTile (s : State) (c : CtxId) (x : Ctx) (base n : Nat) : Nat × State :=
  let (bs, s) := opRead s c x (base / 512 * 512) n
  (natOfBytes bs, s)

/-- A scale pair of a context's tile. -/
def getScales (x : Ctx) (n : Nat) : BitVec 2048 := x.scales.toList.getD n 0

/-- The effect of an M instruction's step, at its end (R203 to R208); `mmap` steps commit when their halves meet. -/
def stepEffect (s : State) (c : CtxId) (x : Ctx) (w : MWork) : State × Ctx :=
  let f := mFields w.op
  let n := f.acc.toNat
  let fmt := w.fmt
  match mOpc w.op with
  | 1 | 2 =>
    let (a, s) := readTile s c x w.abase.toNat (aBytes fmt)
    let (b, s) := readTile s c x w.bbase.toNat (bBytes fmt)
    let (z, s) := if mOpc w.op = 2 ∧ w.done = 0 then (List.replicate (edgeOf fmt * edgeOf fmt) 0, s) else readAcc s c x fmt n
    if !w.sums.isEmpty then (putTile s c x fmt n (scaledRows fmt (getScales x n) (planeTotals fmt a b w.planes w.sums) z), x)
    else if !w.early.isEmpty then (putTile s c x fmt n (splitRows fmt w.early a b z), x)
    else (putTile s c x fmt n (stepRows fmt (getScales x n) a b 0 (edgeOf fmt) z), x)
  | 4 =>
    let (a, s) := readTile s c x w.abase.toNat (aBytes fmt)
    let (z, s) := w.groups.foldl (fun acc g =>
      let (b, s) := readTile acc.2 c x g.2.2 (bBytes fmt)
      (stepRows fmt (getScales x n) a b g.1 g.2.1 acc.1, s)) (readAcc s c x fmt n)
    (putTile s c x fmt n z, x)
  | 5 =>
    let e := edgeOf fmt
    let (y, s) := readAcc s c x fmt f.zsrc.toNat
    (putTile s c x fmt n (columnsOf e (rowsOf e y)).flatten, x)
  | 6 => (s, { x with scales := x.scales.setIfInBounds n (BitVec.ofNat 2048 w.vec.toNat) })
  | 7 =>
    let row := unpackW (viewWidth fmt) (edgeOf fmt) w.vec.toNat
    (putTile s c x fmt n (List.replicate (edgeOf fmt) row).flatten, x)
  | 8 =>
    let (y, s) := readAcc s c x fmt f.zsrc.toNat
    (putTile s c x fmt n y, x)
  | 9 =>
    let F := viewFmt fmt
    let (z, s) := readAcc s c x fmt n
    let (y, s) := readAcc s c x fmt f.zsrc.toNat
    (putTile s c x fmt n (List.zipWith (fun a b => rne F (fsum .rne [fdec F a, fdec F b])) z y), x)
  | _ => (s, x)

/-- The datapath cycles of an instruction's step (R195, R201). -/
def workCycles (w : MWork) : Nat :=
  match mOpc w.op with
  | 1 | 2 | 3 => stepCycles w.fmt
  | 4 => max 1 ((w.groups.map fun g => (g.2.1 - g.1 + 7) / 8 * groupUnit w.fmt).foldl (· + ·) 0)
  | 6 | 10 => 1
  | _ => 8

/-- The current instruction with its finished step, which ended in the cycle before now, counted, or retired after its
last. -/
def countStep (s : State) (c : CtxId) (x : Ctx) (w : MWork) : Ctx :=
  if w.steps ≤ w.done + 1 then retireM (s.now - 1) c x w
  else { x with mq := { w with done := w.done + 1, started := false, spans := 0, formed := none, planes := 0, sums := [], early := [] } :: x.mq.drop 1 }

/-- The end of the step on the datapath (R199): its effect, or for `mmap` its own half formed, in the cycle before now. -/
def endStep (s : State) (c : CtxId) (x : Ctx) : State :=
  match x.mq with
  | [] => s
  | w :: _ =>
    if mOpc w.op = 3 then
      setCtx s c { x with mq := { w with formed := some (s.now - 1) } :: x.mq.drop 1 }
    else
      let (s, x) := stepEffect s c x w
      setCtx s c (countStep s c x w)

/-- Whether a context's current instruction can start its next step (R199, R201, R209): not while the slice halts or waits
for its restore. -/
def canStart (s : State) (x : Ctx) : Bool :=
  match x.mq with
  | [] => false
  | w :: _ =>
    w.formed.isNone && !x.halting && x.blocked.isEmpty &&
    (let f := mFields w.op
     let busy := fun n => x.mlast = some n && decide (s.now < x.accBusy.toList.getD n 0)
     match mOpc w.op with
     | 5 | 8 => !busy f.zsrc.toNat
     | 9 => !(busy f.zsrc.toNat || busy f.acc.toNat)
     | _ => true)

/-- The next step of a context's current instruction started on the datapath, from the span it was parked at. -/
def startStep (s : State) (c : CtxId) (x : Ctx) : State :=
  match x.mq with
  | [] => s
  | w :: rest =>
    let (x, w) := if !w.started && 0 < w.done then stepBases x w else (x, w)
    let left := workCycles w - 8 * w.spans
    let s := setCtx s c { x with mq := { w with started := true } :: rest }
    modCore s c.core fun k => { k with dp := some (c.ctx, s.now + max 1 left) }

/-- The datapath of a core at a step boundary takes context 0's next step, else context 1's (R199). While context 0's current
`mtrn`, `mmov` or `madd` waits out the 8 cycles of R201 it has no step to start, and context 1's starts: the manual does not say
(DESIGN CHOICE, log 141). -/
def startDatapath (s : State) (core : Nat) : State :=
  if (getCore s core).dp.isSome then s else
  match getCtx s ⟨core, 0⟩, getCtx s ⟨core, 1⟩ with
  | some x, y =>
    if canStart s x then startStep s ⟨core, 0⟩ x
    else match y with
      | some y => if canStart s y then startStep s ⟨core, 1⟩ y else s
      | none => s
  | none, some y => if canStart s y then startStep s ⟨core, 1⟩ y else s
  | none, none => s

/-- Whether a halting context's step stops at a span before its end (R314): the step is parked, not performed. -/
def parked (x : Ctx) : Bool :=
  match x.mq with
  | w :: _ => x.halting && decide (8 * w.spans < workCycles w)
  | [] => false

/-- A step of a product parked after a span (R205): for a plane step the exact sums over its planes done, for another the tiles
that its spans done have read. -/
def parkSpans (s : State) (c : CtxId) (x : Ctx) : State × Ctx :=
  match x.mq with
  | w :: rest =>
    if mOpc w.op ≤ 3 ∧ 0 < w.spans then
      let (a, s) := readTile s c x w.abase.toNat (aBytes w.fmt)
      let (b, s) := readTile s c x w.bbase.toNat (bBytes w.fmt)
      let w := if pairOf w.fmt = 3 then
          { w with planes := w.spans, sums := addPlanes a (colsBy (planeSpan w.planes w.spans b)) w.sums }
        else { w with early := w.early ++ [{ upto := w.spans, a := BitVec.ofNat 65536 a, b := BitVec.ofNat 65536 b }] }
      (s, { x with mq := w :: rest })
    else (s, x)
  | [] => (s, x)

/-- M_STEP (R199): the step on the datapath ends once it has run its cycles, or parks; a free datapath starts the next. -/
def execMStep (core : Nat) (s : State) : Ans :=
  .next (match (getCore s core).dp with
    | some (k, due) =>
      if s.now < due then s
      else
        let s := modCore s core fun q => { q with dp := none }
        let c : CtxId := ⟨core, k⟩
        match getCtx s c with
        | some x =>
          if parked x then
            (let (s, x) := parkSpans s c x
             setCtx s c x)
          else endStep s c x
        | none => s
    | none => startDatapath s core)

/-! ### The paired product (R209 to R212) -/

/-- A context's current `mmap` whose own half is formed. -/
def formedPair (x : Ctx) : Option MWork :=
  match x.mq with
  | w :: _ => if mOpc w.op = 3 ∧ w.formed.isSome then some w else none
  | [] => none

/-- PAIR_STEP_TIMEOUT (R210, R211): the step whose half was formed 65,536 cycles ago is still waiting. The manual's limit is
an upper bound (R374); the model ends the wait in that very cycle (DESIGN CHOICE, log 110). A partner without a resident lead has
no buffer that is full: its cycles count from the forming of its half too (DESIGN CHOICE, log 143). -/
def execPairStepTimeout (c : CtxId) (step : Nat) (s : State) : Ans :=
  .next (match getCtx s c with
    | none => s
    | some x =>
      match formedPair x with
      | some w => if x.pairs = step ∧ w.formed.any (fun t => decide (t + 65536 ≤ s.now)) then abandonPair s s.now c x else s
      | none => s)

/-- The format fields that the two sides of a paired step must share (R210). -/
def pairKey (fmt : Word) : Nat × Nat × Nat := (field fmt 5 0, field fmt 8 6, field fmt 12 12)

/-- Whether every span of a half has been supplied. -/
def wholeHalf (h : PairHalf) : Bool := decide (stepCycles h.fmt ≤ 8 * h.spans)

/-- Whether a lead's pairing buffer takes spans of a partner's step (R209, R210): it is empty, or holds the first spans of that
very step. -/
def takesSpans (x y : Ctx) : Bool := x.pairBuf.all fun h => h.step = y.pairs && !wholeHalf h

/-- A partner's half as far as its spans go, with what the lead's buffer holds of it (R209, R210). -/
def halfOf (s : State) (part : CtxId) (y : Ctx) (w : MWork) (old : Option PairHalf) (spans : Nat) : PairHalf × State :=
  let (a, s) := readTile s part y w.abase.toNat (aBytes w.fmt)
  let (b, s) := readTile s part y w.bbase.toNat (bBytes w.fmt)
  let early := ((old.map fun h => h.early).getD []) ++ w.early
  let (planes, sums) := match old with
    | some h => if w.planes < h.planes then (h.planes, h.sums) else (w.planes, w.sums)
    | none => (w.planes, w.sums)
  ({ step := y.pairs, fmt := w.fmt, a := BitVec.ofNat 65536 a, b := BitVec.ofNat 65536 b, planes := planes, sums := sums,
     early := early, spans := spans }, s)

/-- A partner's formed half moves into the lead's pairing buffer, and the partner goes on (R209). -/
def supplyHalf (s : State) (lead part : CtxId) : State :=
  match getCtx s lead, getCtx s part with
  | some x, some y =>
    match formedPair y with
    | some w =>
      if takesSpans x y then
        let (h, s) := halfOf s part y w x.pairBuf (stepCycles w.fmt / 8)
        let s := setCtx s lead { x with pairBuf := some h, mate := some y.task }
        setCtx s part { countStep s part y w with pairs := y.pairs + 1, mate := some x.task }
      else s
    | none => s
  | _, _ => s

/-- The spans of a context's step in progress that are done. -/
def spansDone (s : State) (c : CtxId) (w : MWork) : Nat :=
  match (getCore s c.core).dp with
  | some (k, due) => if k = c.ctx then (workCycles w - (due - s.now)) / 8 else w.spans
  | none => w.spans

/-- The first n spans of a half kept as they were formed. -/
def cutHalf (h : PairHalf) : PairHalf :=
  if pairOf h.fmt = 3 then
    { h with planes := h.spans, sums := addPlanes h.a.toNat (colsBy (planeSpan h.planes h.spans h.b.toNat)) h.sums }
  else { h with early := h.early ++ [{ upto := h.spans, a := h.a, b := h.b }] }

/-- The halves of spans that a partner has formed of its step in progress stand in the lead's pairing buffer when one of the two
slices leaves, and are saved with the lead (R209, R210). -/
def supplySpans (s : State) (lead part : CtxId) : State :=
  match getCtx s lead, getCtx s part with
  | some x, some y =>
    match currentPair y with
    | some w =>
      let n := spansDone s part w
      if w.started && w.formed.isNone && takesSpans x y && decide (((x.pairBuf.map fun h => h.spans).getD 0) < n) then
        let (h, s) := halfOf s part y w x.pairBuf n
        setCtx s lead { x with pairBuf := some (cutHalf h) }
      else s
    | none => s
  | _, _ => s

/-- The two sides of a paired product as one of their slices leaves (R209, R210, R212): the halves formed are supplied, and each
knows the other. -/
def partPair (s : State) (c : CtxId) : State :=
  match getCtx s c with
  | none => s
  | some x =>
    match partnerCtx s c x with
    | none => s
    | some d =>
      if !pairOpen x && !(getCtx s d).any pairOpen then s
      else
        let s := if leads c.core then supplySpans s c d else supplySpans s d c
        let s := modCtx s c fun x => { x with mate := ((getCtx s d).map fun y => y.task) }
        modCtx s d fun y => { y with mate := some x.task }

/-- A lead's formed half meets the half in its buffer: the step commits, or is abandoned where the sides' formats
differ (R209, R210). -/
def commitPair (s : State) (lead : CtxId) : State :=
  match getCtx s lead with
  | none => s
  | some x =>
    match x.pairBuf, formedPair x with
    | some h, some w =>
      if !wholeHalf h then s
      else if pairKey h.fmt ≠ pairKey w.fmt then abandonPair s (s.now - 1) lead x
      else if h.step ≠ x.pairs then s
      else
        let n := (mFields w.op).acc.toNat
        let (a, s) := readTile s lead x w.abase.toNat (aBytes w.fmt)
        let (b, s) := readTile s lead x w.bbase.toNat (bBytes w.fmt)
        let (z, s) := readAcc s lead x w.fmt n
        let z := if !w.early.isEmpty || !h.early.isEmpty then splitPairRows w.fmt w.early a b h z
          else if w.sums.isEmpty && h.sums.isEmpty then pairRows w.fmt (getScales x n) a b h.a.toNat h.b.toNat z
          else scaledRows w.fmt (getScales x n) (List.zipWith (· + ·) (planeTotals w.fmt a b w.planes w.sums)
            (planeTotals h.fmt h.a.toNat h.b.toNat h.planes h.sums)) z
        setCtx (putTile s lead x w.fmt n z) lead { countStep s lead x w with pairs := x.pairs + 1, pairBuf := none }
    | _, _ => s

/-- PAIR_HALF_ARRIVAL (R209): a half that has been formed at context c reaches the lead's pairing buffer, and a step
whose two halves are there commits. -/
def execPairHalfArrival (c : CtxId) (s : State) : Ans :=
  .next (match getCtx s c with
    | none => s
    | some x =>
      match partnerCtx s c x with
      | none => s
      | some d =>
        let lead := if leads c.core then c else d
        let part := if leads c.core then d else c
        let s := commitPair (supplyHalf s lead part) lead
        commitPair (supplyHalf s lead part) lead)

end Sys2Proof.Machine
end

