-- ==== Sys2Proof/Machine/Issue.lean ====
section
/-! DEFINITION. The merge stage and the issue of a bundle: fetch (R62), the decode outcomes of R77 in their order, what
holds a bundle back, repetition and sticky slots (R79, R80), the merge of the two contexts (R30), the end of an issue
with its marks, reservations, transfer or end check (R83, R111, R114), landings (R82) and pending fmt writes (R121). -/

namespace Sys2Proof.Machine

/-! ### The bundle at the PC -/

/-- The parcels from a PC on: all of them, or the PC of the first that is missing. -/
def fetchParcels (s : State) (c : CtxId) (x : Ctx) : Nat → Word → Except Word (List Word)
  | 0, _ => .ok []
  | n + 1, pc =>
    match parcelAt s c x pc.toNat with
    | none => .error pc
    | some w =>
      match fetchParcels s c x n (pc + 4) with
      | .ok ws => .ok (w :: ws)
      | .error e => .error e

/-- The template and the parcels after it of the bundle at a PC (R62). -/
def fetchBundle (s : State) (c : CtxId) (x : Ctx) : Except Word (Word × List Word) :=
  match parcelAt s c x x.pc.toNat with
  | none => .error x.pc
  | some t =>
    match fetchParcels s c x (bundleParcels t - 1) (x.pc + 4) with
    | .ok ws => .ok (t, ws)
    | .error e => .error e

/-- One slot of a bundle: the slot, the instruction it issues (none for a sticky slot whose memory is empty), and whether
this issue is a sticky one (R79, R80). -/
structure Offer where
  slot : Slot
  instr : Option Instr
  sticky : Bool
deriving DecidableEq, Repr, Inhabited

/-- The instruction a slot's sticky memory holds. -/
def stickyInstr (x : Ctx) (sl : Slot) : Option Instr := alGet x.sticky sl

/-- The slots of a bundle that are present or sticky, in order. A repetition issues the bundle's present slots again from its
words (R80), also where an earlier issue of it reached a boundary point, which empties the memories (R79): the manual does not
say which holds there (DESIGN CHOICE, log 109). -/
def offers (x : Ctx) (t : Word) (present : List (Slot × Instr)) : List Offer :=
  slotOrder.filterMap fun sl =>
    match templateState t sl with
    | 2 => some { slot := sl, instr := alGet present sl, sticky := decide (0 < x.rep) }
    | 0 => some { slot := sl, instr := stickyInstr x sl, sticky := true }
    | _ => none

/-- The form of an instruction a slot issues. -/
def Offer.form (o : Offer) : Option SlotForm := o.instr.bind formOf

/-- Whether an instruction executes under the predicates seen (R81). -/
def Offer.runs (x : Ctx) (o : Offer) : Bool :=
  match o.form with
  | some f => executes x f.guard.1 f.guard.2
  | none => false

/-- The first slot, in order, for which a check answers. -/
def firstTrap {α : Type} (os : List Offer) (k : Offer → SlotForm → Option α) : Option (Nat × α) :=
  os.findSome? fun o => match o.form with
    | some f => (k o f).map fun a => (slotNumber o.slot, a)
    | none => none

/-! ### R77, rows one to six -/

/-- Whether the C slot's instruction transfers control, by its opcode (R78). -/
def hasTransfer (x : Ctx) (t : Word) (ws : List DWord) : Bool :=
  match templateState t .c with
  | 2 => (match ws with
    | w :: _ => transferC (w.extractLsb' 56 8).toNat
    | [] => false)
  | 0 => (match (stickyInstr x .c).bind formOf with
    | some f => transferC f.opc
    | none => false)
  | _ => false

/-- The first row of R77: ILLEGAL_BUNDLE. -/
def illegalBundle (x : Ctx) (t : Word) (ws : List DWord) : Bool :=
  templateIllegal t || !stopsOk (ws.take (presentCount t)) || (templateRep t ≠ 0 && hasTransfer x t ws)

/-- A loop instruction whose end offset does not reach past its own bundle (R112). -/
def shortLoop (parcels : Nat) (f : SlotForm) : Bool :=
  match f with
  | .c o g => (o = 0x25 || o = 0x26) && decide (immBits g 23 12 < parcels)
  | _ => false

/-- The instruction of the C slot, present or sticky, where its word is one. -/
def offeredC (x : Ctx) (t : Word) (ws : List DWord) : Option Instr :=
  match templateState t .c with
  | 2 => ws.head?.bind (decodeSlot .c)
  | 0 => stickyInstr x .c
  | _ => none

/-- A loop instruction in the C slot that is illegal for its bundle's length: the first slot of the row ILLEGAL_OPCODE. -/
def illegalLoop (x : Ctx) (t : Word) (ws : List DWord) : Bool :=
  ((offeredC x t ws).bind formOf).any (shortLoop (bundleParcels t))

/-- A tag beyond the declared count that a C instruction names (R77, R120, R130). -/
def cTag (x : Ctx) (f : SlotForm) : Option Nat :=
  match f with
  | .c o g => if o = 0x2F ∨ o = 0x37 then beyond (hdrTags x.hdr) (immBits g 5 0) 1 else none
  | _ => none

/-- A queue beyond its bank's declared count, named by a field in use (R77). -/
def badQueue (x : Ctx) (f : SlotForm) : Option Nat :=
  let lim := fun (b : Bank) => if b = .v then hdrVq x.hdr else hdrSq x.hdr
  let srcs := f.sources.filterMap fun s => if s.1.toNat % 64 < 32 then some (s.2, s.1.toNat % 64) else none
  let named := match f with
    | .c o g => if o = 0x15 ∨ o = 0x32 then [namedQueue g] else []
    | _ => []
  ((srcs ++ f.reserves.toList ++ named).find? fun q => decide (lim q.1 ≤ q.2)).map fun q => q.2

/-- The row UNPROVISIONED for one slot. -/
def unprovisioned (s : State) (c : CtxId) (x : Ctx) (f : SlotForm) : Option Nat :=
  let own := match f with
    | .t o g => (match tProvision x o g with
      | some (0x08, n) => some n
      | _ => none)
    | .m o g => mUnprovisioned s c x o g
    | _ => cTag x f
  match f with
  | .m .. => own.orElse fun _ => badQueue x f
  | _ => (badQueue x f).orElse fun _ => own

/-- The row UNCLAIMED_SLOT for one slot. -/
def unclaimed (s : State) (c : CtxId) (x : Ctx) (f : SlotForm) : Option Nat :=
  match f with
  | .t o g => tUnclaimed x o g
  | .m o g => mUnclaimed s c x o g
  | _ => none

/-- The row BARRIER_UNPROVISIONED for one slot. -/
def badBarrier (x : Ctx) (f : SlotForm) : Option Nat :=
  match f with
  | .t o g => (match tProvision x o g with
    | some (0x09, n) => some n
    | _ => none)
  | _ => none

/-- The third row of R77, PORT_MISMATCH: the first slot whose port count is not that of its queue reads. -/
def badPorts (t : Word) (os : List Offer) : Option Slot :=
  let needs := fun (sl : Slot) => match os.find? fun o => o.slot = sl with
    | some o => (o.form.map SlotForm.ports).getD 0
    | none => 0
  slotOrder.find? fun sl => portsFor t sl ≠ needs sl

/-- Rows four to six of R77, in their order: code, slot and operand number. They are made at every issue. -/
def checkRows (s : State) (c : CtxId) (x : Ctx) (os : List Offer) : Option (Nat × Nat × Nat) :=
  let row := fun (code : Nat) (k : SlotForm → Option Nat) =>
    (firstTrap os fun _ f => k f).map fun r => (code, r.1, r.2)
  (row 0x08 (unprovisioned s c x)).orElse fun _ =>
    (row 0x09 (badBarrier x)).orElse fun _ => row 0x0A (unclaimed s c x)

/-! ### R77, rows seven to ten -/

/-- A source read as its issue would read it: the error with the slot, and the context after it. -/
def tryRead (slot : Nat) (acc : List (Nat × Nat × Nat) × Ctx) (s : BitVec 8 × Bank) : List (Nat × Nat × Nat) × Ctx :=
  match readSel acc.2 s.1 s.2 with
  | .error (code, o) => (acc.1 ++ [(code, slot, o)], acc.2)
  | .ok (_, x) => (acc.1, x)

/-- What an instruction marks dead besides its last uses: `dead` (R123). -/
def deadMark (x : Ctx) (f : SlotForm) : Ctx :=
  match f with
  | .c 0x32 g => addMark x (namedQueue g)
  | _ => x

/-- UNDERFLOW or OVERFLOW of the loop stack (R113, R115). `loop` with count 0 pushes nothing. -/
def loopTrap (x : Ctx) (f : SlotForm) : List (Nat × Nat × Nat) :=
  match f with
  | .c o g =>
    let count : Word := match o with
      | 0x25 => if g.imm.getLsbD 11 then getE x (immBits g 2 0) else BitVec.ofNat 32 (immBits g 10 0)
      | 0x26 => (match readS x g.srcA with
        | .ok (w, _) => w
        | .error _ => 0)
      | _ => 0
    if o = 0x27 ∧ x.loops = [] then [(0x05, 0, 63)]
    else if o = 0x28 ∧ x.loops.length ≤ immBits g 2 0 then [(0x05, 0, 63)]
    else if count ≠ 0 ∧ 6 ≤ x.loops.length then [(0x04, 0, 63)]
    else []
  | _ => []

/-- The queues marked dead in an issue, killed (R83 step 2). -/
def applyMarks (x : Ctx) : Ctx :=
  match x.issue with
  | some i => i.marks.foldl (fun x q => killQueue x q.1 q.2) x
  | none => x

/-- A reservation tried: OVERFLOW where it would be the fifth entry. -/
def tryReserve (acc : List (Nat × Nat × Nat) × Ctx) (r : Nat × Bank × Nat) : List (Nat × Nat × Nat) × Ctx :=
  let q := getQueue acc.2 r.2.1 r.2.2
  if !q.dead && 4 ≤ q.entries.length then (acc.1 ++ [(0x04, r.1, r.2.2)], acc.2)
  else (acc.1, setQueue acc.2 r.2.1 r.2.2 (joinQueue q { id := 0, val := none, carry := [] }))

/-- An empty issue record. -/
def emptyIssue : Issue :=
  { pc := 0, parcels := 1, rep := 0, reps := 0, transfer := none, boundary := false, fault := none, marks := [], results := [],
    carried := [], wait := .none, newRng := none, detach := false, holdFor := 0, slots := [], ports := 0, fp64 := 0, div := 0 }

/-- Every trap of rows eight to ten that the executing instructions show, in slot order (R83 to R87). -/
def queueTraps (x : Ctx) (os : List Offer) : List (Nat × Nat × Nat) :=
  let fs := os.filterMap fun o => o.form.map fun f => (slotNumber o.slot, f)
  let x := { x with issue := some emptyIssue }
  let loops := fs.flatMap fun f => loopTrap x f.2
  let (reads, x) := fs.foldl (fun acc f =>
    let (ts, x) := f.2.sources.foldl (tryRead f.1) acc
    (ts, deadMark x f.2)) ([], x)
  let res := fs.filterMap fun f => f.2.reserves.map fun q => (f.1, q.1, q.2)
  let (full, _) := res.foldl tryReserve ([], applyMarks x)
  loops ++ reads ++ full

/-- Rows seven to ten of R77, in their order. FORMAT has no number of its own in R91: its TCAUSE.OPND is 0 (DESIGN CHOICE,
log 114). -/
def checkLastRows (x : Ctx) (os : List Offer) : Option (Nat × Nat × Nat) :=
  let isM := fun (o : Offer) => o.slot = .m
  if os.any isM && !fmtLegal x.seen.fmt then some (0x18, 3, 0)
  else
    let ts := queueTraps x os
    let pick := fun (p : Nat → Bool) => (sortBy (fun a b => decide (a.2.1 < b.2.1)) (ts.filter fun t => p t.1)).head?
    (pick fun c => c = 0x06 || c = 0x07).orElse fun _ =>
      (pick fun c => c = 0x05).orElse fun _ => pick fun c => c = 0x04

/-- The traps of an entry itself that a T or K instruction takes: a partition command in a region without a partition
(R160), a draw past the stream's end (R59). -/
def entryTrap (s : State) (x : Ctx) (f : SlotForm) : Option (Nat × Nat × Nat) :=
  match f with
  | .t o _ => if (o = 0x26 ∨ o = 0x27 ∨ o = 0x28) ∧ (getRegion s x.region).part = none then some (0x15, 1, 0) else none
  | .k 0x0F g => if rngExhausted x.rng (vimm g) then some (0x0E, 4, 0) else none
  | _ => none

/-! ### Stepping (R79) -/

/-- The memory bases that a sticky issue of an instruction steps. -/
def steppedBases (f : SlotForm) : List Nat :=
  match f with
  | .t o g => if gidxT o then [g.gidx.toNat] else []
  | .m o g => if (fieldsM o).1 then (if g.abase = g.bbase then [g.abase.toNat] else [g.abase.toNat, g.bbase.toNat]) else []
  | _ => []

/-- The context with the bases of every sticky issue stepped, whether or not it executes (R79, R81). A base that a sticky T and
a sticky M instruction of one bundle share is stepped once for each, and both use the register after both steps: the manual does
not say (DESIGN CHOICE, log 137). -/
def stepSticky (x : Ctx) (os : List Offer) : Ctx :=
  ((os.filter fun o => o.sticky).flatMap fun o => (o.form.map steppedBases).getD []).foldl stepG x

/-! ### What holds a bundle back -/

/-- The operand slots that M instructions in the queue keep busy (R88). -/
def mSlots (x : Ctx) : BitVec 16 := x.mq.foldl (fun m w => m ||| w.slots) 0

/-- Whether an operand slot's busy bit is set. -/
def slotIsBusy (s : State) (x : Ctx) (n : Nat) : Bool :=
  (mSlots x).getLsbD n || decide (s.now < x.slotBusy.toList.getD n 0)

/-- Whether an accumulator's busy bit is set by an M instruction. -/
def accBusyM (s : State) (c : CtxId) (x : Ctx) (n : Nat) : Bool :=
  decide (s.now < x.accBusy.toList.getD n 0) || x.mq.any fun w => (workAccs c w).contains n

/-- Whether an accumulator's busy bit is set by a T instruction. -/
def accBusyByT (s : State) (x : Ctx) (n : Nat) : Bool := decide (s.now < x.accBusyT.toList.getD n 0)

/-- The byte ranges a scratchpad load reads. -/
def loadRanges (x : Ctx) (o : Nat) (f : TFields) : List (Nat × Nat) :=
  match o with
  | 0x01 => [(eaTile x f, 512)]
  | 0x03 => [(eaWord x f, 4)]
  | 0x05 => (match readS x f.srcB with
    | .ok (b, _) => (strideAddrs (eaT x f) b).map fun a => (a, 4)
    | .error _ => [])
  | 0x07 => (match readV x f.srcA with
    | .ok (v, _) => (indexAddrs (eaT x f) v).map fun a => (a, 4)
    | .error _ => [])
  | 0x0B => [(eaTile x f, 8192)]
  | 0x0C => (match readS x f.srcB with
    | .ok (b, _) => [(eaTile x f, 512 * (field b 7 4 + 1))]
    | .error _ => [])
  | 0x0D => [(eaTile x f, 16384)]
  | _ => []

/-- Whether a load overlaps bytes that a streaming tile store has not written yet (R138): byte o of the tile is written
in cycle o ÷ 512 of the 32. -/
def behindStore (s : State) (x : Ctx) (rs : List (Nat × Nat)) : Bool :=
  decide (s.now < x.zstUntil) &&
    (let done := 512 * (32 - min 32 (x.zstUntil - s.now))
     rs.any fun r => decide (r.1 < x.zstLo + 16384) && decide (x.zstLo + done < r.1 + r.2))

/-- The commands that count against a context's 255 (R144). -/
def issuesCommand (f : SlotForm) : Bool :=
  match f with
  | .c o _ => o = 0x2F || o = 0x37
  | .t o _ => (0x10 ≤ o && o ≤ 0x16) || (0x22 ≤ o && o ≤ 0x25) || o = 0x27 || o = 0x2B
  | _ => false

/-- What an executing T instruction waits for without a boundary (R88, R138, R139, R142). -/
def tHeld (s : State) (c : CtxId) (x : Ctx) (o : Nat) (f : TFields) : Bool :=
  let n := f.dst.toNat % 16
  let port := decide (s.now < (getCore s c.core).tilePort)
  match o with
  | 0x0A => slotIsBusy s x n
  | 0x0B | 0x0C => slotIsBusy s x n || port || behindStore s x (loadRanges x o f)
  | 0x0D | 0x0E => accBusyM s c x n || accBusyByT s x n || port || behindStore s x (loadRanges x o f)
  | 0x0F => accBusyM s c x n || accBusyByT s x n
  | _ => behindStore s x (loadRanges x o f)

/-- The accumulators an M instruction reads; a partner's side of `mmap` reads none (R209), an `mmaz` its tile from its second
step on (R204). -/
def mReads (c : CtxId) (o : Nat) (f : MFields) : List Nat :=
  match o with
  | 1 | 4 => [f.acc.toNat]
  | 2 => if 1 < stepsOf f then [f.acc.toNat] else []
  | 3 => if leads c.core then [f.acc.toNat] else []
  | 5 | 8 => [f.zsrc.toNat]
  | 9 => [f.acc.toNat, f.zsrc.toNat]
  | _ => []

/-- What an M instruction waits for (R88, R143, R199, R202). -/
def mHeld (s : State) (c : CtxId) (x : Ctx) (o : Nat) (f : MFields) (runs : Bool) : Bool :=
  decide (2 ≤ x.mq.length) ||
    (runs && ((o = 0x0A && (!x.mq.isEmpty || (List.range 8).any fun n => decide (s.now < x.accBusy.toList.getD n 0))) ||
      (mReads c o f).any (accBusyByT s x) ||
      (slotsOf (mRanges s c x o f)).any fun n => decide (s.now < x.slotBusy.toList.getD n 0)))

/-- The cycles for which a V instruction occupies the FP64 path and the divide unit (R170, R171). -/
def vPaths (f : SlotForm) : Nat × Nat :=
  match f with
  | .v o g =>
    let d64 := g.type = 11
    if o = 0x0B ∨ o = 0x0C ∨ o = 0x0D ∨ o = 0x0E then (0, if d64 then 8 else 4)
    else
      let arith := (1 ≤ o ∧ o ≤ 0x0A) ∨ o = 0x0F ∨ o = 0x12 ∨ o = 0x13
      let conv := o = 0x11 ∨ o = 0x29 ∨ o = 0x2A
      if (arith ∧ d64) ∨ (conv ∧ (d64 ∨ g.stype = 11)) then (2, 0) else (0, 0)
  | _ => (0, 0)

/-- Whether a C instruction writes an address register that an M instruction still repeating uses (R109). -/
def baseHeld (x : Ctx) (f : SlotForm) : Bool :=
  match f with
  | .c o g =>
    (0x1D ≤ o && o ≤ 0x1F) &&
      x.mq.any fun w =>
        let m := mFields w.op
        m.rpt && (fieldsM (mOpc w.op)).1 && (m.abase.toNat = gDst g || m.bbase.toNat = gDst g) &&
          decide (w.done + (if w.started then 1 else 0) < w.steps)
  | _ => false

/-- The K instructions that touch the candidate file (R225). -/
def fileInstr (f : SlotForm) : Bool :=
  match f with
  | .k o _ => (0x0A ≤ o && o ≤ 0x0E) || o = 0x11 || o = 0x12
  | _ => false

/-- Whether an instruction holds its bundle back for a busy part of the core, with no wait state of its own. A file
instruction does so whether or not it executes (R218). -/
def heldOne (s : State) (c : CtxId) (x : Ctx) (runs : Bool) (f : SlotForm) : Bool :=
  let k := getCore s c.core
  let (fp, dv) := vPaths f
  (match f with
   | .m o g => mHeld s c x o g runs
   | .t o g => runs && tHeld s c x o g
   | _ => false) ||
    (runs && (baseHeld x f ||
      (0 < fp && decide (s.now < k.fp64Busy)) || (0 < dv && decide (s.now < k.divBusy)))) ||
    (fileInstr f && decide (s.now < x.fileUntil))

/-- The commands that a bundle's executing instructions issue. -/
def commandsIn (x : Ctx) (os : List Offer) : Nat := (os.filter fun o => o.runs x && o.form.any issuesCommand).length

/-- Whether a bundle is not able to issue: for a busy part of the core, or for a command that would be the 256th outstanding
(R144). -/
def isHeld (s : State) (c : CtxId) (x : Ctx) (os : List Offer) : Bool :=
  (decide (0 < commandsIn x os) && decide (255 < x.outstanding + commandsIn x os)) ||
    os.any fun o => match o.form with
      | some f => heldOne s c x (o.runs x) f
      | none => false

/-- The tag or barrier wait that an executing T instruction still has to make (R156, R158). One that names what its slice has not
been provided with makes none: its trap is taken at the issue (R77). -/
def tWait (s : State) (c : CtxId) (x : Ctx) (f : SlotForm) : Option Wait :=
  if (unprovisioned s c x f).isSome || (badBarrier x f).isSome then none else
  match f with
  | .t 0x17 g => if tagHeld x (tagRange g).1 (tagRange g).2 false then some (.tag (tagRange g).1 (tagRange g).2 false) else none
  | .t 0x18 g => if tagHeld x (tagRange g).1 (tagRange g).2 true then some (.tag (tagRange g).1 (tagRange g).2 true) else none
  | .t 0x1E g =>
    let die := decide (g.mod = 2)
    let n := field g.imm 5 0
    let key := barOf s x.region c.core die n
    let r := barRecord s x die n key
    if x.held.isNone && barHeld s key r then some (.barrier die n r) else none
  | _ => none

/-- Whether two contexts' bundles issue together (R30). -/
def mergeOk (s : State) (c : CtxId) (slots : List Slot) (ports : Nat) : Bool :=
  match (getCore s c.core).issued with
  | some (t, used, p) => t ≠ s.now || (!(slots.any fun sl => used.contains sl) && decide (p + ports ≤ 6))
  | none => true

/-! ### The instruction that a record's MODE picks (R153, R331) -/

/-- The low mode bits of the record that a command's T instruction reads. -/
def recordMode (s : State) (c : CtxId) (x : Ctx) (f : TFields) (byte : Nat) : Nat :=
  match (spRead s (.ctx x.task) c.core x (recordAddr x f + byte) 1).1 with
  | [b] => b.toNat
  | _ => 0

/-- The row of the opcode table that an executing instruction stands for. -/
def resolveInstr (s : State) (c : CtxId) (x : Ctx) (i : Instr) : Instr :=
  match i with
  | .copyfFill f =>
    (match recordMode s c x f 44 % 4 with
     | 0 => .copyfFill f
     | 1 => .copyfDrain f
     | 2 => .copyfReadfull f
     | _ => .copyfEmpty f)
  | .kvtrMove f =>
    (match recordMode s c x f 0 % 16 with
     | 1 => .kvtrCompact f
     | 2 => .kvtrTrim f
     | 3 => .kvtrPshare f
     | _ => .kvtrMove f)
  | i => i

/-! ### BUNDLE_ISSUE -/

/-- A context that may offer a bundle (R30, R35, R38, R42). -/
def ableToOffer (s : State) (c : CtxId) (x : Ctx) : Bool :=
  x.wait = .none && !x.halting && x.blocked.isEmpty && !(getCore s c.core).gated && decide (x.nextIssue ≤ s.now)

/-- A precise trap before anything of a bundle has issued. -/
def offerTrap (s : State) (c : CtxId) (x : Ctx) (code slot opnd : Nat) : State :=
  takeTrap { s with cur := c } c x
    { code := code, slot := slot, cls := 0, opnd := opnd, tpc := x.pc, tinfo := BitVec.ofNat 32 (x.rep % 16) }

/-- The pin of `lbuf` ends at the first issue outside it (R116). -/
def dropPin (x : Ctx) : Ctx :=
  match x.lbuf with
  | some (lo, hi) => if lo ≤ x.pc.toNat ∧ x.pc.toNat < hi then x else { x with lbuf := none }
  | none => x

/-- The present instructions stored in the sticky memories (R79). -/
def storeSticky (x : Ctx) (os : List Offer) : Ctx :=
  (os.filter fun o => !o.sticky).foldl (fun x o => match o.instr with
    | some i => { x with sticky := alSet x.sticky o.slot i }
    | none => x) x

/-- Whether an M instruction reads operand memory at issue (R197, R206). -/
def readsTiles (i : Instr) : Bool :=
  match formOf i with
  | some (.m o _) => decide (o ≤ 4)
  | _ => false

/-- Whether an instruction is of the C slot. -/
def isC (i : Instr) : Bool :=
  match formOf i with
  | some (.c _ _) => true
  | _ => false

/-- The turns of a bundle's executing instructions: slot order, but that an M instruction which reads operand memory and
claims as they stand at issue (R77, R206), and pops nothing, comes before the T slot's writes of them. -/
def turnOrder (is : List Instr) : List Instr :=
  is.filter isC ++ is.filter readsTiles ++ is.filter fun i => !isC i && !readsTiles i

/-- The bundle issues: `x0` is the context as it stood, `x` with its bases stepped and what its slots see; the executing
instructions take their turns. -/
def beginIssue (s : State) (c : CtxId) (x0 x : Ctx) (t : Word) (os : List Offer) : State :=
  let runs := os.filter fun o => o.runs x
  let forms := runs.filterMap Offer.form
  let issue : Issue :=
    { emptyIssue with
      pc := x.pc, parcels := bundleParcels t, rep := x.rep, reps := templateRep t, slots := os.map fun o => o.slot,
      ports := ((os.filterMap Offer.form).map SlotForm.ports).foldl (· + ·) 0,
      fp64 := (forms.map fun f => (vPaths f).1).foldl max 0, div := (forms.map fun f => (vPaths f).2).foldl max 0 }
  let pcs := (List.range (bundleParcels t)).map fun i => x.pc + BitVec.ofNat 32 (4 * i)
  let ops := turnOrder ((runs.filterMap fun o => o.instr).map (resolveInstr s c x))
  let s := touchLines s c x pcs
  let x := { storeSticky (dropPin x) os with issue := some issue }
  setCtx { s with cur := c, curHart := none, ops := ops, undo := some x0 } c x

/-- Whether an instruction is a barrier instruction, which reports a held fault before it does anything (R137, R158). -/
def isBarrier (f : SlotForm) : Bool := f.slot = .t && decide (0x1D ≤ f.opc) && decide (f.opc ≤ 0x20)

/-- The held fault that a bundle's barrier instruction delivers, before any slot of the bundle acts (R78, R137). -/
def offerReport (s : State) (c : CtxId) (x : Ctx) (f : HeldFault) : State :=
  takeTrap { s with cur := c } c { x with held := none }
    { code := f.code.toNat, slot := f.slot, cls := 1, opnd := f.opnd, tpc := x.pc, tinfo := f.tinfo }

/-- The step registers as a bundle leaves them: with what its executing `gstep` writes (R102, R108). -/
def stepsAfter (x : Ctx) (os : List Offer) : Vector Word 16 :=
  (os.filter fun o => o.runs x).foldl (fun v o => match o.form with
    | some (.c 0x1E g) => v.setIfInBounds (gDst g) (immS g)
    | _ => v) x.gstep

/-- A context as the slots of a bundle see it at an offer (R79, R81, R102, R109): the bases of sticky issues stepped, the
predicates of the first repetition. -/
def seeing (x0 : Ctx) (os : List Offer) : Ctx :=
  let x := stepSticky x0 os
  let x := { x with
    seen := { p := if x0.rep = 0 then x0.p else x0.seen.p, g := x.g, fmt := x0.fmt, steps := x.gstep } }
  { x with seen := { x.seen with steps := stepsAfter x os } }

/-- The checks and holds of a decoded bundle in order, then its issue. The rows of R77 that are made at every issue are made once
nothing holds the bundle back, on memory as it then stands (R206). -/
def offerBundle (s : State) (c : CtxId) (x0 : Ctx) (t : Word) (os : List Offer) : State :=
  let x := seeing x0 os
  match badPorts t os with
  | some sl => offerTrap s c x0 0x03 (slotNumber sl) 0
  | none =>
    let runs := os.filter fun o => o.runs x
    let forms := runs.filterMap Offer.form
    match forms.findSome? (tWait s c x) with
    | some w => holdBundle s c x0 w
    | none =>
      let ports := ((os.filterMap Offer.form).map SlotForm.ports).foldl (· + ·) 0
      if isHeld s c x os || !mergeOk s c (os.map fun o => o.slot) ports then s
      else if x0.preempt.isSome && forms.any (fun f => f.slot = .c && f.opc = 0x33) then
        setCtx s c { x0 with halting := true }
      else match (checkRows s c x os).orElse fun _ => checkLastRows x runs with
        | some (code, slot, o) => offerTrap s c x0 code slot o
        | none =>
          match forms.findSome? (entryTrap s x), if forms.any isBarrier then x0.held else none with
          | some (code, slot, o), _ => offerTrap s c x0 code slot o
          | none, some h => offerReport s c x0 h
          | none, none => beginIssue s c x0 x t os

/-- What a boundary point that a bundle or a transfer makes does to a context (R35, R122, R314): sticky memory idle, pending
fmt writes applied, and a pending pre-emption begins its halt. -/
def atBoundary (x : Ctx) : Ctx :=
  let x := passBoundary x
  if x.preempt.isSome then { x with halting := true } else x

/-- The next bundle of a context fetched, decoded and offered (R62, R77). -/
def fetchAndOffer (s : State) (c : CtxId) (x : Ctx) : State :=
  match fetchBundle s c x with
  | .error pc => holdForFill s c x pc x.pc
  | .ok (t, ps) =>
    if illegalBundle x t (slotWords ps) then offerTrap s c x 0x01 7 0
    else if illegalLoop x t (slotWords ps) then offerTrap s c x 0x02 0 0
    else match decodeBundle t ps with
      | .error (.illegalOpcode n) => offerTrap s c x 0x02 n 0
      | .error _ => offerTrap s c x 0x01 7 0
      | .ok present => offerBundle s c x t (offers x t present)

/-- BUNDLE_ISSUE (R30, R77): what templates have still to give is settled (R113, R115, R116, R118); then the next bundle of a
context, or a repetition of it, is offered and, where nothing holds it back, issued. -/
def execBundleIssue (c : CtxId) (s : State) : Ans :=
  .next (match getCtx s c with
    | none => s
    | some x =>
      if !ableToOffer s c x then s
      else match x.sizing with
        | none => fetchAndOffer s c x
        | some z =>
          match settleSizing s c x z with
          | .error (z, pc, tpc) => holdForFill s c (openSize x z tpc) pc tpc
          | .ok (x, b) =>
            let x := if b then atBoundary x else x
            if x.halting then setCtx s c x else fetchAndOffer (setCtx s c x) c x)

/-! ### The end of an issue -/

/-- The results of an issue reserved in slot order (R83 step 3): each has a flight that lands after its latency; a result
of latency 0 lands when a hand-over wait ends. What the context has written travels with it (R240). -/
def reserveResults (c : CtxId) (carry : List Nat) : List Result → State → Ctx → State × Ctx
  | [], s, x => (s, x)
  | r :: rest, s, x =>
    let (id, s) := fresh s
    let x := match r.queue with
      | some (b, n) => setQueue x b n (joinQueue (getQueue x b n) { id := id, val := none, carry := carry })
      | none => x
    let due := if r.latency = 0 then 0 else s.now + r.latency
    let x := { x with flights := x.flights ++ [{ id := id, due := due, queue := r.queue, latch := r.latch, val := r.val, view := r.view }] }
    let s := if r.latency = 0 then s else addTimer s due (.resultLanding c id)
    reserveResults c carry rest s x

/-- Where the context goes after an issue, whether it reached a boundary, and whether a transfer was taken (R80, R111,
R114, R118). -/
def nextPc (s : State) (c : CtxId) (x : Ctx) (i : Issue) : Ctx × Bool × Bool :=
  match i.transfer with
  | some t =>
    let (x, b) := goTo s c { x with rep := 0, nextIssue := s.now + t.dead } t.goal
    (x, b || t.boundary, true)
  | none =>
    if i.rep < i.reps then ({ x with rep := i.rep + 1, nextIssue := s.now + 1 }, false, false)
    else
      let (ls, pc, b) := endCheck i.pc (i.pc + BitVec.ofNat 32 (4 * i.parcels)) x.loops
      ({ x with loops := ls, pc := pc, rep := 0, nextIssue := s.now + 1 }, b, false)

/-- A fmt write that has run its issue cycles takes effect in a turn of its own (R121). -/
def countFmts (s : State) (c : CtxId) (x : Ctx) : State × Ctx :=
  let x := { x with fmtPend := x.fmtPend.map fun p => (p.1 - 1, p.2) }
  (if x.fmtPend.any fun p => p.1 = 0 then addTurn s (.fmtWriteApply c) else s, x)

/-- The core's record of what issued this cycle (R30, R171). -/
def recordIssue (s : State) (core : Nat) (i : Issue) : State :=
  modCore s core fun k =>
    { k with
      issued := match k.issued with
        | some (t, sl, p) => if t = s.now then some (t, sl ++ i.slots, p + i.ports) else some (s.now, i.slots, i.ports)
        | none => some (s.now, i.slots, i.ports)
      fp64Busy := if 0 < i.fp64 then s.now + i.fp64 else k.fp64Busy
      divBusy := if 0 < i.div then s.now + i.div else k.divBusy }

/-- The end of an issue, once every executing instruction has had its turn (R83): marks, reservations, the context's next
PC, boundary and waits. A boundary point of the bundle's own slots (R117, R156) is reached by every repetition of it that
executes them, beside R80, which keeps a mere repetition from being one (DESIGN CHOICE, log 109). -/
def finishIssue (s : State) : State :=
  let c := s.cur
  let s := { s with undo := none }
  match getCtx s c with
  | none => s
  | some x =>
    match x.issue with
    | none => s
    | some i =>
      let s := giveFloor s (.ctx x.task) i.carried
      let carry := (getView s (.ctx x.task)).mine
      let x := applyMarks x
      let (s, x) := reserveResults c carry i.results s { x with issue := none }
      let (s, x) := countFmts s c x
      let x := match i.fault with
        | some f => holdFault x f
        | none => x
      let (x, turned, moved) := nextPc s c x i
      let x := if moved then { x with sticky := [] } else x
      let x := if turned || i.boundary then atBoundary x else x
      let x := { x with
        nextIssue := max x.nextIssue (s.now + i.holdFor), wait := i.wait,
        snap := if i.detach then none else x.snap,
        rng := match i.newRng with
          | some n => { x.rng with pos := n, idx := 0 }
          | none => x.rng }
      let s := setCtx (recordIssue s c.core i) c x
      match i.wait with
      | .handover _ _ => addTurn s (.spawnHandoverEnd c)
      | _ => s

/-! ### Landings (R82, R85, R87) -/

/-- A result landed in its queue entry, if it still stands, and in its latch. Of two results that land in one latch in one
cycle the manual does not say which remains: here the one whose turn comes later, by due time and issue order (DESIGN CHOICE,
log 108). -/
def landFlight (x : Ctx) (f : Flight) : Ctx :=
  let x := match f.queue with
    | some (b, n) =>
      let q := getQueue x b n
      setQueue x b n { q with entries := q.entries.map fun (e : QEntry) => if e.id = f.id then { e with val := some f.val } else e }
    | none => x
  let l := match f.val with
    | .s w => Latch.scalar w
    | .v v => Latch.vector v
  { x with latches := x.latches.setIfInBounds f.latch l, flights := x.flights.filter fun g => g.id ≠ f.id }

/-- RESULT_LANDING. -/
def execResultLanding (c : CtxId) (id : Nat) (s : State) : Ans :=
  .next (match getCtx s c with
    | none => s
    | some x =>
      match x.flights.find? fun f => f.id = id with
      | some f => setCtx s c (landFlight x f)
      | none => s)

/-- FMT_WRITE_APPLY (R121): the pending writes whose issue cycles have run, in issue order. -/
def execFmtWriteApply (c : CtxId) (s : State) : Ans :=
  .next (match getCtx s c with
    | none => s
    | some x =>
      let ready := x.fmtPend.filter fun p => p.1 = 0
      let x := match ready.getLast? with
        | some (_, w) => { x with fmt := w }
        | none => x
      setCtx s c { x with fmtPend := x.fmtPend.filter fun p => p.1 ≠ 0 })

end Sys2Proof.Machine
end

