-- ==== Sys2Proof/Machine/Generation.lean ====
section
/-! DEFINITION. The token boundary: `commit` (R120), its record (R348, R349), the part in the hold (R350 to R352) and the
command behind it (R353 to R355). -/

namespace Sys2Proof.Machine

/-! ### The record (R348) -/

def cmNemit (r : BitVec 512) : Nat := field r 147 144
def cmDepth (r : BitVec 512) : Nat := field r 150 148
def cmGreedy (r : BitVec 512) : Nat := field r 151 151
def cmAcc (r : BitVec 512) : Nat := field r 155 152
def cmMsk (r : BitVec 512) : Bool := field r 156 156 = 1
def cmRel (r : BitVec 512) : Bool := field r 157 157 = 1
def cmDen (r : BitVec 512) : Bool := field r 158 158 = 1
def cmStep (r : BitVec 512) : Nat := field r 191 160
def cmTokoff (r : BitVec 512) : Nat := field r 223 192 / 8 * 8
def cmMskoff (r : BitVec 512) : Nat := field r 255 224 / 64 * 64
def cmTraddr (r : BitVec 512) : Nat := field r 311 256
def cmDext (r : BitVec 512) : Nat := field r 314 312
def cmPred (r : BitVec 512) : Nat := field r 323 320
def cmHi (r : BitVec 512) : Nat := field r 391 384
def cmLo (r : BitVec 512) : Nat := field r 399 392
def cmHoff (r : BitVec 512) : Nat := field r 447 416 / 256 * 256

/-- DTAB of an entry. -/
def cmDtab (r : BitVec 512) (i : Nat) : Nat := field r (330 + 3 * i) (328 + 3 * i)

/-- The token entries of a record, 8 bytes each. -/
def tokenEntries (bs : List Byte) : List Nat := (chunks 8 (bs.length / 8) bs).map natOfBytes

/-- A record and its token entries that are valid (R349). -/
def commitValid (r : BitVec 512) (toks : List Nat) : Bool :=
  decide (cmNemit r ≤ 8) && decide (cmAcc r ≤ cmDepth r) && cmTraddr r % 32 = 0 && field r 159 159 = 0 &&
    field r 319 315 = 0 && field r 327 324 = 0 && field r 383 376 = 0 && field r 415 400 = 0 && field r 511 448 = 0 &&
    toks.all fun t => bits t 31 24 = 0

/-! ### The depth predictor (R351, R352) -/

/-- The next depth and the history entry of this step. -/
def nextDepth (r : BitVec 512) (ring : List Nat) (midle mstall timel : Nat) : Nat × Nat :=
  let k := cmStep r % 16
  let others := ((ring.zipIdx).filter fun p => p.2 ≠ k && p.1.testBit 96).map fun p => p.1
  let i := midle + (others.map fun e => bits e 31 0).foldl (· + ·) 0
  let st := mstall + (others.map fun e => bits e 63 32).foldl (· + ·) 0
  let own := nth ring k 0
  let len := (timel + 2 ^ 32 - bits own 95 64) % 2 ^ 32
  let bias : Int :=
    if !own.testBit 96 then 0
    else if cmHi r * len < 256 * st then 1
    else if 256 * i < cmLo r * len then -1
    else 0
  let depth := (min 7 (max 0 ((cmDtab r (cmPred r) : Int) + bias))).toNat
  (depth, midle + mstall * 2 ^ 32 + timel * 2 ^ 64 + 2 ^ 96)

/-- The history updated and the next depth in e(DEXT), under DEN (R350 step 3). -/
def predict (s : State) (x : Ctx) (r : BitVec 512) : State × Ctx :=
  if !cmDen r then (s, x)
  else
    let (bs, s, x) := loadT s x 0 (cmHoff r) 256
    let ring := (chunks 16 16 bs).map natOfBytes
    let (depth, entry) := nextDepth r ring x.midle.toNat x.mstall.toNat (s.now % 2 ^ 32)
    let a := cmHoff r + 16 * (cmStep r % 16)
    let s := spWrite s (.ctx x.task) s.cur.core x a (bytesOf 16 entry)
    let x := noteRange x 0 0 a 16
    (s, { x with midle := 0, mstall := 0, e := x.e.setIfInBounds (cmDext r) (BitVec.ofNat 32 depth) })

/-! ### Token records (R354) -/

/-- The token record of entry k. -/
def tokenRecord (r : BitVec 512) (seq : Word) (pos : Nat) (snap : Option (Word × Bool)) (k tok : Nat) : List Byte :=
  let flags := cmGreedy r + (if k < cmAcc r then 2 else 0) + (if k + 1 = cmNemit r then 4 else 0) +
    (if snap.isNone then 8 else 0)
  let ver := (snap.map fun v => v.1.toNat).getD 0
  bytesOf 32 (seq.toNat + (pos + k) % 2 ^ 40 * 2 ^ 32 + bits tok 23 0 * 2 ^ 80 + cmDepth r * 2 ^ 112 +
    cmAcc r * 2 ^ 116 + flags * 2 ^ 120 + ver * 2 ^ 128 + bits tok 63 32 * 2 ^ 160 + cmStep r * 2 ^ 192)

/-- The token records of a commit, in order. -/
def tokenRecords (r : BitVec 512) (seq : Word) (pos : Nat) (snap : Option (Word × Bool)) (toks : List Nat) : List Byte :=
  (toks.zipIdx).flatMap fun p => tokenRecord r seq pos snap p.2 p.1

/-! ### `commit` (R120, R350) -/

/-- Extents and skip flags from a record (R350 step 1). -/
def setExtents (x : Ctx) (r : BitVec 512) : Ctx :=
  { x with
    e := (List.range 8).foldl (fun v n => v.setIfInBounds n (BitVec.ofNat 32 (field r (16 * n + 15) (16 * n)))) x.e
    j := BitVec.ofNat 16 (field r 143 128) }

/-- The hold of a commit (R120): the context does not issue for 8 cycles. -/
def holdCommit (x : Ctx) : Ctx := modIssue x fun i => { i with holdFor := 9 }

/-- The token position and draw index that the next bundle sees. -/
def setPosition (x : Ctx) (pos : Nat) : Ctx := modIssue x fun i => { i with newRng := some pos }

/-- A commit whose record is invalid (R349): the extents and skip flags, but not e(DEXT) under DEN; the tag ends
PROTECTION. -/
def commitBadly (s : State) (x : Ctx) (r : BitVec 512) (tag : Nat) : SlotRes :=
  let y := setExtents x r
  let y := if cmDen r then { y with e := y.e.setIfInBounds (cmDext r) (getE x (cmDext r)) } else y
  let (id, s) := sendCmd s { newCmd s s.cur x .commit (.ctx x.task) 0 tag with st := .ending, snapVer := none }
  .done (finishCmd s id stProtection 0) (countTag (holdCommit y) tag)

/-- A commit whose record is valid (R350): its four parts and the command behind it (R353). The snapshot is detached from the
next bundle on: a command that the T slot of this one issues still uses it (R350, R355). -/
def commitWell (s : State) (x : Ctx) (r : BitVec 512) (toks : List Nat) (tag : Nat) : SlotRes :=
  let pos := x.rng.pos
  if 2 ^ 40 ≤ pos + cmNemit r then .trap 0x0E 0 none
  else
    let (s, x) := predict s (setPosition (setExtents x r) (pos + cmNemit r)) r
    let (mask, s, x) := if cmMsk r then loadT s x 0 (cmMskoff r) 64 else (([] : List Byte), s, x)
    let k := { newCmd s s.cur x .commit (.ctx x.task) 0 tag with
      record := r, data := tokenRecords r x.rng.seq pos x.snap toks ++ mask }
    -- behind a `pvsnap` that its record has not applied, the snapshot which that takes is the one detached (R358)
    let waits := !(pendingSnaps s x.task).isEmpty
    let (s, x) := issueCmd s x k
    .done s (modIssue (holdCommit x) fun i => { i with detach := cmRel r && !waits })

/-- `commit` (R120). -/
def execCommit (f : CFields) (s : State) : Ans :=
  cOp f s fun x => withS x f.srcA fun a x =>
    let (bs, s, x) := loadT s x 0 (a.toNat / 64 * 64) 64
    let r := BitVec.ofNat 512 (natOfBytes bs)
    let (tb, s, x) := if cmNemit r ≤ 8 then loadT s x 0 (cmTokoff r) (8 * cmNemit r) else (([] : List Byte), s, x)
    let toks := tokenEntries tb
    if commitValid r toks then commitWell s x r toks (immBits f 5 0) else commitBadly s x r (immBits f 5 0)

/-! ### The command (R353) -/

/-- Step 3 of R353: the snapshot that the commit detached is released. -/
def releaseStep (s : State) (k : Cmd) : State := if cmRel k.record then releaseSnap s k.region k.snapVer else s

/-- Step 2 of R353: the mask record issued on the same tag, as it was read at the commit's issue, held behind nothing that the
issuer has done since. It carries on the commit's one command: no tag and no outstanding command is counted anew, the tag's
status becomes its own, and the release of step 3 comes at its end. -/
def issueMask (s : State) (k : Cmd) (bs : List Byte) : State :=
  let m := { k with kind := .kvmsk, record := BitVec.ofNat 512 (natOfBytes bs), recAddr := cmMskoff k.record, data := [],
                    index := 0, st := .queued, status := 0, trans := [], buf := [], acks := 0, answers := [], wrote := false,
                    frees := cmRel k.record }
  let (id, s) := sendCmd s m
  let s := setView s { getView s (.cmd k.id) with agent := .cmd id, own := [], mine := [] }
  let s := modCmd s id fun q => { q with heldBy := [] }
  modCmd s k.id fun q => { q with st := .done stOk }

/-- The command's effects are made: the mask where every token record ended OK, then the release, the end. -/
def endCommit (s : State) (k : Cmd) (status : Nat) : State :=
  if status = stOk ∧ cmMsk k.record then issueMask s k (k.data.drop (32 * cmNemit k.record))
  else finishCmd (releaseStep s k) k.id status 0

/-- Token records written one after another. -/
def advanceCommit : Nat → Nat → State → State
  | 0, id, s => addFreeTimer s (.walkComplete id)
  | n + 1, id, s =>
    match getCmd s id with
    | none => s
    | some k =>
      if cmNemit k.record ≤ k.index then endCommit s k stOk
      else
        let bs := (k.data.drop (32 * k.index)).take 32
        let stop := fun (s : State) (x : Stop) => match x with
          | .walk va w => startWalk s k va w
          | .ends st => endCommit s k st
          | .park va kind => parkCmd s k va kind (getAsid s k.asid).gen
          | .sent => s
          | _ => addTimer s (s.now + 1) (.walkComplete id)
        match storePlaces s k 0 (fun s => placesAt s k ((cmTraddr k.record + 32 * k.index) % 2 ^ 56) 32 true) bs with
        | (.error x, s) => stop s x
        | (.ok _, s) => advanceCommit n id (countUnit s k)

/-- COMMIT_ASYNC (R353): the command's effects, from where it stands. -/
def execCommitAsync (id : Nat) (s : State) : Ans :=
  .next (match getCmd s id with
    | none => s
    | some k => if k.kind = .commit ∧ k.st = .active then advanceCommit 9 id s else s)

/-- A turn of the engine for a commit's command; its token writes are copies of the issuer (R147, R353). -/
def turnCommit (s : State) (k : Cmd) : State :=
  match k.st with
  | .queued =>
    if !k.heldBy.isEmpty || !laneFree s k.cluster || heldBack s k then addTimer s (s.now + 1) (.walkComplete k.id)
    else addTurn (modCmd s k.id fun q => { q with st := .active }) (.commitAsync k.id)
  | .active => addTurn s (.commitAsync k.id)
  | .walking gen va w =>
    (match endWalk s k gen va w 1 with
     | .goOn s => addTurn s (.commitAsync k.id)
     | .stopped s => s
     | .failed s => endCommit s k stFaulted)
  | _ => s

end Sys2Proof.Machine
end

