-- ==== Sys2Proof/Machine/Views.lean ====
section
/-! DEFINITION. Views: declarations and private views (R126, R127, R300), spawning and the hand-over of pieces (R125,
R320, R321), spills, merges chunk by chunk (R319, R320, R345) and their failure (R375). -/

namespace Sys2Proof.Machine

/-! ### Declarations and operators (R126, R345) -/

/-- Whether an operator accepts an element type. -/
def viewOpOk (op t : Nat) : Bool :=
  match op with
  | 0 | 1 => t = 2
  | 2 | 10 => t = 10
  | 3 => t = 11
  | 4 | 5 => t = 2 || t = 10
  | 6 | 7 | 8 => t = 2 || t = 3 || t = 6 || t = 7
  | 9 => t = 6 || t = 7
  | _ => false

/-- Bytes that an operator acts on at once: a record of a partial for operator 10, else a chunk (R320, R345). -/
def viewGrain (op : Nat) : Nat := if op = 10 then 1024 else 512

/-- A view declaration that keeps R126 and R345. -/
def viewDeclOk (d : Nat) : Bool :=
  let size := bits d 95 64
  viewOpOk (bits d 111 104) (bits d 103 96) && bits d 255 112 = 0 && size ≠ 0 && size % viewGrain (bits d 111 104) = 0 &&
    addrOk (bits d 63 0) (some 2) false

/-- The identity element of an operator. -/
def identityElem (op t : Nat) : Nat :=
  match op with
  | 4 => if t = 10 then ninf32 else 2 ^ 31
  | 5 => if t = 10 then f32.infBits else 2 ^ 31 - 1
  | 6 | 9 => 2 ^ typeWidth t - 1
  | _ => 0

/-- The identity over a number of bytes: for operator 10, records of an empty partial. -/
def identityBytes (v : View) (n : Nat) : List Byte :=
  if v.op = 10 then (List.replicate (n / 1024) (bytesOf 4 ninf32 ++ List.replicate 1020 0)).flatten
  else elemBytes (typeWidth v.etype) (List.replicate (8 * n / typeWidth v.etype) (identityElem v.op v.etype))

/-- One element of a fold, the tile's on the left (R126). -/
def foldElem (op t a b : Nat) : Nat :=
  match op with
  | 0 => narrowInt false 2 (sext 32 a + sext 32 b)
  | 1 => narrowInt true 2 (sext 32 a + sext 32 b)
  | 2 => sum32 [a, b]
  | 3 => rne f64 (fsum .rne [fdec f64 a, fdec f64 b])
  | 4 => vmaxE t a b
  | 5 => vminE t a b
  | 6 => a &&& b
  | 7 => a ||| b
  | 8 => a ^^^ b
  | _ => if a = 2 ^ typeWidth t - 1 then b else a

/-- The state vector of a record folded (R341, R345), from m and l of the tile's and of the piece's. -/
def foldHead (h : List Byte) : List Byte :=
  let e := elemsOf 32 h
  let (m, l, _, _) := mergeHeader (nth e 0 0) (nth e 1 0) (nth e 2 0) (nth e 3 0)
  elemBytes 32 ([m, l] ++ List.replicate 126 0)

/-- The o vector of a record folded under the same m and l. -/
def foldBody (h tile piece : List Byte) : List Byte :=
  let e := elemsOf 32 h
  let (_, _, sA, sB) := mergeHeader (nth e 0 0) (nth e 1 0) (nth e 2 0) (nth e 3 0)
  elemBytes 32 (((elemsOf 32 tile).zip (elemsOf 32 piece)).map fun p => mergeBody p.1 p.2 sA sB)

/-- m and l of a tile's state vector and of a piece's, which the o vector's chunk still needs. -/
def foldKept (tile piece : List Byte) : List Byte := tile.take 8 ++ piece.take 8

/-- A chunk of a tile with a piece's folded in (R320): of operator 10 the even chunks are the state vectors, the odd ones the o
vectors, under what the chunk before has kept. -/
def foldChunk (v : View) (chunk : Nat) (kept tile piece : List Byte) : List Byte :=
  if v.op = 10 then (if chunk % 2 = 0 then foldHead kept else foldBody kept tile piece)
  else
    let w := typeWidth v.etype
    elemBytes w (((elemsOf w tile).zip (elemsOf w piece)).map fun p => foldElem v.op v.etype p.1 p.2)

/-! ### The arena (R300) -/

/-- The window offset at which a context's arena begins. -/
def arenaStart (x : Ctx) : Nat := hdrScratch x.hdr - hdrViews x.hdr

/-- The arena bytes allotted so far. -/
def arenaUsed (x : Ctx) : Nat := (x.views.map fun v => v.size).foldl (· + ·) 0

/-- Whether a window range meets a private view of a context. -/
def inArena (x : Ctx) (lo hi : Nat) : Bool :=
  x.views.any fun v => decide (v.off < hi) && decide (lo < v.off + v.size)

/-- The bytes of a context's private view as they stand. -/
def arenaBytes (s : State) (c : CtxId) (x : Ctx) (v : View) : List Byte :=
  rawRead s (.scratch c.core) (x.window + v.off) v.size

/-- A private view filled with its identity (R127, R321). -/
def refillView (c : CtxId) (x : Ctx) (s : State) (v : View) : State :=
  writeAs s (.ctx x.task) (.scratch c.core) (x.window + v.off) (identityBytes v v.size)

/-- `view` (R127): a private view allotted and filled, its offset returned. -/
def execView (f : CFields) (s : State) : Ans :=
  cOp f s fun x => withS x f.srcA fun a x =>
    let (bs, s, x) := loadT s x 0 (a.toNat / 32 * 32) 32
    let d := natOfBytes bs
    let size := bits d 95 64
    if !viewDeclOk d then .trap 0x02 0 none
    else if 16 ≤ x.views.length ∨ hdrViews x.hdr < arenaUsed x + size then .trap 0x08 0 none
    else match getTask s x.task with
      | none => .trap 0x08 0 none
      | some t =>
        let v : View :=
          { addr := BitVec.ofNat 64 (bits d 63 0), size := size, etype := bits d 103 96, op := bits d 111 104,
            off := arenaStart x + arenaUsed x }
        let (pid, s) := fresh s
        let p : Piece :=
          { id := pid, task := x.task, region := x.region, c := s.cur, view := v, key := pieceKey t t.spawns,
            ended := false, identity := false, taken := false, bytes := [], spill := none, cmd := none }
        let (id, s) := fresh { s with pieces := s.pieces ++ [p] }
        let k := { unitCmd s .viewFill x.region x.task (clusterOf s.cur.core) s.cur with
          id := id, agent := .ctx x.task, recAddr := v.off, data := identityBytes v size }
        let due := 6 + size / 512
        let s := addTimer { s with cmds := s.cmds ++ [k] } (s.now + due) (.viewFillComplete id)
        .done s (addResult { x with views := x.views ++ [v] } f.dst .s 0 due (.s (BitVec.ofNat 32 v.off)) true)

/-- A fill made where the task's window stands now; the slice sees it as its own write. -/
def makeFill (s : State) (k : Cmd) : State :=
  let s := cmdWrite s k k.recAddr k.data
  forgetCmd (observeCmd k.agent s k) k.id

/-- VIEW_FILL_COMPLETE (R127). -/
def execViewFillComplete (id : Nat) (s : State) : Ans :=
  .next (match getCmd s id with
    | some k => if k.kind = .viewFill then makeFill s k else s
    | none => s)

/-- Every fill of a task that is still running, made now: the save of its window waits for them (R127). -/
def forceFills (s : State) (uid : Nat) : State :=
  (s.cmds.filter fun k => k.kind = .viewFill && k.task = uid).foldl makeFill s

/-! ### Spill areas (R320) -/

/-- The lowest offset of n bytes free in a task's spill area. -/
def spillRoom (t : Task) (n : Nat) : Option Nat :=
  if t.vlist = 0 then none
  else (sortBy (fun a b => decide (a < b)) (0 :: t.vlused.map fun u => u.1 + u.2)).find? fun o =>
    decide (o + n ≤ t.vlsize) && !(t.vlused.any fun u => decide (u.1 < o + n) && decide (o < u.1 + u.2))

/-- A merge or spill that cannot complete (R375): MERGE_FAILED for the region of the piece's owner; the rest of the
region's pieces merge as the identity and write nothing. -/
def mergeFail (s : State) (p : Piece) (k : Cmd) (status : Nat) : State :=
  let s := modRegion (forgetCmd s k.id) p.region fun g => { g with mergeDead := true }
  let task := match getTask s p.task with
    | some t => taskId t
    | none => 0
  let i : TrapInfo :=
    { code := 0x16, slot := 7, cls := 2, opnd := 0, tpc := 0, tinfo := BitVec.ofNat 32 (status % 256 + k.index * 2 ^ 8) }
  faultDomainAbort s p.region (domainRecord i 0x3FF 0 (getRegion s p.region).rcb task)

/-- A piece by its identity. -/
def getPiece (s : State) (id : Nat) : Option Piece := s.pieces.find? fun p => p.id = id

/-- A piece changed. -/
def modPiece (s : State) (id : Nat) (f : Piece → Piece) : State :=
  { s with pieces := s.pieces.map fun p => if p.id = id then f p else p }

/-- The command that works on a piece. -/
def pieceCmd (s : State) (p : Piece) (kind : CmdKind) : Nat × State :=
  let (id, s) := fresh s
  let k := { unitCmd s kind p.region p.task (clusterOf p.c.core) p.c with
    id := id, target := p.id, recAddr := p.view.addr.toNat }
  (id, modPiece { s with cmds := s.cmds ++ [k] } p.id fun p => { p with cmd := some id })

/-- What a merge or spill does when it cannot go on at once; `again` is the turn that takes it up. -/
def stopPiece (s : State) (p : Piece) (k : Cmd) (x : Stop) (again : Instr) : State :=
  match x with
  | .walk va w => startWalk s k va w
  | .ends status => mergeFail s p k status
  | .park va kind => parkCmd s k va kind (getAsid s k.asid).gen
  | .sent => s
  | .again | .target | .room | .word | .element => addTimer s (s.now + 1) again

/-- The address of a chunk of a spilled piece. -/
def spillAddr (s : State) (p : Piece) (off n : Nat) : Nat :=
  match getTask s p.task with
  | some t => t.vlist + off + n
  | none => 0

/-- A spill goes on, chunk by chunk (R320). -/
def advanceSpill : Nat → Nat → State → State
  | 0, id, s => addFreeTimer s (.walkComplete id)
  | n + 1, id, s =>
    match getCmd s id with
    | none => s
    | some k =>
      match getPiece s k.target with
      | none => forgetCmd s id
      | some p =>
        if p.view.size ≤ 512 * k.index then
          modPiece (forgetCmd s id) p.id fun p => { p with taken := true, cmd := none, bytes := [] }
        else
          let bs := (p.bytes.drop (512 * k.index)).take 512
          match storePlaces s k 0 (fun s => placesAt s k (spillAddr s p (p.spill.getD 0) (512 * k.index)) 512 true) bs with
          | (.error x, s) => stopPiece s p k x (.walkComplete id)
          | (.ok _, s) => advanceSpill n id (countUnit s k)

/-! ### Hand-over (R320, R321) -/

/-- Whether a copy of a task still has to complete that writes into a private view of its context. -/
def arenaCopies (s : State) (c : CtxId) (x : Ctx) : Bool :=
  (s.cmds.any fun k => k.kind = .viewFill && k.task = x.task) ||
    (openCmds s x.task).any fun k =>
      isCopy k.kind && (destRanges k 0 0).any fun r =>
        isWin r.1 && winKind r.1 = 0 && targetCtx s k r.1 = some c && inArena x (winOff r.1) (winOff r.1 + (r.2 - r.1))

/-- The engine takes one ended piece: to merge it at once, or to spill it where there is room. -/
def takePiece (c : CtxId) (x : Ctx) (s : State) (p : Piece) : State :=
  let bs := arenaBytes s c x p.view
  if leftDone s p then modPiece s p.id fun p => { p with taken := true, bytes := bs }
  else match (getTask s p.task).bind fun t => spillRoom t p.view.size with
    | none => s
    | some o =>
      let s := modTask s p.task fun t => { t with vlused := t.vlused ++ [(o, p.view.size)] }
      let s := modPiece s p.id fun p => { p with bytes := bs, spill := some o }
      let (id, s) := pieceCmd s p .spill
      advanceSpill 64 id s

/-- The ended pieces of a task that the engine has still to take. -/
def untaken (s : State) (uid : Nat) : List Piece := s.pieces.filter fun p => p.task = uid && p.ended && !p.taken && !p.identity

/-- The engine takes what it can of a task's ended pieces. -/
def takePieces (s : State) (c : CtxId) (x : Ctx) : State :=
  ((untaken s x.task).filter fun p => p.cmd.isNone).foldl (takePiece c x) s

/-- Whether a flight is the handle of a spawn, whose landing waits for the hand-over. -/
def isHandle (f : Flight) : Bool := f.due = 0 && decide (f.latch < 2)

/-- The result of a spawn lands 8 cycles after its hand-over (R125). -/
def releaseHandle (s : State) (c : CtxId) : State :=
  match getCtx s c with
  | none => s
  | some x =>
    let s := (x.flights.filter isHandle).foldl (fun s f => addTimer s (s.now + 8) (.resultLanding c f.id)) s
    let fs := x.flights.map fun f => if isHandle f then { f with due := s.now + 8 } else f
    setCtx s c { x with wait := .none, nextIssue := max x.nextIssue (s.now + 1), flights := fs }

/-- SPAWN_HANDOVER_END (R321): with the copies into the arena done and every ended piece taken, the private views are
refilled and the wait ends; a task that ends does so now. A halt in the wait of a spawn does not keep it from ending during the
drain, in which the handle then lands (R36, R125). -/
def execSpawnHandoverEnd (c : CtxId) (s : State) : Ans :=
  .next (match getCtx s c with
    | none => s
    | some x =>
      match x.wait with
      | .handover ends due =>
        if s.now < due ∨ (ends ∧ x.halting) ∨ arenaCopies s c x then s
        else
          let s := takePieces s c x
          if !(untaken s x.task).isEmpty then s
          else
            let s := x.views.foldl (refillView c x) s
            if ends then endTask s c x else releaseHandle s c
      | _ => s)

/-- The hand-over wait that a spawn or tend begins: none to make where the task holds no view. -/
def handoverWait (s : State) (x : Ctx) (ends : Bool) : Wait × State :=
  if x.views.isEmpty then (.handover ends s.now, s)
  else
    let (due, s) := freeDue s
    (.handover ends due, s)

/-- `spawn` (R125, R321). -/
def execSpawn (f : CFields) (s : State) : Ans :=
  cOp f s fun x => withS x f.srcA fun a x =>
    let (bs, s, x) := loadT s x 0 (a.toNat / 128 * 128) 128
    match submitTask s s.cur x bs with
    | .privileged => .trap 0x15 0 none
    | .full die => .hold (.spawnPool die)
    | .child s h =>
      let (w, s) := handoverWait s x false
      .done s (addWait (addBoundary (addResult x f.dst .s 0 0 (.s h))) w)

/-- SPAWN_POOL_WAIT_END (R33). -/
def execSpawnPoolWaitEnd (c : CtxId) (s : State) : Ans :=
  .next (match getCtx s c with
    | none => s
    | some x =>
      match x.wait with
      | .spawnPool die => if 4096 ≤ poolSize s die then s else setCtx s c { x with wait := .none }
      | _ => s)

/-! ### Merges (R320) -/

/-- A piece has merged: it leaves the fold, and its spill area is free. -/
def dropPiece (s : State) (p : Piece) : State :=
  let s := match p.cmd with
    | some id => forgetCmd s id
    | none => s
  let s := modTask s p.task fun t => { t with vlused := t.vlused.filter fun u => some u.1 ≠ p.spill }
  settle { s with pieces := s.pieces.filter fun q => q.id ≠ p.id }

/-- Bytes that a unit has written to places, published to the package when they apply (R285). -/
def publishUnit (s t : State) : State :=
  publish t ((t.log.drop s.log.length).map fun r => r.id) [.package]

/-- What a chunk of a piece folds into its tile: the identity, what was spilled, or what was taken. -/
def pieceChunk (p : Piece) (chunk : Nat) (spilled : List Byte) : List Byte :=
  if p.identity then ((identityBytes p.view 1024).drop (512 * (chunk % 2))).take 512
  else if p.spill.isSome then spilled
  else (p.bytes.drop (512 * chunk)).take 512

/-- One chunk of 512 bytes of a piece applied to its tile (R320): a read-modify-write, once. -/
def mergeChunk (s : State) (p : Piece) (k : Cmd) : State :=
  let at' := 512 * k.index
  let va := addrAt p.view.addr.toNat at'
  let src := match p.spill with
    | some o => if p.identity then ((.ok [] : Except Stop (List (Place × Nat))), s)
        else placesAt s k (spillAddr s p o at') 512 false
    | none => ((.ok [] : Except Stop (List (Place × Nat))), s)
  match src with
  | (.error x, s) => stopPiece s p k x (.viewPieceMerge p.id)
  | (.ok from', s) =>
    match tryPlaces s fun s => placesAt s k va 512 true with
    | (.error x, s) => stopPiece s p k x (.viewPieceMerge p.id)
    | (.ok dst, s) =>
      let old := oldPlaces (placesAt s k va 512 false).1 dst
      let reads := farReads k from' ++ farReads k old
      match exchange s k 0 reads with
      | (.error x, s) => stopPiece s p k x (.viewPieceMerge p.id)
      | (.ok _, s) =>
        let (stored, s) := newestBytes k k.answers from' s
        let (tile, s) := newestBytes k (k.answers.drop (farReads k from').length) old s
        let piece := pieceChunk p k.index stored
        let kept := if k.buf.isEmpty then foldKept tile piece else k.buf
        let s := modCmd s k.id fun q => { q with buf := kept }
        match storePlaces s k reads.length (fun s => placesAt s k va 512 true) (foldChunk p.view k.index kept tile piece) with
        | (.error x, s) => stopPiece s p k x (.viewPieceMerge p.id)
        | (.ok _, t) =>
          let left := if p.view.op = 10 ∧ k.index % 2 = 0 then kept else []
          let t := modCmd (countUnit (publishUnit s t) k) k.id fun q => { q with buf := left }
          addFreeTimer t (.viewPieceMerge p.id)

/-- Whether a piece may merge now (R320), as the identity once its region's merges have failed (R375). -/
def mergeable (s : State) (p : Piece) : Bool :=
  p.ended && (p.taken || p.identity || (getRegion s p.region).mergeDead) && leftDone s p

/-- VIEW_PIECE_MERGE (R320): the next chunk of a piece, or its end. A piece of a region whose merges have failed writes
nothing (R375). -/
def execViewPieceMerge (id : Nat) (s : State) : Ans :=
  .next (match getPiece s id with
    | none => s
    | some p =>
      if !mergeable s p then s
      else if (getRegion s p.region).mergeDead then dropPiece s p
      else
        let (kid, s) := match p.cmd with
          | some kid => (kid, s)
          | none => pieceCmd s p .merge
        match getCmd s kid, getPiece s id with
        | some k, some p =>
          if k.kind ≠ .merge ∨ k.st ≠ .active then s
          else if p.view.size ≤ 512 * k.index then dropPiece s p
          else mergeChunk s p k
        | _, _ => s)

/-- The turns of the pieces that may begin to merge, or that a failure lets go. -/
def mergeTurns (s : State) : List Instr :=
  (s.pieces.filter fun p => mergeable s p && (p.cmd.isNone || (getRegion s p.region).mergeDead)).map fun p => .viewPieceMerge p.id

/-- A turn of the engine for a merge or spill: its walk ends, or it goes on. -/
def turnPiece (s : State) (k : Cmd) : State :=
  let go := fun (s : State) => if k.kind = .spill then advanceSpill 64 k.id s else addTurn s (.viewPieceMerge k.target)
  match k.st with
  | .walking gen va w =>
    (match endWalk s k gen va w (if w then 1 else 0) with
     | .goOn s => go s
     | .stopped s => s
     | .failed s => (match getPiece s k.target with
       | some p => mergeFail s p k stFaulted
       | none => forgetCmd s k.id))
  | .active => go s
  | _ => s

end Sys2Proof.Machine
end

