-- ==== Sys2Proof/Machine/Snapshot.lean ====
section
/-! DEFINITION. Region snapshots (R275): the leaves of an ASID shared, block maps duplicated, tasks recorded at their yields,
the snapshot streamed to its manifest and released (R368, R369). -/

namespace Sys2Proof.Machine

/-! ### The data state of a task (R310) -/

/-- The sizes of an allotment: scratchpad bytes, operand slots, accumulator tiles. -/
def allotSizes (h : BitVec 512) : List Nat := [hdrScratch h, hdrOsl h, hdrZt h]

/-- The header a task's data state was laid out by. -/
def dataHdr (t : Task) : BitVec 512 :=
  match t.saved with
  | some x => x.hdr
  | none => t.hdr

/-- A range (offset, length) without another. -/
def minusRange (p g : Nat × Nat) : List (Nat × Nat) :=
  if p.1 + p.2 ≤ g.1 ∨ g.1 + g.2 ≤ p.1 then [p]
  else
    (if p.1 < g.1 then [(p.1, g.1 - p.1)] else []) ++
      (if g.1 + g.2 < p.1 + p.2 then [(g.1 + g.2, p.1 + p.2 - (g.1 + g.2))] else [])

/-- The ranges left of a range without those that have gone. -/
def cutRange (p : Nat × Nat) (gone : List (Nat × Nat)) : List (Nat × Nat) :=
  gone.foldl (fun ps g => ps.flatMap fun q => minusRange q g) (if p.2 = 0 then [] else [p])

/-- Saved bytes with ranges of a part that stands in a store at a base. -/
def liftRanges (m store : Mem) (base : Nat) (rs : List (Nat × Nat)) : Mem :=
  rs.foldl (fun m r => memPaste m r.1 r.2 (memSlice store (base + r.1) r.2)) m

/-- A part of n bytes saved whole: what still stands on a core is taken off it. -/
def liftPart (s : State) (p : Part) (n : Nat) (store : Core → Mem) : Part :=
  match p with
  | .here core base gone m => .saved (liftRanges m (store (getCore s core)) base (cutRange (0, n) gone))
  | p => p

/-- A task as a snapshot records it: parked, its data state lifted, its region a place in the snapshot's list. -/
def recordTask (s : State) (place : Nat) (t : Task) : Task :=
  let h := dataHdr t
  { t with
    st := .parked, region := place,
    scratch := liftPart s t.scratch (hdrScratch h) fun k => k.scratch
    slots := liftPart s t.slots (8192 * hdrOsl h) fun k => k.opmem
    tiles := liftPart s t.tiles (16384 * hdrZt h) fun k => k.acc }

/-! ### Memory -/

/-- The leaves below a table: (level, entry's address, virtual address, entry). -/
def leavesOf (s : State) : Nat → Nat → Nat → List (Nat × Nat × Nat × Nat)
  | 0, base, va => (List.range 512).filterMap fun i =>
    let e := hbmNat s (base + 8 * i) 8
    if teV e && !malformed 0 e then some (0, base + 8 * i, va + 2 ^ 16 * i, e) else none
  | l + 1, base, va => (List.range (if l = 3 then 16 else 512)).flatMap fun i =>
    let e := hbmNat s (base + 8 * i) 8
    let at' := va + 2 ^ (16 + 9 * (l + 1)) * i
    if !teV e || malformed (l + 1) e then []
    else if teLeaf e then [(l + 1, base + 8 * i, at', e)]
    else leavesOf s l (teAddr e) at'

/-- What a snapshot takes of an ASID's memory, gathered leaf by leaf: the state that this leaves, the packets that raise counts
on other packages with the references they are for, and whether a block had to be copied and none was free. -/
structure Shared where
  pages : List (Nat × Nat × Nat × DWord)
  maps : List (Nat × Nat × DWord)
  blocks : List (Nat × Nat)
  versions : List (Nat × Nat × BitVec 256)
  far : List (Nat × Nat × Nat)
  short : Bool
  st : State

/-- The VALID bits and BASE of a block as a snapshot records them; of a block of another package they are free, as its bytes are
(log 118). -/
def blockState (s : State) (r : Nat) : Nat × Nat :=
  if refPkg r = s.pkg then (geValid (gbnEntry s (refGbn r)), geBase (gbnEntry s (refGbn r)))
  else
    let far := fun (i n : Nat) => natOfBytes ((List.range n).map fun j => Config.storedByte (BitVec.ofNat 64 r) (4096 + i + j))
    (far 0 2, far 2 5)

/-- The reference of an address recorded, with the state of its block. -/
def noteRef (a : Shared) (asid va r : Nat) : Shared :=
  { a with maps := a.maps ++ [(asid, va, BitVec.ofNat 64 r)], blocks := a.blocks ++ [blockState a.st r] }

/-- One reference to a block of this package duplicated (R275): its GBN counted once more, on whichever tier it stands, or
a copy in a new block where the count is full. -/
def shareHere (asid va : Nat) (a : Shared) (r : Nat) : Shared :=
  match shareBlock a.st (refGbn r) with
  | none => { a with short := true }
  | some (g, s) => noteRef { a with st := s } asid va (if g = refGbn r then r else mkRef s.pkg g)

/-- One reference duplicated (R275). Another package counts its own block, after a probe where its incarnation is unknown; one that
does not reply keeps no count (log 118). -/
def shareRef (asid va : Nat) (a : Shared) (ra : Nat) : Shared :=
  let s := a.st
  let r := hbmNat s ra 8
  if !refV r then a
  else if refPkg r = s.pkg then shareHere asid va a r
  else
    let (num, s) := sendPacket s (refPkg r) (.blockShare (refGbn r))
    { noteRef a asid va r with far := a.far ++ [(num, asid, va)], st := s }

/-- One leaf shared (R275). -/
def shareLeaf (asid : Nat) (a : Shared) (l : Nat × Nat × Nat × Nat) : Shared :=
  let (level, ea, va, e) := l
  if teVers e then
    { a with versions := a.versions ++ [(asid, va, BitVec.ofNat 256 (hbmNat a.st (versAddr e) 32))] }
  else if teBlk e then
    let b := { a with pages := a.pages ++ [(asid, va, level, BitVec.ofNat 64 e)] }
    (List.range 16).foldl (fun a i => shareRef asid (va + 4096 * i) a (refAddr e (va + 4096 * i))) b
  else if teW e then
    let n := putBits e 6 6 1
    let s := hbmPut a.st ea 8 n
    let f := getFrame s (teAddr e)
    let b := { a with pages := a.pages ++ [(asid, va, level, BitVec.ofNat 64 n)] }
    if teRem e then
      let (num, s) := sendPacket s (teAux e) (.frameShare (teAddr e) level true)
      { b with far := a.far ++ [(num, asid, va)], st := s }
    else { b with st := setFrame s (teAddr e) { f with shares := f.shares + 1 } }
  else { a with pages := a.pages ++ [(asid, va, level, BitVec.ofNat 64 e)] }

/-- The memory of an ASID shared, and its generation raised. -/
def shareAsid (a : Shared) (asid : Nat) : Shared :=
  let root := (getAsid a.st asid).root
  if root = 0 then a
  else
    let a := (leavesOf a.st 4 root 0).foldl (shareLeaf asid) a
    { a with st := raiseGen a.st asid }

/-! ### The snapshot of a region -/

/-- The admitted regions of a root's tree, a parent before its children. -/
def treeOf (s : State) (r : Nat) : List Nat := (subtree s r).filter fun i => (getRegion s i).st = .admitted

/-- The place of a region in a list. -/
def placeIn (rs : List Nat) (r : Nat) : Nat := (findIdxOpt (fun i => i = r) rs).getD 0

/-- The barriers of a region as a snapshot records them (R369). -/
def recordBars (s : State) (place r : Nat) : List (Nat × Bool × Nat × Nat × Bar) :=
  let g := getRegion s r
  ((List.range 12).flatMap fun c => (List.range g.cbar).map fun i =>
    (place, false, c, i, getBar s (false, 12 * g.die + c, g.cbase + i))) ++
  (List.range g.dbar).map fun i => (place, true, 0, i, getBar s (true, g.die, g.dbase + i))

/-- The bytes of an RCB as they stand, 0 where they cannot be read. -/
def rcbNow (s : State) (r : Nat) : Nat :=
  ((sysRead s (getRegion s r).rcbAsid 256 (getRegion s r).rcb).map natOfBytes).getD 0

/-- The regions of a snapshot as its manifest lists them, a parent before its children. -/
def placedRegions (s : State) (root : Nat) (rs : List Nat) : List Region :=
  rs.map fun i =>
    let g := getRegion s i
    { g with parent := match g.parent with
        | 0 => 0
        | p + 1 => if i = root then 0 else placeIn rs p + 1 }

/-- A snapshot replaced. -/
def setSnapshot (s : State) (n : Snapshot) : State :=
  { s with snapshots := s.snapshots.map fun (m : Snapshot) => if m.root = n.root then n else m }

/-- The regions, barriers and RCBs that a snapshot has recorded brought up to date: those of a region that has ended in the meantime
stay as they were (R369), regions admitted below the root come after. -/
def refreshTree (s : State) (n : Snapshot) : Snapshot :=
  let rs := n.tree ++ (treeOf s n.root).filter fun i => !n.tree.contains i
  let live := fun (i : Nat) => decide ((getRegion s i).st = .admitted)
  let now := placedRegions s n.root rs
  { n with
    tree := rs
    rcbs := rs.zipIdx.map fun p => if live p.1 then rcbNow s p.1 else n.rcbs.getD p.2 0
    regions := now.zipIdx.map fun p => if live (rs.getD p.2 0) then p.1 else n.regions.getD p.2 p.1
    bars := rs.zipIdx.flatMap fun p => if live p.1 then recordBars s p.2 p.1 else n.bars.filter fun b => b.1 = p.2 }

/-- The tasks of a snapshot's regions that it has neither recorded nor waits for: those submitted since it was begun. -/
def unrecorded (s : State) (n : Snapshot) : List Task :=
  s.tasks.filter fun t => n.tree.contains t.region && t.st ≠ .ended && !n.waiting.contains t.uid &&
    !(n.tasks.any fun u => u.uid = t.uid)

/-- Tasks taken into a snapshot (R368): those that are not resident are recorded at once, the others awaited at their yields. -/
def takeTasks (s : State) (n : Snapshot) (ts : List Task) : Snapshot :=
  let here := ts.filter fun t => (ctxOfTask s t.uid).isSome
  let away := ts.filter fun t => (ctxOfTask s t.uid).isNone
  { n with
    tasks := n.tasks ++ away.map fun t => recordTask s (placeIn n.tree t.region) t
    waiting := n.waiting ++ here.map fun t => t.uid }

/-- The snapshot complete but for its streaming: its memory shared, its regions, barriers and tables recorded. Where a block
that must be copied finds no block free, nothing is shared and the closing is tried again in a cycle (log 118). -/
def closeSnapshot (s : State) (n : Snapshot) : State :=
  let asids := (n.regions.map fun g => g.asid).eraseDups
  let a := asids.foldl shareAsid { pages := [], maps := [], blocks := [], versions := [], far := [], short := false, st := s }
  if a.short then addTimer s (s.now + 1) (.snapshotStreamComplete n.root) else
  let s := a.st
  let n := { n with
    asids := asids.map fun k => (k, getAsid s k), pages := a.pages, maps := a.maps, blocks := a.blocks, versions := a.versions
    farShares := a.far, parts := (n.regions.filterMap fun g => g.part).eraseDups.map fun p => (p, getPart s p), streaming := true }
  addFreeTimer (setSnapshot s n) (.snapshotStreamComplete n.root)

/-- A snapshot brought up to date, and closed where no task is waited for any more; that its region has ended does not end it
(R369). -/
def settleSnapshot (s : State) (n : Snapshot) : State :=
  if n.streaming then s
  else
    let n := refreshTree s n
    let n := takeTasks s n (unrecorded s n)
    let s := setSnapshot s n
    if n.waiting.isEmpty then closeSnapshot s n else s

/-- A root region's snapshot begun for a warning (R368): tasks that are not resident are recorded at once. While an earlier
checkpoint of the region is under way the warning is recorded and starts nothing new (DESIGN CHOICE, log 151). -/
def beginSnapshot (source : Nat) (s : State) (r : Nat) : State :=
  let g := getRegion s r
  if s.snapshots.any fun n => n.root = r then { s with warned := s.warned ++ [(s.now, source, r)] }
  else
    let n : Snapshot :=
      { root := r, tree := [], rcb := g.rcb, owner := g.owner, pkg := s.pkg, incarnation := s.incarnation, time := s.now, rcbs := []
        regions := [], tasks := [], bars := [], asids := [], pages := [], maps := [], blocks := [], versions := [], parts := []
        shards := [], farShares := [], waiting := [], streaming := false }
    settleSnapshot { s with snapshots := s.snapshots ++ [n] } n

/-- A slice that has yielded is recorded in each snapshot that waits for it (R368). -/
def noteYield (s : State) (uid : Nat) : State :=
  match getTask s uid with
  | none => s
  | some t =>
    (s.snapshots.filter fun n => n.waiting.contains uid).foldl (fun s n =>
      settleSnapshot s { n with
        tasks := n.tasks ++ [recordTask s (placeIn n.tree t.region) t], waiting := n.waiting.filter fun u => u ≠ uid }) s

/-- Snapshots no longer wait for tasks that have ended. -/
def sweepSnapshots (s : State) : State :=
  (s.snapshots.filter fun n => !n.streaming).foldl (fun s n =>
    let left := n.waiting.filter fun u => (getTask s u).any fun t => t.st ≠ .ended
    if left = n.waiting then s else settleSnapshot s { n with waiting := left }) s

/-! ### Streaming (R369) -/

/-- The plain bytes that a snapshot streams, in the order of its pages, blocks and versioned frames. Those of a page or block of
another package are free: the manual does not say how they come to the stream (log 118). -/
def snapBytes (s : State) (n : Snapshot) : List Byte :=
  let page := fun (p : Nat × Nat × Nat × DWord) =>
    let e := p.2.2.2.toNat
    if teBlk e then []
    else if teRem e then (List.range (pageSize p.2.2.1)).map (Config.storedByte p.2.2.2)
    else rawRead s .hbm (teAddr e) (pageSize p.2.2.1)
  let block := fun (m : Nat × Nat × DWord) =>
    let r := m.2.2.toNat
    if refPkg r ≠ s.pkg then (List.range 4096).map (Config.storedByte m.2.2)
    else match s.tiered.find? fun t => t.1 = refGbn r with
      | some (_, bs, _) => bs
      | none => rawRead s .hbm (geFrame (gbnEntry s (refGbn r))) 4096
  let vers := fun (v : Nat × Nat × BitVec 256) =>
    rawRead s .hbm (field v.2.2 31 0 * 2 ^ 16) (2 ^ 16) ++ rawRead s .hbm (field v.2.2 95 64 * 2 ^ 16) (2 ^ 16)
  n.pages.flatMap page ++ n.maps.flatMap block ++ n.versions.flatMap vers

/-- A shard as it is stored (R11, R369): its plain bytes encrypted in blocks of 16. -/
def storedShard (owner : Nat) (bs : List Byte) : List Byte :=
  ((chunks 16 ((bs.length + 15) / 16) bs).zipIdx).flatMap fun b =>
    (List.range b.1.length).map fun i => Config.shardBlock owner b.2 b.1 i

/-- The shards of a snapshot stored (R369): the references of their first blocks, which the firmware picks, and their digests. -/
def makeShards (owner : Nat) : List (List Byte) → State → List (DWord × List Byte) × State
  | [], s => ([], s)
  | bs :: rest, s =>
    let (a, s) := fresh s
    let ref := BitVec.ofNat 64 (putBits (mkRef s.pkg (Config.freeWord a).toNat) 43 42 1)
    let kept := storedShard owner bs
    let (more, s) := makeShards owner rest { s with stored := s.stored.filter (fun p => p.1 ≠ ref) ++ [(ref, kept)] }
    ((ref, shake256 kept 32) :: more, s)

/-- A manifest below its signature (R369): a header of 64 bytes, 40 bytes for each shard, the tables and states. -/
def manifestBody (n : Snapshot) : List Byte :=
  let h : ManifestHead :=
    { owner := n.owner, pkg := n.pkg, incarnation := n.incarnation, time := n.time, rcb := n.rcb, shards := n.shards.length }
  (List.range 64).map (Config.headByte h) ++ (n.shards.flatMap fun p => bytesOf 8 p.1.toNat ++ p.2) ++ Config.manifestRest n

/-- What a manifest's bytes below its signature hold. -/
def manifestRead (bs : List Byte) : Option Snapshot :=
  match Config.headRead (bs.take 64) with
  | none => none
  | some h =>
    let shards := (chunks 40 h.shards ((bs.drop 64).take (40 * h.shards))).map fun c => (BitVec.ofNat 64 (natOfBytes (c.take 8)), c.drop 8)
    (Config.restRead (bs.drop (64 + 40 * h.shards))).map fun n =>
      { n with owner := h.owner, pkg := h.pkg, incarnation := h.incarnation, time := h.time, rcb := h.rcb, shards := shards }

/-- The signature of a message by the package's identity key (R11): one value for a message, as FIPS 205's deterministic
signing gives it; the manual does not choose between that and hedged signing (DESIGN CHOICE, log 119). -/
def signature (s : State) (bs : List Byte) : List Byte := (List.range 29792).map (Config.slhSign s.identityKey bs)

/-- The copy-on-write state of a snapshot released (R369): what other packages have counted for it, they count no more. -/
def releaseSnapshot (s : State) (n : Snapshot) : State :=
  let far := fun (asid va : Nat) => n.farShares.any fun f => f.2 = (asid, va)
  let s := n.pages.foldl (fun s p =>
    let e := p.2.2.2.toNat
    if !teShr e then s
    else if !teRem e then loseLeaf s (teAddr e, pageSize p.2.2.1)
    else if far p.1 p.2.1 then (sendPacket s (teAux e) (.frameShare (teAddr e) p.2.2.1 false)).2
    else s) s
  n.maps.foldl (fun s m =>
    let r := m.2.2.toNat
    if refPkg r = s.pkg then releaseGbn s (refGbn r)
    else if far m.1 m.2.1 then (sendPacket s (refPkg r) (.blockRelease (refGbn r))).2
    else s) s

/-- A block of another package copied because its count was full (R275): the snapshot's reference names the copy. -/
def renameShare (num : Nat) (r : DWord) (n : Snapshot) : Snapshot :=
  match n.farShares.find? fun f => f.1 = num with
  | none => n
  | some (_, asid, va) => { n with maps := n.maps.map fun m => if m.1 = asid ∧ m.2.1 = va then (asid, va, r) else m }

/-- A block of another package that has counted nothing for the snapshot. -/
def unshare (num : Nat) (n : Snapshot) : Snapshot := { n with farShares := n.farShares.filter fun f => f.1 ≠ num }

/-- SNAPSHOT_STREAM_COMPLETE (R369): with every shard stored the root monitor signs the manifest; then the copy-on-write
state is released. -/
def execSnapshotStreamComplete (root : Nat) (s : State) : Ans :=
  .next (match s.snapshots.find? fun n => n.root = root with
    | none => s
    | some n =>
      if !n.streaming then settleSnapshot s n else
      let bs := snapBytes s n
      let (shards, s) := makeShards n.owner (chunks (2 ^ 28) ((bs.length + 2 ^ 28 - 1) / 2 ^ 28) bs) s
      let s := (List.range shards.length).foldl (fun s i => emit s (.shard n.rcb i)) s
      let body := manifestBody { n with shards := shards }
      let s := emit s (.manifest n.rcb (body ++ signature s body))
      releaseSnapshot { s with snapshots := s.snapshots.filter fun m => m.root ≠ root } n)

end Sys2Proof.Machine
end

