-- ==== Sys2Proof/Machine/Slices.lean ====
section
/-! DEFINITION. The life of a slice after its placement: yields (R124, R242), the ends of a task (R128, R129), budgets and
the watchdog (R131, R311, R312), and pre-emption with its drain (R36, R37, R280, R313 to R315). -/

namespace Sys2Proof.Machine

/-! ### Parking -/

/-- Whether a context's M work is done: what `mwait`, and a yield or the end of a task, wait for (R202). -/
def mIdle (s : State) (x : Ctx) : Bool :=
  x.mq.isEmpty && (List.range 8).all fun n => decide (x.accBusy.toList.getD n 0 ≤ s.now)

/-- Whether every reserved result has landed; the handle of a spawn lands after its hand-over (R125). -/
def landed (x : Ctx) : Bool := x.flights.all fun f => f.due = 0 && decide (f.latch < 2)

/-- Whether a context waits for its bundle's parcels, or before its first bundle as at a fill (R42, R62, R193). -/
def fetchWaits (x : Ctx) : Bool :=
  match x.wait with
  | .fill _ _ => true
  | .none => !x.blocked.isEmpty
  | _ => false

/-- A context's state as it is saved (R36, R280): without latches and sticky memory, which only a halt in a fetch wait
keeps (`keeps`). A wait of an instruction that has issued goes on when the slice resumes, as does the sizing of a transfer's target;
any other bundle is offered again. The slice's own pin ends (R116); a switch of the core's other slice does not end it
(DESIGN CHOICE, log 111). -/
def savedCtx (x : Ctx) : Ctx :=
  let keep := x.keeps
  let w := match x.wait with
    | .yieldLand | .tend | .halt | .handover _ _ => x.wait
    | _ => .none
  { x with
    latches := if keep then x.latches else Vector.replicate 8 .lost
    sticky := if keep then x.sticky else []
    wait := w, issue := none, nextIssue := 0, preempt := none, halting := false, draining := false, keeps := false,
    blocked := [], fetchWait := 0, slotBusy := Vector.replicate 16 0, accBusy := Vector.replicate 8 0, accBusyT := Vector.replicate 8 0, zstUntil := 0,
    fileUntil := 0, mlast := none, lbuf := none,
    sizing := match x.sizing with
      | some (.pin _ _) => none
      | z => z }

/-- The placements with hart programs that a core has seen, by which a slice's later placement knows whether its hart code
still stands there (R238): none where the task's code image is still being written. -/
def hartPlaces (s : State) (core uid : Nat) : Option Nat :=
  if s.cmds.any fun k => k.kind = .fill && k.task = uid then none else some (getCore s core).places

/-- A task parked (R32): its context state saved, which takes a duration the manual leaves open (R374), its data state left
where it stands (R310). -/
def parkTask (s : State) (c : CtxId) (x : Ctx) (preempted : Bool) : State :=
  let s := match getTask s x.task with
    | some t => smudge s t
    | none => s
  let (due, s) := freeDue s
  let s := modTask s x.task fun t =>
    { t with
      st := .parked, since := s.now, preempted := preempted, saved := some (savedCtx x), saveDue := due,
      placesAt := some (c.core, hartPlaces s c.core x.task) }
  let s := modCore s c.core fun k => { k with saving := max k.saving due }
  addTurn (vacate s c) (.arbiterDecision (dieOf c.core))

/-! ### Yields (R124, R242) -/

/-- `yield n` (R124): BUDGET for a stated run above the task's budget or the header's limit; a held fault reported; then
a boundary point, a package phase boundary, and the wait of step 3. Handler mode ends (R317). -/
def execYield (f : CFields) (s : State) : Ans :=
  cOp f s fun x =>
    let n := immBits f 23 0
    let budget := ((getTask s x.task).map fun t => t.budget).getD 0
    if n = 0 then .trap 0x02 0 none
    else if budget < n ∨ hdrYmax x.hdr < n then .trap codeBudget 0 none
    else match x.held with
      | some h => .report h
      | none =>
        let s := boundaryLater s (.ctx x.task) 3 none
        let s := modTask s x.task fun t => { t with run := n, yieldPc := issuePc x }
        .done s (addWait (addBoundary (leaveHandler x)) .yieldLand)

/-- Whether a hart has joined the yield: it stands at `lyld`, or its slice has no program for it. -/
def hartJoined (h : Option Hart) : Bool :=
  match h with
  | some h => h.st = .lyld || h.st = .halted
  | none => true

/-- A hart that resumes after its `lyld`, which it has then executed. -/
def afterLyld (h : Hart) : Hart :=
  if h.st = .lyld then { h with st := .running, pc := h.pc + 4, instret := h.instret + 1 } else h

/-- The package boundary of a hart's `lyld` as the slice ends (R284). -/
def lyldBoundary (uid : Nat) (s : State) (r : Role × Option Hart) : State :=
  match r.2 with
  | some h => if h.st = .lyld then boundaryLater s (.hart uid r.1) 3 none else s
  | none => s

/-- YIELD_SLICE_END (R124): with every reserved entry landed, the harts at `lyld` and the M work done, the slice ends and
its task parks. A slice resumed in this wait on a gated core may end it there, as one in a wait of `tend` or `halt` may, before
the core's wave: the manual says of a gated core only that it issues nothing (R42; DESIGN CHOICE, log 136). -/
def execYieldSliceEnd (c : CtxId) (s : State) : Ans :=
  .next (match getCtx s c with
    | none => s
    | some x =>
      if x.wait = .yieldLand ∧ !x.halting ∧ landed x ∧ mIdle s x ∧ hartJoined x.loader ∧ hartJoined x.storer then
        let s := [(Role.loader, x.loader), (Role.storer, x.storer)].foldl (lyldBoundary x.task) s
        let x := { x with
          wait := .none, loader := x.loader.map afterLyld, storer := x.storer.map afterLyld, sinceYield := 0 }
        noteYield (parkTask s c x false) x.task
      else s)

/-- `budget` (R131): the task's budget from its next slice, capped; 0 takes BUDGET. -/
def execBudget (f : CFields) (s : State) : Ans :=
  cOp f s fun x => withS x f.srcA fun a x =>
    if a = 0 then .trap codeBudget 0 none
    else .done (modTask s x.task fun t => { t with budget := capBudget (getRegion s x.region) a.toNat }) x

/-! ### The end of a task (R128, R129) -/

/-- `tend` (R128): the context waits for the task's copies; handler mode ends. -/
def execTend (f : CFields) (s : State) : Ans :=
  cOp f s fun x => .done s (addWait (addBoundary (leaveHandler x)) .tend)

/-- `halt` (R129): the same wait. -/
def execHalt (f : CFields) (s : State) : Ans :=
  cOp f s fun x => .done s (addWait (addBoundary (leaveHandler x)) .halt)

/-- Whether a task may end: its copies have completed and its M work is done (R128, R202). -/
def mayEnd (s : State) (x : Ctx) : Bool := (openCmds s x.task).isEmpty && mIdle s x && !x.halting

/-- Whether an agent is a command. -/
def isCmdAgent (a : Agent) : Bool :=
  match a with
  | .cmd _ => true
  | _ => false

/-- The boundary of a task that ends: it publishes every copy of the task (R285), and both harts stop (R242). -/
def endBoundary (s : State) (c : CtxId) (x : Ctx) : State :=
  let ks := s.cmds.filter fun k => k.task = x.task && cmdDone k
  let copied := fun (a : Agent) => (getView s a).mine.filter fun i => s.log.any fun r => r.id = i && isCmdAgent r.by'
  let ids := ks.flatMap (fun k => (getView s (.cmd k.id)).own) ++ [Role.loader, .storer].flatMap fun r => copied (.hart x.task r)
  let s := ks.foldl (fun s k => forgetCmd (observeCmd (.ctx x.task) s k) k.id) s
  let s := boundaryLater (giveOwn s (.ctx x.task) ids) (.ctx x.task) 3 none
  let stop := fun (h : Hart) => { h with st := .halted }
  modCtx s c fun x => { x with loader := x.loader.map stop, storer := x.storer.map stop }

/-- TEND_COMPLETE (R128, R321): the task's pieces end and are handed over. -/
def execTendComplete (c : CtxId) (s : State) : Ans :=
  .next (match getCtx s c with
    | none => s
    | some x =>
      if x.wait = .tend ∧ mayEnd s x then
        let s := endBoundary s c x
        let s := match getTask s x.task with
          | some t => endPieces s t c false
          | none => s
        let (w, s) := handoverWait s x true
        addTurn (modCtx s c fun x => { x with wait := w }) (.spawnHandoverEnd c)
      else s)

/-- HALT_COMPLETE (R129): the task ends, its current pieces merging blank. -/
def execHaltComplete (c : CtxId) (s : State) : Ans :=
  .next (match getCtx s c with
    | none => s
    | some x =>
      if x.wait = .halt ∧ mayEnd s x then endTask (blankPieces (endBoundary s c x) x.task) c x else s)

/-! ### Budgets (R311, R312, R315) -/

/-- Whether an instruction that has issued still sizes the target of its transfer (R113, R115, R118). -/
def sizesTarget (x : Ctx) : Bool :=
  match x.sizing with
  | some (.after _) | some (.skip _ _) => true
  | _ => false

/-- Whether a context stands at a bundle that has not issued: about to issue, or waiting before it, the start wave of its
core included (R42). While a transfer's target is still to be sized there is no such bundle yet (log 112). -/
def atBundle (s : State) (x : Ctx) : Bool :=
  !sizesTarget x &&
  match x.wait with
  | .none => !x.halting && x.blocked.all (· = .wave) && (!x.blocked.isEmpty || decide (x.nextIssue ≤ s.now))
  | .fill _ _ | .tag _ _ _ | .barrier _ _ _ | .spawnPool _ => !x.halting
  | _ => false

/-- BUDGET_TRAP (R311): SBUDGET 0 takes BUDGET at the next bundle to issue, or at the waiting one, whose wait is
abandoned. -/
def execBudgetTrap (c : CtxId) (s : State) : Ans :=
  .next (match getCtx s c with
    | none => s
    | some x =>
      if x.sbudget = 0 ∧ atBundle s x then
        takeTrap s c { x with wait := .none }
          { code := codeBudget, slot := 7, cls := 0, opnd := 0, tpc := x.pc, tinfo := BitVec.ofNat 32 (x.rep % 16) }
      else s)

/-- WATCHDOG (R312): 2^24 cycles in contexts since the task's last yield. -/
def execWatchdog (c : CtxId) (s : State) : Ans :=
  .next (match getCtx s c with
    | none => s
    | some x => if 2 ^ 24 ≤ x.sinceYield then asyncTrap s c x 0x0C 7 0 else s)

/-- Whether a context has had its 256 cycles since a pre-emption request, fetch waits apart, without a boundary point. -/
def overran (s : State) (x : Ctx) : Bool :=
  match x.preempt with
  | some t => !x.halting && decide (256 ≤ s.now - t - x.fetchWait)
  | none => false

/-- BOUNDARY_OVERRUN (R315). -/
def execBoundaryOverrun (c : CtxId) (s : State) : Ans :=
  .next (match getCtx s c with
    | none => s
    | some x => if overran s x then asyncTrap s c x 0x0D 7 0 else s)

/-! ### Pre-emption (R313, R314) -/

/-- Whether a context with a pending request waits where it halts at once (R314, R280); before its first bundle it waits as
at a fill (R42). -/
def haltsWaiting (x : Ctx) : Bool := x.preempt.isSome && (x.wait ≠ .none || !x.blocked.isEmpty)

/-- A hart under a halt (R243): one that waits inside an instruction, or at `lyld`, has not performed it and executes it
again. -/
def haltHart (h : Hart) : Hart :=
  match h.st with
  | .waiting _ | .lyld => { h with st := .running, lfe := none }
  | _ => h

/-- The step in progress on the datapath for a context is cut at the end of its current span of 8 cycles (R205). -/
def cutStep (s : State) (c : CtxId) (x : Ctx) : State × Ctx :=
  match (getCore s c.core).dp, x.mq with
  | some (n, due), w :: rest =>
    if n ≠ c.ctx then (s, x)
    else
      let total := workCycles w
      let done := total - (due - s.now)
      let spans := (done + 7) / 8
      let x := { x with mq := { w with spans := spans } :: rest }
      if total ≤ 8 * spans then (s, x)
      else
        (modCore s c.core fun k => { k with dp := some (n, due + 8 * spans - total) }, x)
  | _, _ => (s, x)

/-- The drain begins (R36, R314): handles of views still being filled land at once, harts halt, the M step is cut. Pending
fmt writes apply but in a halt in a fetch wait (R280, R314), which is settled here, where the halt begins. -/
def beginHalt (s : State) (c : CtxId) (x : Ctx) : State :=
  let keep := fetchWaits x
  let x := if keep then x else passBoundary x
  let x := (x.flights.filter fun f => f.view).foldl landFlight x
  let (s, x) := cutStep s c { x with
    halting := true, draining := true, keeps := keep, loader := x.loader.map haltHart, storer := x.storer.map haltHart }
  setCtx s c x

/-- One context asked to halt; one that waits begins its halt at once (R314, R280). -/
def askHalt (s : State) (c : CtxId) : State :=
  match getCtx s c with
  | none => s
  | some x =>
    if x.preempt.isSome then s
    else
      let x := { x with preempt := some s.now, fetchWait := 0 }
      if haltsWaiting x && !x.halting then beginHalt s c x else setCtx s c x

/-- The other side of a paired product asked to halt, where an `mmap` is current or pending here (R210). -/
def askPartner (s : State) (c : CtxId) (x : Ctx) : State :=
  if x.mq.any fun w => mOpc w.op = 3 then
    match partnerCtx s c x with
    | some d => askHalt s d
    | none => s
  else s

/-- A pre-emption requested of a context, and of the other side of its paired product (R209). -/
def requestHalt (s : State) (c : CtxId) : State :=
  match getCtx s c with
  | none => s
  | some x => askPartner (askHalt s c) c x

/-- Whether a halt has drained: every result landed, the datapath free of the context. -/
def drained (s : State) (c : CtxId) (x : Ctx) : Bool :=
  landed x && (match (getCore s c.core).dp with
    | some (n, _) => n ≠ c.ctx
    | none => true)

/-- PREEMPT_HALT (R314): a context that waits begins its halt; one that has reached a boundary point drains; one that has
drained is saved and its task parks with its budget and run. An `mmap` issued while the request stands has it made of its partner
too (R210). -/
def execPreemptHalt (c : CtxId) (s : State) : Ans :=
  .next (match getCtx s c with
    | none => s
    | some x =>
      let s := if x.preempt.isSome then askPartner s c x else s
      if x.halting then
        let s := if x.draining then s else beginHalt s c x
        match getCtx s c with
        | some x =>
          if drained s c x then
            let s := partPair s c
            parkTask s c ((getCtx s c).getD x) true
          else s
        | none => s
      else if haltsWaiting x then beginHalt s c x
      else s)

end Sys2Proof.Machine
end

