-- ==== Sys2Proof/Machine/Sched.lean ====
section
/-! DEFINITION. The slice arbiter of a die: its candidates and their order (R308, R322), the places an allotment may take
(R27, R28, R309), saves, clears and restores (R38, R310), the first placement with its images (R193, R238), context roles
(R29), start sequences and gating (R42). -/

namespace Sys2Proof.Machine

/-! ### Saving data state (R310) -/

/-- A task's parts chosen by the flags (window, slots, tiles) saved. -/
def saveParts (s : State) (uid : Nat) (which : Bool × Bool × Bool) : State :=
  let s := forceFills s uid
  match getTask s uid with
  | none => s
  | some t =>
    let h := dataHdr t
    modTask s uid fun t => { t with
      scratch := if which.1 then liftPart s t.scratch (hdrScratch h) fun k => k.scratch else t.scratch
      slots := if which.2.1 then liftPart s t.slots (8192 * hdrOsl h) fun k => k.opmem else t.slots
      tiles := if which.2.2 then liftPart s t.tiles (16384 * hdrZt h) fun k => k.acc else t.tiles }

/-- The bytes of a part that a range of its core's store overlaps saved (R310); the part is saved once all of it has gone. -/
def liftOverlap (s : State) (core b k : Nat) (p : Part) (n : Nat) (store : Core → Mem) : Part :=
  match p with
  | .here c base gone m =>
    if c ≠ core then p
    else
      let lo := max base b
      let new := cutRange (lo - base, min (base + n) (b + k) - lo) gone
      let gone := gone ++ new
      let m := liftRanges m (store (getCore s core)) base new
      if (cutRange (0, n) gone).isEmpty then .saved m else .here c base gone m
  | p => p

/-- The bytes of a part that still stand on a core, as (first byte, bytes). -/
def partSpans (core : Nat) (p : Part) (n : Nat) : List (Nat × Nat) :=
  match p with
  | .here k b gone _ => if k = core then (cutRange (0, n) gone).map fun r => (b + r.1, r.2) else []
  | _ => []

/-- The spans of a parked task's state on a core, in bytes: window, slots, tiles. -/
def taskSpans (core : Nat) (t : Task) : List (Nat × Nat) × List (Nat × Nat) × List (Nat × Nat) :=
  let h := dataHdr t
  (partSpans core t.scratch (hdrScratch h), partSpans core t.slots (8192 * hdrOsl h), partSpans core t.tiles (16384 * hdrZt h))

/-- The parked tasks with state on a core. -/
def parkedOn (s : State) (core uid : Nat) : List Task :=
  s.tasks.filter fun t => t.uid ≠ uid && t.st = .parked && taskSpans core t ≠ ([], [], [])

/-! ### Positions (R309) -/

/-- Whether two spans overlap. -/
def spansMeet (a b : Nat × Nat) : Bool := decide (a.1 < b.1 + b.2) && decide (b.1 < a.1 + a.2)

/-- The lowest position of n units within a capacity that meets none of the spans. -/
def lowestFit (cap n : Nat) (busy : List (Nat × Nat)) : Option Nat :=
  (sortBy (fun a b => decide (a < b)) (0 :: busy.map fun b => b.1 + b.2)).find? fun p =>
    decide (p + n ≤ cap) && (n = 0 || !(busy.any fun b => spansMeet b (p, n)))

/-- The position of one part of an allotment: its former one, the lowest free of parked state, or the lowest (R309). A former
position at which the part no longer fits, in the store or beside the resident slice's allotment, is none. -/
def partPos (cap n : Nat) (own : Option Nat) (res parked : List (Nat × Nat)) : Option Nat :=
  match own.filter fun b => decide (b + n ≤ cap) && !(res.any fun r => spansMeet r (b, n)) with
  | some b => some b
  | none => (lowestFit cap n (res ++ parked)).orElse fun _ => lowestFit cap n res

/-- A place for a slice: its context and the first byte of its window, slots and tiles. -/
structure Spot where
  c : CtxId
  window : Nat
  slots : Nat
  tiles : Nat

/-- The header and image of a task's next slice (R130): a slice that was not pre-empted takes its region's. -/
def nextHdr (s : State) (t : Task) : BitVec 512 := if t.preempted then t.hdr else (getRegion s t.region).hdr

/-- The image of a task's next slice. -/
def nextImage (s : State) (t : Task) : Nat := if t.preempted then t.image else (getRegion s t.region).image

/-- Whether the hart portions of two slices fit a core's stores (R28). -/
def portionsFit (a b : BitVec 512) : Bool :=
  decide (hdrLi a + hdrLi b ≤ 16384) && decide (hdrLd a + hdrLd b ≤ 8192) && decide (hdrSi a + hdrSi b ≤ 16384) &&
    decide (hdrSd a + hdrSd b ≤ 8192)

/-- Whether a context is reserved for another task (R313). -/
def reservedFor (s : State) (c : CtxId) : Option Nat := alGet s.reserved c

/-- The place a core's empty context gives a task: the lower one that is empty and not reserved for another, beside no
slice of another owner, where the allotment fits. -/
def spotOn (s : State) (t : Task) (core : Nat) : Option Spot :=
  let free := fun (n : Nat) => (getCtx s ⟨core, n⟩).isNone && (reservedFor s ⟨core, n⟩).all fun u => u = t.uid
  match (List.range 2).find? free with
  | none => none
  | some n =>
    let h := nextHdr s t
    let other := getCtx s ⟨core, 1 - n⟩
    let ok := match other with
      | some y => (getRegion s y.region).owner = (getRegion s t.region).owner && portionsFit h y.hdr
      | none => true
    if !ok then none
    else
      let res := match other with
        | some y => ((y.window, hdrScratch y.hdr), (8192 * y.slotBase, 8192 * hdrOsl y.hdr), (16384 * y.tileBase, 16384 * hdrZt y.hdr))
        | none => ((0, 0), (0, 0), (0, 0))
      let old := (parkedOn s core t.uid).map (taskSpans core)
      let own := fun (p : Part) => match p with
        | .here k b _ _ => if k = core then some b else none
        | _ => none
      match partPos 393216 (hdrScratch h) (own t.scratch) [res.1] (old.flatMap fun o => o.1),
          partPos 131072 (8192 * hdrOsl h) (own t.slots) [res.2.1] (old.flatMap fun o => o.2.1),
          partPos 131072 (16384 * hdrZt h) (own t.tiles) [res.2.2] (old.flatMap fun o => o.2.2) with
      | some w, some o, some z => some { c := ⟨core, n⟩, window := w, slots := o, tiles := z }
      | _, _, _ => none

/-- The core that holds a task's resident state. -/
def homeCore (t : Task) : Option Nat :=
  match t.scratch, t.slots, t.tiles with
  | .here k _ _ _, _, _ | _, .here k _ _ _, _ | _, _, .here k _ _ _ => some k
  | _, _, _ => none

/-- The place of a task (R309, R313): the context reserved for it, the core that holds its state, then the lowest core. -/
def findSpot (s : State) (t : Task) : Option Spot :=
  let kept := (s.reserved.filter fun r => r.2 = t.uid && (getCtx s r.1).isNone).map fun r => r.1.core
  (kept ++ (homeCore t).toList.filter (fun k => dieOf k = t.die) ++ (List.range 96).map fun n => 96 * t.die + n).findSome?
    (spotOn s t)

/-! ### Roles (R29) -/

/-- A context number exchanged on a core. -/
def swapId (core : Nat) (c : CtxId) : CtxId := if c.core = core then ⟨core, 1 - c.ctx⟩ else c

/-- An event of one context of a core turned to the other. -/
def swapInstr (core : Nat) (i : Instr) : Instr :=
  let f := swapId core
  match i with
  | .bundleIssue c => .bundleIssue (f c)
  | .resultLanding c n => .resultLanding (f c) n
  | .fmtWriteApply c => .fmtWriteApply (f c)
  | .tagWaitEnd c => .tagWaitEnd (f c)
  | .barrierWaitEnd c => .barrierWaitEnd (f c)
  | .pairHalfArrival c => .pairHalfArrival (f c)
  | .pairStepTimeout c n => .pairStepTimeout (f c) n
  | .hartWaitEnd h => .hartWaitEnd ⟨f h.c, h.role⟩
  | .yieldSliceEnd c => .yieldSliceEnd (f c)
  | .tendComplete c => .tendComplete (f c)
  | .haltComplete c => .haltComplete (f c)
  | .spawnPoolWaitEnd c => .spawnPoolWaitEnd (f c)
  | .spawnHandoverEnd c => .spawnHandoverEnd (f c)
  | .stateRestoreComplete c => .stateRestoreComplete (f c)
  | .preemptHalt c => .preemptHalt (f c)
  | .budgetTrap c => .budgetTrap (f c)
  | .watchdog c => .watchdog (f c)
  | .boundaryOverrun c => .boundaryOverrun (f c)
  | i => i

/-- The two contexts of a core exchanged. -/
def swapCtxs (s : State) (core : Nat) : State :=
  let f := swapId core
  let s := { s with
    slots := s.slots.map fun p => (f p.1, p.2)
    reserved := s.reserved.map fun p => (f p.1, p.2)
    timers := s.timers.map fun p => (p.1, swapInstr core p.2)
    todo := s.todo.map fun e => match e with
      | .inl i => .inl (swapInstr core i)
      | .inr h => .inr ⟨f h.c, h.role⟩
    cmds := s.cmds.map fun k => { k with c := f k.c }
    pieces := s.pieces.map fun p => { p with c := f p.c } }
  modCore s core fun k => { k with dp := k.dp.map fun d => (1 - d.1, d.2) }

/-- Whether the roles of a core's two slices are the other way round: context 1's deadline is earlier, or equal with the
longer residence, or context 0 stands empty beside it (R29). -/
def rolesWrong (s : State) (core : Nat) : Bool :=
  match getCtx s ⟨core, 0⟩, getCtx s ⟨core, 1⟩ with
  | some x, some y =>
    let d := fun (x : Ctx) => ((getTask s x.task).map fun t => t.deadline).getD 0
    decide (d y < d x) || (d y = d x && decide (y.resident < x.resident))
  | none, some _ => true
  | _, _ => false

/-- The contexts of cores on which a slice has been left alone in context 1 exchanged: its departed neighbour's leaving was a
group switch (R29, R36). -/
def settleRoles (s : State) : State :=
  ((s.slots.filter fun p => p.1.ctx = 1 && (getCtx s ⟨p.1.core, 0⟩).isNone).map fun p => p.1.core).eraseDups.foldl swapCtxs s

/-! ### Start sequences and gating (R42) -/

/-- The wave of a core. -/
def waveOf (core : Nat) : Nat := core % 96 / 2

/-- Whether a slice waits on a gated core. -/
def waitsGated (s : State) : Bool := s.slots.any fun p => (getCore s p.1.core).gated

/-- A start sequence begun, unless one runs. -/
def startSequence (s : State) : State :=
  match s.sequence with
  | some _ => s
  | none =>
    let s := { s with sequence := some (s.now, (List.range 768).filter fun n => (getCore s n).gated) }
    let s := (List.range 47).foldl (fun s w => addTimer s (s.now + 32 * (w + 1)) (.waveStart (w + 1))) s
    addTurn s (.waveStart 0)

/-- A core leaves the gated state. Where no slice stands on it, the cycles after which it is gated again (R42) are counted from
here: the manual does not say from where (DESIGN CHOICE, log 113). -/
def ungate (s : State) (core : Nat) : State :=
  let s := modCore s core fun k => { k with gated := false, emptySince := s.now }
  let s := addTimer s (s.now + 65536) (.coreGating core)
  { s with slots := s.slots.map fun p =>
      if p.1.core = core then (p.1, { p.2 with blocked := p.2.blocked.filter fun b => b ≠ .wave }) else p }

/-- WAVE_START (R42): the sequence's cores of a wave that are gated start; the last wave ends the sequence, and the next
begins where a slice still waits on a gated core. The manual does not name the cycle in which a sequence ends: here it is
that of its last wave's start (DESIGN CHOICE, log 113). -/
def execWaveStart (w : Nat) (s : State) : Ans :=
  .next (match s.sequence with
    | none => s
    | some (t, cores) =>
      if s.now < t + 32 * w then s
      else
        let s := ((cores.filter fun n => waveOf n = w && (getCore s n).gated)).foldl ungate s
        if w < 47 then s
        else
          let s := { s with sequence := none }
          if waitsGated s then startSequence s else s)

/-- CORE_GATING (R42). -/
def execCoreGating (core : Nat) (s : State) : Ans :=
  .next (
    if (getCtx s ⟨core, 0⟩).isNone ∧ (getCtx s ⟨core, 1⟩).isNone ∧ !(getCore s core).gated ∧
        (getCore s core).emptySince + 65536 ≤ s.now then modCore s core fun k => { k with gated := true }
    else s)

/-! ### The first placement (R193, R238) -/

/-- The hart of a fresh slice: its portion's sizes and its entry; none without a program. -/
def freshHart (li ld entry : Nat) : Option Hart :=
  if li = 0 then none
  else some
    { st := if entry = noneWord then .halted else .running,
      x := (Vector.replicate 32 (0 : Word)).setIfInBounds 2 (BitVec.ofNat 32 (0x10000000 + ld)),
      pc := BitVec.ofNat 32 entry, code := [], data := [], dataSize := ld, mscratch := 0, hstall := 0, instret := 0,
      nextIssue := 0, loads := [], records := [], awaited := none, lfe := none }

/-- An entry of a descriptor, or the header's. -/
def entryOr (e : Word) (h : Nat) : Nat := if e.toNat = noneWord then h else e.toNat

/-- A hart of a later slice of a task (R238): a program that the kernel's new image does not have leaves it halted, one that
it has anew starts, and the data portion takes the declared size (R130). -/
def nextHart (q : Option Hart) (li ld entry : Nat) : Option Hart :=
  match q with
  | none => freshHart li ld entry
  | some h =>
    if li = 0 then none else some { h with dataSize := ld, data := h.data.filter fun c => decide (c.1 < ld) }

/-- The context of a task's first slice (R81 to R85, R108, R119, R142, R155, R161, R207, R225, R238). -/
def freshCtx (t : Task) (h : BitVec 512) (image : Nat) : Ctx :=
  { task := t.uid, region := t.region, hdr := h, image := image, pc := BitVec.ofNat 32 (entryOr t.entryC (hdrEcomp h)),
    v := Vector.replicate 32 { dead := true, entries := [] }, s := Vector.replicate 32 { dead := true, entries := [] },
    latches := Vector.replicate 8 .lost, flights := [], g := Vector.replicate 16 0, gstep := Vector.replicate 16 0, p := 0,
    e := Vector.replicate 8 0, j := 0, loops := [], fmt := 0, fmtPend := [], sticky := [],
    tags := Vector.replicate 64 { st := .idle, count := 0, status := 0 }, outstanding := 0, cand := [], fileUntil := 0,
    rng := { k0 := 0, k1 := 0, seq := 0, pos := 0, lane := 0, idx := 0 }, views := [], claimed := 0,
    slotBusy := Vector.replicate 16 0, accBusy := Vector.replicate 8 0, accBusyT := Vector.replicate 8 0, zstUntil := 0,
    zstLo := 0, scales := Vector.replicate 8 (BitVec.ofNat 2048 (packW 16 (List.replicate 128 0x3F80))), mq := [],
    mlast := none, pairs := 0, pairBuf := none, mate := none, records := [], guards := [], guardsDue := none, held := none, awaited := none, snap := none,
    handler := false, tcause := 0, tpc := 0, tinfo := 0, sbudget := t.budget, extended := false, cycle := 0, midle := 0,
    mstall := 0, midleSet := false, mstallSet := false, sinceYield := 0, wait := .none, sizing := none, nextIssue := 0, rep := 0,
    seen := { p := 0, g := Vector.replicate 16 0, fmt := 0, steps := Vector.replicate 16 0 }, issue := none, lbuf := none, preempt := none,
    halting := false, draining := false, keeps := false, blocked := [], fetchWait := 0, window := 0, slotBase := 0, tileBase := 0,
    loader := freshHart (hdrLi h) (hdrLd h) (entryOr t.entryL (hdrEload h)),
    storer := freshHart (hdrSi h) (hdrSd h) (entryOr t.entryS (hdrEstor h)), resident := 0 }

/-- The parts of the code image that a placement reads: at the first, the scratchpad image and the hart images whole;
later the hart code alone. -/
def imageParts (h : BitVec 512) (image : Nat) (first : Bool) : List (Nat × Nat) :=
  let d := if first then [(image + hdrDoff h, hdrDlen h)] else []
  let l := if hdrLi h = 0 then [] else [(image + hdrLioff h, hdrLi h + (if first then hdrLd h else 0))]
  let t := if hdrSi h = 0 then [] else [(image + hdrSioff h, hdrSi h + (if first then hdrSd h else 0))]
  (d ++ l ++ t).filter fun p => p.2 ≠ 0

/-- Bytes as memory cells from an address on. -/
def cellsOf (bs : List Byte) : Mem := memPut [] 0 bs

/-- What has been read of a code image put in its places: scratchpad image, hart code, hart data. -/
def applyImages (s : State) (c : CtxId) (x : Ctx) (first : Bool) (bs : List Byte) : State :=
  let h := x.hdr
  let d := if first then hdrDlen h else 0
  let l := if hdrLi h = 0 then 0 else hdrLi h + (if first then hdrLd h else 0)
  let s := if d = 0 then s
    else dropLog (rawWrite s (.scratch c.core) x.window (bs.take d)) (.scratch c.core) x.window d
  let load := fun (li : Nat) (part : List Byte) (q : Hart) =>
    { q with code := part.take li, data := if first then cellsOf (part.drop li) else q.data }
  let s := modCtx s c fun x => { x with
    loader := x.loader.map (load (hdrLi h) ((bs.drop d).take l))
    storer := x.storer.map (load (hdrSi h) (bs.drop (d + l))) }
  modTask s x.task fun t => { t with placedBefore := true }

/-- A code image that cannot be read (R193): CODE_FETCH for the fault domain, without a handler. -/
def imageFault (s : State) (c : CtxId) (x : Ctx) (status : Nat) : State :=
  let entry := ((getTask s x.task).map fun t => entryOr t.entryC (hdrEcomp x.hdr)).getD 0
  abortSlice s c x
    { code := 0x14, slot := 7, cls := 0, opnd := 0, tpc := BitVec.ofNat 32 entry, tinfo := BitVec.ofNat 32 status }

/-- The reading of a code image goes on, 4 KiB at a time; `target` 1 marks a first placement. R193 names the ends FAULTED and
PROTECTION; a read that ends otherwise (R264, R277) has the same outcome, with that status in TINFO (DESIGN CHOICE, log 140). -/
def advanceImage : Nat → Nat → State → State
  | 0, id, s => addFreeTimer s (.walkComplete id)
  | n + 1, id, s =>
    match getCmd s id with
    | none => s
    | some k =>
      match ctxOfTask s k.task with
      | none => forgetCmd s id
      | some c =>
        match getCtx s c with
        | none => forgetCmd s id
        | some x =>
          let first := decide (k.target = 1)
          let pieces := (imageParts x.hdr x.image first).flatMap fun p => pagePieces (p.2 / 4096 + 2) p.1 p.2
          match pieces[k.index]? with
          | none => addTurn (applyImages (forgetCmd s id) c x first k.buf) (.stateRestoreComplete c)
          | some (va, m) =>
            let stop := fun (s : State) (e : Stop) => match e with
              | .walk va w => startWalk s k va w
              | .ends st => imageFault (forgetCmd s id) c x st
              | .park va kind => parkCmd s k va kind (getAsid s k.asid).gen
              | .sent => s
              | _ => addTimer s (s.now + 1) (.walkComplete id)
            match placesAt s k va m false with
            | (.error e, s) => stop s e
            | (.ok ps, s) =>
              match exchange s k 0 (farReads k ps) with
              | (.error e, s) => stop s e
              | (.ok _, s) =>
                let (bs, s) := newestBytes k k.answers ps s
                advanceImage n id (modCmd (countUnit s k) id fun q => { q with buf := q.buf ++ bs })

/-- A turn of the engine for the reading of a code image. -/
def turnImage (s : State) (k : Cmd) : State :=
  match k.st with
  | .walking gen va w =>
    (match endWalk s k gen va w 0 with
     | .goOn s => advanceImage 64 k.id s
     | .stopped s => s
     | .failed s => (match (ctxOfTask s k.task).bind fun c => (getCtx s c).map fun x => (c, x) with
       | some (c, x) => imageFault (forgetCmd s k.id) c x stFaulted
       | none => forgetCmd s k.id))
  | .active => advanceImage 64 k.id s
  | _ => s

/-! ### Placement (R309, R310) -/

/-- The stores of a core cleared, but for the allotment of a slice in the other context (R38). -/
def clearCore (s : State) (c : CtxId) : State :=
  let keep := getCtx s (otherCtx c)
  let only := fun (m : Mem) (lo n : Nat) => memPaste [] lo n (memSlice m lo n)
  let s := modCore s c.core fun k => match keep with
    | some y => { k with
        scratch := only k.scratch y.window (hdrScratch y.hdr)
        opmem := only k.opmem (8192 * y.slotBase) (8192 * hdrOsl y.hdr)
        acc := only k.acc (16384 * y.tileBase) (16384 * hdrZt y.hdr) }
    | none => { k with scratch := [], opmem := [], acc := [] }
  match keep with
  | some _ => s
  | none => dropLog (dropLog (dropLog s (.scratch c.core) 0 393216) (.opmem c.core) 0 131072) (.acc c.core) 0 131072

/-- What has been saved of a part put back on a core at its base, as far as the part's n bytes now reach. -/
def restorePart (s : State) (sp : Space) (core base n : Nat) (p : Part) : State :=
  let put := fun (s : State) (r : Nat × Nat) (m : Mem) =>
    let s := match sp with
      | .scratch _ => modCore s core fun k => { k with scratch := memPaste k.scratch (base + r.1) r.2 m }
      | .opmem _ => modCore s core fun k => { k with opmem := memPaste k.opmem (base + r.1) r.2 m }
      | .acc _ => modCore s core fun k => { k with acc := memPaste k.acc (base + r.1) r.2 m }
      | .hbm => s
    dropLog s sp (base + r.1) r.2
  match p with
  | .saved m => put s (0, n) m
  | .here _ _ gone m => gone.foldl (fun s r => put s (r.1, min r.2 (n - r.1)) (memSlice m r.1 (min r.2 (n - r.1)))) s
  | .none => s

/-- Whether something of a part has been saved. -/
def isSaved (p : Part) : Bool :=
  match p with
  | .saved _ => true
  | .here _ _ gone _ => !gone.isEmpty
  | .none => false

/-- The parked state that an allotment overlaps is saved first (R310). -/
def saveOverlapped (s : State) (t : Task) (q : Spot) (h : BitVec 512) : State :=
  (parkedOn s q.c.core t.uid).foldl (fun s u =>
    let s := forceFills s u.uid
    let d := dataHdr u
    modTask s u.uid fun u => { u with
      scratch := liftOverlap s q.c.core q.window (hdrScratch h) u.scratch (hdrScratch d) fun k => k.scratch
      slots := liftOverlap s q.c.core q.slots (8192 * hdrOsl h) u.slots (8192 * hdrOsl d) fun k => k.opmem
      tiles := liftOverlap s q.c.core q.tiles (16384 * hdrZt h) u.tiles (16384 * hdrZt d) fun k => k.acc }) s

/-- Whether a part stays where it stands when its task is placed on a core with that part at a base, whatever size a new image
gives it (R309, R322). -/
def staysPut (core base : Nat) (p : Part) : Bool :=
  match p with
  | .here k b _ _ => k = core && b = base
  | _ => false

/-- A placed part: none of no size. -/
def placedPart (core base n : Nat) : Part := if n = 0 then .none else .here core base [] []

/-- Whether a save has changed where parts of tasks stand. -/
def partsMoved (a b : List Task) : Bool :=
  (List.zip a b).any fun p => p.1.scratch ≠ p.2.scratch || p.1.slots ≠ p.2.slots || p.1.tiles ≠ p.2.tiles

/-- The saves of a placement (R310): the entering task's parts that do not stay put, every parked part of the core before a
clear, and what the allotment overlaps. -/
def savesFor (s : State) (t : Task) (q : Spot) (h : BitVec 512) (change : Bool) : State :=
  let core := q.c.core
  let s := saveParts s t.uid
    (change || !staysPut core q.window t.scratch,
      change || !staysPut core q.slots t.slots,
      change || !staysPut core q.tiles t.tiles)
  let s := if change then (parkedOn s core t.uid).foldl (fun s u => saveParts s u.uid (true, true, true)) s else s
  saveOverlapped s t q h

/-- The context with which a task's slice enters (R34, R130, R235, R238): a pre-empted one as it was saved, a later slice with
a fresh budget and instruction counts, the first one fresh. A paired step that waits counts its cycles anew (log 28). -/
def enteringCtx (s : State) (t : Task) (h : BitVec 512) (image : Nat) : Ctx :=
  let x := match t.saved with
    | none => freshCtx t h image
    | some x =>
      if t.preempted then x
      else
        let again := fun (h : Hart) => { h with instret := 0 }
        { x with
          sbudget := t.budget, extended := false,
          loader := (nextHart x.loader (hdrLi h) (hdrLd h) (entryOr t.entryL (hdrEload h))).map again,
          storer := (nextHart x.storer (hdrSi h) (hdrSd h) (entryOr t.entryS (hdrEstor h))).map again }
  { x with mq := x.mq.map fun w => { w with formed := w.formed.map fun _ => s.now } }

/-- A task placed (R309, R310, R38, R29): state saved that must be, the stores cleared at a change of owner, its own state
put back, its context made, the images read that it needs, its roles set, its core started. The save, the clear and the
restore follow one another, each for a duration that the manual leaves open (R374); a clear takes at most 2,800 cycles. -/
def placeTask (s : State) (t : Task) (q : Spot) : State :=
  let g := getRegion s t.region
  let core := q.c.core
  let h := nextHdr s t
  let image := nextImage s t
  let k := getCore s core
  let change := k.owner ≠ 0 && k.owner ≠ g.owner
  let untouched := t.placesAt = some (core, some k.places) && !change && t.image = image
  let s := forceFills s t.uid
  let before := s.tasks
  let s := savesFor s t q h change
  let saves := partsMoved before s.tasks
  let s := if change then clearCore s q.c else s
  match getTask s t.uid with
  | none => s
  | some t =>
    let s := restorePart s (.scratch core) core q.window (hdrScratch h) t.scratch
    let s := restorePart s (.opmem core) core q.slots (8192 * hdrOsl h) t.slots
    let s := restorePart s (.acc core) core q.tiles (16384 * hdrZt h) t.tiles
    let (save, s) := freeDue s
    let (clear, s) := freeDue s
    let (rest, s) := freeDue s
    let first := !t.placedBefore
    let reads := (first || !untouched) && !(imageParts h image first).isEmpty
    let start := max (max k.saving t.saveDue) (if saves then save else 0)
    let clear := max start s.now + 1 + (clear - s.now) % 2800
    let rest := max rest (if change then clear else start)
    let waits := reads || t.saved.isSome || isSaved t.scratch || isSaved t.slots || isSaved t.tiles || decide (s.now < start)
    let x := { enteringCtx s t h image with
      hdr := h, image := image, window := q.window, slotBase := q.slots / 8192, tileBase := q.tiles / 16384, cycle := 0,
      resident := s.now, nextIssue := s.now + 1,
      blocked := (if waits then [.restore rest] else []) ++ (if change then [.clear clear] else []) ++
        (if (getCore s core).gated then [.wave] else []) }
    let s := setCtx s q.c x
    let s := modTask s t.uid fun t => { t with
      st := .running, preempted := false, saved := none, hdr := h, image := image,
      scratch := placedPart core q.window (hdrScratch h), slots := placedPart core q.slots (8192 * hdrOsl h),
      tiles := placedPart core q.tiles (16384 * hdrZt h) }
    let s := modCore s core fun k => { k with
      owner := g.owner, places := if hdrLi h = 0 ∧ hdrSi h = 0 then k.places else k.places + 1 }
    let s := { s with reserved := s.reserved.filter fun r => r.2 ≠ t.uid }
    let agents := sliceAgents t.uid
    let s := agents.foldl noteMember s
    let s := if reads then
        (let (id, s) := fresh s
         let k := { unitCmd s .fill t.region t.uid (clusterOf core) q.c with id := id, target := if first then 1 else 0 }
         addFreeTimer { s with cmds := (s.cmds.filter fun k => k.kind ≠ .fill || k.task ≠ t.uid) ++ [k] } (.walkComplete id))
      else
        (let s := modTask s t.uid fun t => { t with placedBefore := true }
         if waits then addTimer s rest (.stateRestoreComplete q.c) else s)
    let s := if change then addTimer s clear (.scratchClearComplete core) else s
    let s := if (getCore s core).gated then startSequence s else s
    if rolesWrong s core then swapCtxs s core else s

/-- Blockers removed from a context. -/
def unblock (x : Ctx) (p : Blocker → Bool) : Ctx := { x with blocked := x.blocked.filter fun b => !p b }

/-- STATE_RESTORE_COMPLETE (R310): once the saved state has been read back and the images written, the slice may issue. -/
def execStateRestoreComplete (c : CtxId) (s : State) : Ans :=
  .next (match getCtx s c with
    | none => s
    | some x =>
      if s.cmds.any fun k => k.kind = .fill && k.task = x.task then s
      else
        let s := setCtx s c (unblock x fun b => match b with
          | .restore due => decide (due ≤ s.now)
          | _ => false)
        if x.blocked.any fun b => match b with
            | .restore due => decide (s.now < due)
            | _ => false then addTimer s (s.now + 1) (.stateRestoreComplete c)
        else s)

/-- SCRATCH_CLEAR_COMPLETE (R38). -/
def execScratchClearComplete (core : Nat) (s : State) : Ans :=
  .next ({ s with slots := s.slots.map fun p =>
    if p.1.core = core then (p.1, unblock p.2 fun b => match b with
      | .clear due => decide (due ≤ s.now)
      | _ => false) else p })

/-! ### Decisions (R308, R313, R322) -/

/-- Whether a task is a candidate of its die's arbiter: READY, or PARKED in a region that is not suspended (R308, R313). -/
def isCandidate (s : State) (t : Task) : Bool :=
  t.st = .ready || (t.st = .parked && !(getRegion s t.region).suspended)

/-- The order of candidates (R308). -/
def ranksBefore (s : State) (a b : Task) : Bool :=
  let p := fun (t : Task) => (getRegion s t.region).prio
  decide (p b < p a) || (p a = p b && (decide (a.deadline < b.deadline) || (a.deadline = b.deadline &&
    (decide (a.since < b.since) || (a.since = b.since && decide (a.index < b.index))))))

/-- The victim of a pre-emption for a class (R313): the lowest class below it, then the latest deadline, then the highest
core. -/
def victim (s : State) (die cls : Nat) : Option CtxId :=
  let prio : CtxId × Ctx → Nat := fun p => (getRegion s p.2.region).prio
  let dl : CtxId × Ctx → Nat := fun p => ((getTask s p.2.task).map fun t => t.deadline).getD 0
  let ps := s.slots.filter fun p => dieOf p.1.core = die && decide (prio p < cls) && (reservedFor s p.1).isNone
  ((sortBy (fun a b => decide (prio a < prio b) || (prio a = prio b && (decide (dl b < dl a) || (dl a = dl b &&
    decide (2 * b.1.core + b.1.ctx < 2 * a.1.core + a.1.ctx))))) ps).head?).map fun p => p.1

/-- A candidate passed over requests a pre-emption where its class is above a resident slice's, once (R313, R322). -/
def requestFor (s : State) (t : Task) : State :=
  if s.reserved.any fun r => r.2 = t.uid then s
  else match victim s t.die (getRegion s t.region).prio with
    | some c => requestHalt { s with reserved := s.reserved ++ [(c, t.uid)] } c
    | none => s

/-- The arbiter's abort of a task whose stated run no longer fits its budget (R308). -/
def abortRun (s : State) (t : Task) : State :=
  let g := getRegion s t.region
  faultDomainAbort s t.region
    (domainRecord { code := codeBudget, slot := 0, cls := 0, opnd := 0, tpc := t.yieldPc, tinfo := 0 } 0x3FF 0 g.rcb (taskId t))

/-- The candidates examined in order (R322). A placement is followed by another decision. -/
def examine (die : Nat) : List Task → State → State
  | [], s => s
  | t :: rest, s =>
    match getTask s t.uid with
    | none => examine die rest s
    | some t =>
      if !isCandidate s t then examine die rest s
      else if t.st = .parked && !t.preempted && decide (t.budget < t.run) then examine die rest (abortRun s t)
      else match findSpot s t with
        | some q => addTurn (placeTask s t q) (.arbiterDecision die)
        | none => examine die rest (requestFor s t)

/-- Reservations of contexts that stand empty while their task cannot take them, or is no candidate any more, lapse. -/
def lapse (s : State) : State :=
  { s with reserved := s.reserved.filter fun r =>
      match getTask s r.2 with
      | some t => isCandidate s t && ((getCtx s r.1).isSome || (spotOn s t r.1.core).isSome)
      | none => false }

/-- ARBITER_DECISION (R308, R309). -/
def execArbiterDecision (die : Nat) (s : State) : Ans :=
  let s := lapse s
  .next (examine die (sortBy (ranksBefore s) (s.tasks.filter fun t => t.die = die && isCandidate s t)) s)

end Sys2Proof.Machine
end

