-- ==== Sys2Proof/Machine/Hart.lean ====
section
/-! DEFINITION. The loader and storer harts (R28, R234 to R245): fetch, RV32IMC with Zicsr, Zba and Zbb (log 12), the
memory map and device registers, exceptions delivered to the slice, and the ten extension instructions with their
waits. -/

namespace Sys2Proof.Machine

/-! ### The hart whose turn it is -/

/-- A hart of a slice. -/
def getHart (x : Ctx) (r : Role) : Option Hart :=
  match r with
  | .loader => x.loader
  | .storer => x.storer

/-- A hart of a slice replaced. -/
def putHart (x : Ctx) (r : Role) (h : Hart) : Ctx :=
  match r with
  | .loader => { x with loader := some h }
  | .storer => { x with storer := some h }

/-- A register; x0 reads zero. -/
def getX (h : Hart) (r : BitVec 5) : Word := if r = 0 then 0 else h.x.toList.getD r.toNat 0

/-- A register written; a write to x0 is discarded. -/
def setX (h : Hart) (r : BitVec 5) (w : Word) : Hart :=
  if r = 0 then h
  else { h with x := h.x.setIfInBounds r.toNat w, loads := h.loads.filter fun l => l.1 ≠ r }

/-- The OPND of a hart's traps (R244). -/
def roleOpnd (r : Role) : Nat := if r = .loader then 62 else 63

/-- What a hart instruction does: its effects, and the pc goes on or to a target, or the hart joins its slice's yield; it
waits; an exception, the report of a held fault; or it is held back for this turn. -/
inductive HartRes
  | done (s : State) (h : Hart)
  | join (s : State) (h : Hart)
  | goto (s : State) (h : Hart) (pc : Word)
  | wait (s : State) (h : Hart)
  | trap (code : Nat) (tinfo : Word)
  | report (f : HeldFault)
  | stall

/-- A hart stopped by an exception of either (R244). -/
def stopHart (h : Hart) : Hart :=
  match h.st with
  | .halted => h
  | _ => { h with st := .stopped }

/-- A hart's trap delivered to its slice (R244): both harts stop, the context before its next issue. In a hand-over wait or
a halt it is taken later, and the instruction is tried again. `skip` is how far the pc moves past the instruction. -/
def hartTrap (s : State) (c : CtxId) (x : Ctx) (r : Role) (h : Hart) (skip : Nat) (i : TrapInfo) : State :=
  let later := x.halting || (match x.wait with
    | .handover _ _ => true
    | _ => false)
  if later then s
  else
    let x := putHart x r { h with pc := h.pc + BitVec.ofNat 32 skip }
    let x := { x with loader := x.loader.map stopHart, storer := x.storer.map stopHart, wait := .none }
    takeTrap s c x i

/-- The trap of a hart's exception. -/
def hartInfo (r : Role) (h : Hart) (code : Nat) (tinfo : Word) : TrapInfo :=
  { code := code, slot := 7, cls := 0, opnd := roleOpnd r, tpc := h.pc, tinfo := tinfo }

/-- The bytes of a hart's instruction at its pc, as far as its portion reaches, as one word (R236). -/
def hartWord (h : Hart) : Word := BitVec.ofNat 32 (natOfBytes ((h.code.drop h.pc.toNat).take 4))

/-- The length of the instruction at a hart's pc. -/
def hartStep (h : Hart) : Nat := hartLen (hartWord h)

/-- A hart after an instruction that completes. -/
def retired (s : State) (h : Hart) (pc : Word) : Hart :=
  { h with st := .running, pc := pc, instret := h.instret + 1, nextIssue := max h.nextIssue (s.now + 1) }

/-- The shared entry of every hart meaning: the hart whose turn it is, its instruction's effect. -/
def hartOp (i : Instr) (s : State) (k : Ctx → Hart → Role → HartRes) : Ans :=
  match s.curHart, getCtx s s.cur with
  | some r, some x =>
    match getHart x r with
    | none => .fault .emptyContext
    | some h =>
      let put := fun (s : State) (h : Hart) => modCtx s s.cur fun x => putHart x r h
      match k x h r with
      | .done s' h' => .next (put s' (retired s h' (h.pc + BitVec.ofNat 32 (hartStep h))))
      | .goto s' h' pc => .next (put s' (retired s h' pc))
      | .join s' h' => .next (put s' { h' with st := .lyld })
      | .wait s' h' => .next (put s' { h' with st := .waiting i })
      | .trap code tinfo => .next (hartTrap s s.cur x r h 0 (hartInfo r h code tinfo))
      | .report f => .next (hartTrap s s.cur { x with held := none } r h 0
          { code := f.code.toNat, slot := f.slot, cls := 1, opnd := f.opnd, tpc := h.pc, tinfo := f.tinfo })
      | .stall => .next s
  | _, _ => .fault .emptyContext

/-! ### RV32IM, Zba, Zbb -/

/-- The high word of a product. -/
def highWord (i : Int) : Word := BitVec.ofInt 32 (i / 2 ^ 32)

/-- A word rotated left. -/
def rotl (a : Word) (n : Nat) : Word := a.rotateLeft (n % 32)

/-- The two-operand operations. -/
def rvAlu (k : RvOp) (a b : Word) : Word :=
  let sh := b.toNat % 32
  match k with
  | .add => a + b
  | .sub => a - b
  | .sll => a <<< sh
  | .slt => wordOfBool (decide (a.toInt < b.toInt))
  | .sltu => wordOfBool (decide (a.toNat < b.toNat))
  | .xor => a ^^^ b
  | .srl => a >>> sh
  | .sra => a.sshiftRight sh
  | .or => a ||| b
  | .and => a &&& b
  | .mul => a * b
  | .mulh => highWord (a.toInt * b.toInt)
  | .mulhsu => highWord (a.toInt * b.toNat)
  | .mulhu => BitVec.ofNat 32 (a.toNat * b.toNat / 2 ^ 32)
  | .div => if b = 0 then 0xFFFFFFFF else BitVec.ofInt 32 (a.toInt.tdiv b.toInt)
  | .divu => if b = 0 then 0xFFFFFFFF else BitVec.ofNat 32 (a.toNat / b.toNat)
  | .rem => if b = 0 then a else BitVec.ofInt 32 (a.toInt.tmod b.toInt)
  | .remu => if b = 0 then a else BitVec.ofNat 32 (a.toNat % b.toNat)
  | .sh1add => (a <<< 1) + b
  | .sh2add => (a <<< 2) + b
  | .sh3add => (a <<< 3) + b
  | .andn => a &&& ~~~b
  | .orn => a ||| ~~~b
  | .xnor => ~~~(a ^^^ b)
  | .max => if a.toInt < b.toInt then b else a
  | .maxu => if a.toNat < b.toNat then b else a
  | .min => if b.toInt < a.toInt then b else a
  | .minu => if b.toNat < a.toNat then b else a
  | .rol => rotl a sh
  | .ror => rotl a (32 - sh)

/-- Trailing zero bits of a word. -/
def ctzW (a : Word) : Nat := ((List.range 32).find? fun i => a.getLsbD i).getD 32

/-- The bytes of a word mapped. -/
def mapBytes (g : Byte → Byte) (a : Word) : Word := BitVec.ofNat 32 (natOfBytes ((bytesOf 4 a.toNat).map g))

/-- The one-operand operations. -/
def rvUnary (k : RvUnary) (a : Word) : Word :=
  match k with
  | .clz => BitVec.ofNat 32 (clzE 32 a.toNat)
  | .ctz => BitVec.ofNat 32 (ctzW a)
  | .cpop => BitVec.ofNat 32 (popE 32 a.toNat)
  | .sextB => (a.setWidth 8).signExtend 32
  | .sextH => (a.setWidth 16).signExtend 32
  | .zextH => (a.setWidth 16).setWidth 32
  | .orcB => mapBytes (fun b => if b = 0 then 0 else 0xFF) a
  | .rev8 => BitVec.ofNat 32 (natOfBytes (bytesOf 4 a.toNat).reverse)

/-- Cycles of an operation (R234). -/
def rvCycles (k : RvOp) : Nat :=
  match k with
  | .mul | .mulh | .mulhsu | .mulhu => 2
  | .div | .divu | .rem | .remu => 16
  | _ => 1

/-- Branch conditions. -/
def rvTaken (k : RvBr) (a b : Word) : Bool :=
  match k with
  | .eq => a = b
  | .ne => a ≠ b
  | .lt => decide (a.toInt < b.toInt)
  | .ge => decide (b.toInt ≤ a.toInt)
  | .ltu => decide (a.toNat < b.toNat)
  | .geu => decide (b.toNat ≤ a.toNat)

/-- Bytes and sign of a load. -/
def loadShape (k : RvLoad) : Nat × Bool :=
  match k with
  | .lb => (1, true)
  | .lh => (2, true)
  | .lw => (4, true)
  | .lbu => (1, false)
  | .lhu => (2, false)

/-- Bytes of a store. -/
def storeBytes (k : RvStore) : Nat :=
  match k with
  | .sb => 1
  | .sh => 2
  | .sw => 4

/-! ### CSRs and device registers (R235, R237) -/

/-- HID (R237). -/
def hidOf (s : State) (r : Role) : Word :=
  (cidOf s.pkg s.cur &&& 0x003FFFFF) ||| (if r = .storer then 0x00400000 else 0)

/-- A CSR's value, and whether it may be written; none for a number that is not listed. -/
def readCsr (s : State) (x : Ctx) (h : Hart) (r : Role) (n : Nat) : Option (Word × Bool) :=
  let lo := fun (v : Nat) => some (BitVec.ofNat 32 v, false)
  let hi := fun (v : Nat) => some (BitVec.ofNat 32 (v / 2 ^ 32), false)
  match n with
  | 0xF14 => some (hidOf s r, false)
  | 0x301 => some (0x40001104, false)
  | 0x340 => some (h.mscratch, true)
  | 0x300 | 0x304 | 0x344 | 0x305 | 0x341 | 0x342 | 0x343 => some (0, true)
  | 0xB00 | 0xC00 => lo x.cycle
  | 0xB80 | 0xC80 => hi x.cycle
  | 0xB02 | 0xC02 => lo h.instret.toNat
  | 0xB82 | 0xC82 => hi h.instret.toNat
  | 0xC01 => lo s.now
  | 0xC81 => hi s.now
  | _ => none

/-- A CSR written: only mscratch holds what is written. -/
def writeCsr (h : Hart) (n : Nat) (w : Word) : Hart := if n = 0x340 then { h with mscratch := w } else h

/-- A device register's value (R237). -/
def readDevice (s : State) (x : Ctx) (h : Hart) (r : Role) (off : Nat) : Word :=
  match off with
  | 0x00 => hidOf s r
  | 0x04 => sysReg s s.cur x 0x001
  | 0x08 => sysReg s s.cur x 0x002
  | 0x0C => sysReg s s.cur x 0x006
  | 0x10 => sysReg s s.cur x 0x007
  | 0x14 => BitVec.ofNat 32 (hdrScratch x.hdr)
  | 0x18 => BitVec.ofNat 32 h.dataSize
  | _ => h.hstall

/-! ### The memory map (R236) -/

/-- The areas of the address map, with the offset in each. -/
inductive Area
  | code (off : Nat)
  | data (off : Nat)
  | scratch (off : Nat)
  | device (off : Nat)
  | outside

/-- The area an access of n bytes reaches; outside the map or past a portion, `outside`. -/
def areaOf (h : Hart) (a n : Nat) : Area :=
  let off := a % 2 ^ 28
  match a / 2 ^ 28 with
  | 0 => if off + n ≤ h.code.length then .code off else .outside
  | 1 => if off + n ≤ h.dataSize then .data off else .outside
  | 2 => .scratch off
  | 3 => if off + n ≤ 0x20 ∧ n = 4 ∧ off % 4 = 0 then .device off else .outside
  | _ => .outside

/-- Whether a hart's access to the window is held back while the engine refills the arena (R321). -/
def refilling (x : Ctx) (off n : Nat) : Bool :=
  match x.wait with
  | .handover _ _ => inArena x off (off + n)
  | _ => false

/-- n bytes of the window as a hart reads them, a fault held for the context (R236, R137). -/
def hartRead (s : State) (x : Ctx) (r : Role) (off n : Nat) : List Byte × State :=
  let (bs, s) := spRead s (.hart x.task r) s.cur.core x off n
  (bs, modCtx s s.cur fun x => noteFor (some r) x 7 (roleOpnd r) off n)

/-- Bytes of the window written by a hart. -/
def hartWrite (s : State) (x : Ctx) (r : Role) (off : Nat) (bs : List Byte) : State :=
  let s := spWrite s (.hart x.task r) s.cur.core x off bs
  modCtx s s.cur fun x => noteFor (some r) x 7 (roleOpnd r) off bs.length

/-- A load's value from its bytes. -/
def loadValue (k : RvLoad) (bs : List Byte) : Word :=
  let (n, signed) := loadShape k
  if signed then toWord (sext (8 * n) (natOfBytes bs)) else BitVec.ofNat 32 (natOfBytes bs)

/-- A load. -/
def hartLoad (s : State) (x : Ctx) (h : Hart) (r : Role) (k : RvLoad) (rd : BitVec 5) (a : Nat) : HartRes :=
  let n := (loadShape k).1
  let done := fun (s : State) (bs : List Byte) => HartRes.done s (setX h rd (loadValue k bs))
  match areaOf h a n with
  | .code off => done s ((h.code.drop off).take n)
  | .data off => done s (memRead h.data off n)
  | .scratch off =>
    if refilling x off n then .stall
    else
      let (bs, s') := hartRead s x r off n
      let q := setX h rd (loadValue k bs)
      .done s' { q with loads := if rd = 0 then q.loads else q.loads.filter (fun l => decide (s.now < l.2)) ++ [(rd, s.now + 4)] }
  | .device off => done s (bytesOf 4 (readDevice s x h r off).toNat)
  | .outside => .trap 0x15 0

/-- A store. -/
def hartStore (s : State) (x : Ctx) (h : Hart) (r : Role) (k : RvStore) (a : Nat) (w : Word) : HartRes :=
  let n := storeBytes k
  let bs := bytesOf n w.toNat
  match areaOf h a n with
  | .data off => .done s { h with data := memPut h.data off bs }
  | .scratch off => if refilling x off n then .stall else .done (hartWrite s x r off bs) h
  | .device off => if off = 0x1C then .done s { h with hstall := w } else .trap 0x15 0
  | .code _ | .outside => .trap 0x15 0

/-- A CSR instruction: the operand, the old value in rd, the new one where it writes. -/
def hartCsr (s : State) (x : Ctx) (h : Hart) (r : Role) (k : RvCsr) (rd src : BitVec 5) (imm : Bool) (num : BitVec 12) :
    HartRes :=
  match readCsr s x h r num.toNat with
  | none => .trap 0x02 0
  | some (old, rw) =>
    let v := if imm then src.setWidth 32 else getX h src
    let writes := k = .rw || src ≠ 0
    if writes && !rw then .trap 0x02 0
    else
      let new := match k with
        | .rw => v
        | .rs => old ||| v
        | .rc => old &&& ~~~v
      let h := if writes then writeCsr h num.toNat new else h
      .done s (setX h rd old)

/-- An ordinary instruction (R234). -/
def ordinary (s : State) (x : Ctx) (h : Hart) (r : Role) (op : Rv) (len : Nat) : HartRes :=
  let next := h.pc + BitVec.ofNat 32 len
  match op with
  | .lui rd imm => .done s (setX h rd imm)
  | .auipc rd imm => .done s (setX h rd (h.pc + imm))
  | .jal rd off => .goto s (setX h rd next) (h.pc + off)
  | .jalr rd rs1 imm => .goto s (setX h rd next) ((getX h rs1 + imm) &&& ~~~(1 : Word))
  | .branch k a b off => if rvTaken k (getX h a) (getX h b) then .goto s h (h.pc + off) else .done s h
  | .load k rd rs1 imm => hartLoad s x h r k rd (getX h rs1 + imm).toNat
  | .store k rs1 rs2 imm => hartStore s x h r k (getX h rs1 + imm).toNat (getX h rs2)
  | .opImm k rd rs1 imm => .done s (setX h rd (rvAlu k (getX h rs1) imm))
  | .op k rd a b => .done s { setX h rd (rvAlu k (getX h a) (getX h b)) with nextIssue := s.now + rvCycles k }
  | .unary k rd a => .done s (setX h rd (rvUnary k (getX h a)))
  | .fence | .wfi => .done s h
  | .csr k rd src imm num => hartCsr s x h r k rd src imm num
  | .illegal => .trap 0x02 0

/-- An ordinary hart instruction (R234). -/
def execHartInstruction (op : Rv) (len : Nat) (s : State) : Ans :=
  hartOp (.hartInstruction op len) s fun x h r => ordinary s x h r op len

/-- A hart store to a writable device register, or a write of a CSR (R235, R237). -/
def execHartDeviceRegisterWrite (op : Rv) (len : Nat) (s : State) : Ans :=
  hartOp (.hartInstruction op len) s fun x h r => ordinary s x h r op len

/-- `ecall` and `ebreak` (R244): SOFTWARE, and the hart resumes after the instruction. -/
def hartCall (i : Instr) (tinfo : Hart → Word) (s : State) : Ans :=
  match s.curHart, getCtx s s.cur with
  | some r, some x =>
    match getHart x r with
    | none => .fault .emptyContext
    | some h => .next (hartTrap s s.cur x r h (if i = .hartEcall then 4 else hartStep h) (hartInfo r h 0x0F (tinfo h)))
  | _, _ => .fault .emptyContext

/-- `ecall` (R244): TINFO holds x10. -/
def execHartEcall (s : State) : Ans := hartCall .hartEcall (fun h => getX h 10) s

/-- `ebreak` (R244). -/
def execHartEbreak (s : State) : Ans := hartCall .hartEbreak (fun _ => 0) s

/-! ### Extension instructions (R239) -/

/-- The agent of a hart. -/
def hartAgent (x : Ctx) (r : Role) : Agent := .hart x.task r

/-- The context as it stands in a state. -/
def ctxIn (s : State) (x : Ctx) : Ctx := (getCtx s s.cur).getD x

/-- The copy kinds of `lcopy`, with which of them acquire. -/
def lcopyKind (n : Nat) (d : BitVec 512) : Option (CmdKind × Bool) :=
  match n with
  | 0 => some (.copy, false)
  | 1 => some (.copym, false)
  | 2 => some (.copyr, false)
  | 3 => some (.copyd, false)
  | 4 => some (.copya, copyaAcquires d)
  | 5 => some (.copyf, copyfAcquires d)
  | _ => none

/-- `lcopy`: a copy of the chosen kind on a tag of the context. -/
def execLcopy (d a b : BitVec 5) (s : State) : Ans :=
  hartOp (.lcopy d a b) s fun x h r =>
    let v := getX h b
    let tag := field v 5 0
    let at' := (getX h a).toNat / 64 * 64
    if field v 31 11 ≠ 0 ∨ field v 7 6 ≠ 0 ∨ 5 < field v 10 8 then .trap 0x02 0
    else if hdrTags x.hdr ≤ tag then .trap 0x08 0
    else if 255 ≤ x.outstanding ∨ refilling x at' 64 then .wait s h
    else
      let (bs, s) := hartRead s x r at' 64
      let x := ctxIn s x
      let rec512 := BitVec.ofNat 512 (natOfBytes bs)
      match lcopyKind (field v 10 8) rec512 with
      | none => .trap 0x02 0
      | some (kind, acq) =>
        let k := { newCmd s s.cur x kind (hartAgent x r) (if r = .loader then 1 else 2) tag with
          record := rec512, recAddr := at', acquire := acq }
        let (s, x) := issueCmd s x k
        .done (setCtx s s.cur x) (setX h d (BitVec.ofNat 32 (getTag x tag).count))

/-- The range check of `lwait` and `lpoll`: its error code, if any. -/
def tagRangeFault (x : Ctx) (first count : Nat) : Option Nat :=
  if count = 0 ∨ 64 < count ∨ 64 < first + count then some 0x02
  else if hdrTags x.hdr < first + count then some 0x08
  else none

/-- `lwait`: waits until no tag of the range is BUSY. -/
def execLwait (d a b : BitVec 5) (s : State) : Ans :=
  hartOp (.lwait d a b) s fun x h r =>
    let first := (getX h a).toNat
    let count := (getX h b).toNat
    match tagRangeFault x first count with
    | some c => .trap c 0
    | none =>
      let ns := tagsIn first count
      if anyBusy x ns then .wait s h
      else
        let bad := ns.find? fun n => (getTag x n).status ≠ 0 && (getTag x n).status ≠ 7
        .done (observeTags s (hartAgent x r) x.task ns) (setX h d (tagWord bad))

/-- `lpoll`: the lowest DONE tag of the range. -/
def execLpoll (d a b : BitVec 5) (s : State) : Ans :=
  hartOp (.lpoll d a b) s fun x h r =>
    let first := (getX h a).toNat
    let count := (getX h b).toNat
    match tagRangeFault x first count with
    | some c => .trap c 0
    | none =>
      let t := firstDone x (tagsIn first count)
      .done (observeTags s (hartAgent x r) x.task t.toList) (setX h d (tagWord t))

/-- `lstat`: a tag's status word. -/
def execLstat (d a : BitVec 5) (s : State) : Ans :=
  hartOp (.lstat d a) s fun x h r =>
    let n := (getX h a).toNat
    if hdrTags x.hdr ≤ n then .trap 0x08 0
    else .done (observeTags s (hartAgent x r) x.task (doneTag x n)) (setX h d (tagStat (getTag x n)))

/-- The queue that an operand of `lpush` or `lpop` names, or its error code. -/
def queueOperand (x : Ctx) (v : Word) : Except Nat (Bank × Nat) :=
  let n := field v 4 0
  let bank := if v.getLsbD 5 then Bank.s else .v
  if field v 31 6 ≠ 0 then .error 0x02
  else if (if bank = .v then hdrVq x.hdr else hdrSq x.hdr) ≤ n then .error 0x08
  else .ok (bank, n)

/-- `lpush`: one landed entry, once the queue has room; a dead queue revives (R85). The hart's writes travel with it. -/
def execLpush (a b : BitVec 5) (s : State) : Ans :=
  hartOp (.lpush a b) s fun x h r =>
    match queueOperand x (getX h b) with
    | .error c => .trap c 0
    | .ok (bank, n) =>
      let at' := (getX h a).toNat / 64 * 64
      if !hasRoom x bank n ∨ (bank = .v ∧ refilling x at' 512) then .wait s h
      else
        let (val, s) := match bank with
          | .s => (Val.s (getX h a), s)
          | .v =>
            let (bs, s) := hartRead s x r at' 512
            (Val.v (vecOfBytes bs), s)
        let (id, s) := fresh s
        let carry := (getView s (hartAgent x r)).mine
        let s := modCtx s s.cur fun x =>
          setQueue x bank n (joinQueue (getQueue x bank n) { id := id, val := some val, carry := carry })
        .done s h

/-- `lpop`: the head, once it has landed; what its writer had written is seen from then on (R240). A dead queue gives
zero, or DEAD_READ in strict mode. -/
def execLpop (d a b : BitVec 5) (s : State) : Ans :=
  hartOp (.lpop d a b) s fun x h r =>
    match queueOperand x (getX h b) with
    | .error c => .trap c 0
    | .ok (bank, n) =>
      let at' := (getX h a).toNat / 64 * 64
      let q := getQueue x bank n
      if q.dead && strict x then .trap 0x06 0
      else if bank = .v && refilling x at' 512 then .wait s h
      else
        let take := fun (s : State) (v : Val) =>
          match bank with
          | .s => HartRes.done s (setX h d (valS v))
          | .v => .done (hartWrite s x r at' (vecBytes (valV v))) (setX h d (vlane (valV v) 0))
        if q.dead then take s (zeroVal bank)
        else match q.entries with
          | e :: rest =>
            (match e.val with
             | some v =>
               let s := giveFloor s (hartAgent x r) e.carry
               take (modCtx s s.cur fun x => setQueue x bank n { q with entries := rest }) v
             | none => .wait s h)
          | [] => .wait s h

/-- `lfe`: the full/empty bit of a virtual word, read once through the copy engine. -/
def execLfe (d a b : BitVec 5) (s : State) : Ans :=
  hartOp (.lfe d a b) s fun x h r =>
    let v := getX h b
    if field v 31 24 ≠ 0 then .trap 0x02 0
    else match h.lfe with
      | none =>
        let va := ((getX h a).toNat + field v 23 0 * 2 ^ 32) / 8 * 8
        let (id, s) := sendCmd s { newCmd s s.cur x .lfe (hartAgent x r) (if r = .loader then 1 else 2) 64 with recAddr := va }
        .wait s { h with lfe := some id }
      | some id =>
        match getCmd s id with
        | none => .wait s { h with lfe := none }
        | some k =>
          if !cmdDone k then .wait s h
          else
            let bit := if k.status = 0 then k.result.toNat % 2 else 0
            .done (forgetCmd s id) { setX h d (BitVec.ofNat 32 (bit + k.status % 256 * 2 ^ 8)) with lfe := none }

/-- `ltsk`: a task submitted as by `spawn`. The engine takes the pieces it ends at once; while it cannot, the hart
waits. -/
def execLtsk (d a : BitVec 5) (s : State) : Ans :=
  hartOp (.ltsk d a) s fun x h r =>
    let at' := (getX h a).toNat / 128 * 128
    let busy := match x.wait with
      | .handover _ _ => true
      | _ => false
    if busy then .wait s h
    else
      let (bs, t) := hartRead s x r at' 128
      match submitTask t t.cur (ctxIn t x) bs with
      | .privileged => .trap 0x15 0
      | .full _ => .wait s h
      | .child t handle =>
        let x := ctxIn t x
        if !x.views.isEmpty && arenaCopies s s.cur x then .wait s h
        else
          let t := takePieces t t.cur x
          if (untaken t x.task).any fun p => p.cmd.isNone then .wait s h
          else .done (x.views.foldl (refillView t.cur x) t) (setX h d handle)

/-- The held fault that a hart reports at its `lbar` or `lyld`: its own (R244). -/
def ownFault (x : Ctx) (r : Role) : Option HeldFault := x.held.filter fun f => f.who = some r

/-- The shared entry of `lbar`: its operand's limits, and the hart's held fault reported first (R244). -/
def lbarOp (i : Instr) (a b : BitVec 5) (s : State) (k : Ctx → Hart → Role → Bool → Nat → Bool × Nat × Nat → HartRes) :
    Ans :=
  hartOp i s fun x h r =>
    let n := field (getX h a) 5 0
    let die := (getX h b).getLsbD 1
    if field (getX h a) 31 6 ≠ 0 ∨ field (getX h b) 31 2 ≠ 0 then .trap 0x02 0
    else if (if die then hdrDbar x.hdr else hdrCbar x.hdr) ≤ n then .trap 0x09 0
    else match ownFault x r with
      | some f => .report f
      | none => k x h r die n (barOf s x.region s.cur.core die n)

/-- `lbar` in arrive mode: as `barr`, with the hart's own record. -/
def execLbarArrive (a b : BitVec 5) (s : State) : Ans :=
  lbarOp (.lbarArrive a b) a b s fun x h r die n k =>
    .done (arrival s (hartAgent x r) k 0) { h with records := alSet h.records (die, n) (getBar s k).phase }

/-- `lbar` in wait mode: as `barw`, with the hart's own record. Executed again after a halt, a wait without a record keeps the
phase that its first attempt took (R158; DESIGN CHOICE, log 144). -/
def execLbarWait (a b : BitVec 5) (s : State) : Ans :=
  lbarOp (.lbarWait a b) a b s fun x h r die n k =>
    let w := match getRecord h.records die n, h.awaited with
      | some w, _ => w
      | none, some (key, w) => if key = (die, n) then w else (getBar s k).phase
      | none, none => (getBar s k).phase
    if barHeld s k w then .wait s { h with awaited := some ((die, n), w) }
    else .done (bringUp s (hartAgent x r)) { h with awaited := none }

/-- `lyld` (R242): the hart joins the slice's yield; a fault of its own that is held is reported first (R244). -/
def execLyld (s : State) : Ans :=
  hartOp .lyld s fun x h r =>
    match ownFault x r with
    | some f => .report f
    | none => .join s h

/-! ### The command of `lfe` -/

/-- The bit of a word read for an `lfe`: what its translation gives, far bits being another package's. -/
def readBit (s : State) (k : Cmd) : State :=
  match translate s k k.recAddr false with
  | (.error (.walk va w), s) => startWalk s k va w
  | (.error (.ends st), s) => finishCmd s k.id st 0
  | (.error (.park va kind), s) => parkCmd s k va (if kind = 5 then 5 else 3) (getAsid s k.asid).gen
  | (.error _, s) => addTimer s (s.now + 1) (.walkComplete k.id)
  | (.ok (.hbm pa), s) =>
    let w := pa / 8 * 8
    finishCmd (readNewest s (.cmd k.id) .hbm w 8).2 k.id stOk (if isFull s w then 1 else 0)
  | (.ok p, s) =>
    -- an invalid reference reads empty; a word of another package is read there
    match exchange s k 0 (farWord k 4 [(p, 8)] []) with
    | (.error (.ends st), s) => finishCmd s k.id st 0
    | (.error _, s) => s
    | (.ok _, s) => finishCmd s k.id stOk (natOfBytes (answerBytes (k.answers.headD []) 1) % 2)

/-- A turn of the engine for an `lfe`. -/
def turnLfe (s : State) (k : Cmd) : State :=
  match k.st with
  | .queued =>
    if !k.heldBy.isEmpty || !laneFree s k.cluster then addTimer s (s.now + 1) (.walkComplete k.id)
    else readBit (modCmd s k.id fun q => { q with st := .active }) { k with st := .active }
  | .active => readBit s k
  | .walking gen va w =>
    (match endWalk s k gen va w 3 with
     | .goOn s => (match getCmd s k.id with
       | some k => readBit s k
       | none => s)
     | .stopped s => s
     | .failed s => finishCmd s k.id stFaulted 0)
  | _ => s

/-! ### Turns of harts -/

/-- The registers an ordinary instruction reads. -/
def rvReads (op : Rv) : List (BitVec 5) :=
  match op with
  | .jalr _ a _ | .load _ _ a _ | .opImm _ _ a _ | .unary _ _ a => [a]
  | .branch _ a b _ | .store _ a b _ | .op _ _ a b => [a, b]
  | .csr _ _ src imm _ => if imm then [] else [src]
  | _ => []

/-- The registers a hart instruction reads. -/
def hartReads (i : Instr) : List (BitVec 5) :=
  match i with
  | .hartInstruction op _ | .hartDeviceRegisterWrite op _ => rvReads op
  | .lcopy _ a b | .lwait _ a b | .lpoll _ a b | .lpop _ a b | .lfe _ a b => [a, b]
  | .lpush a b | .lbarArrive a b | .lbarWait a b => [a, b]
  | .lstat _ a | .ltsk _ a => [a]
  | .hartEcall => [10]
  | _ => []

/-- Whether a hart interlocks on a load from the scratchpad that has not arrived (R234). -/
def interlocked (s : State) (h : Hart) (i : Instr) : Bool :=
  (hartReads i).any fun r => h.loads.any fun l => l.1 = r && decide (s.now < l.2)

/-- The row of the opcode table that a hart's decoded instruction stands for: a `lbar` in wait mode, a write of a
writable device register or CSR. -/
def resolveHart (h : Hart) (i : Instr) : Instr :=
  match i with
  | .lbarArrive a b => if (getX h b).getLsbD 0 then .lbarWait a b else i
  | .hartInstruction (.store k rs1 rs2 imm) len =>
    if getX h rs1 + imm = 0x3000001C ∧ k = .sw then .hartDeviceRegisterWrite (.store k rs1 rs2 imm) len else i
  | .hartInstruction (.csr k rd src imm num) len =>
    if k = .rw ∨ src ≠ 0 then .hartDeviceRegisterWrite (.csr k rd src imm num) len else i
  | i => i

/-- What a hart's turn brings: nothing, CODE_FETCH outside its portion, or an instruction. -/
inductive HartTurn
  | idle
  | badFetch
  | run (i : Instr)

/-- Whether the slice's harts run: not while their slice has not begun, halts, or ends its task (R238, R242, R243). -/
def hartsRun (x : Ctx) : Bool :=
  !x.halting && x.blocked.isEmpty && (match x.wait with
    | .tend | .halt | .handover true _ => false
    | _ => true)

/-- A hart's turn. -/
def hartTurn (s : State) (q : HartId) : HartTurn :=
  match getCtx s q.c with
  | none => .idle
  | some x =>
    match getHart x q.role with
    | none => .idle
    | some h =>
      if !hartsRun x ∨ h.st ≠ .running ∨ s.now < h.nextIssue ∨ (getCore s q.c.core).gated then .idle
      else
        let left := h.code.length - h.pc.toNat
        if left < 2 ∨ left < hartStep h then .badFetch
        else
          let i := resolveHart h (decodeHart (hartWord h))
          if interlocked s h i then .idle else .run i

/-- CODE_FETCH of a hart (R244). -/
def hartFetchTrap (s : State) (q : HartId) : State :=
  match getCtx s q.c with
  | none => s
  | some x =>
    match getHart x q.role with
    | none => s
    | some h => hartTrap s q.c x q.role h 0 (hartInfo q.role h 0x14 0)

/-- Whether a hart waits. -/
def hartWaits (h : Hart) : Option Instr :=
  match h.st with
  | .waiting i => some i
  | _ => none

/-- HART_WAIT_END (R239, R242): the instruction a hart waits in is tried again, and completes where its condition
holds. -/
def execHartWaitEnd (q : HartId) (s : State) : Ans :=
  match (getCtx s q.c).bind fun x => if hartsRun x then (getHart x q.role).bind hartWaits else none with
  | none => .next s
  | some i =>
    let s := { s with cur := q.c, curHart := some q.role }
    match i with
    | .lcopy d a b => execLcopy d a b s
    | .lwait d a b => execLwait d a b s
    | .lpush a b => execLpush a b s
    | .lpop d a b => execLpop d a b s
    | .lfe d a b => execLfe d a b s
    | .ltsk d a => execLtsk d a s
    | .lbarWait a b => execLbarWait a b s
    | _ => .next s

end Sys2Proof.Machine
end

