-- ==== Sys2Proof/Machine/Launch.lean ====
section
/-! DEFINITION. The launch unit: RCBs (R297), inheritance (R298), the checks of a header and the root monitor's (R299,
R303), barrier allotment (R304), admission with its reads and LSTAT (R302), and `codesw` (R130). -/

namespace Sys2Proof.Machine

/-! ### RCBs (R297), as numbers of 256 bytes -/

def rcbParent (r : Nat) : Nat := bits r 63 0
def rcbImage (r : Nat) : Nat := bits r 127 64
def rcbFirst (r : Nat) : Nat := bits r 191 128
def rcbDloff (r : Nat) : Nat := bits r 255 192
def rcbCbudget (r : Nat) : Nat := bits r 287 256
def rcbPrio (r : Nat) : Nat := bits r 290 288
def rcbFdom (r : Nat) : Nat := bits r 311 296
def rcbOwner (r : Nat) : Nat := bits r 331 320
def rcbAsidField (r : Nat) : Nat := bits r 347 336
def rcbPart (r : Nat) : Nat := bits r 357 352
def rcbPartv (r : Nat) : Bool := r.testBit 358
def rcbInh (r : Nat) : Nat := bits r 391 384
def rcbDie (r : Nat) : Nat := bits r 395 392
def rcbHndl (r : Nat) : Nat := bits r 447 416
def rcbCkpt (r : Nat) : Bool := r.testBit 452

/-- Reserved bits of an RCB that are set. -/
def rcbReserved (r : Nat) : Bool :=
  bits r 295 291 ≠ 0 || bits r 319 312 ≠ 0 || bits r 335 332 ≠ 0 || bits r 351 348 ≠ 0 || bits r 383 359 ≠ 0 ||
    bits r 415 396 ≠ 0 || bits r 511 453 ≠ 0 || bits r 519 518 ≠ 0 || bits r 1535 526 ≠ 0 || bits r 2047 1792 ≠ 0

/-- The RCB with the parent's effective fields in place of those that INH names, and INH cleared (R298). -/
def inherit (r : Nat) (p : Region) : Nat :=
  let i := rcbInh r
  let r := if i.testBit 0 then putBits r 255 192 p.dloff else r
  let r := if i.testBit 1 then putBits r 287 256 p.cbudget else r
  let r := if i.testBit 2 then putBits r 290 288 p.prio else r
  let r := if i.testBit 3 then putBits r 311 296 p.fdom else r
  let r := if i.testBit 4 then putBits r 331 320 p.owner else r
  let r := if i.testBit 5 then putBits r 347 336 p.asid else r
  let r := if i.testBit 6 then putBits r 358 352 (p.partField + (if p.part.isSome then 64 else 0)) else r
  let r := if i.testBit 7 then putBits r 447 416 p.hndl.toNat else r
  putBits r 391 384 0

/-- A refusal: field code, amount asked for, amount available (R302, R303). -/
abbrev Refused := Nat × Nat × Nat

/-- The refusal of a check that fails. -/
def check (ok : Bool) (code asked avail : Nat) : List Refused := if ok then [] else [(code, asked, avail)]

/-- Step 1 of an admission (R298): the effective RCB, or a refusal. `parent` is the parent's region where it is
admitted. -/
def resolveRcb (s : State) (r : Nat) (parent : Option Nat) : Except Refused Nat :=
  if rcbParent r = 0 then (if rcbInh r = 0 then .ok r else .error (0x18, 0, 0))
  else match parent with
    | none => .error (0x18, 0, 0)
    | some p =>
      let g := getRegion s p
      let e := inherit r g
      if g.prio < rcbPrio e then .error (0x15, rcbPrio e, g.prio)
      else if g.cbudget < rcbCbudget e then .error (0x16, rcbCbudget e, g.cbudget)
      else .ok e

/-! ### Headers (R299, R303) -/

/-- Reserved bits of a header that are set. -/
def hdrReserved (h : BitVec 512) : Bool :=
  field h 31 29 ≠ 0 || field h 79 77 ≠ 0 || field h 95 88 ≠ 0 || field h 127 120 ≠ 0 || field h 511 480 ≠ 0

/-- The offsets and ends that must lie within the image, each with its bound. -/
def imageBounds (h : BitVec 512) : List (Nat × Nat) :=
  let entry := fun (e n : Nat) => if e = noneWord then [] else [(e + 1, n)]
  [(hdrEcomp h + 1, min noneWord (hdrImglen h)), (hdrDoff h + hdrDlen h, hdrImglen h),
    (hdrLioff h + hdrLi h + hdrLd h, hdrImglen h), (hdrSioff h + hdrSi h + hdrSd h, hdrImglen h)] ++
    entry (hdrEload h) (hdrLi h) ++ entry (hdrEstor h) (hdrSi h)

/-- The checks of a header against one core, in the order of R303. -/
def headerChecks (h : BitVec 512) (reserved : Bool) : List Refused :=
  let portion := fun (n lim : Nat) => decide (n ≤ lim) && n % 256 = 0
  check (decide (hdrVq h ≤ 32)) 0x01 (hdrVq h) 32 ++ check (decide (hdrSq h ≤ 32)) 0x02 (hdrSq h) 32 ++
    check (decide (hdrScratch h ≤ 393216) && hdrScratch h % 64 = 0) 0x03 (hdrScratch h) 393216 ++
    check (decide (hdrOsl h ≤ 16)) 0x04 (hdrOsl h) 16 ++ check (decide (hdrZt h ≤ 8)) 0x05 (hdrZt h) 8 ++
    check (decide (hdrCbar h ≤ 32)) 0x06 (hdrCbar h) 32 ++ check (decide (hdrDbar h ≤ 64)) 0x07 (hdrDbar h) 64 ++
    check (decide (hdrTags h ≤ 64)) 0x08 (hdrTags h) 64 ++
    check (decide (hdrViews h + hdrDlen h ≤ hdrScratch h)) 0x09 (hdrViews h) (hdrScratch h - hdrDlen h) ++
    check (decide (1 ≤ hdrRun h) && decide (hdrRun h ≤ 240)) 0x0A (hdrRun h) 240 ++
    check (decide (1 ≤ hdrYmax h)) 0x0B (hdrYmax h) (2 ^ 24 - 1) ++
    check (portion (hdrLi h) 16384) 0x0C (hdrLi h) 16384 ++ check (portion (hdrLd h) 8192) 0x0D (hdrLd h) 8192 ++
    check (portion (hdrSi h) 16384) 0x0E (hdrSi h) 16384 ++ check (portion (hdrSd h) 8192) 0x0F (hdrSd h) 8192 ++
    check (!reserved) 0x10 0 0 ++
    ((imageBounds h).filter fun b => b.2 < b.1).map fun b => (0x17, b.1, hdrImglen h)

/-- The root monitor's checks of OWNER, ASID and PART (R303). -/
def monitorChecks (s : State) (owner asid : Nat) (part : Option Nat) : List Refused :=
  let a := getAsid s asid
  check (decide (1 ≤ owner) && decide (owner ≤ 4095) && s.keys.contains owner) 0x11 0 0 ++
    check (a.root ≠ 0 && a.owner = owner) 0x12 0 0 ++
    check (part.isNone || !(s.regions.any fun g => g.st = .admitted && g.part = part && g.owner ≠ owner)) 0x14 0 0

/-! ### Barrier allotment (R304) -/

/-- Whether a copy has still to arrive at a barrier of a region: one that has begun, or one that its descriptor names (R163). -/
def arrivesIn (r : Nat) (k : Cmd) : Bool :=
  let waits := match k.st with
    | .queued | .targetWait _ => true
    | _ => false
  k.region = r && !cmdDone k &&
    (k.bar.isSome || (waits && isCopy k.kind && k.kind ≠ .copyr && decide (descBar k.record ≠ 0xFFFF)))

/-- Whether a region holds its barriers: while it runs, and after an abort until its pieces have merged and its copies that
carry an arrival have ended. -/
def holdsBars (s : State) (r : Nat) : Bool :=
  (getRegion s r).st = .admitted || (s.pieces.any fun p => p.region = r) || s.cmds.any (arrivesIn r)

/-- The runs of barriers in use on a die, as (base, length), in its cluster banks or its die bank. -/
def barRuns (s : State) (die : Nat) (bank : Bool) : List (Nat × Nat) :=
  ((List.range s.regions.length).filter fun r => (getRegion s r).die = die && holdsBars s r).map fun r =>
    let g := getRegion s r
    if bank then (g.dbase, g.dbar) else (g.cbase, g.cbar)

/-- Whether a barrier is free of the runs. -/
def barFree (runs : List (Nat × Nat)) (n : Nat) : Bool :=
  !(runs.any fun r => decide (r.1 ≤ n) && decide (n < r.1 + r.2))

/-- The lowest base at which n consecutive barriers of a bank of `cap` are free. -/
def barBase (runs : List (Nat × Nat)) (cap n : Nat) : Option Nat :=
  (List.range (cap + 1 - n)).find? fun b => (List.range n).all fun i => barFree runs (b + i)

/-- The longest free run of a bank. -/
def longestRun (runs : List (Nat × Nat)) (cap : Nat) : Nat :=
  ((List.range (cap + 1)).filter fun n => decide (n ≤ cap) && (barBase runs cap n).isSome).foldl max 0

/-- The bases that a region's header gets on a die, or a refusal. -/
def allotBars (s : State) (die : Nat) (h : BitVec 512) : Except Refused (Nat × Nat) :=
  let cs := barRuns s die false
  let ds := barRuns s die true
  match barBase cs 32 (hdrCbar h), barBase ds 64 (hdrDbar h) with
  | none, _ => .error (0x19, hdrCbar h, longestRun cs 32)
  | _, none => .error (0x1A, hdrDbar h, longestRun ds 64)
  | some c, some d => .ok (c, d)

/-- A region's barriers at their initial state (R157). -/
def clearBars (s : State) (die cbase cbar dbase dbar : Nat) : State :=
  let zero : Bar := { e := 0, arrivals := 0, phase := 0, pending := 0, flipAt := 0 }
  let s := (List.range 12).foldl (fun s c =>
    (List.range cbar).foldl (fun s i => setBar s (false, 12 * die + c, cbase + i) zero) s) s
  (List.range dbar).foldl (fun s i => setBar s (true, die, dbase + i) zero) s

/-! ### LSTAT and the RCB (R302) -/

/-- LSTAT of an outcome. -/
def lstatOf (o : Option Refused) : Nat :=
  match o with
  | none => 0
  | some (code, asked, avail) => 1 + code * 2 ^ 8 + asked % 2 ^ 32 * 2 ^ 32 + avail % 2 ^ 32 * 2 ^ 64

/-- The RCB as the launch unit leaves it: STATE, the bases where it was admitted, LSTAT. -/
def finalRcb (r : Nat) (o : Option Refused) (cbase dbase : Nat) : Nat :=
  let r := putBits (putBits r 451 448 (if o.isNone then 1 else 2)) 1791 1536 (lstatOf o)
  if o.isNone then putBits (putBits r 517 512 cbase) 525 520 dbase else r

/-- The region that an effective RCB describes. -/
def regionOf (r va asid parent : Nat) (h : BitVec 512) (cbase dbase : Nat) : Region :=
  { rcb := va, rcbAsid := asid, parent := parent, image := rcbImage r % 2 ^ 56, hdr := h, dloff := rcbDloff r,
    cbudget := rcbCbudget r, prio := rcbPrio r, fdom := rcbFdom r, owner := rcbOwner r, asid := rcbAsidField r,
    part := if rcbPartv r then some (rcbPart r) else none, partField := rcbPart r, die := rcbDie r, hndl := BitVec.ofNat 32 (rcbHndl r),
    st := .admitted, suspended := false, ckpt := rcbCkpt r, cbase := cbase, dbase := dbase, cbar := hdrCbar h, dbar := hdrDbar h,
    mergeDead := false }

/-- Steps 2 to 4 of an admission for an effective RCB: the bases, or the first refusal. -/
def admitRcb (s : State) (e : Nat) (h : BitVec 512) : Except Refused (Nat × Nat) :=
  let part := if rcbPartv e then some (rcbPart e) else none
  let bad := headerChecks h (hdrReserved h || rcbReserved e) ++ check (decide (rcbDie e ≤ 7)) 0x18 0 0 ++
    monitorChecks s (rcbOwner e) (rcbAsidField e) part
  match bad with
  | b :: _ => .error b
  | [] => allotBars s (rcbDie e) h

/-! ### The launch command (R302) -/

/-- What a launch has read: the RCB, the header, the FIRST descriptor. -/
def lcRcb (k : Cmd) : Nat := natOfBytes (k.buf.take 256)
def lcHdr (k : Cmd) : BitVec 512 := BitVec.ofNat 512 (natOfBytes ((k.buf.drop 256).take 64))
def lcFirst (k : Cmd) : Nat := natOfBytes ((k.buf.drop 320).take 128)

/-- The parent region of the RCB that a launch has read, where it is admitted. -/
def lcParent (s : State) (k : Cmd) : Option Nat := regionByRcb s k.asid (rcbParent (lcRcb k) % 2 ^ 56)

/-- The addresses of a region's RCB and its ancestors', through the parents. -/
def rcbChain (s : State) : Nat → Nat → List Nat
  | 0, _ => []
  | fuel + 1, r =>
    let g := getRegion s r
    g.rcb :: (match g.parent with
      | 0 => []
      | p + 1 => rcbChain s fuel p)

/-- The ranges that a launch reads next, by the number of reads done: the RCB, its parents, the header, the FIRST
descriptor. -/
def launchRanges (s : State) (k : Cmd) : List (Nat × Nat) :=
  match k.index with
  | 0 => [(k.recAddr, 256)]
  | 1 =>
    if rcbParent (lcRcb k) = 0 then []
    else match lcParent s k with
      | some p => (rcbChain s (s.regions.length + 1) p).map fun a => (a, 256)
      | none => [(rcbParent (lcRcb k) % 2 ^ 56, 256)]
  | 2 => [((rcbImage (lcRcb k) + 2 ^ 56 - 64) % 2 ^ 56, 64)]
  | _ => [(rcbFirst (lcRcb k) % 2 ^ 56, 128)]

/-- Bytes of ranges read by a unit as a copy reads (R302), as they have been published to it. -/
def unitRead (s : State) (k : Cmd) (rs : List (Nat × Nat)) : Got (List Byte) :=
  match piecesOf k false (rs.flatMap fun r => pagePieces (r.2 / 4096 + 2) r.1 r.2) s with
  | (.error x, s) => (.error x, s)
  | (.ok ps, s) => fetchPlaces (bringUp s (.cmd k.id)) k ps

/-- The outcome of a launch with everything read: the region entered and its FIRST task, or a refusal. A region launched below
a suspended one is suspended with it (R313, log 85). -/
def tryAdmit (s : State) (k : Cmd) (firstOk : Bool) : Except Refused State × Nat :=
  let va := k.recAddr
  let parent := lcParent s k
  match resolveRcb s (lcRcb k) parent with
  | .error b => (.error b, lcRcb k)
  | .ok e =>
    match admitRcb s e (lcHdr k) with
    | .error b => (.error b, e)
    | .ok (cb, db) =>
      if 4096 ≤ poolSize s (rcbDie e) then (.error (0x1B, 1, 0), e)
      else if !firstOk then (.error (0x1C, 0, 0), e)
      else
        let p := match parent with
          | some p => if rcbParent e = 0 then 0 else p + 1
          | none => 0
        let g := { regionOf e va k.asid p (lcHdr k) cb db with suspended := 0 < p && (getRegion s (p - 1)).suspended }
        let s := clearBars { s with regions := s.regions ++ [g] } g.die cb g.cbar db g.dbar
        (.ok s, finalRcb e none cb db)

/-- The FIRST task entered in the pool of a region's die (R302 step 5). -/
def enterFirst (s : State) (r : Nat) (k : Cmd) : State :=
  let none' := BitVec.ofNat 32 noneWord
  (enterTask s r (lcFirst k) (some (rcbFirst (lcRcb k) % 2 ^ 56)) none none' none').2

/-- The end of a launch's admission: the state, LSTAT, and the RCB written where it was read and can be. -/
def settleLaunch (s : State) (k : Cmd) (rcbOk firstOk : Bool) : State × Nat :=
  if !rcbOk then (s, lstatOf (some (0x1C, 0, 0)))
  else match tryAdmit s k firstOk with
    | (.ok t, r) =>
      let t := sysWrite t k.asid k.recAddr (bytesOf 256 r)
      (enterFirst t s.regions.length k, lstatOf none)
    | (.error b, r) =>
      let e := finalRcb r (some b) 0 0
      (sysWrite s k.asid k.recAddr (bytesOf 256 e), lstatOf (some b))

/-- A launch whose read fails: refused, 0x1C, once the checks that come before it hold (R302). The FIRST descriptor comes
last. -/
def failRead (s : State) (k : Cmd) : State × Nat :=
  match k.index with
  | 0 => settleLaunch s k false false
  | 1 | 2 =>
    match resolveRcb s (lcRcb k) (lcParent s k) with
    | .error _ => settleLaunch s k true false
    | .ok e =>
      let r := finalRcb e (some (0x1C, 0, 0)) 0 0
      (sysWrite s k.asid k.recAddr (bytesOf 256 r), lstatOf (some (0x1C, 0, 0)))
  | _ => settleLaunch s k true false

/-- A launch goes on reading; `fin` takes the state and LSTAT when it ends. -/
def advanceLaunch (fin : State → Cmd → Nat → State) : Nat → Nat → State → State
  | 0, id, s => addTimer s (s.now + 1) (.walkComplete id)
  | n + 1, id, s =>
    match getCmd s id with
    | none => s
    | some k =>
      let finish := fun (o : State × Nat) => fin (forgetCmd o.1 id) k o.2
      let refused := match resolveRcb s (lcRcb k) (lcParent s k) with
        | .error _ => true
        | .ok _ => false
      if 4 ≤ k.index || (2 ≤ k.index && refused) then finish (settleLaunch s k true true)
      else match unitRead s k (launchRanges s k) with
        | (.ok bs, s) =>
          let keep := if k.index = 1 then [] else bs
          advanceLaunch fin n id (modCmd s id fun q =>
            { q with index := k.index + 1, buf := k.buf ++ keep, trans := [], acks := 0, answers := [], wrote := false })
        | (.error x, s) =>
          match x with
          | .walk va w => startWalk s k va w
          | .park va kind => parkCmd s k va kind (getAsid s k.asid).gen
          | .ends _ => finish (failRead s k)
          | .sent => s
          | _ => addTimer s (s.now + 1) (.walkComplete id)

/-- A turn of a launch's reads. -/
def turnLaunch (fin : State → Cmd → Nat → State) (s : State) (k : Cmd) : State :=
  match k.st with
  | .queued | .active => advanceLaunch fin 8 k.id (modCmd s k.id fun q => { q with st := .active })
  | .walking gen va w =>
    (match endWalk s k gen va w 0 with
     | .goOn s => advanceLaunch fin 8 k.id s
     | .stopped s => s
     | .failed s =>
       let o := failRead s k
       fin (forgetCmd o.1 k.id) k o.2)
  | _ => s

/-- A launch begun for a request (R302): its reads use the ASID of the message's queue pair, or the service firmware's. -/
def startLaunch (s : State) (r : Request) (asid rcb : Nat) : State :=
  let k := { unitCmd s .launch s.regions.length 0 96 ⟨0, 0⟩ with
    asid := asid, owner := (getAsid s asid).owner, recAddr := rcb }
  (sendCmd { s with launching := some r } k).2

/-! ### `codesw` (R130) -/

/-- A header that `codesw` may switch a region to: steps 2 and 4 against the region's own allotment (R302). -/
def switchOk (g : Region) (h : BitVec 512) : Bool :=
  (headerChecks h (hdrReserved h)).isEmpty && decide (hdrCbar h ≤ g.cbar) && decide (hdrDbar h ≤ g.dbar)

/-- A `codesw` goes on: the new header read, then admitted or not. `target` is the region, `recAddr` the image. -/
def advanceSwitch (s : State) (k : Cmd) : State :=
  match unitRead s k [((k.recAddr + 2 ^ 56 - 64) % 2 ^ 56, 64)] with
  | (.ok bs, s) =>
    let h := BitVec.ofNat 512 (natOfBytes bs)
    let g := getRegion s k.target
    if g.st = .admitted ∧ switchOk g h then
      finishCmd (modRegion s k.target fun g => { g with hdr := h, image := k.recAddr }) k.id stOk 0
    else finishCmd s k.id stAborted 0
  | (.error x, s) =>
    match x with
    | .walk va w => startWalk s k va w
    | .park va kind => parkCmd s k va kind (getAsid s k.asid).gen
    | .ends _ => finishCmd s k.id stAborted 0
    | .sent => s
    | _ => addTimer s (s.now + 1) (.walkComplete k.id)

/-- A turn of a `codesw`. -/
def turnSwitch (s : State) (k : Cmd) : State :=
  match k.st with
  | .queued =>
    if !k.heldBy.isEmpty then kvLater s k
    else advanceSwitch (modCmd s k.id fun q => { q with st := .active }) { k with st := .active }
  | .active => advanceSwitch s k
  | .walking gen va w =>
    (match endWalk s k gen va w 0 with
     | .goOn s => (match getCmd s k.id with
       | some k => advanceSwitch s k
       | none => s)
     | .stopped s => s
     | .failed s => finishCmd s k.id stAborted 0)
  | _ => s

/-- `codesw sA, tag` (R130): the record of 16 bytes read at issue; PROTECTION for a target outside the issuer's region and
its descendants. -/
def execCodesw (f : CFields) (s : State) : Ans :=
  cOp f s fun x => withS x f.srcA fun a x =>
    let (bs, s, x) := loadT s x 0 (a.toNat / 16 * 16) 16
    let tag := immBits f 5 0
    let k := newCmd s s.cur x .codesw (.ctx x.task) 0 tag
    let image := natOfBytes (bs.drop 8) % 2 ^ 56
    match childRegion s x.region (natOfBytes (bs.take 8)) with
    | none =>
      let (id, s) := sendCmd s { k with st := .ending }
      .done (finishCmd s id stProtection 0) (countTag x tag)
    | some r =>
      let g := getRegion s r
      let (s, x) := issueCmd s x { k with target := r, recAddr := image, asid := g.asid, owner := g.owner }
      .done s x

end Sys2Proof.Machine
end

