-- ==== Sys2Proof/Machine/Restore.lean ====
section
/-! DEFINITION. What the root monitor does for the host besides admission: attestation reports (R367) and the restore of a
checkpoint (R370). -/

namespace Sys2Proof.Machine

/-! ### Accesses of the root monitor -/

/-- The places of a virtual range for the root monitor, each page walked at once; none where one cannot be reached here. -/
def walkPlaces (k : Cmd) (write : Bool) : List (Nat × Nat) → State → Option (List (Place × Nat) × State)
  | [], s => some ([], s)
  | (va, n) :: rest, s =>
    match walk s k.asid va with
    | .leaf level e =>
      (match leafPlace s k va write level e with
       | (.ok (.far _ _), _) => none
       | (.ok p, s) =>
         match walkPlaces k write rest s with
         | some (ps, s) => some ((p, n) :: ps, s)
         | none => none
       | (.error _, _) => none)
    | _ => none

/-- A command that stands for the root monitor's accesses in an ASID. -/
def monitorCmd (s : State) (asid : Nat) : Cmd :=
  { unitCmd s .launch s.regions.length 0 96 ⟨0, 0⟩ with asid := asid, owner := (getAsid s asid).owner }

/-- Bytes of a virtual range as the root monitor reads them: the newest of each word. -/
def monitorRead (s : State) (asid va n : Nat) : Option (List Byte × State) :=
  let k := monitorCmd s asid
  match walkPlaces k false (pagePieces (n / 4096 + 2) va n) s with
  | none => none
  | some (ps, s) => some (ps.flatMap fun p => match p.1 with
      | .hbm pa => rawRead s .hbm pa p.2
      | _ => List.replicate p.2 0, s)

/-- Bytes written to a virtual range by the root monitor, all or none, and published. -/
def monitorWrite (s : State) (asid va : Nat) (bs : List Byte) : Option State :=
  let k := monitorCmd s asid
  match walkPlaces k true (pagePieces (bs.length / 4096 + 2) va bs.length) s with
  | none => none
  | some (ps, s) => some (publishWide s (writePlaces k ps bs s))

/-! ### Attestation (R367) -/

/-- The words of a tree table as installed (R340): its header of NODES and VERSION, then its nodes. -/
def treeWords (t : Tree) : List Word := BitVec.ofNat 32 (t.nodes.length % 2 ^ 11 + t.version % 2 ^ 16 * 2 ^ 16) :: t.nodes

/-- The tree tables as an attestation digests them. -/
def treeTables (s : State) : List (Nat × List Word) := s.trees.map fun t => (t.id, treeWords t)

/-- Bytes 0 to 303 of an attestation report. -/
def reportBody (s : State) (nonce : List Byte) : List Byte :=
  let image := fun (i : Nat) => (List.range 64).map (Config.imageDigest i)
  bytesOf 4 1 ++ bytesOf 2 s.pkg ++ bytesOf 2 0 ++ bytesOf 4 s.incarnation.toNat ++ bytesOf 4 0 ++ nonce.take 32 ++
    image 0 ++ image 1 ++ image 2 ++ shake256 (Config.tableImage s.routes (treeTables s)) 64

/-- An attestation report: 30,096 bytes. -/
def report (s : State) (nonce : List Byte) : List Byte := reportBody s nonce ++ signature s (reportBody s nonce)

/-! ### Restore (R370) -/

/-- The bytes that a leaf of a manifest streams: those of a block page stand with its blocks. -/
def leafSize (p : Nat × Nat × Nat × DWord) : Nat := if teBlk p.2.2.2.toNat then 0 else pageSize p.2.2.1

/-- Where the pages of a manifest end and its blocks begin in the stream, and where its versioned frames begin. -/
def blocksAt (n : Snapshot) : Nat := (n.pages.map leafSize).foldl (· + ·) 0
def framesAt (n : Snapshot) : Nat := blocksAt n + 4096 * n.maps.length

/-- The bytes that a manifest's pages, blocks and versioned frames stream. -/
def streamSize (n : Snapshot) : Nat := framesAt n + 2 ^ 17 * n.versions.length

/-- The bytes of a shard of a manifest. -/
def shardSize (n : Snapshot) (i : Nat) : Nat := min (2 ^ 28) (streamSize n - 2 ^ 28 * i)

/-- The first bytes stored under the reference of a shard's first block: those that this package has stored, else what tier 1 or 2
holds there. -/
def storedBytes (s : State) (ref : DWord) (size : Nat) : List Byte :=
  match s.stored.find? fun p => p.1 = ref with
  | some p => p.2.take size
  | none => (List.range size).map (Config.storedByte ref)

/-- Whether every shard of a manifest stands in tier 1 or 2 with its digest. -/
def shardsOk (s : State) (n : Snapshot) : Bool :=
  n.shards.length = (streamSize n + 2 ^ 28 - 1) / 2 ^ 28 &&
    (n.shards.zipIdx).all fun p => shake256 (storedBytes s p.1.1 (shardSize n p.2)) 32 = p.1.2

/-- The plain bytes of a manifest's stream, from its shards. -/
def streamOf (s : State) (n : Snapshot) : List Byte :=
  (n.shards.zipIdx).flatMap fun p =>
    let bs := storedBytes s p.1.1 (shardSize n p.2)
    ((chunks 16 ((bs.length + 15) / 16) bs).zipIdx).flatMap fun b =>
      (List.range b.1.length).map fun i => Config.shardOpen n.owner b.2 b.1 i

/-- The regions of a manifest admitted one after another, a parent before its children (R302 steps 2 to 4), or the first
refusal with the region's RCB. -/
def admitAll (base : Nat) : List (Nat × Region) → State → Except (Nat × Refused) State
  | [], s => .ok s
  | (r, g) :: rest, s =>
    match admitRcb s r g.hdr with
    | .error b => .error (g.rcb, b)
    | .ok (cb, db) =>
      let p := match g.parent with
        | 0 => 0
        | p + 1 => base + p + 1
      let g := regionOf r g.rcb g.rcbAsid p g.hdr cb db
      admitAll base rest (clearBars { s with regions := s.regions ++ [g] } g.die cb g.cbar db g.dbar)

/-- A frame for a table of the root monitor, zeroed. -/
def takeTable (s : State) : Option (Nat × State) :=
  match s.spareTables with
  | [] => none
  | pa :: rest => some (pa, dropLog { s with spareTables := rest, hbm := memClear s.hbm pa 4096, fog := cutFog pa (pa + 4096) s.fog } .hbm pa 4096)

/-- A frame for block maps or version descriptors, aligned as a leaf's ADDR must be (R251). -/
def takeLeafTable (s : State) : Option (Nat × State) :=
  match s.spareTables.find? fun pa => pa % 2 ^ 16 = 0 with
  | none => none
  | some pa => takeTable { s with spareTables := pa :: s.spareTables.filter fun t => t ≠ pa }

/-- The address of the entry of a virtual address at a level, tables built where the walk finds none. -/
def ensurePath (va level : Nat) : Nat → Nat → State → Option (Nat × State)
  | 0, base, s => if level = 0 then some (base + 8 * levelIndex va 0, s) else none
  | l + 1, base, s =>
    let pa := base + 8 * levelIndex va (l + 1)
    if l + 1 = level then some (pa, s)
    else
      let e := hbmNat s pa 8
      if teV e then (if teLeaf e || malformed (l + 1) e then none else ensurePath va level l (teAddr e) s)
      else match takeTable s with
        | none => none
        | some (t, s) => ensurePath va level l t (hbmPut s pa 8 (1 + t))

/-- An entry installed by a restore. -/
def placeEntry (s : State) (asid va level e : Nat) : Option State :=
  match ensurePath va level 4 (getAsid s asid).root s with
  | none => none
  | some (pa, s) =>
    let old := hbmNat s pa 8
    let s := hbmPut (countLeaves s (getAsid s asid).owner level old e) pa 8 e
    some (if teV old then raiseGen s asid else s)

/-- An ASID table entry of a manifest (R369) made here where the ASID has no table of its own yet, under a root table of the root
monitor (DESIGN CHOICE, log 152). -/
def restoreAsid (s : State) (a : Nat × AsidEntry) : Option State :=
  if (getAsid s a.1).root ≠ 0 then some s
  else match takeTable s with
    | none => none
    | some (root, s) => some { s with asids := alSet s.asids a.1 { root := root, gen := (getAsid s a.1).gen, owner := a.2.owner } }

/-- A 64 KiB frame from the free list with bytes of a shard. -/
def restoreFrame (s : State) (owner : Nat) (bs : List Byte) : Option (Nat × State) :=
  match s.freePages with
  | [] => none
  | pa :: rest =>
    let s := stampFrame { s with freePages := rest } pa (2 ^ 16) owner 0
    some (pa, publishWide s (writeAs s (.unit .monitor) .hbm pa bs))

/-- 64 KiB pages from an address on restored with the flags of an entry; a page of another package comes to stand here
(DESIGN CHOICE, log 153). -/
def restorePages (asid owner e : Nat) : List (List Byte) → Nat → State → Option State
  | [], _, s => some s
  | bs :: rest, va, s =>
    match restoreFrame s owner bs with
    | none => none
    | some (pa, s) =>
      let e := if teRem e then putBits (putBits e 7 7 0) 57 48 0 else e
      match placeEntry s asid va 0 (putBits (putBits e 6 5 0) 47 12 (pa / 4096)) with
      | none => none
      | some s => restorePages asid owner e rest (va + 2 ^ 16) s

/-- The references of a block aperture restored into a map: a block of its own for each, with its bytes, VALID and BASE. -/
def restoreRefs (table owner asid va : Nat) : List ((Nat × Nat × DWord) × (Nat × Nat) × List Byte) → State → Option State
  | [], s => some s
  | ((a, v, _), (valid, base), bs) :: rest, s =>
    if a = asid ∧ va ≤ v ∧ v < va + 2 ^ 16 then
      match takeBlock s owner with
      | none => none
      | some (g, pa, s) =>
        let s := setGbn s g (putBits (putBits (newGbnEntry pa owner) 55 40 valid) 103 64 base)
        let s := publishWide s (writeAs s (.unit .monitor) .hbm pa bs)
        restoreRefs table owner asid va rest (hbmPut s (table + 8 * ((v - va) / 4096)) 8 (mkRef s.pkg g))
    else restoreRefs table owner asid va rest s

/-- The blocks of a manifest, each with its address, its VALID and BASE, and its bytes of the stream. -/
def manifestBlocks (n : Snapshot) (stream : List Byte) : List ((Nat × Nat × DWord) × (Nat × Nat) × List Byte) :=
  n.maps.zipIdx.map fun p => (p.1, n.blocks.getD p.2 (0xFFFF, 0), (stream.drop (blocksAt n + 4096 * p.2)).take 4096)

/-- The leaves of a manifest with their bytes of the stream. -/
def manifestLeaves : List (Nat × Nat × Nat × DWord) → List Byte → List ((Nat × Nat × Nat × DWord) × List Byte)
  | [], _ => []
  | p :: rest, stream => (p, stream.take (leafSize p)) :: manifestLeaves rest (stream.drop (leafSize p))

/-- One leaf of a manifest restored. -/
def restoreLeaf (blocks : List ((Nat × Nat × DWord) × (Nat × Nat) × List Byte)) (s : State)
    (p : (Nat × Nat × Nat × DWord) × List Byte) : Option State :=
  let (asid, va, _, ent) := p.1
  let owner := (getAsid s asid).owner
  let e := ent.toNat
  if teBlk e then
    match takeLeafTable s with
    | none => none
    | some (t, s) =>
      match placeEntry s asid va 0 (putBits (putBits e 57 48 0) 47 12 (t / 4096)) with
      | none => none
      | some s => restoreRefs t owner asid va blocks s
  else restorePages asid owner e (chunks (2 ^ 16) (leafSize p.1 / 2 ^ 16) p.2) va s

/-- Whether a region that does not belong to a restore uses a partition. -/
def partUsed (s : State) (base p : Nat) : Bool :=
  (s.regions.take base).any fun g => g.st = .admitted && g.part = some p

/-- A partition record of a manifest (R275): restored where no other region here uses the partition, its readers gone (DESIGN
CHOICE, log 152). -/
def restorePartRec (base : Nat) (s : State) (p : Nat × PartRec) : State :=
  if partUsed s base p.1 then s else { s with parts := alSet s.parts p.1 { p.2 with rd0 := 0, rd1 := 0 } }

/-- One versioned page of a manifest restored: its descriptor with two frames of its own. Where the partition's record stands here
with the other CUR, the two frames change places, so that the published one stays published (log 152). -/
def restoreVersion (parts : List (Nat × PartRec)) (s : State) (v : (Nat × Nat × BitVec 256) × List Byte) : Option State :=
  let ((asid, va, d), bs) := v
  let owner := (getAsid s asid).owner
  match restoreFrame s owner (bs.take (2 ^ 16)) with
  | none => none
  | some (f0, s) =>
    match restoreFrame s owner (bs.drop (2 ^ 16)) with
    | none => none
    | some (f1, s) =>
      match takeLeafTable s with
      | none => none
      | some (t, s) =>
        let p := field d 133 128
        let swap := (alGet parts p).any fun r => r.cur ≠ (getPart s p).cur
        let w0 := f0 / 2 ^ 16 + field d 63 32 * 2 ^ 32
        let w1 := f1 / 2 ^ 16 + field d 127 96 * 2 ^ 32
        let pair := if swap then w1 + w0 * 2 ^ 64 else w0 + w1 * 2 ^ 64
        let s := hbmPut s t 32 (putBits d.toNat 127 0 pair)
        placeEntry s asid va 0 (0x17 + t)

/-- Steps over a list, each of which may fail. -/
def foldOpt {α : Type} (f : State → α → Option State) : List α → State → Option State
  | [], s => some s
  | a :: rest, s =>
    match f s a with
    | none => none
    | some s => foldOpt f rest s

/-- One barrier of a manifest written into its region's new allotment. -/
def restoreBar (base : Nat) (s : State) (b : Nat × Bool × Nat × Nat × Bar) : State :=
  let (place, die, c, i, v) := b
  let g := getRegion s (base + place)
  setBar s (if die then (true, g.die, g.dbase + i) else (false, 12 * g.die + c, g.cbase + i)) { v with flipAt := s.now }

/-- A memory of a manifest in canonical form. -/
def canonMem (m : Mem) : Mem := m.foldl (fun acc c => memPut acc c.1 [c.2]) []

/-- A saved part of a manifest; a task recreated stands on no core. -/
def canonPart (p : Part) : Part :=
  match p with
  | .saved m => .saved (canonMem m)
  | _ => .none

/-- A hart of a manifest. -/
def canonHart (h : Hart) : Hart := { h with data := canonMem h.data }

/-- One task of a manifest recreated, PARKED at its snapshot point, in the pool of its region's die. -/
def restoreTask (base uid0 : Nat) (s : State) (t : Task) : Option State :=
  let g := getRegion s (base + t.region)
  if 4096 ≤ poolSize s g.die then none
  else
    let (uid, s) := fresh s
    let taken := s.tasks.any fun u => u.die = g.die && u.index = t.index
    some { s with tasks := s.tasks ++ [{ t with
      uid := uid, die := g.die, index := if taken then freeIndex s g.die else t.index, st := .parked,
      region := base + t.region, since := s.now, aborted := false, saveDue := 0, placesAt := none, vlused := [],
      path := (t.path.headD 0 + uid0) :: t.path.drop 1
      scratch := canonPart t.scratch, slots := canonPart t.slots, tiles := canonPart t.tiles
      saved := t.saved.map fun x => { x with
        task := uid, region := base + t.region, snap := none, loader := x.loader.map canonHart, storer := x.storer.map canonHart } }] }

/-- The RCB of a restored region written in its memory. -/
def restoreRcb (s : State) (p : Nat × Region) : State :=
  let g := p.2
  match (s.regions.reverse).find? fun h => h.rcb = g.rcb && h.rcbAsid = g.rcbAsid with
  | some h => (monitorWrite s g.rcbAsid g.rcb (bytesOf 256 (finalRcb p.1 none h.cbase h.dbase))).getD s
  | none => s

/-- Step 4 of a restore: frames and translations with the shards' bytes, barrier states, RCBs, tasks. -/
def applyRestore (n : Snapshot) (base : Nat) (s : State) : Option State :=
  let stream := streamOf s n
  match foldOpt (restoreLeaf (manifestBlocks n stream)) (manifestLeaves n.pages stream) s with
  | none => none
  | some s =>
    let s := n.parts.foldl (restorePartRec base) s
    let frames := chunks (2 ^ 17) n.versions.length (stream.drop (framesAt n))
    match foldOpt (restoreVersion n.parts) (n.versions.zip frames) s with
    | none => none
    | some s =>
      let s := n.bars.foldl (restoreBar base) s
      let s := (n.rcbs.zip n.regions).foldl restoreRcb s
      match foldOpt (restoreTask base s.fresh) n.tasks s with
      | none => none
      | some s => some ((List.range 8).foldl (fun s d => addTurn s (.arbiterDecision d)) s)

/-- The certified public key of a package (R367). -/
def publicKey (s : State) (pkg : Nat) : BitVec 512 := if pkg = s.pkg then s.identityKey else Config.certifiedKey pkg

/-- A restore (R370): the new state, or the payload that BADCKPT carries. Nothing changes unless every check passes. -/
def restore (s : State) (asid va : Nat) : Except (List Byte) State :=
  match monitorRead s asid va 64 with
  | none => .error []
  | some (h, _) =>
    match monitorRead s asid va (Config.manifestLen h) with
    | none => .error []
    | some (bs, _) =>
      let body := bs.take (bs.length - 29792)
      match manifestRead body with
      | none => .error []
      | some n =>
        if bs.length < 29792 || !Config.slhVerify (publicKey s n.pkg) body (bs.drop (bs.length - 29792)) || !s.keys.contains n.owner ||
            !shardsOk s n then .error []
        else match admitAll s.regions.length (n.rcbs.zip n.regions) ((foldOpt restoreAsid n.asids s).getD s) with
          | .error (rcb, b) => .error (bytesOf 8 rcb ++ bytesOf 32 (lstatOf (some b)))
          | .ok t =>
            match applyRestore n s.regions.length t with
            | none => .error []
            | some t => .ok t

end Sys2Proof.Machine
end

