-- ==== Sys2Proof/Machine/HostLink.lean ====
section
/-! DEFINITION. The host link: control connections (R362), the numbering of messages (R364), their effects (R363, R365,
R372), and the RDMA operations and connections of the Ethernet ports (R361, R296). -/

namespace Sys2Proof.Machine

/-! ### Messages (R362) -/

def msgType (m : HostMsg) : Nat := field m.hdr 7 0
def msgLen (m : HostMsg) : Nat := field m.hdr 31 16
def msgHseq (m : HostMsg) : Nat := field m.hdr 63 32
def msgDseq (m : HostMsg) : Nat := field m.hdr 95 64

/-- The first address or number of a payload. -/
def msgArg (m : HostMsg) (n : Nat) : Nat := natOfBytes (m.payload.take n)

/-- The payload bytes that a type takes; none for a type the manual does not give the host. -/
def typeLen (t : Nat) : Option Nat :=
  match t with
  | 0x01 | 0x02 | 0x03 | 0x07 => some 8
  | 0x04 | 0x05 => some 4
  | 0x06 => some 40
  | _ => none

/-- Whether a message keeps every field rule: reserved fields zero, LEN that of its payload and of its type, an address of
56 bits, an RCB's aligned on 256 (R297). -/
def msgOk (m : HostMsg) : Bool :=
  let t := msgType m
  field m.hdr 15 8 = 0 && field m.hdr 511 96 = 0 && m.payload.length = msgLen m && typeLen t = some (msgLen m) &&
    (match t with
     | 1 | 2 | 3 => decide (msgArg m 8 < 2 ^ 56) && msgArg m 8 % 256 = 0
     | 7 => decide (msgArg m 8 < 2 ^ 56)
     | _ => true)

/-- Statuses of R362. -/
def hsOk : Nat := 0
def hsNoRegion : Nat := 1
def hsDup : Nat := 2
def hsGap : Nat := 3
def hsMalformed : Nat := 4
def hsBadCkpt : Nat := 5

/-- The device messages that a cumulative number acknowledges are no longer retained. -/
def acknowledge (s : State) (d : Word) : State :=
  { s with retained := s.retained.filter fun m => !decide ((d - m.dseq).toNat < 2 ^ 31) }

/-- What a message that has an effect acknowledges (R362): one that is refused, a duplicate or out of order has none (R363, R364). -/
def heard (s : State) (m : HostMsg) : State := acknowledge s (BitVec.ofNat 32 (msgDseq m))

/-- The response to the message accepted last, kept among the last 256 (R364). -/
def respond (s : State) (type status : Nat) (payload : List Byte) : State :=
  let m : DevMsg := { type := type, dseq := s.devSeq + 1, hseq := s.hostA, status := status, payload := payload }
  let rs := s.responses ++ [m]
  { sendDevice s type status payload with responses := rs.drop (rs.length - 256) }

/-- An ACK to the message accepted last. -/
def ack (s : State) (status : Nat) (payload : List Byte) : State := respond s 0x81 status payload

/-! ### Effects (R363) -/

/-- The root regions that are ADMITTED, in ascending RCB address. -/
def rootRegions (s : State) : List Region :=
  sortBy (fun a b => decide (a.rcb < b.rcb)) (s.regions.filter fun g => g.parent = 0 && g.st = .admitted)

/-- The payload of a SYNCR from a first index (R365). -/
def syncrPayload (s : State) (first : Nat) : List Byte :=
  let rs := rootRegions s
  let entries := ((rs.drop first).take 21).map fun g => bytesOf 8 (g.rcb % 2 ^ 56 + stateCode g.st * 2 ^ 56)
  let body := bytesOf 4 s.incarnation.toNat ++ bytesOf 4 s.hostA.toNat ++ bytesOf 4 s.devSeq.toNat ++
    bytesOf 4 s.dlost.toNat ++ bytesOf 4 rs.length ++ bytesOf 4 first ++ entries.flatMap fun e => e
  body ++ List.replicate (192 - body.length) 0

/-- A region and its descendants pre-empted and their tasks suspended (R313): each resident slice halts, and until a resume no
PARKED task of them is a candidate (R308). -/
def suspendTree (s : State) (r : Nat) : State :=
  let rs := subtree s r
  let here := s.slots.filter fun p => rs.contains p.2.region
  let s := here.foldl (fun s p => requestHalt s p.1) s
  rs.foldl (fun s d => modRegion s d fun g => { g with suspended := true }) s

/-- The suspension of a region and its descendants ended: the tasks become candidates again (R308). -/
def resumeTree (s : State) (r : Nat) : State :=
  let rs := subtree s r
  let s := { s with tasks := s.tasks.map fun t =>
      if rs.contains t.region && t.st = .parked && (getRegion s t.region).suspended then { t with since := s.now } else t }
  let s := rs.foldl (fun s d => modRegion s d fun g => { g with suspended := false }) s
  (List.range 8).foldl (fun s d => addTurn s (.arbiterDecision d)) s

/-- A PREEMPT or RESUME of an ADMITTED region, else NOREGION. -/
def regionMsg (s : State) (m : HostMsg) (act : State → Nat → State) : State :=
  match regionByRcb s m.asid (msgArg m 8) with
  | none => ack s hsNoRegion []
  | some r => ack (act (heard s m) r) hsOk []

/-- The retained messages from a number on sent again (R363). -/
def replayFrom (s : State) (first : Word) : State :=
  (s.retained.filter fun d => decide ((d.dseq - first).toNat < 2 ^ 31)).foldl deviceOut s

/-- An attestation report written into the host's buffer, or MALFORMED (R367). -/
def attestMsg (s : State) (m : HostMsg) : State :=
  let va := natOfBytes (m.payload.drop 32)
  if 2 ^ 56 ≤ va then ack s hsMalformed []
  else match monitorWrite (heard s m) m.asid va (report s m.payload) with
    | none => ack s hsMalformed []
    | some s => ack s hsOk []

/-- The effect of an accepted message that keeps every field rule. -/
def actOn (s : State) (m : HostMsg) : State :=
  match msgType m with
  | 0x01 => startLaunch (heard s m) (.host m) m.asid (msgArg m 8)
  | 0x02 => regionMsg s m suspendTree
  | 0x03 => regionMsg s m resumeTree
  | 0x04 => respond (heard s m) 0x83 hsOk (syncrPayload s (msgArg m 4))
  | 0x05 => ack (replayFrom (heard s m) (BitVec.ofNat 32 (msgArg m 4))) hsOk []
  | 0x06 => attestMsg s m
  | _ =>
    match restore (heard s m) m.asid (msgArg m 8) with
    | .ok s => ack s hsOk []
    | .error bs => ack s hsBadCkpt bs

/-! ### Numbering (R364) -/

/-- The answer to a message that is not the next: the response already given to its number, a SYNC's too, which R364 governs where
R372 reads differently (R12); else a SYNC's SYNCR (R372), DUP or GAP. -/
def answerOld (s : State) (m : HostMsg) (dup : Bool) : State :=
  let status := if dup then hsDup else hsGap
  match (if dup then s.responses.find? fun r => r.hseq.toNat = msgHseq m else none) with
  | some r => deviceOut s r
  | none =>
    if msgType m = 0x04 ∧ msgOk m then sendDevice s 0x83 status (syncrPayload s (msgArg m 4)) else sendDevice s 0x81 status []

/-- A message taken up (R364): accepted where it carries the next number. -/
def takeMsg (s : State) (m : HostMsg) : State :=
  let d := (BitVec.ofNat 32 (msgHseq m) - s.hostA).toNat
  if d = 1 then
    let s := { s with hostA := BitVec.ofNat 32 (msgHseq m) }
    if msgOk m then actOn s m else ack s hsMalformed []
  else answerOld s m (d = 0 || decide (2 ^ 31 ≤ d))

/-- A request taken up: a message, or a launch of the service firmware (R31, R302). -/
def takeRequest (s : State) (r : Request) : State :=
  match r with
  | .host m => takeMsg s m
  | .unit asid rcb => if s.up then startLaunch s r asid rcb else s

/-- Requests that waited behind a launch taken up in their order (R302). -/
def drainMsgs : Nat → State → State
  | 0, s => s
  | n + 1, s =>
    match s.launching, s.waitingMsgs with
    | none, r :: rest => drainMsgs n (takeRequest { s with waitingMsgs := rest } r)
    | _, _ => s

/-- A request queued, and what can be taken up of the queue. -/
def queueRequest (s : State) (r : Request) : State :=
  drainMsgs (s.waitingMsgs.length + 1) { s with waitingMsgs := s.waitingMsgs ++ [r] }

/-- A message arrives on a port's control connection, marked packets drawing a notification (R361). One of another type than the
event's is no such message; a package whose boot has failed answers none (R366). -/
def receive (s : State) (m : HostMsg) (typed : Nat → Bool) : Ans :=
  .next (match s.control.find? fun c => c.1 = m.port && c.2.1 = m.asid with
    | none => s
    | some c =>
      if !s.up || !typed (msgType m) then s
      else queueRequest (if m.ecn then portSend s m.port c.2.2.1 (.congestion m.port c.2.2.1) else s) (.host m))

/-- The end of a launch (R302): LSTAT in the acknowledgement of a message; then the requests that waited. -/
def endLaunch (s : State) (_ : Cmd) (lstat : Nat) : State :=
  let t := { s with launching := none }
  let t := match s.launching with
    | some (.unit _ _) => t
    | _ => ack t hsOk (bytesOf 32 lstat)
  drainMsgs t.waitingMsgs.length t

/-- LAUNCH (R31, R302): by a host message, or by the service firmware. -/
def execLaunch (r : Request) (s : State) : Ans :=
  match r with
  | .host m => receive s m fun t => t = 0x01
  | .unit _ _ => .next (queueRequest s r)

/-- A request of the root monitor that names an RCB (R313); one of no ADMITTED region has no effect. -/
def monitorAsks (s : State) (asid rcb : Nat) (act : State → Nat → State) : State :=
  match regionByRcb s asid rcb with
  | none => s
  | some r => act s r

/-- PREEMPT (R313, R363): by a host message, or by the root monitor. -/
def execPreempt (r : Request) (s : State) : Ans :=
  match r with
  | .host m => receive s m fun t => t = 0x02
  | .unit asid rcb => .next (monitorAsks s asid rcb suspendTree)

/-- RESUME (R313, R363): by a host message, or by the root monitor. -/
def execResume (r : Request) (s : State) : Ans :=
  match r with
  | .host m => receive s m fun t => t = 0x03
  | .unit asid rcb => .next (monitorAsks s asid rcb resumeTree)

/-- SYNC (R365, R372). -/
def execSync (m : HostMsg) (s : State) : Ans := receive s m fun t => t = 0x04

/-- REPLAY (R363). -/
def execReplay (m : HostMsg) (s : State) : Ans := receive s m fun t => t = 0x05

/-- ATTEST (R367). -/
def execAttest (m : HostMsg) (s : State) : Ans := receive s m fun t => t = 0x06

/-- RESTORE (R370). -/
def execRestore (m : HostMsg) (s : State) : Ans := receive s m fun t => t = 0x07

/-- A message of a type the manual does not give (R363): MALFORMED. -/
def execUnknownMessage (m : HostMsg) (s : State) : Ans := receive s m fun t => (typeLen t).isNone

/-! ### Connections (R361, R362) -/

/-- The service ID of control connections (R362). -/
def controlService : Nat := 0x000000000106130D

/-- The queue pairs of a port that stand: its data queue pairs and a control connection's (R361, R362). Queue pair 1 is not
counted. DESIGN CHOICE, log 121. -/
def portQps (s : State) (port : Nat) : Nat :=
  (s.qps.filter fun q => q.1 = port).length + (s.control.filter fun c => c.1 = port).length

/-- Whether a path MTU is one of the profile's (R361). -/
def mtuOk (mtu : Nat) : Bool := mtu = 1024 || mtu = 2048 || mtu = 4096

/-- Whether a queue pair can be set up on a port (R361): not the General Services Interface's, none of its number standing, room
for it. -/
def qpFree (s : State) (port qp : Nat) : Bool :=
  qp ≠ 1 && portQps s port < 256 && !(s.qps.any fun q => q.1 = port && q.2.1 = qp) &&
    !(s.control.any fun c => c.1 = port && c.2.2.1 = qp)

/-- CONTROL_CONNECTION_REQUEST (R361, R362): one at a time on each of the four host ports. -/
def execControlConnectionRequest (port : Nat) (service : ConnectionRequest) (asid : Nat) (s : State) : Ans :=
  .next (
    if !s.up then s
    else if port < 4 ∧ service.service.toNat = controlService ∧ !(s.control.any fun c => c.1 = port) ∧ mtuOk service.mtu ∧
        qpFree s port service.qp then
      emit { s with control := s.control ++ [(port, asid, service.qp, service.mtu)] } (.connection port true)
    else emit s (.connection port false))

/-- CONTROL_CONNECTION_CLOSE (R362): what waited to leave on it stays retained (R364). -/
def execControlConnectionClose (port : Nat) (s : State) : Ans :=
  .next { s with
    control := s.control.filter fun c => c.1 ≠ port
    portQueue := s.portQueue.filter fun q => !(s.control.any fun c => c.1 = port && q.1 = port && q.2.1 = c.2.2.1) }

/-- CONNECTION_SET_UP (R361): a data queue pair of a host port or scale-out port, Reliable Connection (transport 0) only,
a path MTU of 1,024, 2,048 or 4,096 bytes, 256 queue pairs a port with that of a control connection; queue pair 1 stays the
General Services Interface's (R362). -/
def execConnectionSetUp (port transport : Nat) (r : QpRequest) (asid : Nat) (s : State) : Ans :=
  .next (
    if !s.up then s
    else if port < 12 ∧ transport = 0 ∧ mtuOk r.mtu ∧ qpFree s port r.qp then emit { s with qps := s.qps ++ [(port, r.qp, asid, r.mtu)] } (.connection port true)
    else emit s (.connection port false))

/-- CONGESTION_NOTIFICATION_PACKET (R361): the port slows the queue pair: nothing of it leaves for a duration that the manual
leaves open (R374; log 121). -/
def execCongestionNotificationPacket (port qp : Nat) (s : State) : Ans :=
  .next (
    let (due, s) := freeDue s
    { s with slowed := s.slowed.filter (fun q => !(q.1 = port && q.2.1 = qp)) ++ [(port, qp, due)] })

/-- PRIORITY_FLOW_CONTROL_PAUSE (R361): only the port's configured priority is controlled. -/
def execPriorityFlowControlPause (port priority : Nat) (pause : Bool) (s : State) : Ans :=
  .next (
    if alGet s.pfc port ≠ some priority then s
    else
      let left := s.paused.filter fun p => p ≠ port
      { s with paused := if pause then left ++ [port] else left })

/-! ### RDMA (R361, R296) -/

/-- Answers of a port to an RDMA operation: done, receiver not ready, remote access error, invalid request. -/
def rdDone : Nat := 0
def rdNotReady : Nat := 1
def rdAccessError : Nat := 2
def rdInvalid : Nat := 3

/-- The operation's answer. The command keeps its port in `target` and its queue pair in `result`. -/
def rdmaAnswer (s : State) (k : Cmd) (status : Nat) (data : List Byte) : State :=
  portSend s k.target k.result.toNat (.rdma k.target k.result.toNat status data)

/-- The end of an operation whose pages are all translated and whose far bytes have been exchanged (R296, R361): its bytes
written, and published as it is acknowledged, or read as published. -/
def endRdma (s : State) (k : Cmd) (ps : List (Place × Nat)) : State :=
  let host := Agent.host k.target
  let s := bringUp s host
  let v := getView s host
  let s := setView s { agent := .cmd k.id, snap := v.snap ++ v.own, floor := v.floor, own := [], mine := [], insts := [] }
  let (bs, s) := if k.kind = .rdmaWrite then (([] : List Byte), writePlaces k ps k.data s) else readPlaces k k.answers ps s
  let w := getView s (.cmd k.id)
  let s := giveFloor (giveOwn (publish s w.own [.package]) host w.own) host w.floor
  forgetCmd (rdmaAnswer s k rdDone bs) k.id

/-- An operation goes on (R361): every page translated, what lies on other packages written there or asked for, then its end
once its answer may leave. -/
def advanceRdma (s : State) (k : Cmd) : State :=
  let write := decide (k.kind = .rdmaWrite)
  let n := if write then k.data.length else k.index
  match virtPlaces s k write k.recAddr n with
  | (.error x, s) =>
    (match x with
     | .walk va w => startWalk s k va w
     | .park va kind => parkCmd (rdmaAnswer s k rdNotReady []) k va kind (getAsid s k.asid).gen
     | .ends _ => forgetCmd (rdmaAnswer s k rdAccessError []) k.id
     | _ => addTimer s (s.now + 1) (.walkComplete k.id))
  | (.ok ps, s) =>
    match exchange s k 0 (if write then farWrites k ps k.data else farReads k ps) with
    | (.error (.ends _), s) => forgetCmd (rdmaAnswer s k rdAccessError []) k.id
    | (.error _, s) => s
    | (.ok _, s) =>
      if portHeld s k.target k.result.toNat then addTimer s (s.now + 1) (.walkComplete k.id) else endRdma s k ps

/-- Whether an earlier operation of a command's own queue pair is unfinished: a queue pair's operations are performed one after
another as they came, so that a later read never returns older values (R296; DEDUCED, log 149). -/
def behindQp (s : State) (k : Cmd) : Bool :=
  s.cmds.any fun q => (q.kind = .rdmaWrite || q.kind = .rdmaRead) && q.target = k.target && q.result = k.result &&
    decide (q.id < k.id)

/-- A turn of an operation's command. -/
def turnRdma (s : State) (k : Cmd) : State :=
  match k.st with
  | .queued =>
    if !behindQp s k && laneFree s k.cluster then advanceRdma (modCmd s k.id fun q => { q with st := .active }) k
    else addTimer s (s.now + 1) (.walkComplete k.id)
  | .active => advanceRdma s k
  | .walking gen va w =>
    (match endWalk s k gen va w (if w then 1 else 0) with
     | .goOn s => (match getCmd s k.id with
       | some k => advanceRdma s k
       | none => s)
     | .stopped t => if (getCmd t k.id).any isParked then rdmaAnswer t k rdNotReady [] else t
     | .failed s => forgetCmd (rdmaAnswer s k rdAccessError []) k.id)
  | _ => s

/-- The copy engine of the hub die that has a port (R17): host ports 0 and 1 and the first four scale-out ports on die 14. The
host ports are 0 to 3 here, the scale-out ports 4 to 11. -/
def portEngine (port : Nat) : Nat := if port < 2 ∨ (4 ≤ port ∧ port < 8) then 96 else 97

/-- Whether an operation's data queue pair stands. -/
def hasQp (s : State) (r : RdmaOp) : Bool := s.qps.any fun q => q.1 = r.port && q.2.1 = r.qp && q.2.2.1 = r.asid

/-- An operation taken up on a data queue pair, by the copy engine of the hub die that has its port (R17, R361); packets that
came with a congestion mark draw a notification. The manual gives the host's operations to the host ports (R8, R296); one on
a scale-out port is performed in the same way, as that port's agent (DESIGN CHOICE, log 120). -/
def startRdma (s : State) (r : RdmaOp) (kind : CmdKind) (len : Nat) : State :=
  if !s.up || !hasQp s r then s else
  let s := if r.ecn then portSend s r.port r.qp (.congestion r.port r.qp) else s
  if 2 ^ 56 ≤ r.va then portSend s r.port r.qp (.rdma r.port r.qp rdAccessError [])
  else
    let k := { unitCmd s kind s.regions.length 0 (portEngine r.port) ⟨0, 0⟩ with
      asid := r.asid, owner := (getAsid s r.asid).owner, recAddr := r.va, data := r.data, index := len,
      target := r.port, result := BitVec.ofNat 64 r.qp, st := .queued }
    (sendCmd s k).2

/-- RDMA_WRITE (R361, R296). -/
def execRdmaWrite (r : RdmaOp) (s : State) : Ans := .next (startRdma s r .rdmaWrite 0)

/-- RDMA_READ (R361, R296). -/
def execRdmaRead (r : RdmaOp) (s : State) : Ans := .next (startRdma s r .rdmaRead r.len)

/-- RDMA_INVALID_OPERATION (R361): marked packets draw a notification too. -/
def execRdmaInvalidOperation (r : RdmaOp) (s : State) : Ans :=
  .next (
    if s.up && hasQp s r then
      portSend (if r.ecn then portSend s r.port r.qp (.congestion r.port r.qp) else s) r.port r.qp (.rdma r.port r.qp rdInvalid [])
    else s)

end Sys2Proof.Machine
end

