-- ==== Sys2Proof/Machine/Move.lean ====
section
/-! DEFINITION. `kvtr` MOVE (R332, R373): the two-phase commit at home and at the participants, and the firmware's marking of
a stripe as LOST. -/

namespace Sys2Proof.Machine

/-! ### Maps -/

/-- The block range and the receiver of a MOVE's record (R331). -/
def mvFirst (r : BitVec 512) : Nat := field r 83 64
def mvLast (r : BitVec 512) : Nat := field r 115 96
def mvNew (r : BitVec 512) : Nat := field r 137 128

/-- A stripe split at a range that its new owner takes. -/
def splitStripe (e : StripeEntry) (lo hi owner : Nat) : List StripeEntry :=
  (if e.first < lo then [{ e with last := lo - 1 }] else []) ++
    [{ e with first := lo, last := hi, owner := owner, st := 0 }] ++
    (if hi < e.last then [{ e with first := hi + 1 }] else [])

/-- A group's map under its next generation. -/
def nextGen (g : List StripeEntry) : List StripeEntry := g.map fun e => { e with gen := (e.gen + 1) % 2 ^ 16 }

/-- The replica's entries of a group replaced. -/
def putGroup (s : State) (seq : Nat) (g : List StripeEntry) : State :=
  { s with map := s.map.filter (fun e => e.seq ≠ seq) ++ g }

/-- The state of the stripe that holds a block, in the replica. -/
def markStripe (s : State) (seq b st : Nat) : State :=
  { s with map := s.map.map fun e =>
      if e.seq = seq && decide (e.first ≤ b) && decide (b ≤ e.last) then { e with st := st } else e }

/-! ### Moves known here -/

/-- A move by home's number and home. -/
def getMove (s : State) (home id : Nat) : Option Move := s.moves.find? fun v => v.msg.id = id && v.msg.home = home

/-- A move replaced. -/
def putMove (s : State) (v : Move) : State :=
  { s with moves := s.moves.map fun w => if w.msg.id = v.msg.id && w.msg.home = v.msg.home then v else w }

/-- A move forgotten. -/
def dropMove (s : State) (v : Move) : State :=
  { s with moves := s.moves.filter fun w => !(w.msg.id = v.msg.id && w.msg.home = v.msg.home) }

/-- The participants of a move other than home (R332): the owners in the group's map, the new owner, and every other package that
holds the map. -/
def participants (s : State) (g : List StripeEntry) (new : Nat) : List Nat :=
  let holders := ((g.head?.bind fun e => alGet s.mapHolders e.seq)).getD []
  ((g.map fun e => e.owner) ++ [new] ++ holders).eraseDups.filter fun p => p ≠ s.pkg

/-- A message of a move sent to a package. -/
def tell (what : Nat → Nat → Out) (s : State) (pkg : Nat) : State := (sendMessage s pkg (what pkg)).2

/-- Blocks prepared at the receiver: each allotted and filled; none without frames (R332). -/
def prepareBlocks (owner : Nat) : List (Nat × Nat × Nat × Nat × List Byte) → State → Option (List (Nat × Nat × DWord) × State)
  | [], s => some ([], s)
  | (seq, b, valid, base, bs) :: rest, s =>
    match takeBlock s owner with
    | none => none
    | some (g, pa, s) =>
      let e := putBits (putBits (newGbnEntry pa owner) 55 40 valid) 103 64 base
      let s := setGbn s g e
      let s := publishWide s (writeAs s (.unit .monitor) .hbm pa bs)
      match prepareBlocks owner rest s with
      | none => none
      | some (made, s) => some ((seq, b, BitVec.ofNat 64 (mkRef s.pkg g)) :: made, s)

/-- Prepared blocks released (R332, R373). -/
def releaseMade (s : State) (v : Move) : State := v.made.foldl (fun s m => releaseGbn s (refGbn m.2.2.toNat)) s

/-! ### Home -/

/-- The rows of a range over the sequences of a group that have records. -/
def moveRows (s : State) (lo hi : Nat) (qs : List SeqRec) : List (Nat × Nat × Nat) :=
  qs.flatMap fun q =>
    (if tableRows q = 0 then [] else liveRows s q lo (min hi q.tail)).map fun r => (q.seq, r.1, r.2)

/-- The blocks of rows as a prepare carries them, by the entries and bytes that have been read. -/
def movedBlocks (rows : List (Nat × Nat × Nat)) (blocks : List (BlockInfo × List Byte)) :
    List (Nat × Nat × Nat × Nat × List Byte) :=
  (rows.zip blocks).map fun p => (p.1.1, p.1.2.1, p.2.1.valid, p.2.1.base, p.2.2)

/-- The old blocks of a committed move released by their owner (R332 step 4). -/
def releaseOld (s : State) (v : Move) : State :=
  v.old.foldl (fun s r =>
    if refPkg r.toNat = s.pkg then releaseGbn s (refGbn r.toNat)
    else (sendPacket s (refPkg r.toNat) (.blockRelease (refGbn r.toNat))).2) s

/-- A move home has decided to commit and every participant acknowledged: the old blocks go, the move is forgotten. -/
def finishMove (s : State) (v : Move) : State := if v.waiting.isEmpty then dropMove (releaseOld s v) v else putMove s v

/-- A row of a moved range renamed at home: it names the block that the receiver has made. -/
def renameMoved (s : State) (m : Nat × Nat × DWord) : State :=
  match getSeq s m.1 with
  | some q => hbmPut s (rowAddr q m.2.1) 8 m.2.2.toNat
  | none => s

/-- The first sequence of the group of a move's record. -/
def moveSeq (r : BitVec 512) : Nat := field r 63 32

/-- Home decides to commit (R332): the new map, the commits, the tag. -/
def commitMove (s : State) (v : Move) : State :=
  let s := v.made.foldl renameMoved (putGroup s (moveSeq v.msg.record) v.msg.map)
  let s := v.parties.foldl (tell fun p num => .commit p num v.msg) s
  let s := match v.cmd with
    | some id => endKv s id stOk 0
    | none => s
  finishMove s { v with decided := some true, waiting := v.parties }

/-- Home aborts a move before its decision (R332): the stripe's former state, the blocks made here released, aborts to those
that can be reached; the outcome is kept until every participant has learnt it (R373). -/
def abortMove (s : State) (v : Move) : State :=
  let s := markStripe s (moveSeq v.msg.record) (mvFirst v.msg.record) v.oldState
  let s := if mvNew v.msg.record = s.pkg then releaseMade s v else s
  let s := (v.parties.filter fun p => knownInc s p ≠ 0).foldl (tell fun p num => .abort p num v.msg) s
  let s := match v.cmd with
    | some id => endKv s id stAborted 0
    | none => s
  if v.parties.isEmpty then dropMove s v else putMove s { v with decided := some false, waiting := v.parties, made := [] }

/-- Step 1 at home with the range's blocks read (R332): the stripe marked, the prepares sent, the copy made where home is the
receiver. -/
def sendPrepares (s : State) (k : Cmd) (g : List StripeEntry) (e : StripeEntry) (rows : List (Nat × Nat × Nat))
    (blocks : List (BlockInfo × List Byte)) : State :=
  let lo := mvFirst k.record
  let new := mvNew k.record
  let (mid, s) := fresh s
  let map := nextGen (g.flatMap fun f => if f = e then splitStripe f lo (mvLast k.record) new else [f])
  let m : MoveMsg := { id := mid, home := s.pkg, owner := k.owner, record := k.record, blocks := movedBlocks rows blocks, map := map }
  let ps := participants s g new
  let v : Move :=
    { msg := m, atHome := true, cmd := some k.id, parties := ps, waiting := ps, decided := none, oldState := e.st
      old := rows.map fun r => BitVec.ofNat 64 r.2.2, made := [] }
  let s := modCmd s k.id fun q => { q with index := 1 }
  let s := markStripe { s with moves := s.moves ++ [v] } e.seq lo 2
  let s := ps.foldl (tell fun p num => .prepare p num m) s
  if new ≠ s.pkg then s
  else match prepareBlocks k.owner m.blocks s with
    | none => abortMove s v
    | some (made, s) =>
      let v := { v with made := made }
      if ps.isEmpty then commitMove s v else putMove s v

/-- A `kvtr` MOVE at home (R332 step 1): its participants known, the blocks of its range on tier 0 (R269) and read, then the
prepares. -/
def startMove (s : State) (k : Cmd) (g : List StripeEntry) : State :=
  let lo := mvFirst k.record
  let hi := mvLast k.record
  if k.index ≠ 0 then s
  else match stripeOf g lo with
    | none => endKv s k.id stProtection 0
    | some e =>
      if hi < lo ∨ e.last < hi ∨ kvSeq k ≠ e.seq then endKv s k.id stProtection 0
      else
        let qs := s.seqs.filter fun q => decide (e.seq ≤ q.seq) && decide (q.seq ≤ e.seq + e.span) && decide (q.dhc < 3)
        let rows := moveRows s lo hi qs
        let refs := rows.map fun r => r.2
        if qs.any fun q => !usable s q.seq then kvLater s k
        else if refs.any fun r => refTier r.2 ≠ 0 then parkKv s k 5
        else afterProbes s k (participants s g (mvNew k.record)) fun s =>
          match exchange s k 0 (wholeAsks s k.owner refs) with
          | (.error x, s) => stopKv s k x
          | (.ok _, s) =>
            let (blocks, s) := wholeBlocks s k refs
            sendPrepares s k g e rows blocks

/-- A participant's acknowledgement of a prepare at home: the receiver's names its copies. -/
def prepared (move pkg : Nat) (refs : List DWord) (s : State) : State :=
  match getMove s s.pkg move with
  | none => s
  | some v =>
    if !v.atHome ∨ v.decided ≠ none then s
    else
      let made := if pkg = mvNew v.msg.record then (v.msg.blocks.zip refs).map fun p => (p.1.1, p.1.2.1, p.2) else v.made
      let v := { v with waiting := v.waiting.filter fun p => p ≠ pkg, made := made }
      if v.waiting.isEmpty then commitMove s v else putMove s v

/-- MOVE_PREPARE_ACK (R332): home commits once every participant has acknowledged; the receiver acknowledges with its copy
complete. -/
def execMovePrepareAck (move : Nat) (p : Arrived (List DWord)) (s : State) : Ans :=
  .next (takePacket s p.src p.num (prepared move p.src p.body))

/-- MOVE_COMMIT_ACK (R332 step 4). -/
def execMoveCommitAck (move : Nat) (p : Arrived Unit) (s : State) : Ans :=
  .next (takePacket s p.src p.num fun s => match getMove s s.pkg move with
    | none => s
    | some v =>
      if v.decided ≠ some true then s
      else finishMove s { v with waiting := v.waiting.filter fun q => q ≠ p.src })

/-- A participant has received home's abort of a move: it has learnt the outcome, which home keeps until all have (R373;
log 156). -/
def learnt (move pkg : Nat) (s : State) : State :=
  match getMove s s.pkg move with
  | none => s
  | some v =>
    if v.decided ≠ some false then s
    else
      let v := { v with waiting := v.waiting.filter fun p => p ≠ pkg }
      if v.waiting.isEmpty then dropMove s v else putMove s v

/-- Home tells a participant the outcome that it has kept. -/
def tellOutcome (move pkg : Nat) (s : State) : State :=
  match getMove s s.pkg move with
  | none => s
  | some v =>
    match v.decided with
    | none => s
    | some true => tell (fun p num => .commit p num v.msg) s pkg
    | some false => tell (fun p num => .abort p num v.msg) s pkg

/-- MOVE_OUTCOME_QUERY (R373). -/
def execMoveOutcomeQuery (move : Nat) (p : Arrived Unit) (s : State) : Ans :=
  .next (takePacket s p.src p.num (tellOutcome move p.src))

/-- A package that can no longer be reached, which is R360's link fault too: moves undecided at home with it among the
participants are aborted (R332). -/
def loseMoves (pkg : Nat) (s : State) : State :=
  (s.moves.filter fun v => v.atHome && v.decided = none && v.parties.contains pkg).foldl abortMove s

/-! ### Participants -/

/-- A prepare at a participant: the receiver copies the range; each acknowledges. A receiver without frames tells home that its
copy has failed. A prepare that its own abort has overtaken has no effect. -/
def prepareHere (m : MoveMsg) (s : State) : State :=
  let ack := fun (refs : List DWord) (s : State) => tell (fun p num => .prepareAck p num m.id refs) s m.home
  match getMove s m.home m.id with
  | some v => if v.decided = none then ack (v.made.map fun r => r.2.2) s else dropMove s v
  | none =>
    let v : Move :=
      { msg := m, atHome := false, cmd := none, parties := [], waiting := [], decided := none, oldState := 0, old := [], made := [] }
    if mvNew m.record ≠ s.pkg then ack [] { s with moves := s.moves ++ [v] }
    else match prepareBlocks m.owner m.blocks s with
      | none => tell (fun p num => .abort p num m) { s with moves := s.moves ++ [v] } m.home
      | some (made, s) => ack (made.map fun r => r.2.2) { s with moves := s.moves ++ [{ v with made := made }] }

/-- MOVE_PREPARE (R332 step 1). -/
def execMovePrepare (p : Arrived MoveMsg) (s : State) : Ans := .next (takePacket s p.src p.num (prepareHere p.body))

/-- The rows of a range leave the segments of a group's sequences. -/
def dropRows (s : State) (seq span lo hi : Nat) : State :=
  { s with segments := s.segments.map fun g =>
      if seq ≤ g.seq ∧ g.seq ≤ seq + span then
        { g with rows := g.rows.filter fun r => !(decide (lo ≤ r.1) && decide (r.1 ≤ hi)) }
      else g }

/-- A commit at a participant (R332 step 3): it adopts the new map; the receiver's blocks come to stand in its segment, and the
old owner's rows leave its own. -/
def commitHere (m : MoveMsg) (s : State) : State :=
  match m.map with
  | [] => s
  | e :: _ =>
    let s := putGroup s e.seq m.map
    let s := match getMove s m.home m.id with
      | some v =>
        let s := if mvNew m.record = s.pkg then s else dropRows s e.seq e.span (mvFirst m.record) (mvLast m.record)
        dropMove (v.made.foldl (fun s r => putSegmentRow s r.1 r.2.1 r.2.2) s) v
      | none => s
    tell (fun p num => .commitAck p num m.id) s m.home

/-- MOVE_COMMIT (R332 step 3). -/
def execMoveCommit (p : Arrived MoveMsg) (s : State) : Ans := .next (takePacket s p.src p.num (commitHere p.body))

/-- An abort (R332): a participant releases what it has prepared; at home it is the receiver's report that its copy has
failed. One that has overtaken its prepare (R360) is remembered until that comes (DESIGN CHOICE, log 156). -/
def abortHere (m : MoveMsg) (s : State) : State :=
  match getMove s m.home m.id with
  | none =>
    if m.home = s.pkg then s
    else { s with moves := s.moves ++ [{
      msg := m, atHome := false, cmd := none, parties := [], waiting := [], decided := some false, oldState := 0, old := []
      made := [] }] }
  | some v =>
    if v.atHome then (if v.decided = none then abortMove s v else s)
    else dropMove (releaseMade s v) v

/-- MOVE_ABORT (R332). -/
def execMoveAbort (p : Arrived MoveMsg) (s : State) : Ans := .next (takePacket s p.src p.num (abortHere p.body))

/-- A participant asks home for the outcome of each move it holds undecided, once a route to home is back (R373). -/
def askOutcomes (pkg : Nat) (s : State) : State :=
  (s.moves.filter fun v => !v.atHome && v.decided = none && v.msg.home = pkg).foldl (fun s v =>
    tell (fun p num => .outcomeQuery p num v.msg.id) s pkg) s

/-- STRIPE_LOST (R332): home marks a stripe LOST through the same commit, without the old owner among the participants. -/
def execStripeLost (seq first : Nat) (s : State) : Ans :=
  .next (
    let g := groupOf s seq
    match g.find? fun e => e.first = first with
    | none => s
    | some e =>
      if groupHome g ≠ s.pkg ∨ e.st = 3 ∨ (g.any fun f => f.st = 2) then s
      else
        let (mid, s) := fresh s
        let map := nextGen (g.map fun f => if f = e then { f with st := 3 } else f)
        let ps := (participants s g e.owner).filter fun p => p ≠ e.owner
        let m : MoveMsg := { id := mid, home := s.pkg, owner := 0, record := 0, blocks := [], map := map }
        let v : Move :=
          { msg := m, atHome := true, cmd := none, parties := ps, waiting := ps, decided := some true, oldState := 0, old := []
            made := [] }
        let s := ps.foldl (tell fun p num => .commit p num m) (putGroup s e.seq map)
        if ps.isEmpty then s else { s with moves := s.moves ++ [v] })

end Sys2Proof.Machine
end

