-- ==== Sys2Proof/Machine/Policy.lean ====
section
/-! DEFINITION. Policy versions: `pvsnap`, `pvpub`, `pvrd` (R160) and the commands that a partition record applies one at
a time (R278, R358). -/

namespace Sys2Proof.Machine

/-- The continuation of a partition command in a region's partition; PRIVILEGED where it has none (R160). -/
def withPart (s : State) (x : Ctx) (k : Nat → SlotRes) : SlotRes :=
  match (getRegion s x.region).part with
  | none => .trap 0x15 0 none
  | some p => k p

/-- `pvsnap` (R160): on its way to the record; its result lands 8 cycles after its issue where the record applies it at
once. -/
def execPvsnap (f : TFields) (s : State) : Ans :=
  tOp 0x26 f s fun x => withPart s x fun p =>
    let (id, s) := fresh s
    tResult (reachPart s p (.snapshot x.task id)) x f .s 0 (.s 0)

/-- `pvpub` (R160): a command on a tag, held behind the issuer's boundaries (R159). -/
def execPvpub (f : TFields) (s : State) : Ans :=
  tOp 0x27 f s fun x => withPart s x fun _ => withS x f.srcA fun a x =>
    let k := { newCmd s s.cur x .pvpub (.ctx x.task) 0 (tagOf f) with recAddr := a.toNat }
    let (s, x) := issueCmd s x k
    .done s x

/-- `pvrd` (R160): the published version. -/
def execPvrd (f : TFields) (s : State) : Ans :=
  tOp 0x28 f s fun x => withPart s x fun p => tResult s x f .s 8 (.s (getPart s p).ver)

/-- The turn of a `pvpub` at its engine: it reaches the record once nothing holds it, behind the issuer's earlier synchronising
operations of its scope (R290). -/
def turnPublish (s : State) (k : Cmd) : State :=
  match k.st with
  | .queued =>
    if !k.heldBy.isEmpty || behindSync s k then addTimer s (s.now + 1) (.walkComplete k.id)
    else match (getRegion s k.region).part with
      | some p => reachPart (modCmd s k.id fun q => { q with st := .active }) p (.publish (BitVec.ofNat 32 k.recAddr) k.id)
      | none => finishCmd s k.id stProtection 0
  | _ => s

/-! ### The record (R278) -/

/-- The reader count of an index. -/
def readers (r : PartRec) (i : Bool) : Nat := if i then r.rd1 else r.rd0

/-- The reader count of an index replaced. -/
def setReaders (r : PartRec) (i : Bool) (n : Nat) : PartRec := if i then { r with rd1 := n } else { r with rd0 := n }

/-- A release: the count of the index that was taken falls by one. -/
def releaseReader (r : PartRec) (i : Bool) : PartRec := setReaders r i (readers r i - 1)

/-- A `pvpub` against a record: the status and the record, tested in the order of R278. -/
def publishVersion (r : PartRec) (a : Word) : Nat × PartRec :=
  if a.toNat ≤ r.ver.toNat then (stAborted, r)
  else if 0 < readers r r.cur then (stVersionBusy, r)
  else (stOk, { r with ver := a, cur := !r.cur })

/-- The result of a `pvsnap`: the version, on its way to its queue and latch. -/
def landSnap (s : State) (c : CtxId) (v : Word) : State :=
  match getCtx s c with
  | none => s
  | some x =>
    match x.flights.find? fun f => f.due = 0 && decide (2 ≤ f.latch) with
    | none => s
    | some f =>
      let x := { x with flights := x.flights.map fun (g : Flight) =>
        if g.id = f.id then { g with due := s.now + 7, val := .s v } else g }
      addTimer (setCtx s c x) (s.now + 7) (.resultLanding c f.id)

/-- Whether a commit that is held behind a `pvsnap` detaches the snapshot which that takes (R355): its REL is 1, and no later
`pvsnap` of its task holds it. -/
def detaches (s : State) (k : Cmd) (id : Nat) : Bool :=
  k.kind = .commit && cmRel k.record && k.heldBy.contains id &&
    !((pendingSnaps s k.task).any fun h => decide (id < h) && k.heldBy.contains h)

/-- The command that detaches the snapshot of a `pvsnap`: the first in issue order. -/
def detacher (s : State) (id : Nat) : Option Nat := (s.cmds.find? fun k => detaches s k id).map fun k => k.id

/-- A token record with the version of a snapshot (R354). -/
def setRecordVer (snap : Option (Word × Bool)) (bs : List Byte) : List Byte :=
  let n := putBits (natOfBytes bs) 159 128 ((snap.map fun v => v.1.toNat).getD 0)
  bytesOf 32 (putBits n 123 123 (if snap.isNone then 1 else 0))

/-- The data of a command with the version of its snapshot: the token records of a commit. -/
def setDataVer (k : Cmd) (snap : Option (Word × Bool)) : List Byte :=
  if k.kind = .commit then
    ((chunks 32 (cmNemit k.record) k.data).flatMap (setRecordVer snap)) ++ k.data.drop (32 * cmNemit k.record)
  else k.data

/-- Commands held behind a `pvsnap` go on under its snapshot (R358), those issued behind a commit that detaches it under none
(R355). -/
def freeHeld (s : State) (id : Nat) (snap : Word × Bool) : State :=
  let cut := detacher s id
  { s with cmds := s.cmds.map fun k =>
      if k.heldBy.contains id then
        let v := if cut.any fun c => decide (c < k.id) then none else some snap
        { k with heldBy := k.heldBy.filter fun h => h ≠ id, snapVer := v, data := setDataVer k v }
      else k }

/-- A commit that has no counted snapshot to release (R355). -/
def freeUncounted (s : State) (commit : Option Nat) : State :=
  match commit with
  | some id => modCmd s id fun k => { k with snapVer := none }
  | none => s

/-- A `pvsnap` against its record, the release of the context's own snapshot first; `none` while it waits. A commit held behind
it detaches the new snapshot at once (R355). The commands of a task that has ended in the meantime go on under the version,
which nothing counts: there is no context to hold it (log 123). -/
def applySnap (s : State) (p task id : Nat) : Option State :=
  match sliceOf s task with
  | none => some (freeUncounted (freeHeld s id ((getPart s p).ver, (getPart s p).cur)) (detacher s id))
  | some x =>
    let r := match x.snap with
      | some (_, i) => releaseReader (getPart s p) i
      | none => getPart s p
    if 65535 ≤ readers r r.cur then none
    else
      let s := setPart s p (setReaders r r.cur (readers r r.cur + 1))
      let kept := if (detacher s id).isSome then none else some (r.ver, r.cur)
      let s := bringUp (modSlice s task fun x => { x with snap := kept }) (.ctx task)
      let s := match ctxOfTask s task with
        | some c => landSnap s c r.ver
        | none => s
      some (freeHeld s id (r.ver, r.cur))

/-- The rank of a command among those that reach a record in one cycle (R358). -/
def partRank (o : PartOp) : Nat :=
  match o with
  | .release _ => 0
  | .publish _ _ => 1
  | .snapshot _ _ => 2

/-- One command applied to a record; what waits stays queued. -/
def applyPart (p : Nat) (s : State) (o : Nat × PartOp) : State :=
  match o.2 with
  | .release i => setPart s p (releaseReader (getPart s p) i)
  | .publish v id =>
    let (st, r) := publishVersion (getPart s p) v
    finishCmd (setPart s p r) id st 0
  | .snapshot t id =>
    match applySnap s p t id with
    | some s => s
    | none => { s with partOps := s.partOps ++ [(p, o)] }

/-- Whether a command comes before another at a record: it reached it in an earlier cycle, or in the same with the lower rank
(R358). -/
def partBefore (a b : Nat × PartOp) : Bool := decide (a.1 < b.1) || (a.1 = b.1 && decide (partRank a.2 < partRank b.2))

/-- Whether a command has reached a record before this cycle. -/
def reachedPart (s : State) (p : Nat) (o : Nat × Nat × PartOp) : Bool := o.1 = p && decide (o.2.1 < s.now)

/-- The commands that wait at a record tried again in their order: a `pvsnap` that waited takes a count before one that reaches
the record later (R278, R358). -/
def retryPart (p : Nat) (s : State) : State :=
  let ops := (s.partOps.filter (reachedPart s p)).map fun o => o.2
  ops.foldl (applyPart p) { s with partOps := s.partOps.filter fun o => !reachedPart s p o }

/-- PARTITION_RECORD_APPLY (R358): every command that has reached a record before this cycle, in its order. -/
def execPartitionRecordApply (p : Nat) (s : State) : Ans :=
  let ops := (s.partOps.filter (reachedPart s p)).map fun o => o.2
  let s := { s with partOps := s.partOps.filter fun o => !reachedPart s p o }
  .next ((sortBy partBefore ops).foldl (fun s o => retryPart p (applyPart p s o)) s)

end Sys2Proof.Machine
end

