-- ==== Sys2Proof/Machine/Walks.lean ====
section
/-! DEFINITION. The turns that an engine gives its commands (R254), by kind; how a command of each kind ends when it fails;
replays and fails by the fault service (R255). -/

namespace Sys2Proof.Machine

/-- A turn of the engine for a command. -/
def turnCmd (s : State) (k : Cmd) : State :=
  match k.kind with
  | .copy | .copym | .copyr | .copyd | .copya | .copyf | .copyq => turnCopy s k
  | .spill | .merge => turnPiece s k
  | .fill => turnImage s k
  | .lfe => turnLfe s k
  | .ifill => fillTurn s k
  | .pvpub => turnPublish s k
  | .kvap | .kvmsk | .kvtr => turnKv s k fun s k g => startMove s k g
  | .aqry => turnQuery s k
  | .commit => turnCommit s k
  | .codesw => turnSwitch s k
  | .launch => turnLaunch endLaunch s k
  | .rdmaWrite | .rdmaRead => turnRdma s k
  | .viewFill => s
  | .ready => forgetCmd s k.id

/-- WALK_COMPLETE (R254): the command's walk ends, or its engine turns to it. -/
def execWalkComplete (id : Nat) (s : State) : Ans :=
  .next (match getCmd s id with
    | some k => turnCmd s k
    | none => s)

/-- A piece's merge or spill that has failed. -/
def failPiece (s : State) (k : Cmd) (status : Nat) : State :=
  match getPiece s k.target with
  | some p => mergeFail s p k status
  | none => forgetCmd s k.id

/-- A code image's reading that has failed. Where its slice has been halted before the placement was over there is none to
deliver CODE_FETCH for: the reading is forgotten and made anew at the next placement (DESIGN CHOICE, log 38). -/
def failImage (s : State) (k : Cmd) (status : Nat) : State :=
  match (ctxOfTask s k.task).bind fun c => (getCtx s c).map fun x => (c, x) with
  | some (c, x) => imageFault (forgetCmd s k.id) c x status
  | none => forgetCmd s k.id

/-- A launch whose read has failed. -/
def failLaunch (s : State) (k : Cmd) : State :=
  let o := failRead s k
  endLaunch (forgetCmd o.1 k.id) k o.2

/-- A page frame that a command has taken for a copy-on-write given back. -/
def dropCow (s : State) (k : Cmd) : State :=
  { s with freePages := (k.cow.bind fun c => c.1).toList ++ s.freePages }

/-- A command ends with a status that is not its own doing. -/
def failCmd (s : State) (k : Cmd) (status : Nat) : State :=
  let s := dropCow s k
  match k.kind with
  | .copy | .copym | .copyr | .copyd | .copya | .copyf | .copyq => finishCmd s k.id status (resultOf k status)
  | .ifill => endFill s k status
  | .fill => failImage s k status
  | .spill | .merge => failPiece s k status
  | .kvap | .kvmsk | .kvtr => abandonKv s k status
  | .aqry => endDeliver s k status false
  | .commit => endCommit s k status
  | .codesw => finishCmd s k.id stAborted 0
  | .ready => failWord s k
  | .launch => failLaunch s k
  | .rdmaWrite | .rdmaRead => forgetCmd (rdmaAnswer s k rdAccessError []) k.id
  | .lfe | .pvpub | .viewFill => finishCmd s k.id status 0

/-- A command goes on: its engine's next turn is its own. -/
def resume (s : State) (id : Nat) (st : CmdState) : State :=
  addTurn (modCmd s id fun k => { k with st := st }) (.walkComplete id)

/-- The addresses of the references whose blocks a parked command needs (R269): the tail block's of a `kvap`, those of the range
of a COMPACT or a MOVE, else that of the address. -/
def parkedRefs (s : State) (k : Cmd) (va : Nat) : List Nat :=
  let range := kvRange s k
  match k.kind with
  | .kvap => ((getSeq s (kvSeq k)).map fun q => rowAddr q q.tail).toList
  | .kvmsk | .kvtr =>
    (s.seqs.filter fun q => decide (range.1 ≤ q.seq) && decide (q.seq ≤ range.2) && tableRows q ≠ 0).flatMap fun q =>
      (liveRows s q (kr k 83 64) (min (kr k 115 96) q.tail)).map fun r => rowAddr q r.1
  | _ => match leafEntry s k.asid va with
    | some l => if teBlk l.2 then [refAddr l.2 va] else []
    | none => []

/-- The blocks of a park of KIND 5 brought to tier 0. -/
def serveTier (s : State) (k : Cmd) (va kind : Nat) : State :=
  if kind ≠ 5 then s else (parkedRefs s k va).foldl (fun s ra => bringBlock s (.reference ra)) s

/-- The state that a replay puts a command in: a copy takes its place at the engine again, the rest go on at once. -/
def replayState (k : Cmd) : CmdState :=
  if isCopy k.kind || k.kind = .lfe || k.kind = .commit then .queued else .active

/-- FAULT_SERVICE_REPLAY (R255): the command returns to its engine and resumes at its index with a fresh walk. The host
repeats an RDMA operation itself (R361). -/
def execFaultServiceReplay (id : Nat) (s : State) : Ans :=
  .next (match getCmd s id with
    | none => s
    | some k =>
      match k.st with
      | .parked va kind =>
        if k.kind = .rdmaWrite ∨ k.kind = .rdmaRead then forgetCmd s id
        else
          let s := serveTier s k va kind
          resume (modCmd s id fun q => { q with trans := [] }) id (replayState k)
      | _ => s)

/-- FAULT_SERVICE_FAIL (R255): the command ends FAULTED. -/
def execFaultServiceFail (id : Nat) (s : State) : Ans :=
  .next (match getCmd s id with
    | none => s
    | some k => if isParked k then failCmd s k stFaulted else s)

end Sys2Proof.Machine
end

