-- ==== Sys2Proof/Machine/Fabric.lean ====
section
/-! DEFINITION. The Sirxis fabric: links and their flits (R359), routes and packets (R360), incarnations and the loss of a
package (R262 to R264, R332, R342, R373), link training (R371). -/

namespace Sys2Proof.Machine

/-! ### The loss of a package (R264) -/

/-- The numbers of the packets to a package that are not acknowledged. -/
def packetsTo (s : State) (pkg : Nat) : List Nat := (s.packets.filter fun p => p.pkg = pkg).map fun p => p.num

/-- The packet for whose answer a command waits: of a request, or of a `copyr`'s arrival. -/
def awaited (k : Cmd) : Option (Nat × Nat) :=
  match k.st with
  | .remoteWait pkg num => if num = 0 then none else some (pkg, num)
  | .arriving pkg num => if num = 0 then none else some (pkg, num)
  | _ => none

/-- Whether a command waits for the answer to a packet to a package. -/
def awaits (k : Cmd) (pkg : Nat) : Bool := (awaited k).any fun a => a.1 = pkg

/-- Whether a command is a MOVE, which a fault of a link aborts (R332). -/
def isMove (k : Cmd) : Bool := k.kind = .kvtr && trMode k = 0

/-- The status of a remote access that a loss ends (R264): INDETERMINATE where bytes were sent and not acknowledged, or
some of the run's were. -/
def lossStatus (k : Cmd) : Nat :=
  if isMove k then stAborted else if k.wrote || k.asks.1 then stIndeterminate else stUnreachable

/-- The status of a remote access whose request the target has refused for its incarnation (R264): that request wrote nothing. -/
def refusalStatus (k : Cmd) : Nat :=
  if isMove k then stAborted else if k.wrote then stIndeterminate else stUnreachable

/-- A status noted with a command that has met no other. -/
def noteStatus (status : Nat) (k : Cmd) : Cmd := { k with status := if k.status = stOk then status else k.status }

/-- A packet's number no longer waited for by a command that had sent it besides its requests, with what came of it. -/
def unholdCmd (nums : List Nat) (status : Nat) (k : Cmd) : Cmd :=
  if k.heldBy.any nums.contains then noteStatus status { k with heldBy := k.heldBy.filter fun n => !nums.contains n } else k

/-- A request of a command that has failed with a status; a `copyr` whose arrival has failed ends. -/
def failAwaited (s : State) (k : Cmd) (status : Nat) : State :=
  match k.st with
  | .arriving _ _ => addTurn (modCmd s k.id fun q => { noteStatus stIndeterminate q with st := .ending }) (.copyComplete k.id)
  | _ => failCmd s k status

/-- Knowledge of a package invalidated (R264): its incarnation unknown, the generations raised of the ASIDs whose entries
name it, accesses to it ended; its children lost at merge nodes here, and undecided moves with it aborted. -/
def remoteLoss (s : State) (pkg : Nat) : State :=
  let hit := s.remoteAsids.filter fun r => r.1 = pkg
  let nums := packetsTo s pkg
  let waiting := s.cmds.filter fun k => awaits k pkg
  let s := { s with
    known := alDel s.known pkg, remoteAsids := s.remoteAsids.filter fun r => r.1 ≠ pkg
    packets := s.packets.filter fun p => p.pkg ≠ pkg, cmds := s.cmds.map (unholdCmd nums stIndeterminate) }
  let s := hit.foldl (fun s r => raiseGen s r.2) s
  let s := waiting.foldl (fun s k => failAwaited s k (lossStatus k)) s
  loseMoves pkg (losePackage pkg s)

/-- A notice from a package that it goes (R264): its packet numbers begin anew, and what it asked for here is void. What it wrote
here is never published further: it is kept under a number that no package has. -/
def forgetPeer (s : State) (pkg : Nat) : State :=
  remoteLoss { s with
    seenPackets := s.seenPackets.filter fun p => p.1 ≠ pkg
    farWrites := s.farWrites.map fun f => if f.1 = pkg then (pkg + 1024, f.2) else f
    farBars := s.farBars.filter fun f => f.1 ≠ pkg
    farWaits := s.farWaits.filter fun w => w.2.src ≠ pkg } pkg

/-- TARGET_RESET_NOTICE (R264). -/
def execTargetResetNotice (pkg : Nat) (s : State) : Ans := .next (forgetPeer s pkg)

/-- TARGET_POWER_DOWN_NOTICE (R264). -/
def execTargetPowerDownNotice (pkg : Nat) (s : State) : Ans := .next (forgetPeer s pkg)

/-- What the answer to a packet says of what the command, snapshot or merge node had sent besides its requests. -/
def noteReply (num : Nat) (r : Reply) (s : State) : State :=
  match r with
  | .done _ ref _ => { s with
      cmds := s.cmds.map (unholdCmd [num] stOk)
      snapshots := match ref with
        | some d => s.snapshots.map (renameShare num d)
        | none => s.snapshots }
  | .ends st => countRoot { s with cmds := s.cmds.map (unholdCmd [num] st), snapshots := s.snapshots.map (unshare num) } num
  | .refused => { s with cmds := s.cmds.map (unholdCmd [num] stUnreachable), snapshots := s.snapshots.map (unshare num) }

/-! ### Probes (R262) -/

/-- A `copyr` that waited for a probe before its arrival goes on to it, or ends without it. -/
def endArriving (s : State) (k : Cmd) (arrive : Bool) : State :=
  addTurn (modCmd s k.id fun q => { q with st := .ending, arrive := arrive }) (.copyComplete k.id)

/-- A command that waited for a probe goes on. -/
def probed (pkg : Nat) (s : State) (k : Cmd) : State :=
  if k.st = .remoteWait pkg 0 then resume s k.id (wakeState k)
  else if k.st = .arriving pkg 0 then endArriving s k true
  else s

/-- A probe of a package at its end: its packet is not sent again. -/
def endProbe (s : State) (pkg : Nat) : State :=
  { s with
    probes := s.probes.filter fun p => p ≠ pkg
    packets := s.packets.filter fun p => !(p.pkg = pkg && p.what = .probe pkg p.num) }

/-- A probe's reply taken in (R262): the table is filled; an incarnation other than the one known means that the package has
been reset since. -/
def takeProbeReply (pkg : Nat) (inc : Word) (s : State) : State :=
  let s := if knownInc s pkg ≠ 0 ∧ knownInc s pkg ≠ inc then forgetPeer s pkg else s
  let s := endProbe { s with known := alSet s.known pkg inc } pkg
  let waiting := s.unsent.filter fun u => u.1 = pkg
  let s := waiting.foldl (fun s u => sendNumbered s pkg u.2.1 (.remote pkg u.2.1 inc u.2.2))
    { s with unsent := s.unsent.filter fun u => u.1 ≠ pkg }
  askOutcomes pkg (s.cmds.foldl (probed pkg) s)

/-- INCARNATION_PROBE_REPLY (R262). -/
def execIncarnationProbeReply (pkg : Arrived Unit) (inc : Word) (s : State) : Ans :=
  .next (
    if 576 ≤ pkg.src ∨ inc = 0 then s else takePacket s pkg.src pkg.num (takeProbeReply pkg.src inc))

/-- A command whose probe found no reply (R262): REMOTE_UNREACHABLE, or INDETERMINATE where bytes of its run had been sent (R264);
a MOVE is aborted (R332), a query goes on without the package (R342). -/
def unprobed (pkg : Nat) (s : State) (k : Cmd) : State :=
  if k.st = .arriving pkg 0 then endArriving s k false
  else if k.st ≠ .remoteWait pkg 0 then s
  else if k.kind = .aqry && !k.shared then resume (modCmd s k.id fun q => { q with acks := 1 }) k.id .active
  else failCmd s k (refusalStatus k)

/-- INCARNATION_PROBE_TIMEOUT (R262): no reply within 50 µs. -/
def execIncarnationProbeTimeout (pkg : Nat) (s : State) : Ans :=
  .next (
    if !s.probes.contains pkg then s
    else
      let s := endProbe s pkg
      let lost := s.unsent.filter fun u => u.1 = pkg
      let s := lost.foldl (fun s u => noteReply u.2.1 .refused s) { s with unsent := s.unsent.filter fun u => u.1 ≠ pkg }
      s.cmds.foldl (unprobed pkg) s)

/-! ### Packets (R360) -/

/-- A request performed (R262): the command takes the answer's bytes and goes on. The new reference of a block that had to be
copied first replaces the one it was reached through (R274); a guard granule that was reached is held for the issuer (R137). -/
def takeDone (data : List Byte) (ref : Option DWord) (guard : Option Word) (s : State) (k : Cmd) : State :=
  let s := match ref with
    | some r => if k.asks.2 = 0 then s else hbmPut s k.asks.2 8 r.toNat
    | none => s
  let s := match guard with
    | some i => modSlice s k.task fun x =>
        holdFault x { who := cmdWho k, code := 0x10, slot := cmdSlot k, opnd := 0, tinfo := i }
    | none => s
  let bs := if data.isEmpty then (match ref with
      | some r => bytesOf 8 r.toNat
      | none => []) else data
  let s := modCmd s k.id fun q =>
    { q with acks := q.acks + 1, answers := q.answers ++ [bs], wrote := q.wrote || q.asks.1, asks := (false, 0) }
  resume s k.id (wakeState k)

/-- The answer to the request for which a command waits. -/
def takeReply (r : Reply) (s : State) (k : Cmd) : State :=
  match k.st, r with
  | .arriving _ _, .done _ _ _ => addTurn (modCmd s k.id fun q => { q with st := .ending }) (.copyComplete k.id)
  | _, .done bs ref guard => takeDone bs ref guard s k
  | _, .ends st => failAwaited s k st
  | _, .refused => failAwaited s k (refusalStatus k)

/-- A packet retired with its answer. The receipt of an abort tells home that the participant has learnt the outcome (R373); a
root's record that the issuer has discarded is counted although its receipt has retired the packet (R347). -/
def takeAck (pkg : Nat) (a : PacketReply) (s : State) : State :=
  match s.packets.find? fun p => p.pkg = pkg && p.num = a.num with
  | none =>
    (match a.reply with
     | .ends _ => countRoot s a.num
     | _ => s)
  | some p =>
    let s := { s with packets := s.packets.filter fun p => !(p.pkg = pkg && p.num = a.num) }
    let s := match p.what with
      | .abort _ _ m => if m.home = s.pkg then learnt m.id pkg s else s
      | _ => s
    (s.cmds.filter fun k => awaited k = some (pkg, a.num)).foldl (takeReply a.reply) (noteReply a.num a.reply s)

/-- PACKET_ACK (R360): the packet is retired with its answer, a packet of its own, or by a bare acknowledgement; an acknowledgement
of another is discarded. -/
def execPacketAck (pkg : Nat) (a : PacketReply) (s : State) : Ans :=
  .next (match a.own with
    | some own => takePacket s pkg own (takeAck pkg a)
    | none => takeAck pkg a s)

/-- A packet that no link carries any more sent on another route, or for the first time where none was up. -/
def reroute (s : State) (p : Packet) : State :=
  if p.link.any (upRoutes s p.pkg).contains then s
  else match upRoutes s p.pkg with
    | [] => s
    | l :: _ =>
      let s := { s with packets := s.packets.map fun q => if q.pkg = p.pkg && q.num = p.num then { q with link := some l } else q }
      if p.link.isNone then sendOn (some l) p.what s
      else (Config.packetFlits p.what).foldl (sendFlit l) (emit s (.resend p.pkg p.num l))

/-- The packages of the nodes that a merge node here answers to and waits for. -/
def nodePeers (s : State) (e : MergeNode) : List Nat :=
  match getTree s (qTree e.msg.record) with
  | none => []
  | some t => (nodeParent (treeNode t e.node) :: childrenOf t e.node).map fun n => nodePkg (treeNode t n)

/-- The packages that this one deals with: known, sent to, in a merge tree, in a move. -/
def peersOf (s : State) : List Nat :=
  ((s.known.map fun k => k.1) ++ (s.packets.map fun p => p.pkg) ++ s.nodes.flatMap (nodePeers s) ++
    s.moves.flatMap fun v => v.msg.home :: v.parties).eraseDups.filter fun p => p ≠ s.pkg

/-- Packages whose routes changed between two states: none left, or one back. -/
def routesChanged (old s : State) : State :=
  let lost := (peersOf s).filter fun p => !(upRoutes old p).isEmpty && (upRoutes s p).isEmpty
  let homes := ((s.moves.filter fun v => !v.atHome).map fun v => v.msg.home).eraseDups
  let back := homes.filter fun p => (upRoutes old p).isEmpty && !(upRoutes s p).isEmpty
  let s := s.packets.foldl reroute s
  back.foldl (fun s p => askOutcomes p s) (lost.foldl remoteLoss s)

/-- ROUTING_TABLE_WRITE (R360): the domain is wired as the table says. -/
def execRoutingTableWrite (entries : List (Nat × List Nat)) (s : State) : Ans :=
  .next (routesChanged s { s with
    switched := false, routes := entries.map fun e => (e.1, e.2.filter fun l => l < 36) })

/-! ### Links (R359, R371) -/

/-- The flits sent on a link from a number on, of those that its replay buffer still holds, sent again. -/
def replayFlits (s : State) (link seq : Nat) : State :=
  ((getLink s link).sent.filter fun f => decide (seq ≤ f.1)).foldl (fun s f => emit s (.flit link f.1 f.2)) s

/-- A replay that the peer asks for counted: how often in a row for the same flit: what this end knows of a flit that
fails there (DEDUCED, log 154). -/
def noteAsked (s : State) (link seq : Nat) : State :=
  let k := getLink s link
  setLink s link { k with asked := (seq, if k.asked.1 = seq then k.asked.2 + 1 else 1) }

/-- A flit at a link that carries flits: the one expected is delivered once and in order; one with a CRC error is discarded
with every later one, and a replay from it is asked for. -/
def takeFlit (s : State) (link seq : Nat) (crcOk : Bool) (payload : BitVec 512) : State :=
  let k := getLink s link
  if seq ≠ k.expect then s
  else if crcOk then setLink s link { k with expect := k.expect + 1, fails := 0, received := k.received ++ [payload] }
  else emit (setLink s link { k with fails := k.fails + 1 }) (.replayRequest link seq)

/-- FLIT_RECEIVE (R359): a flit, or the peer's request for a replay; a request with a CRC error is discarded. -/
def execFlitReceive (link seq : Nat) (crcOk : Bool) (x : LinkIn) (s : State) : Ans :=
  .next (
    if !linkReady (getLink s link) then s
    else match x with
      | .flit payload => takeFlit s link seq crcOk payload
      | .replay => if crcOk then replayFlits (noteAsked s link seq) link seq else s)

/-- A link on which a flit has failed eight consecutive times, one received or one sent, retrains. -/
def retrainLink (s : State) (link : Nat) : State :=
  let k := getLink s link
  if linkReady k && decide (8 ≤ max k.fails k.asked.2) then setLink s link { k with training := true, since := s.now } else s

/-- LINK_RETRAIN (R359). -/
def execLinkRetrain (link : Nat) (s : State) : Ans := .next (retrainLink s link)

/-- A retraining at its end (R359, R360): the link carries flits again, from the one that failed on, or is down. -/
def endRetrain (s : State) (link : Nat) (ok : Bool) : State :=
  let k := getLink s link
  if !k.training then s
  else
    let t := setLink s link { k with up := ok, training := false, fails := 0, pending := [], asked := (0, 0) }
    if !ok then routesChanged s t
    else
      let t := if k.fails = 0 then t else emit t (.replayRequest link k.expect)
      k.pending.foldl (sendFlit link) (if k.asked.2 = 0 then t else replayFlits t link k.asked.1)

/-- LINK_RETRAIN_END (R359). -/
def execLinkRetrainEnd (link : Nat) (ok : Bool) (s : State) : Ans := .next (endRetrain s link ok)

/-- A retraining that has not ended within 100 µs has failed (R359). R374 makes that an upper bound; the model waits exactly as
long (DESIGN CHOICE, log 110). -/
def boundRetrain (s : State) (link : Nat) : State :=
  let k := getLink s link
  if k.training && decide (k.since + 140000 ≤ s.now) then endRetrain s link false else s

/-- The cycle of a wave of link training: 20 µs apart from power-up (R371). -/
def waveDue (s : State) (w : Nat) : Bool :=
  s.up && w < 9 && decide (s.poweredAt + 28000 * w ≤ s.now) && (alGet s.links (4 * w)).isNone

/-- The four links of a wave trained. -/
def trainWave (s : State) (w : Nat) : State :=
  if !waveDue s w then s
  else
    let up : Link :=
      { up := true, training := false, since := 0, expect := 0, fails := 0, received := [], next := 0, sent := []
        pending := [], asked := (0, 0) }
    routesChanged s ((List.range 4).foldl (fun s i => setLink s (4 * w + i) up) (emit s (.wave w)))

/-- LINK_TRAINING_WAVE (R371). -/
def execLinkTrainingWave (w : Nat) (s : State) : Ans := .next (trainWave s w)

/-- What falls due on the fabric and at the ports in a cycle. -/
def tickFabric (s : State) : State :=
  let s := (List.range 9).foldl trainWave s
  let s := (s.links.map fun l => l.1).foldl (fun s l => boundRetrain (retrainLink s l) l) s
  pollFar (flushPorts (tickSolder s))

end Sys2Proof.Machine
end

