-- ==== Sys2Proof/Machine/System.lean ====
section
/-! DEFINITION. The package as a whole: corrected errors and warnings (R368), refresh (R371), reset and power-down (R262,
R264, R366). -/

namespace Sys2Proof.Machine

/-! ### Corrected errors (R368) -/

/-- The sources whose errors are counted: stacks 0 to 11, and link n as n + 16. -/
def isSource (n : Nat) : Bool := decide (n < 12) || (decide (16 ≤ n) && decide (n < 52))

/-- A source's count in the window. -/
def errorCount (s : State) (n : Nat) : Nat := (alGet s.errors n).getD 0

/-- CORRECTED_ERROR (R368). -/
def execCorrectedError (source : Nat) (s : State) : Ans :=
  .next (if isSource source then { s with errors := alSet s.errors source (errorCount s source + 1) } else s)

/-- The window's one warning raised for a source whose count has reached the threshold: WARN to the host, and every
checkpointed root region snapshotted. -/
def raiseWarning (s : State) (source : Nat) : State :=
  let n := errorCount s source
  if s.errWarned || !isSource source || decide (n < s.errThreshold) then s
  else
    let s := sendDevice { s with errWarned := true } 0x85 0 (bytesOf 4 source ++ bytesOf 4 n)
    let roots := (List.range s.regions.length).filter fun r =>
      (getRegion s r).parent = 0 && (getRegion s r).ckpt && (getRegion s r).st = .admitted
    roots.foldl (beginSnapshot source) s

/-- CHECKPOINT_WARNING (R368). -/
def execCheckpointWarning (source : Nat) (s : State) : Ans := .next (raiseWarning s source)

/-- A window of 2^30 cycles that has run out, and the next begun. -/
def turnWindow (s : State) : State :=
  if s.now < s.errStart + 2 ^ 30 then s
  else { s with errors := [], errStart := s.errStart + 2 ^ 30, errWarned := false }

/-- ERROR_WINDOW_END (R368). -/
def execErrorWindowEnd (s : State) : Ans := .next (turnWindow s)

/-! ### Refresh (R371) -/

/-- Whether a stack's refresh falls due in this cycle (R371): stack n's is offset by n × tREFI ÷ 12 from stack 0's, whose first one
may come at any time; no two stacks refresh together. -/
def refreshDue (s : State) (stack : Nat) : Bool :=
  decide (stack < 12) && s.lastRefresh ≠ some s.now &&
    match s.refreshAt with
    | none => stack = 0
    | some t => (s.now - t) % Config.trefi = stack * Config.trefi / 12

/-- HBM_REFRESH (R371). -/
def execHbmRefresh (stack : Nat) (s : State) : Ans :=
  .next (
    if refreshDue s stack then
      emit { s with refreshAt := some (s.refreshAt.getD s.now), lastRefresh := some s.now } (.refresh stack)
    else s)

/-! ### Reset and power-down -/

/-- The incarnation after one: never 0 (R262). -/
def nextIncarnation (w : Word) : Word := if w = BitVec.ofNat 32 (2 ^ 32 - 1) then 1 else w + 1

/-- The package as a reset leaves it: the state after reset, but for its number and identity, its wiring, the clock, what it has
sent, what it has stored on tiers 1 and 2, and memory, of which nothing is known. -/
def restarted (s : State) (up powerDown : Bool) (inc : Word) : State :=
  blur { State.reset with
    pkg := s.pkg, identityKey := s.identityKey, stored := s.stored, incarnation := inc, up := up, now := s.now, fresh := s.fresh, switched := s.switched
    poweredAt := s.now, errStart := s.now, out := s.out ++ [.notice powerDown] } 0 (2 ^ 40)

/-- PACKAGE_RESET (R42, R262, R264, R366): a reset or power-up, with the boot's verifications. -/
def execPackageReset (s : State) : Ans :=
  let inc := nextIncarnation s.incarnation
  .next (restarted s (Config.bootVerified inc.toNat) false inc)

/-- POWER_DOWN (R264). -/
def execPowerDown (s : State) : Ans := .next (restarted s false true s.incarnation)

/-- What falls due in the package as a whole in a cycle: raises (R249), waiting writes of the hardware's own, the fabric, errors, snapshots. -/
def tickSystem (s : State) : State :=
  let s := retrySys { s with raises := s.raises.filter fun r => decide (s.now < r.2.1) || raiseHeld s r }
  let s := tickFabric s
  let s := turnWindow ((s.errors.map fun e => e.1).foldl raiseWarning s)
  sweepSnapshots s

end Sys2Proof.Machine
end

