-- ==== Sys2Proof/Machine/Clock.lean ====
section
/-! DEFINITION. The timebase (R3): each cycle's counts, the events that fall due in it, and the order in which the
package's agents take their turns inside it. -/

namespace Sys2Proof.Machine

/-! ### Counts (R89, R311, R312) -/

/-- Whether a slice is placed and its cycles count: not while its state is restored or its core cleared (R310). -/
def charged (x : Ctx) : Bool :=
  x.blocked.all fun b => match b with
    | .wave => true
    | _ => false

/-- Whether a context waits on a tag or a fill, or for the start wave of its core as at a fill (R42, R89). -/
def stalled (x : Ctx) : Bool :=
  (x.blocked.any (· = .wave)) ||
  match x.wait with
  | .fill _ _ | .tag _ _ _ => true
  | _ => false

/-- A hart's count of waiting cycles (R237). -/
def countHart (h : Hart) : Hart :=
  match h.st with
  | .waiting _ | .lyld => { h with hstall := h.hstall + 1 }
  | _ => h

/-- One cycle of a resident slice counted: CYCLE, the watchdog's count, MIDLE, MSTALL, HSTALL, the cycles of fetch waits
under a pre-emption request, and, but for the time of a restore or a clear (R310), SBUDGET. A counter that `syswr` wrote in
the cycle keeps that value (R133). Guards changed in the cycle before take effect (R161). -/
def countCycle (s : State) (c : CtxId) (x : Ctx) : Ctx :=
  let working := (getCore s c.core).dp.any fun d => d.1 = c.ctx
  let fetching := !x.blocked.isEmpty || (match x.wait with
    | .fill _ _ => true
    | _ => false)
  { x with
    cycle := x.cycle + 1, sinceYield := x.sinceYield + 1,
    sbudget := if charged x then x.sbudget - 1 else x.sbudget,
    midle := if working || x.midleSet then x.midle else x.midle + 1,
    mstall := if stalled x && !x.mstallSet then x.mstall + 1 else x.mstall,
    midleSet := false, mstallSet := false, guards := dueGuards x, guardsDue := none,
    fetchWait := if fetching then x.fetchWait + 1 else x.fetchWait,
    loader := x.loader.map countHart, storer := x.storer.map countHart }

/-! ### Turns -/

/-- The event that may end a context's wait. -/
def waitTurn (c : CtxId) (x : Ctx) : List Instr :=
  match x.wait with
  | .none | .fill _ _ => []
  | .tag _ _ _ => [.tagWaitEnd c]
  | .barrier _ _ _ => [.barrierWaitEnd c]
  | .spawnPool _ => [.spawnPoolWaitEnd c]
  | .yieldLand => [.yieldSliceEnd c]
  | .tend => [.tendComplete c]
  | .halt => [.haltComplete c]
  | .handover _ _ => [.spawnHandoverEnd c]

/-- The events a context may have besides its issue. -/
def ctxTurns (s : State) (p : CtxId × Ctx) : List Instr :=
  let (c, x) := p
  (if 2 ^ 24 ≤ x.sinceYield then [.watchdog c] else []) ++ (if overran s x then [.boundaryOverrun c] else []) ++
    waitTurn c x ++ (if x.preempt.isSome then [.preemptHalt c] else []) ++
    (if x.sbudget = 0 then [.budgetTrap c] else []) ++
    (if (formedPair x).any fun w => w.formed.any fun t => decide (t + 65536 ≤ s.now) then [.pairStepTimeout c x.pairs] else [])

/-- The cores with a resident slice, in order. -/
def busyCores (s : State) : List Nat :=
  sortBy (fun a b => decide (a < b)) ((s.slots.map fun p => p.1.core).eraseDups)

/-- The turns in which the steps on the cores' datapaths may end, and then in which the halves they form meet (R199, R209). -/
def mEnds (s : State) (cores : List Nat) : List Instr :=
  ((cores.filter fun n => (getCore s n).dp.isSome).map fun n => Instr.mStep n) ++
    s.slots.filterMap fun p => (currentPair p.2).map fun _ => .pairHalfArrival p.1

/-- The turn of a core's matrix datapath in which a step may start. -/
def mTurn (s : State) (core : Nat) : List Instr :=
  let queued := (List.range 2).any fun n => match getCtx s ⟨core, n⟩ with
    | some x => !x.mq.isEmpty
    | none => false
  if (getCore s core).dp.isSome || queued then [.mStep core] else []

/-- The turns of copies that wait for room in a queue or for a word (R151, R153). -/
def copyTurns (s : State) : List Instr :=
  s.cmds.filterMap fun k => match k.st with
    | .pushWait => some (.pushEntryFreed k.id)
    | .wordWait => some (.copyfWordReady k.id)
    | _ => none

/-- The turns of partition records with commands to apply (R358). -/
def partTurns (s : State) : List Instr := ((s.partOps.map fun p => p.1).eraseDups).map fun p => .partitionRecordApply p

/-- The turns of the merge stages, context 0 before context 1 (R30). -/
def issueTurns (s : State) (core : Nat) : List Instr :=
  (List.range 2).filterMap fun n => match getCtx s ⟨core, n⟩ with
    | some x => if x.wait = .none && !x.halting then some (.bundleIssue ⟨core, n⟩) else none
    | none => none

/-- Whether a hart is ready to run. -/
def hartReady (s : State) (q : HartId) : Bool :=
  match hartTurn s q with
  | .idle => false
  | _ => true

/-- The turns of one side core of a core (R28): when both harts are ready they issue on alternate cycles; a hart that
waits is tried again. -/
def sideTurns (s : State) (core : Nat) (r : Role) : List (Instr ⊕ HartId) :=
  let q := fun (n : Nat) => (⟨⟨core, n⟩, r⟩ : HartId)
  let waits := (List.range 2).filterMap fun n =>
    ((getCtx s ⟨core, n⟩).bind fun x => (getHart x r).bind hartWaits).map fun _ =>
      (Sum.inl (Instr.hartWaitEnd (q n)) : Instr ⊕ HartId)
  let runs := match hartReady s (q 0), hartReady s (q 1) with
    | true, true => [Sum.inr (q (s.now % 2))]
    | true, false => [Sum.inr (q 0)]
    | false, true => [Sum.inr (q 1)]
    | false, false => []
  waits ++ runs

/-- The order of turns inside a cycle: events due, contexts' waits and traps, datapaths, engines, merges, issue, harts. -/
def turnsOf (s : State) : List (Instr ⊕ HartId) :=
  let due := (s.timers.filter fun t => decide (t.1 ≤ s.now)).map fun t => t.2
  let cores := busyCores s
  (due ++ s.slots.flatMap (ctxTurns s) ++ mEnds s cores ++ cores.flatMap (mTurn s) ++ copyTurns s ++ partTurns s ++ mergeTurns s ++
    cores.flatMap (issueTurns s)).map Sum.inl ++
    cores.flatMap fun k => sideTurns s k .loader ++ sideTurns s k .storer

/-- Readiness words and the ends of tasks and regions observed (R307, R32, R304). -/
def observePools (s : State) : State :=
  settle (((s.tasks.filter fun t => t.st = .waiting).map fun t => t.uid).foldl observeTask s)

/-- TIMEBASE_ADVANCE (R3): the next cycle. -/
def execTimebaseAdvance (s : State) : Ans :=
  let s := { s with now := s.now + 1, slots := s.slots.map fun p => (p.1, countCycle s p.1 p.2) }
  let s := settleRoles (tickSystem (observePools s))
  .next { s with
    todo := s.todo ++ turnsOf s
    timers := s.timers.filter fun t => !decide (t.1 ≤ s.now) }

end Sys2Proof.Machine
end

