-- ==== Sys2Proof/Machine/Dispatch.lean ====
section
/-! DEFINITION. The dispatch: one arm per constructor, each one call of its meaning. -/

namespace Sys2Proof.Machine

/-- The meaning of every instruction and event. -/
def exec (i : Instr) (s : State) : Host.Outcome State Fault Refusal :=
  match i with
  | .bundleIssue c => Sys2Proof.Machine.execBundleIssue c s
  | .resultLanding c id => Sys2Proof.Machine.execResultLanding c id s
  | .fmtWriteApply c => Sys2Proof.Machine.execFmtWriteApply c s
  | .add f => Sys2Proof.Machine.execAdd f s
  | .sub f => Sys2Proof.Machine.execSub f s
  | .mul f => Sys2Proof.Machine.execMul f s
  | .mulh f => Sys2Proof.Machine.execMulh f s
  | .mulhn f => Sys2Proof.Machine.execMulhn f s
  | .and f => Sys2Proof.Machine.execAnd f s
  | .or f => Sys2Proof.Machine.execOr f s
  | .xor f => Sys2Proof.Machine.execXor f s
  | .shl f => Sys2Proof.Machine.execShl f s
  | .shr f => Sys2Proof.Machine.execShr f s
  | .sra f => Sys2Proof.Machine.execSra f s
  | .min f => Sys2Proof.Machine.execMin f s
  | .max f => Sys2Proof.Machine.execMax f s
  | .minn f => Sys2Proof.Machine.execMinn f s
  | .maxn f => Sys2Proof.Machine.execMaxn f s
  | .addi f => Sys2Proof.Machine.execAddi f s
  | .ldi f => Sys2Proof.Machine.execLdi f s
  | .ldhi f => Sys2Proof.Machine.execLdhi f s
  | .sel f => Sys2Proof.Machine.execSel f s
  | .mov f => Sys2Proof.Machine.execMov f s
  | .qlen f => Sys2Proof.Machine.execQlen f s
  | .cmp f => Sys2Proof.Machine.execCmp f s
  | .cmpi f => Sys2Proof.Machine.execCmpi f s
  | .pand f => Sys2Proof.Machine.execPand f s
  | .por f => Sys2Proof.Machine.execPor f s
  | .pxor f => Sys2Proof.Machine.execPxor f s
  | .pnot f => Sys2Proof.Machine.execPnot f s
  | .pmov f => Sys2Proof.Machine.execPmov f s
  | .gset f => Sys2Proof.Machine.execGset f s
  | .gstep f => Sys2Proof.Machine.execGstep f s
  | .gadd f => Sys2Proof.Machine.execGadd f s
  | .gget f => Sys2Proof.Machine.execGget f s
  | .br f => Sys2Proof.Machine.execBr f s
  | .jmp f => Sys2Proof.Machine.execJmp f s
  | .call f => Sys2Proof.Machine.execCall f s
  | .ret f => Sys2Proof.Machine.execRet f s
  | .loop f => Sys2Proof.Machine.execLoop f s
  | .loopExtent f => Sys2Proof.Machine.execLoopExtent f s
  | .loops f => Sys2Proof.Machine.execLoops f s
  | .lbrk f => Sys2Proof.Machine.execLbrk f s
  | .lidx f => Sys2Proof.Machine.execLidx f s
  | .lbuf f => Sys2Proof.Machine.execLbuf f s
  | .bnd f => Sys2Proof.Machine.execBnd f s
  | .skip f => Sys2Proof.Machine.execSkip f s
  | .eset f => Sys2Proof.Machine.execEset f s
  | .eget f => Sys2Proof.Machine.execEget f s
  | .jset f => Sys2Proof.Machine.execJset f s
  | .commit f => Sys2Proof.Machine.execCommit f s
  | .fmt f => Sys2Proof.Machine.execFmt f s
  | .fmtrd f => Sys2Proof.Machine.execFmtrd f s
  | .dead f => Sys2Proof.Machine.execDead f s
  | .yield f => Sys2Proof.Machine.execYield f s
  | .spawn f => Sys2Proof.Machine.execSpawn f s
  | .view f => Sys2Proof.Machine.execView f s
  | .tend f => Sys2Proof.Machine.execTend f s
  | .codesw f => Sys2Proof.Machine.execCodesw f s
  | .budget f => Sys2Proof.Machine.execBudget f s
  | .trap f => Sys2Proof.Machine.execTrap f s
  | .sysrd f => Sys2Proof.Machine.execSysrd f s
  | .syswr f => Sys2Proof.Machine.execSyswr f s
  | .halt f => Sys2Proof.Machine.execHalt f s
  | .nop f => Sys2Proof.Machine.execNop f s
  | .ldv f => Sys2Proof.Machine.execLdv f s
  | .stv f => Sys2Proof.Machine.execStv f s
  | .lds f => Sys2Proof.Machine.execLds f s
  | .sts f => Sys2Proof.Machine.execSts f s
  | .ldvx f => Sys2Proof.Machine.execLdvx f s
  | .stvx f => Sys2Proof.Machine.execStvx f s
  | .gthv f => Sys2Proof.Machine.execGthv f s
  | .sctv f => Sys2Proof.Machine.execSctv f s
  | .oclm f => Sys2Proof.Machine.execOclm f s
  | .orel f => Sys2Proof.Machine.execOrel f s
  | .old f => Sys2Proof.Machine.execOld f s
  | .oldp f => Sys2Proof.Machine.execOldp f s
  | .zld f => Sys2Proof.Machine.execZld f s
  | .zst f => Sys2Proof.Machine.execZst f s
  | .zclr f => Sys2Proof.Machine.execZclr f s
  | .copy f => Sys2Proof.Machine.execCopy f s
  | .copym f => Sys2Proof.Machine.execCopym f s
  | .copyr f => Sys2Proof.Machine.execCopyr f s
  | .copyd f => Sys2Proof.Machine.execCopyd f s
  | .copya f => Sys2Proof.Machine.execCopya f s
  | .copyfFill f => Sys2Proof.Machine.execCopyfFill f s
  | .copyfDrain f => Sys2Proof.Machine.execCopyfDrain f s
  | .copyfReadfull f => Sys2Proof.Machine.execCopyfReadfull f s
  | .copyfEmpty f => Sys2Proof.Machine.execCopyfEmpty f s
  | .copyq f => Sys2Proof.Machine.execCopyq f s
  | .cwait f => Sys2Proof.Machine.execCwait f s
  | .cany f => Sys2Proof.Machine.execCany f s
  | .cfirst f => Sys2Proof.Machine.execCfirst f s
  | .ctags f => Sys2Proof.Machine.execCtags f s
  | .cstat f => Sys2Proof.Machine.execCstat f s
  | .cclr f => Sys2Proof.Machine.execCclr f s
  | .tagWaitEnd c => Sys2Proof.Machine.execTagWaitEnd c s
  | .barr f => Sys2Proof.Machine.execBarr f s
  | .barw f => Sys2Proof.Machine.execBarw f s
  | .bard f => Sys2Proof.Machine.execBard f s
  | .barj f => Sys2Proof.Machine.execBarj f s
  | .barrierWaitEnd c => Sys2Proof.Machine.execBarrierWaitEnd c s
  | .phase f => Sys2Proof.Machine.execPhase f s
  | .publicationComplete id => Sys2Proof.Machine.execPublicationComplete id s
  | .aqry f => Sys2Proof.Machine.execAqry f s
  | .kvap f => Sys2Proof.Machine.execKvap f s
  | .kvmsk f => Sys2Proof.Machine.execKvmsk f s
  | .kvtrMove f => Sys2Proof.Machine.execKvtrMove f s
  | .kvtrCompact f => Sys2Proof.Machine.execKvtrCompact f s
  | .kvtrTrim f => Sys2Proof.Machine.execKvtrTrim f s
  | .kvtrPshare f => Sys2Proof.Machine.execKvtrPshare f s
  | .pvsnap f => Sys2Proof.Machine.execPvsnap f s
  | .pvpub f => Sys2Proof.Machine.execPvpub f s
  | .pvrd f => Sys2Proof.Machine.execPvrd f s
  | .grd f => Sys2Proof.Machine.execGrd f s
  | .grdc f => Sys2Proof.Machine.execGrdc f s
  | .ifill f => Sys2Proof.Machine.execIfill f s
  | .vadd f => Sys2Proof.Machine.execVadd f s
  | .vsub f => Sys2Proof.Machine.execVsub f s
  | .vmul f => Sys2Proof.Machine.execVmul f s
  | .vfma f => Sys2Proof.Machine.execVfma f s
  | .vfms f => Sys2Proof.Machine.execVfms f s
  | .vfnm f => Sys2Proof.Machine.execVfnm f s
  | .vmin f => Sys2Proof.Machine.execVmin f s
  | .vmax f => Sys2Proof.Machine.execVmax f s
  | .vabs f => Sys2Proof.Machine.execVabs f s
  | .vneg f => Sys2Proof.Machine.execVneg f s
  | .vrcp f => Sys2Proof.Machine.execVrcp f s
  | .vrsq f => Sys2Proof.Machine.execVrsq f s
  | .vsqrt f => Sys2Proof.Machine.execVsqrt f s
  | .vdiv f => Sys2Proof.Machine.execVdiv f s
  | .vcmp f => Sys2Proof.Machine.execVcmp f s
  | .vsel f => Sys2Proof.Machine.execVsel f s
  | .vcvt f => Sys2Proof.Machine.execVcvt f s
  | .vrnd f => Sys2Proof.Machine.execVrnd f s
  | .vscale f => Sys2Proof.Machine.execVscale f s
  | .vclass f => Sys2Proof.Machine.execVclass f s
  | .vand f => Sys2Proof.Machine.execVand f s
  | .vor f => Sys2Proof.Machine.execVor f s
  | .vxor f => Sys2Proof.Machine.execVxor f s
  | .vandn f => Sys2Proof.Machine.execVandn f s
  | .vshl f => Sys2Proof.Machine.execVshl f s
  | .vshlImm f => Sys2Proof.Machine.execVshlImm f s
  | .vshr f => Sys2Proof.Machine.execVshr f s
  | .vshrImm f => Sys2Proof.Machine.execVshrImm f s
  | .vsra f => Sys2Proof.Machine.execVsra f s
  | .vsraImm f => Sys2Proof.Machine.execVsraImm f s
  | .vmulh f => Sys2Proof.Machine.execVmulh f s
  | .vdot2 f => Sys2Proof.Machine.execVdot2 f s
  | .vsat f => Sys2Proof.Machine.execVsat f s
  | .vclz f => Sys2Proof.Machine.execVclz f s
  | .vpopc f => Sys2Proof.Machine.execVpopc f s
  | .vbcast f => Sys2Proof.Machine.execVbcast f s
  | .vlane f => Sys2Proof.Machine.execVlane f s
  | .vins f => Sys2Proof.Machine.execVins f s
  | .vslide f => Sys2Proof.Machine.execVslide f s
  | .vperm f => Sys2Proof.Machine.execVperm f s
  | .vrev f => Sys2Proof.Machine.execVrev f s
  | .vzip f => Sys2Proof.Machine.execVzip f s
  | .vunzip f => Sys2Proof.Machine.execVunzip f s
  | .vpack f => Sys2Proof.Machine.execVpack f s
  | .vunpk f => Sys2Proof.Machine.execVunpk f s
  | .vplx f => Sys2Proof.Machine.execVplx f s
  | .vplc f => Sys2Proof.Machine.execVplc f s
  | .viota f => Sys2Proof.Machine.execViota f s
  | .vmov f => Sys2Proof.Machine.execVmov f s
  | .mma f => Sys2Proof.Machine.execMma f s
  | .mmaz f => Sys2Proof.Machine.execMmaz f s
  | .mmap f => Sys2Proof.Machine.execMmap f s
  | .mgrp f => Sys2Proof.Machine.execMgrp f s
  | .mtrn f => Sys2Proof.Machine.execMtrn f s
  | .mscl f => Sys2Proof.Machine.execMscl f s
  | .mfill f => Sys2Proof.Machine.execMfill f s
  | .mmov f => Sys2Proof.Machine.execMmov f s
  | .madd f => Sys2Proof.Machine.execMadd f s
  | .mwait f => Sys2Proof.Machine.execMwait f s
  | .mStep core => Sys2Proof.Machine.execMStep core s
  | .pairHalfArrival c => Sys2Proof.Machine.execPairHalfArrival c s
  | .pairStepTimeout c step => Sys2Proof.Machine.execPairStepTimeout c step s
  | .kexp2 f => Sys2Proof.Machine.execKexp2 f s
  | .kexp2Biased f => Sys2Proof.Machine.execKexp2Biased f s
  | .klog2 f => Sys2Proof.Machine.execKlog2 f s
  | .kmax f => Sys2Proof.Machine.execKmax f s
  | .ksum f => Sys2Proof.Machine.execKsum f s
  | .ksumw f => Sys2Proof.Machine.execKsumw f s
  | .kscan f => Sys2Proof.Machine.execKscan f s
  | .ksmx f => Sys2Proof.Machine.execKsmx f s
  | .ksmrg f => Sys2Proof.Machine.execKsmrg f s
  | .ksmrgBody f => Sys2Proof.Machine.execKsmrgBody f s
  | .ksort f => Sys2Proof.Machine.execKsort f s
  | .kmrg f => Sys2Proof.Machine.execKmrg f s
  | .kcclr f => Sys2Proof.Machine.execKcclr f s
  | .kcrd f => Sys2Proof.Machine.execKcrd f s
  | .ktemp f => Sys2Proof.Machine.execKtemp f s
  | .ktopp f => Sys2Proof.Machine.execKtopp f s
  | .krng f => Sys2Proof.Machine.execKrng f s
  | .krngk f => Sys2Proof.Machine.execKrngk f s
  | .kgmb f => Sys2Proof.Machine.execKgmb f s
  | .kpick f => Sys2Proof.Machine.execKpick f s
  | .kpickScore f => Sys2Proof.Machine.execKpickScore f s
  | .kargmx f => Sys2Proof.Machine.execKargmx f s
  | .lcopy d a b => Sys2Proof.Machine.execLcopy d a b s
  | .lwait d a b => Sys2Proof.Machine.execLwait d a b s
  | .lpoll d a b => Sys2Proof.Machine.execLpoll d a b s
  | .lstat d a => Sys2Proof.Machine.execLstat d a s
  | .lpush a b => Sys2Proof.Machine.execLpush a b s
  | .lpop d a b => Sys2Proof.Machine.execLpop d a b s
  | .lfe d a b => Sys2Proof.Machine.execLfe d a b s
  | .ltsk d a => Sys2Proof.Machine.execLtsk d a s
  | .lbarArrive a b => Sys2Proof.Machine.execLbarArrive a b s
  | .lbarWait a b => Sys2Proof.Machine.execLbarWait a b s
  | .hartWaitEnd h => Sys2Proof.Machine.execHartWaitEnd h s
  | .hartDeviceRegisterWrite op len => Sys2Proof.Machine.execHartDeviceRegisterWrite op len s
  | .yieldSliceEnd c => Sys2Proof.Machine.execYieldSliceEnd c s
  | .tendComplete c => Sys2Proof.Machine.execTendComplete c s
  | .haltComplete c => Sys2Proof.Machine.execHaltComplete c s
  | .spawnPoolWaitEnd c => Sys2Proof.Machine.execSpawnPoolWaitEnd c s
  | .spawnHandoverEnd c => Sys2Proof.Machine.execSpawnHandoverEnd c s
  | .viewFillComplete id => Sys2Proof.Machine.execViewFillComplete id s
  | .instructionFillComplete id => Sys2Proof.Machine.execInstructionFillComplete id s
  | .walkComplete id => Sys2Proof.Machine.execWalkComplete id s
  | .copyComplete id => Sys2Proof.Machine.execCopyComplete id s
  | .copyTargetTimeout id => Sys2Proof.Machine.execCopyTargetTimeout id s
  | .pushEntryFreed id => Sys2Proof.Machine.execPushEntryFreed id s
  | .copyfWordReady id => Sys2Proof.Machine.execCopyfWordReady id s
  | .atomicElementApply id => Sys2Proof.Machine.execAtomicElementApply id s
  | .viewPieceMerge id => Sys2Proof.Machine.execViewPieceMerge id s
  | .arbiterDecision die => Sys2Proof.Machine.execArbiterDecision die s
  | .waveStart w => Sys2Proof.Machine.execWaveStart w s
  | .coreGating core => Sys2Proof.Machine.execCoreGating core s
  | .scratchClearComplete core => Sys2Proof.Machine.execScratchClearComplete core s
  | .stateRestoreComplete c => Sys2Proof.Machine.execStateRestoreComplete c s
  | .preemptHalt c => Sys2Proof.Machine.execPreemptHalt c s
  | .budgetTrap c => Sys2Proof.Machine.execBudgetTrap c s
  | .watchdog c => Sys2Proof.Machine.execWatchdog c s
  | .boundaryOverrun c => Sys2Proof.Machine.execBoundaryOverrun c s
  | .nmaPartial query stack => Sys2Proof.Machine.execNmaPartial query stack s
  | .mergeChildTimeout query node => Sys2Proof.Machine.execMergeChildTimeout query node s
  | .windowDestTimeout query => Sys2Proof.Machine.execWindowDestTimeout query s
  | .commitAsync id => Sys2Proof.Machine.execCommitAsync id s
  | .partitionRecordApply part => Sys2Proof.Machine.execPartitionRecordApply part s
  | .snapshotStreamComplete root => Sys2Proof.Machine.execSnapshotStreamComplete root s
  | .incarnationProbeTimeout pkg => Sys2Proof.Machine.execIncarnationProbeTimeout pkg s
  | .hartInstruction op len => Sys2Proof.Machine.execHartInstruction op len s
  | .faultServiceReplay id => Sys2Proof.Machine.execFaultServiceReplay id s
  | .lyld => Sys2Proof.Machine.execLyld s
  | .hartEcall => Sys2Proof.Machine.execHartEcall s
  | .hartEbreak => Sys2Proof.Machine.execHartEbreak s
  | .faultServiceFail id => Sys2Proof.Machine.execFaultServiceFail id s
  | .readinessWordFilled task word => Sys2Proof.Machine.execReadinessWordFilled task word s
  | .startNotice p node => Sys2Proof.Machine.execStartNotice p node s
  | .solderPartialArrival p child ans => Sys2Proof.Machine.execSolderPartialArrival p child ans s
  | .movePrepare p => Sys2Proof.Machine.execMovePrepare p s
  | .movePrepareAck move p => Sys2Proof.Machine.execMovePrepareAck move p s
  | .moveCommit p => Sys2Proof.Machine.execMoveCommit p s
  | .moveCommitAck move p => Sys2Proof.Machine.execMoveCommitAck move p s
  | .moveAbort p => Sys2Proof.Machine.execMoveAbort p s
  | .moveOutcomeQuery move p => Sys2Proof.Machine.execMoveOutcomeQuery move p s
  | .pewterLoad seq => Sys2Proof.Machine.execPewterLoad seq s
  | .treeTableInstall id words => Sys2Proof.Machine.execTreeTableInstall id words s
  | .translationInstall asid va level entry => Sys2Proof.Machine.execTranslationInstall asid va level entry s
  | .generationRaiseComplete asid => Sys2Proof.Machine.execGenerationRaiseComplete asid s
  | .pageMigration asid va pa => Sys2Proof.Machine.execPageMigration asid va pa s
  | .checkpointWarning source => Sys2Proof.Machine.execCheckpointWarning source s
  | .errorWindowEnd => Sys2Proof.Machine.execErrorWindowEnd s
  | .incarnationProbeReply pkg inc => Sys2Proof.Machine.execIncarnationProbeReply pkg inc s
  | .targetResetNotice pkg => Sys2Proof.Machine.execTargetResetNotice pkg s
  | .targetPowerDownNotice pkg => Sys2Proof.Machine.execTargetPowerDownNotice pkg s
  | .flitReceive link seq crcOk x => Sys2Proof.Machine.execFlitReceive link seq crcOk x s
  | .linkRetrain link => Sys2Proof.Machine.execLinkRetrain link s
  | .linkRetrainEnd link ok => Sys2Proof.Machine.execLinkRetrainEnd link ok s
  | .packetAck pkg a => Sys2Proof.Machine.execPacketAck pkg a s
  | .packageReset => Sys2Proof.Machine.execPackageReset s
  | .linkTrainingWave w => Sys2Proof.Machine.execLinkTrainingWave w s
  | .hbmRefresh stack => Sys2Proof.Machine.execHbmRefresh stack s
  | .controlConnectionRequest port service asid => Sys2Proof.Machine.execControlConnectionRequest port service asid s
  | .launch r => Sys2Proof.Machine.execLaunch r s
  | .preempt r => Sys2Proof.Machine.execPreempt r s
  | .resume r => Sys2Proof.Machine.execResume r s
  | .sync m => Sys2Proof.Machine.execSync m s
  | .replay m => Sys2Proof.Machine.execReplay m s
  | .attest m => Sys2Proof.Machine.execAttest m s
  | .restore m => Sys2Proof.Machine.execRestore m s
  | .unknownMessage m => Sys2Proof.Machine.execUnknownMessage m s
  | .rdmaWrite r => Sys2Proof.Machine.execRdmaWrite r s
  | .rdmaRead r => Sys2Proof.Machine.execRdmaRead r s
  | .rdmaInvalidOperation r => Sys2Proof.Machine.execRdmaInvalidOperation r s
  | .timebaseAdvance => Sys2Proof.Machine.execTimebaseAdvance s
  | .correctedError source => Sys2Proof.Machine.execCorrectedError source s
  | .pewterEvict seq => Sys2Proof.Machine.execPewterEvict seq s
  | .sequenceRecordCreate seq dhc table => Sys2Proof.Machine.execSequenceRecordCreate seq dhc table s
  | .sequenceRecordRemove seq => Sys2Proof.Machine.execSequenceRecordRemove seq s
  | .positionMapInstall m => Sys2Proof.Machine.execPositionMapInstall m s
  | .stripeLost seq first => Sys2Proof.Machine.execStripeLost seq first s
  | .freeListFill list items => Sys2Proof.Machine.execFreeListFill list items s
  | .pinClear gbn => Sys2Proof.Machine.execPinClear gbn s
  | .prefixIndexEvict entry => Sys2Proof.Machine.execPrefixIndexEvict entry s
  | .blockTierEvict x tier => Sys2Proof.Machine.execBlockTierEvict x tier s
  | .routingTableWrite entries => Sys2Proof.Machine.execRoutingTableWrite entries s
  | .remoteAccess r => Sys2Proof.Machine.execRemoteAccess r s
  | .incarnationProbe pkg => Sys2Proof.Machine.execIncarnationProbe pkg s
  | .powerDown => Sys2Proof.Machine.execPowerDown s
  | .controlConnectionClose port => Sys2Proof.Machine.execControlConnectionClose port s
  | .connectionSetUp port transport q asid => Sys2Proof.Machine.execConnectionSetUp port transport q asid s
  | .congestionNotificationPacket port qp => Sys2Proof.Machine.execCongestionNotificationPacket port qp s
  | .priorityFlowControlPause port priority pause => Sys2Proof.Machine.execPriorityFlowControlPause port priority pause s

end Sys2Proof.Machine
end

