-- ==== Sys2Proof/Machine/Step.lean ====
section
/-! DEFINITION. The step: one turn of the package. Inside a cycle the turns stand in `todo`; a bundle being issued
has its executing slots in `ops`, which take their turns at once and end the issue. With no turn left the timebase
advances (R3). -/

namespace Sys2Proof.Machine

/-- The executing slots of the bundle being issued, one after another. -/
def runOps : Nat → State → Host.Outcome State Fault Refusal
  | 0, s => .next s
  | n + 1, s =>
    match s.ops with
    | [] => .next s
    | i :: rest =>
      match exec i { s with ops := rest } with
      | .next t => runOps n t
      | .fault e => .fault e
      | .refused e => .refused e

/-- A turn with the issue it began, up to its end. -/
def finishTurn (o : Host.Outcome State Fault Refusal) : Host.Outcome State Fault Refusal :=
  match o with
  | .next s =>
    match runOps 6 s with
    | .next t => .next (if t.undo.isSome then finishIssue t else t)
    | .fault e => .fault e
    | .refused e => .refused e
  | .fault e => .fault e
  | .refused e => .refused e

/-- A hart's turn: its next instruction fetched, decoded and run. -/
def stepHart (q : HartId) (s : State) : Host.Outcome State Fault Refusal :=
  match hartTurn s q with
  | .idle => .next s
  | .badFetch => .next (hartFetchTrap s q)
  | .run i => exec i { s with cur := q.c, curHart := some q.role }

/-- One step. -/
def step (s : State) : Host.Outcome State Fault Refusal :=
  match s.ops, s.todo with
  | _ :: _, _ => finishTurn (.next s)
  | [], .inl i :: rest => finishTurn (exec i { s with todo := rest })
  | [], .inr q :: rest => finishTurn (stepHart q { s with todo := rest })
  | [], [] => exec .timebaseAdvance s

/-- The hart that runs the word which `withFetchWord` places: a fresh slice of a fresh task, its loader at pc 0. -/
def fetchHart (w : Nat) : Hart :=
  { st := .running, x := Vector.replicate 32 0, pc := 0, code := bytesOf 4 w, data := [], dataSize := 0, mscratch := 0,
    hstall := 0, instret := 0, nextIssue := 0, loads := [], records := [], awaited := none, lfe := none }

/-- The slice of `withFetchWord`, in context 0 of core 0. -/
def fetchCtx (loader : Option Hart) : Ctx := { freshCtx default 0 0 with loader := loader }

/-- The state with one instruction placed where the next step fetches it: a 32-bit word in the portion of a loader hart
whose turn it is; a bundle in the instruction store of core 0, at PC 0 of the slice whose issue it is. -/
def State.withFetchWord (s : State) (nbits w : Nat) : State :=
  if nbits ≤ 32 then
    { s with
      slots := [(⟨0, 0⟩, fetchCtx (some (fetchHart w)))]
      cores := [(0, { getCore s 0 with gated := false })]
      ops := [], undo := none, todo := [.inr ⟨⟨0, 0⟩, .loader⟩] }
  else
    let line : ILine := { asid := (getRegion s 0).asid, gen := (getAsid s (getRegion s 0).asid).gen, va := 0, data := BitVec.ofNat 32768 w }
    { s with
      slots := [(⟨0, 0⟩, fetchCtx none)]
      cores := [(0, { getCore s 0 with gated := false, lines := [line] })]
      ops := [], undo := none, todo := [.inl (.bundleIssue ⟨0, 0⟩)] }

end Sys2Proof.Machine
end

