-- ==== Sys2Proof/Safety.lean ====
section
/-! DEFINITION. What a safe run is, and the forms of states that statements speak of: canonical memories, a slice in the
context whose turn it is, a hart in it, the resources of a context that a slot instruction reads. -/

namespace Sys2Proof

open Machine

/-! ### Safe runs -/

/-- A step completes: it answers a next state. -/
def Completes (o : Host.Outcome State Fault Refusal) : Prop := ∃ t, o = .next t

/-- A run of n steps that never stops. -/
def RunsFor : Nat → State → Prop
  | 0, _ => True
  | n + 1, s => ∃ t, step s = .next t ∧ RunsFor n t

/-! ### Canonical memories -/

/-- The stores of a core in canonical form. -/
def Machine.Core.memWf (k : Machine.Core) : Bool := Memory.wf k.scratch && Memory.wf k.opmem && Memory.wf k.acc

/-- The data memory of a hart in canonical form. -/
def hartWf (h : Option Hart) : Bool :=
  match h with
  | some h => Memory.wf h.data
  | none => true

/-- A slice's data in canonical form. -/
def Machine.Ctx.memWf (x : Ctx) : Bool := hartWf x.loader && hartWf x.storer

/-- A saved part in canonical form. -/
def Machine.Part.memWf (p : Part) : Bool :=
  match p with
  | .saved m | .here _ _ _ m => Memory.wf m
  | .none => true

/-- A slice's data, where there is one, in canonical form. -/
def ctxWf (x : Option Ctx) : Bool :=
  match x with
  | some x => x.memWf
  | none => true

/-- A task's saved data in canonical form. -/
def Machine.Task.memWf (t : Task) : Bool := t.scratch.memWf && t.slots.memWf && t.tiles.memWf && ctxWf t.saved

/-- Every memory of the package in canonical form. -/
def Machine.State.memWf (s : State) : Bool :=
  Memory.wf s.hbm && s.cores.all (fun c => c.2.memWf) && s.slots.all (fun c => c.2.memWf) && s.tasks.all (·.memWf) &&
    ctxWf s.undo && s.veils.all fun v => Memory.wf v.2.2.2

/-! ### States in which an instruction has its turn -/

/-- The slice x stands in the context whose bundle or hart instruction is being executed. -/
def Here (s : State) (x : Ctx) : Prop := getCtx s s.cur = some x

/-- A C-slot instruction of the slice x has its turn and executes (R81). -/
def CHere (s : State) (x : Ctx) (f : CFields) : Prop := Here s x ∧ executes x f.pred f.psense = true

/-- A T-slot instruction of the slice x has its turn and executes (R81). -/
def THere (s : State) (x : Ctx) (f : TFields) : Prop := Here s x ∧ executes x f.pred f.psense = true

/-- A V-slot or K-slot instruction of the slice x has its turn and executes (R81). -/
def VHere (s : State) (x : Ctx) (f : VFields) : Prop := Here s x ∧ executes x f.pred f.psense = true

/-- An M-slot instruction of the slice x has its turn and executes (R81). -/
def MHere (s : State) (x : Ctx) (f : MFields) : Prop := Here s x ∧ executes x f.pred f.psense = true

/-- The slice x is here and runs a loader or storer hart whose turn it is. -/
def HartHere (s : State) (x : Ctx) (r : Role) (h : Hart) : Prop :=
  Here s x ∧ s.curHart = some r ∧ getHart x r = some h

/-- An instruction changes nothing but its slice's context, which becomes x'. -/
def Leaves (i : Instr) (s : State) (x' : Ctx) : Prop := exec i s = .next (setCtx s s.cur x')

/-! ### What statements say of an instruction -/

/-- A tag takes one command more (R155): BUSY, the count up by one, a fresh tag with status 0; the slice has one command
more outstanding, and no other tag changes. -/
def TagTakes (x x' : Ctx) (n : Nat) : Prop :=
  getTag x' n = (match (getTag x n).st with
    | .busy => { getTag x n with count := (getTag x n).count + 1 }
    | _ => { st := .busy, count := 1, status := 0 }) ∧
  x'.outstanding = x.outstanding + 1 ∧ ∀ m, m ≠ n → getTag x' m = getTag x m

/-- An instruction hands a command to the engine on a tag (R144) and writes nothing else of the package. -/
def Queues (i : Instr) (s : State) (x : Ctx) (kind : CmdKind) (n : Nat) (p : Cmd → Prop) : Prop :=
  ∃ t x' k, exec i s = .next (setCtx t t.cur x') ∧ t.cur = s.cur ∧ k ∈ t.cmds ∧ k.kind = kind ∧ k.tag = n ∧
    k.task = x.task ∧ k.st = .queued ∧ p k ∧ TagTakes x x' n ∧ t.slots = s.slots ∧ t.hbm = s.hbm ∧ t.cores = s.cores ∧
    t.tasks = s.tasks

/-- A V instruction gives a vector whose element n of width w is h n, as a result of the V slot (R165, R166), and changes
nothing else. -/
def VLanes (i : Instr) (s : State) (y : Ctx) (f : VFields) (lat w : Nat) (h : Nat → Nat) : Prop :=
  ∃ r : Vec, Leaves i s (addResult y f.dst .v 4 lat (.v r)) ∧ ∀ n, n < 4096 / w → elemW w r.toNat n = h n % 2 ^ w

/-- A K instruction gives a vector, or a word, as a result of the K slot (R213), and changes nothing else. -/
def KGives (i : Instr) (s : State) (y : Ctx) (f : VFields) (lat : Nat) (v : Val) : Prop :=
  Leaves i s (addResult y f.dst (match v with | .s _ => .s | .v _ => .v) 6 lat v)

/-- A hart instruction completes: its hart's pc becomes pc, register rd, unless it is x0, becomes v, no other register,
no code, data or mscratch changes, one more instruction has retired, and nothing else of the package changes (R234). -/
def HartSets (i : Instr) (s : State) (x : Ctx) (r : Role) (h : Hart) (rd : BitVec 5) (v pc : Word) : Prop :=
  ∃ h', exec i s = .next (setCtx s s.cur (putHart x r h')) ∧ h'.st = .running ∧ h'.pc = pc ∧ h'.instret = h.instret + 1 ∧
    h'.code = h.code ∧ h'.data = h.data ∧ h'.mscratch = h.mscratch ∧ h'.hstall = h.hstall ∧
    ∀ q, getX h' q = if q = rd ∧ q ≠ 0 then v else getX h q

/-- An extension instruction of a hart completes with v in rd: the pc moves on by the instruction's length; nothing else
of the slice, and no memory, changes. -/
def HartGives (i : Instr) (s : State) (x : Ctx) (r : Role) (h : Hart) (rd : BitVec 5) (v : Word) : Prop :=
  ∃ t h', exec i s = .next t ∧ t.cur = s.cur ∧ t.slots = alSet s.slots s.cur (putHart x r h') ∧ h'.st = .running ∧
    h'.pc = h.pc + BitVec.ofNat 32 (hartStep h) ∧ h'.instret = h.instret + 1 ∧ h'.data = h.data ∧ h'.code = h.code ∧
    h'.mscratch = h.mscratch ∧ h'.hstall = h.hstall ∧ t.hbm = s.hbm ∧ t.cores = s.cores ∧ t.tasks = s.tasks ∧
    ∀ q, getX h' q = if q = rd ∧ q ≠ 0 then v else getX h q

/-- An extension instruction of a hart waits: the pc stays, the hart is inside the instruction (R239). -/
def HartWaits (i : Instr) (s : State) (x : Ctx) (r : Role) (h : Hart) : Prop :=
  exec i s = .next (setCtx s s.cur (putHart x r { h with st := .waiting i }))

/-- R73, R107: the condition codes on two words. -/
def condSays (c : Nat) (a b : Word) : Prop :=
  match c with
  | 0 => a = b
  | 1 => a ≠ b
  | 2 => a.toInt < b.toInt
  | 3 => a.toInt ≤ b.toInt
  | 4 => a.toInt > b.toInt
  | 5 => a.toInt ≥ b.toInt
  | 6 => a.toNat < b.toNat
  | _ => a.toNat ≥ b.toNat

/-- A predicate instruction leaves the predicate that it names holding v, every other predicate, and p0, as they were
(R81, R106), and changes nothing else. -/
def SetsPred (i : Instr) (s : State) (x : Ctx) (n : Nat) (v : Prop) : Prop :=
  ∃ p : BitVec 8, Leaves i s { x with p := p } ∧
    ∀ m, m < 8 → (p.getLsbD m = true ↔ if m = n ∧ n ≠ 0 then v else x.p.getLsbD m = true)

/-- The rows of the opcode table that a hart executes (R234, R239). -/
def isHartInstr (i : Instr) : Bool :=
  match i with
  | .hartInstruction .. | .hartDeviceRegisterWrite .. | .hartEcall | .hartEbreak | .lcopy .. | .lwait .. | .lpoll .. | .lstat .. | .lpush ..
  | .lpop .. | .lfe .. | .ltsk .. | .lbarArrive .. | .lbarWait .. | .lyld => true
  | _ => false

/-- What a loop instruction with a count does (R113): with count 0 a transfer past the end bundle, else a push, or
OVERFLOW with OPND 63 on a full stack. -/
def LoopsBy (i : Instr) (s : State) (x y : Ctx) (f : CFields) (count : Word) : Prop :=
  ∀ j : Issue, y.issue = some j →
    let stop := j.pc + BitVec.ofNat 32 (4 * (f.imm.toNat / 4096))
    (count = 0 → Leaves i s (addTransfer y { goal := .sized (.after stop), dead := 3, boundary := true })) ∧
    (count ≠ 0 → y.loops.length < 6 →
      Leaves i s { y with loops :=
        { start := j.pc + BitVec.ofNat 32 (4 * j.parcels), stop := stop, count := count, index := 0 } :: y.loops }) ∧
    (count ≠ 0 → 6 ≤ y.loops.length → exec i s = .next (preciseTrap s x 0x04 0 63 none))

/-- The frame of a store to the window: the slice's registers, queues, tags and control state. -/
def SameButHeld (x x' : Ctx) : Prop := ∃ h, x' = { x with held := h }

/-- An M instruction enters the M queue behind those already there, with what it read at its issue (R199). -/
def EntersM (i : Instr) (s : State) (x y : Ctx) (f : MFields) (steps : Nat) (vec : Vec) : Prop :=
  ∃ w : MWork, Leaves i s { y with mq := y.mq ++ [w] } ∧ w.op = i ∧ w.fmt = x.seen.fmt ∧ w.steps = steps ∧ w.done = 0 ∧
    w.started = false ∧ w.formed = none ∧ w.vec = vec ∧ w.abase = x.seen.g.toList.getD f.abase.toNat 0 ∧
    w.bbase = x.seen.g.toList.getD f.bbase.toNat 0

/-- The instructions that a bundle's slots execute, in slot order (R62, R79, R81). -/
def runsOf (x : Ctx) (os : List Offer) : List Instr := (os.filter fun o => o.runs x).filterMap fun o => o.instr

/-- Everything that lets a fetched and decoded bundle of a slice issue now (R30, R77): the context is able to offer it,
it is legal, no row of R77 and no trap of an entry stands against it, and nothing holds it back. -/
structure Issues (s : State) (c : CtxId) (x0 x : Ctx) (t : Word) (ps : List Word) (present : List (Slot × Instr))
    (os : List Offer) : Prop where
  resident : getCtx s c = some x0
  able : ableToOffer s c x0 = true
  fetched : fetchBundle s c x0 = .ok (t, ps)
  legal : illegalBundle x0 t (slotWords ps) = false
  decoded : decodeBundle t ps = .ok present
  offered : os = offers x0 t present
  settled : x0.sizing = none
  loops : illegalLoop x0 t (slotWords ps) = false
  stepped : x = seeing x0 os
  ports : badPorts t os = none
  rows : checkRows s c x os = none
  waits : ∀ o ∈ os, ∀ f, o.form = some f → o.runs x = true → tWait s c x f = none
  free : isHeld s c x os = false
  merges : mergeOk s c (os.map fun o => o.slot) (((os.filterMap Offer.form).map SlotForm.ports).foldl (· + ·) 0) = true
  asked : x0.preempt = none
  last : checkLastRows x (os.filter fun o => o.runs x) = none
  entries : ∀ o ∈ os, ∀ f, o.form = some f → o.runs x = true → entryTrap s x f = none
  faultless : x0.held ≠ none → ∀ o ∈ os, ∀ f, o.form = some f → o.runs x = true → isBarrier f = false

/-- A command stands ended with a status, and its issuer's tag, where its slice still stands, has taken it (R148, R155). -/
def CmdEnded (s t : State) (k : Cmd) (status : Nat) : Prop :=
  getCmd t k.id = some { k with st := .done status, status := status } ∧
  (k.tag < 64 → ∀ x, sliceOf s k.task = some x → ∃ y, sliceOf t k.task = some y ∧
    getTag y k.tag = tagEnded (getTag x k.tag) (BitVec.ofNat 8 status) ∧ y.outstanding = x.outstanding - 1 ∧
    ∀ m, m < 64 → m ≠ k.tag → getTag y m = getTag x m)

/-- A command has made every effect and waits for its completion with a status (R148, R374). -/
def CmdEnding (t : State) (k : Cmd) (status : Nat) : Prop :=
  ∃ q, getCmd t k.id = some q ∧ q.st = .ending ∧ q.status = status ∧ q.tag = k.tag ∧ q.task = k.task

/-- A command with one field changed, and the state that holds it so. -/
def withSt (s : State) (k : Cmd) (st : CmdState) : State := modCmd s k.id fun q => { q with st := st }

/-- The translation that a walk's leaf leaves with the command (R254). -/
def walked (s : State) (k : Cmd) (gen va level e : Nat) : TlbEntry :=
  { asid := k.asid
    gen := gen
    va := pageBase level va
    level := level
    entry := BitVec.ofNat 64 e
    inc := if teRem e then knownInc s (teAux e) else 0 }

/-- The state with a packet of another package taken in: its number noted and its receipt acknowledged (R360). -/
def tookIn (s : State) (src num : Nat) : State :=
  ackPacket { s with seenPackets := s.seenPackets ++ [(src, num)] } src num

/-- A packet goes to another package under a number (R360): it is kept until its receipt is acknowledged, and leaves on the first
link that is up of the package's routes, where one is. -/
def Sends (s t : State) (pkg num : Nat) (what : Out) : Prop :=
  ({ pkg := pkg, num := num, link := (upRoutes s pkg).head?, what := what } : Packet) ∈ t.packets ∧
    ((upRoutes s pkg).head? ≠ none → what ∈ t.out)

/-- A host message taken up at once: the package is up, its port's control connection stands, no launch is under way, and its
packets carry no congestion mark. -/
def MsgArrives (s : State) (m : HostMsg) : Prop :=
  s.up = true ∧ (∃ qp mtu, (m.port, m.asid, qp, mtu) ∈ s.control) ∧ m.ecn = false ∧ s.launching = none ∧ s.waitingMsgs = []

/-- The next message in order (R364). -/
def MsgNext (s : State) (m : HostMsg) : Prop := BitVec.ofNat 32 (msgHseq m) = s.hostA + 1

/-- The state as a message with the next number is accepted, before what it acknowledges is retained no longer (R364). -/
def accepted (s : State) (m : HostMsg) : State := { s with hostA := BitVec.ofNat 32 (msgHseq m) }

/-- The turns of a bundle's executing instructions, one after another in slot order: from s to v each instruction left in
`ops` is run by `exec`; a trap of one ends the turns of the others (R78). -/
inductive Turns : State → State → Prop
  /-- No instruction is left. -/
  | done (s : State) : s.ops = [] → Turns s s
  /-- The next instruction has its turn. -/
  | more (s u v : State) (i : Instr) (rest : List Instr) : s.ops = i :: rest → exec i { s with ops := rest } = .next u →
      (u.ops = rest ∨ u.ops = []) → Turns u v → Turns s v

/-- The words of a bundle's slots, STOP set in the last one (R65), as parcels. -/
def bundleWords : List SlotForm → List Word
  | [] => []
  | [x] => let w := encodeForm x true; [w.extractLsb' 0 32, w.extractLsb' 32 32]
  | x :: rest => let w := encodeForm x false; [w.extractLsb' 0 32, w.extractLsb' 32 32] ++ bundleWords rest

end Sys2Proof
end

