-- ==== Sys2Proof/Certificates/Slice0/Obligations.lean ====
section
/-! DEFINITION. The statements for the provers: what the instructions, the harts, the events and the whole machine do,
in the order of the manual's chapters. -/

open Sys2Proof Sys2Proof.Machine

/-- R104: each scalar operation, by its opcode: its fields, and its D for every operand form: a result of the C slot,
and nothing else. No operation saturates or traps. -/
def Obligations.ScalarArithmetic : Prop :=
  (∀ f : CFields, (List.range 15).map (fun n => cInstr (n + 1) f) = [some (.add f), some (.sub f), some (.mul f),
    some (.mulh f), some (.mulhn f), some (.and f), some (.or f), some (.xor f), some (.shl f), some (.shr f),
    some (.sra f), some (.min f), some (.max f), some (.minn f), some (.maxn f)]) ∧
  (∀ (f : CFields) (o : Nat), 1 ≤ o → o ≤ 15 → (SlotForm.c o f).legal = true → f.imm = 0 ∧ f.mod = 0) ∧
  ∀ (s : State) (x x1 x2 : Ctx) (f : CFields) (a b : Word), CHere s x f →
    readS x f.srcA = .ok (a, x1) → readS x1 f.srcB = .ok (b, x2) →
    let d := fun (w : Word) => addResult x2 f.dst .s 0 1 (.s w)
    let n := b.toNat % 32
    Leaves (.add f) s (d (a + b)) ∧
    Leaves (.sub f) s (d (a - b)) ∧
    Leaves (.mul f) s (d (BitVec.ofNat 32 (a.toNat * b.toNat))) ∧
    Leaves (.mulh f) s (d (BitVec.ofInt 32 (a.toInt * b.toInt / 4294967296))) ∧
    Leaves (.mulhn f) s (d (BitVec.ofNat 32 (a.toNat * b.toNat / 4294967296))) ∧
    Leaves (.and f) s (d (a &&& b)) ∧
    Leaves (.or f) s (d (a ||| b)) ∧
    Leaves (.xor f) s (d (a ^^^ b)) ∧
    Leaves (.shl f) s (d (a <<< n)) ∧
    Leaves (.shr f) s (d (a >>> n)) ∧
    Leaves (.sra f) s (d (a.sshiftRight n)) ∧
    Leaves (.min f) s (d (if b.toInt < a.toInt then b else a)) ∧
    Leaves (.max f) s (d (if a.toInt < b.toInt then b else a)) ∧
    Leaves (.minn f) s (d (if b.toNat < a.toNat then b else a)) ∧
    Leaves (.maxn f) s (d (if a.toNat < b.toNat then b else a))

/-- R105: immediates, select, move and queue length. R108, R119: address registers, steps, extents and skip flags. -/
def Obligations.ScalarMovesAndRegisters : Prop :=
  (∀ (s : State) (x : Ctx) (f : CFields), CHere s x f →
     let d := fun (y : Ctx) (w : Word) => addResult y f.dst .s 0 1 (.s w)
     Leaves (.ldi f) s (d x (BitVec.ofInt 32 f.imm.toInt)) ∧
     (∀ q : Queue, getQueue x (if f.mod.getLsbD 0 then .s else .v) (f.imm.toNat % 32) = q →
       Leaves (.qlen f) s
         (d x (if q.dead then 0 else BitVec.ofNat 32 (q.entries.filter fun e => e.val.isSome).length))) ∧
     (∀ (a : Word) (x1 : Ctx), readS x f.srcA = .ok (a, x1) →
       Leaves (.addi f) s (d x1 (a + BitVec.ofInt 32 f.imm.toInt)) ∧
       Leaves (.ldhi f) s (d x1 (f.imm.extractLsb' 0 16 ++ a.extractLsb' 0 16)) ∧
       Leaves (.mov f) s (d x1 a) ∧
       (∀ (b : Word) (x2 : Ctx), readS x1 f.srcB = .ok (b, x2) →
         Leaves (.sel f) s
           (d x2 (if f.imm.toNat % 8 = 0 ∨ x.seen.p.getLsbD (f.imm.toNat % 8) = true then a else b))))) ∧
  (∀ (s : State) (x : Ctx) (f : CFields), CHere s x f →
     let g := f.dst.toNat % 16
     let d := fun (y : Ctx) (w : Word) => addResult y f.dst .s 0 1 (.s w)
     Leaves (.gset f) s { x with g := x.g.setIfInBounds g (f.imm.signExtend 32) } ∧
     Leaves (.gstep f) s { x with gstep := x.gstep.setIfInBounds g (f.imm.signExtend 32) } ∧
     Leaves (.gget f) s
       (d x (if f.imm.getLsbD 4 then x.gstep[f.imm.toNat % 16]'(Nat.mod_lt _ (by decide))
         else x.g[f.imm.toNat % 16]'(Nat.mod_lt _ (by decide)))) ∧
     Leaves (.eget f) s (d x (x.e[f.imm.toNat % 8]'(Nat.mod_lt _ (by decide)))) ∧
     (∀ (a : Word) (x1 : Ctx), readS x f.srcA = .ok (a, x1) →
       Leaves (.gadd f) s
         { x1 with g := x1.g.setIfInBounds g (x1.g[g]'(Nat.mod_lt _ (by decide)) + a + f.imm.signExtend 32) } ∧
       Leaves (.eset f) s { x1 with e := x1.e.setIfInBounds (f.imm.toNat % 8) a } ∧
       ∃ j : BitVec 16, Leaves (.jset f) s { x1 with j := j } ∧
         ∀ i, i < 16 → j.getLsbD i = if f.imm.getLsbD i then a.getLsbD i else x1.j.getLsbD i))

/-- R106, R107: compares and predicate logic, by opcode: the fields that name the destination and the sources, the
predicate written; no queue and no latch is, and a write to p0 is discarded. -/
def Obligations.PredicateWrites : Prop :=
  (∀ f : CFields, (List.range 7).map (fun n => cInstr (n + 22) f) = [some (.cmp f), some (.cmpi f), some (.pand f),
    some (.por f), some (.pxor f), some (.pnot f), some (.pmov f)]) ∧
  (∀ (f : CFields) (o : Nat), 22 ≤ o → o ≤ 28 → (SlotForm.c o f).legal = true → f.dst.toNat < 8 ∧
    (24 ≤ o → o ≤ 26 → f.imm.toNat < 64) ∧ (o = 27 → f.imm.toNat < 8) ∧ (o = 22 ∨ o = 28 → f.imm = 0)) ∧
  ∀ (s : State) (x : Ctx) (f : CFields), CHere s x f →
    let n := f.dst.toNat % 8
    let a := f.imm.toNat % 8 = 0 ∨ x.seen.p.getLsbD (f.imm.toNat % 8) = true
    let b := f.imm.toNat / 8 % 8 = 0 ∨ x.seen.p.getLsbD (f.imm.toNat / 8 % 8) = true
    SetsPred (.pand f) s x n (a ∧ b) ∧
    SetsPred (.por f) s x n (a ∨ b) ∧
    SetsPred (.pxor f) s x n (¬(a ↔ b)) ∧
    SetsPred (.pnot f) s x n (¬a) ∧
    (∀ (v : Word) (x1 : Ctx), readS x f.srcA = .ok (v, x1) →
      SetsPred (.pmov f) s x1 n (v ≠ 0) ∧
      SetsPred (.cmpi f) s x1 n (condSays f.mod.toNat v (f.imm.signExtend 32)) ∧
      (∀ (w : Word) (x2 : Ctx), readS x1 f.srcB = .ok (w, x2) →
        SetsPred (.cmp f) s x2 n (condSays f.mod.toNat v w)))

/-- R121, R123, R133, R134: the format register, dead marks, system registers, nop. Of the system registers only MIDLE
and MSTALL can be written; a write of another takes PRIVILEGED (R89). -/
def Obligations.FormatAndSystem : Prop :=
  ∀ (s : State) (x : Ctx) (f : CFields), CHere s x f →
    let d := fun (y : Ctx) (w : Word) => addResult y f.dst .s 0 1 (.s w)
    let n := f.imm.toNat % 4096
    Leaves (.fmt f) s { x with fmtPend := x.fmtPend ++ [(4, BitVec.ofNat 32 (f.imm.toNat % 8192))] } ∧
    Leaves (.fmtrd f) s (d x x.seen.fmt) ∧
    Leaves (.dead f) s (addMark x (if f.mod.getLsbD 0 then .s else .v, f.imm.toNat % 32)) ∧
    Leaves (.nop f) s x ∧
    Leaves (.sysrd f) s (d x (sysReg s s.cur x n)) ∧
    (∀ (a : Word) (x1 : Ctx), readS x f.srcA = .ok (a, x1) →
      (n = 0x011 → Leaves (.syswr f) s { x1 with midle := a, midleSet := true }) ∧
      (n = 0x012 → Leaves (.syswr f) s { x1 with mstall := a, mstallSet := true }) ∧
      (n ≠ 0x011 → n ≠ 0x012 → exec (.syswr f) s = .next (preciseTrap s x 0x15 0 0 none)))

/-- R110, R111: branches and returns: the transfer of the bundle, whose next issue comes 3 cycles later; a back-edge
is a boundary point; `call` returns the address after its bundle; `ret` ends handler mode (R317). -/
def Obligations.Branches : Prop :=
  (∀ f : CFields, cInstr 0x21 f = some (.br f) ∧ cInstr 0x22 f = some (.jmp f) ∧ cInstr 0x23 f = some (.call f) ∧
    cInstr 0x24 f = some (.ret f)) ∧
  (∀ f : CFields, ((SlotForm.c 0x21 f).legal = true → f.dst = 0 ∧ f.srcA = 0) ∧
    ((SlotForm.c 0x22 f).legal = true → f.dst = 0 ∧ f.imm = 0) ∧ ((SlotForm.c 0x23 f).legal = true → f.srcA = 0) ∧
    ((SlotForm.c 0x24 f).legal = true → f.dst = 0 ∧ f.imm = 0)) ∧
  (∀ (s : State) (x : Ctx) (f : CFields), Here s x → executes x f.pred f.psense = false →
    exec (.br f) s = .next s ∧ exec (.jmp f) s = .next s ∧ exec (.call f) s = .next s ∧ exec (.ret f) s = .next s) ∧
  ∀ (s : State) (x : Ctx) (f : CFields) (i : Issue), CHere s x f → x.issue = some i →
    let rel := i.pc + 4 * f.imm.signExtend 32
    let go := fun (y : Ctx) (t : Word) (b : Bool) =>
      addTransfer y { goal := .pc t, dead := 3, boundary := b }
    Leaves (.br f) s (go x rel (decide (rel.toNat ≤ i.pc.toNat))) ∧
    Leaves (.call f) s (addResult (go x rel false) f.dst .s 0 1 (.s (i.pc + BitVec.ofNat 32 (4 * i.parcels)))) ∧
    (∀ (a : Word) (x1 : Ctx), readS x f.srcA = .ok (a, x1) →
      let t := a &&& 0xFFFFFFFC
      Leaves (.jmp f) s (go x1 t (decide (t.toNat ≤ (issuePc x1).toNat))) ∧
      (x1.handler = false → Leaves (.ret f) s (go x1 t false)) ∧
      (x1.handler = true →
        ∃ x', Leaves (.ret f) s x' ∧ x'.handler = false ∧ x'.tcause = 0 ∧ x'.tpc = 0 ∧ x'.tinfo = 0 ∧
          (∀ j, x1.issue = some j → ∃ j', x'.issue = some j' ∧
            j'.transfer = some { goal := .pc t, dead := 3, boundary := false })))

/-- R112, R113: the three loop instructions, by the count each takes; a transfer past an end bundle goes on after it,
by the size that its template gives; while that template is missing, the context stands at that bundle (log 115).
R115: `lbrk` pops the top entry and transfers past its end bundle, `lidx` gives the index at a depth; both take
UNDERFLOW with OPND 63 where the stack holds no such entry. -/
def Obligations.Loops : Prop :=
  ((∀ (s : State) (c : CtxId) (x : Ctx) (stop : Word),
     (∀ n, sizeAt s c { x with sizing := none } stop = some n →
       goTo s c x (.sized (.after stop)) = ({ x with sizing := none, pc := stop + BitVec.ofNat 32 (4 * n) }, false)) ∧
     (sizeAt s c { x with sizing := none } stop = none →
       goTo s c x (.sized (.after stop)) = ({ x with sizing := some (.after stop), pc := stop }, false))) ∧
   ∀ (s : State) (x : Ctx) (f : CFields), CHere s x f →
     LoopsBy (.loop f) s x x f (BitVec.ofNat 32 (f.imm.toNat % 2048)) ∧
     LoopsBy (.loopExtent f) s x x f (x.e[f.imm.toNat % 8]'(Nat.mod_lt _ (by decide))) ∧
     (∀ (a : Word) (x1 : Ctx), readS x f.srcA = .ok (a, x1) → LoopsBy (.loops f) s x x1 f a)) ∧
  (∀ (s : State) (x : Ctx) (f : CFields), CHere s x f →
     (x.loops = [] → exec (.lbrk f) s = .next (preciseTrap s x 0x05 0 63 none)) ∧
     (∀ e rest, x.loops = e :: rest →
       Leaves (.lbrk f) s (addTransfer { x with loops := rest } { goal := .sized (.after e.stop), dead := 3, boundary := true })) ∧
     (∀ e, x.loops[f.imm.toNat % 8]? = some e →
       Leaves (.lidx f) s (addResult x f.dst .s 0 1 (.s e.index))) ∧
     (x.loops.length ≤ f.imm.toNat % 8 → exec (.lidx f) s = .next (preciseTrap s x 0x05 0 63 none)))

/-- R116, R117, R118: `lbuf` ends an earlier pin, and the loop buffer pins the bytes of whole bundles once they are
all in the store; `bnd` is a boundary point; `skip`, a transfer of one dead cycle, moves past bundles when its flag is
set, where it meets the top loop entry's end bundle with the end check there, and does nothing when it is clear. -/
def Obligations.BufferBoundarySkip : Prop :=
  ∀ (s : State) (x : Ctx) (f : CFields) (i : Issue), CHere s x f → x.issue = some i →
    let next := i.pc + BitVec.ofNat 32 (4 * i.parcels)
    Leaves (.bnd f) s { x with issue := some { i with boundary := true } } ∧
    Leaves (.lbuf f) s { x with lbuf := none, sizing := some (.pin (f.imm.toNat % 128) next) } ∧
    (∀ (c : CtxId) (y : Ctx) (n : Nat) (stop : Word), let z := { y with sizing := none }
      spanBundles s c z n 256 next = .ok stop →
      (∀ k, k < (stop - next).toNat / 4 → (parcelAt s c z (next + BitVec.ofNat 32 (4 * k)).toNat).isSome) →
      settleSizing s c y (.pin n next) = .ok ({ z with lbuf := some (next.toNat, stop.toNat) }, false)) ∧
    (x.j.getLsbD (f.imm.toNat / 4096 % 16) = false → Leaves (.skip f) s x) ∧
    (x.j.getLsbD (f.imm.toNat / 4096 % 16) = true →
      let jump : Transfer := { goal := .sized (.skip (f.imm.toNat % 4096) next), dead := 2, boundary := false }
      Leaves (.skip f) s { x with issue := some { i with transfer := some jump } }) ∧
    (∀ (c : CtxId) (y : Ctx) (n : Nat) (ls : List LoopEntry) (t : Word) (b : Bool),
      skipTo s c { y with sizing := none } n next = .ok (ls, t, b) →
      goTo s c y (.sized (.skip n next)) = ({ y with sizing := none, loops := ls, pc := t }, b)) ∧
    (∀ (c : CtxId) (y : Ctx) (pc : Word), skipTo s c y 0 pc = .ok (y.loops, pc, false)) ∧
    ∀ (c : CtxId) (y : Ctx) (n k : Nat) (pc : Word), sizeAt s c y pc = some k →
      let past := pc + BitVec.ofNat 32 (4 * k)
      ((∀ e rest, y.loops = e :: rest → e.stop ≠ pc) → skipTo s c y (n + 1) pc = skipTo s c y n past) ∧
      (∀ e rest, y.loops = e :: rest → e.stop = pc → skipTo s c y (n + 1) pc = .ok (endCheck pc past y.loops))

/-- R132, R316, R317: `trap` is the SOFTWARE trap with its immediate in TINFO. With a handler named and the context
not in handler mode, the slice stands as before the bundle, in handler mode at HNDL, with TCAUSE, TPC and TINFO set. A
paired step in progress is abandoned with it (log 28); where none is, nothing else of the package changes. R124, R128,
R129, R131, R317: the instructions that end a slice wait from the end of their bundle, in its boundary point, and end
handler mode; a `yield` that asks for no cycles, or too many, traps; `budget` sets the task's budget. -/
def Obligations.SliceEndsAndTrap : Prop :=
  (∀ (s : State) (x u : Ctx) (f : CFields) (i : Issue), CHere s x f → x.issue = some i → s.undo = some u →
     (getRegion s u.region).hndl ≠ 0xFFFFFFFF → u.handler = false →
     ∃ t u', exec (.trap f) s = .next t ∧ getCtx t s.cur = some u' ∧ t.hbm = s.hbm ∧ t.regions = s.regions ∧ u'.handler = true ∧ u'.pc = (getRegion s u.region).hndl ∧
       u'.tcause = 0x0000000F ∧ u'.tpc = i.pc ∧ u'.tinfo = f.imm.setWidth 32 ∧ u'.sticky = [] ∧
       u'.v = u.v ∧ u'.s = u.s ∧ u'.p = u.p ∧ u'.loops = u.loops ∧ u'.tags = u.tags ∧
       (pairOpen u = false → (∀ d y, partnerCtx s s.cur u = some d → getCtx s d = some y → pairOpen y = false) →
         u.mate = none →
         t.slots = alSet s.slots s.cur u' ∧ t.cores = s.cores ∧ t.tasks = s.tasks ∧ u'.g = u.g ∧ u'.mq = u.mq ∧ u'.held = u.held)) ∧
  (∀ (s : State) (x : Ctx) (f : CFields), CHere s x f →
     let x' := fun (w : Wait) => addWait (addBoundary (leaveHandler x)) w
     Leaves (.tend f) s (x' .tend) ∧
     Leaves (.halt f) s (x' .halt) ∧
     (∀ t, getTask s x.task = some t → x.held = none → 0 < f.imm.toNat → f.imm.toNat ≤ t.budget →
       f.imm.toNat ≤ hdrYmax x.hdr →
       ∃ s', exec (.yield f) s = .next (setCtx s' s.cur (x' .yieldLand)) ∧ s'.slots = s.slots ∧ s'.hbm = s.hbm ∧
         s'.cores = s.cores ∧
         s'.tasks = s.tasks.map fun t => if t.uid = x.task then { t with run := f.imm.toNat, yieldPc := issuePc x } else t) ∧
     (f.imm = 0 → exec (.yield f) s = .next (preciseTrap s x 0x02 0 0 none)) ∧
     (f.imm ≠ 0 → hdrYmax x.hdr < f.imm.toNat → exec (.yield f) s = .next (preciseTrap s x 0x0B 0 0 none)) ∧
     (∀ (a : Word) (x1 : Ctx), readS x f.srcA = .ok (a, x1) → a ≠ 0 →
       exec (.budget f) s = .next (setCtx (modTask s x1.task fun t =>
         { t with budget := min a.toNat (getRegion s x1.region).cbudget }) s.cur x1)))

/-- R125, R305, R127: `spawn` and `view` complete. A `spawn` that names its own region or an admitted descendant,
whose die's pool has room, ends the spawner's current pieces, enters the child with its links, and gives the child's
handle before a hand-over wait, a boundary point; a child without readiness words whose descriptor is well formed is
READY. A `view` whose declaration keeps R126 and for which there is room adds a view whose offset is D, landing after
6 + SIZE ÷ 512 cycles. R120, R130, R349, R350: `codesw` and `commit` complete: each hands a command to the engine on
its tag; a `codesw` outside the spawner's region and its descendants, and a `commit` with an invalid record, one that
ends PROTECTION. Every `commit` sets the extents and skip flags and holds the context for 8 cycles, so that its next
issue is 9 cycles later (DEDUCED, log 71); a valid one moves the token position on, or takes RNG_EXHAUSTED, and with
REL detaches the snapshot at the end of its bundle, unless a `pvsnap` is on its way to its record. That the traps of a
`view` carry OPND 0 is the model's choice (log 34). -/
def Obligations.RecordsOfTheCSlot : Prop :=
  ((∀ (s : State) (x x1 : Ctx) (f : CFields) (a : Word), CHere s x f → readS x f.srcA = .ok (a, x1) →
     (∀ s1 x2 bs r tk, loadT s x1 0 (a.toNat / 128 * 128) 128 = (bs, s1, x2) →
       childRegion s1 x2.region (natOfBytes bs % 2 ^ 64) = some r → getTask s1 x2.task = some tk →
       let die := (getRegion s1 r).die
       let h := BitVec.ofNat 32 (freeIndex s1 die % 4096 + die % 8 * 4096)
       poolSize s1 die < 4096 →
       ∃ due s2 t, submitTask s1 s1.cur x2 bs = .child s2 h ∧
         exec (.spawn f) s = .next (setCtx t t.cur
           (addWait (addBoundary (addResult x2 f.dst .s 0 0 (.s h))) (.handover false due))) ∧
         t.tasks = s2.tasks ∧ t.pieces = s2.pieces ∧ t.hbm = s2.hbm ∧ t.cores = s2.cores ∧ t.slots = s2.slots) ∧
     (∀ s1 x2 bs, loadT s x1 0 (a.toNat / 128 * 128) 128 = (bs, s1, x2) →
       childRegion s1 x2.region (natOfBytes bs % 2 ^ 64) = none →
       exec (.spawn f) s = .next (preciseTrap s x 0x15 0 0 none)) ∧
     (∀ s1 x2 bs, loadT s x1 0 (a.toNat / 32 * 32) 32 = (bs, s1, x2) →
       let d := natOfBytes bs
       let size := d / 2 ^ 64 % 2 ^ 32
       let room := x2.views.length < 16 ∧ arenaUsed x2 + size ≤ hdrViews x2.hdr
       (viewDeclOk d = false → exec (.view f) s = .next (preciseTrap s x 0x02 0 0 none)) ∧
       (viewDeclOk d = true → ¬room → exec (.view f) s = .next (preciseTrap s x 0x08 0 0 none)) ∧
       (∀ t, viewDeclOk d = true → room → getTask s1 x2.task = some t →
         let v : View := { addr := BitVec.ofNat 64 d, size := size, etype := d / 2 ^ 96 % 256, op := d / 2 ^ 104 % 256
                           off := arenaStart x2 + arenaUsed x2 }
         ∃ u, exec (.view f) s = .next (setCtx u u.cur
             (addResult { x2 with views := x2.views ++ [v] } f.dst .s 0 (6 + size / 512) (.s (BitVec.ofNat 32 v.off)) true)) ∧
           (∃ p ∈ u.pieces, p.task = x2.task ∧ p.view = v ∧ p.ended = false) ∧ u.slots = s.slots ∧ u.hbm = s1.hbm ∧
           u.cores = s1.cores ∧ u.tasks = s1.tasks))) ∧
   (∀ (s : State) (r d : Nat) (path : List Nat) (parent lsib : Word), (∀ q ∈ s.tasks, q.uid ≠ s.fresh) →
     descFails (getRegion s r).hdr d = false → descWords d = [] →
     ∃ q ∈ (enterTask s r d none (some path) parent lsib).2.tasks, q.uid = s.fresh ∧ q.st = .ready ∧ q.region = r ∧
       q.die = (getRegion s r).die ∧ q.index = freeIndex s (getRegion s r).die ∧ q.path = path ∧ q.parent = parent ∧
       q.lsib = lsib ∧ q.budget = capBudget (getRegion s r) (d / 2 ^ 128 % 2 ^ 32) ∧
       q.deadline = (if d / 2 ^ 64 % 2 ^ 64 = 0 then s.now + (getRegion s r).dloff else d / 2 ^ 64 % 2 ^ 64))) ∧
  (∀ (s : State) (x x1 : Ctx) (f : CFields) (a : Word), CHere s x f → readS x f.srcA = .ok (a, x1) →
     let n := f.imm.toNat % 64
     let refused := fun (i : Instr) (kind : CmdKind) (y : Ctx) (p : Ctx → Prop) =>
       ∃ t x' k, exec i s = .next (setCtx t t.cur x') ∧ t.cur = s.cur ∧ k ∈ t.cmds ∧ k.kind = kind ∧ k.tag = n ∧
         k.task = x.task ∧ k.st = .ending ∧ k.status = 2 ∧ TagTakes y x' n ∧ p x' ∧ t.slots = s.slots ∧ t.hbm = s.hbm ∧
         t.cores = s.cores ∧ t.tasks = s.tasks
     (∀ s1 x2 bs, loadT s x1 0 (a.toNat / 16 * 16) 16 = (bs, s1, x2) →
       (∀ r, childRegion s1 x2.region (natOfBytes (bs.take 8)) = some r →
         Queues (.codesw f) s x2 .codesw n fun k => k.target = r ∧ k.recAddr = natOfBytes (bs.drop 8) % 2 ^ 56) ∧
       (childRegion s1 x2.region (natOfBytes (bs.take 8)) = none →
         refused (.codesw f) .codesw x2 fun _ => True)) ∧
     (∀ s1 x2 bs s2 x3 tb, loadT s x1 0 (a.toNat / 64 * 64) 64 = (bs, s1, x2) →
       let r := BitVec.ofNat 512 (natOfBytes bs)
       (if cmNemit r ≤ 8 then loadT s1 x2 0 (cmTokoff r) (8 * cmNemit r) else ([], s1, x2)) = (tb, s2, x3) →
       let ok := commitValid r (tokenEntries tb)
       let flags := fun (y : Ctx) => (∀ q, q < 16 → y.j.getLsbD q = r.getLsbD (128 + q)) ∧
         ∀ q, q < 8 → ¬(cmDen r = true ∧ q = cmDext r) → y.e.toList.getD q 0 = BitVec.ofNat 32 (r.toNat / 2 ^ (16 * q) % 2 ^ 16)
       let moves := fun (y : Ctx) (pos : Option Nat) => ∀ i, x3.issue = some i →
         ∃ j, y.issue = some j ∧ j.holdFor = 9 ∧ j.newRng = match pos with
           | some p => some p
           | none => i.newRng
       (ok = true → x3.rng.pos + cmNemit r < 2 ^ 40 →
         ∃ t x' k, exec (.commit f) s = .next (setCtx t t.cur x') ∧ t.cur = s.cur ∧ k ∈ t.cmds ∧ k.kind = .commit ∧ k.tag = n ∧
           k.task = x.task ∧ k.st = .queued ∧ k.record = r ∧ TagTakes x3 x' n ∧ flags x' ∧
           moves x' (some (x3.rng.pos + cmNemit r)) ∧ t.slots = s.slots ∧ t.hbm = s.hbm ∧ t.tasks = s.tasks ∧
           x'.snap = x3.snap ∧ (∀ j, x'.issue = some j → j.detach = (cmRel r && (pendingSnaps s x.task).isEmpty))) ∧
       (ok = true → 2 ^ 40 ≤ x3.rng.pos + cmNemit r → exec (.commit f) s = .next (preciseTrap s x 0x0E 0 0 none)) ∧
       (ok = false → refused (.commit f) .commit x3 fun y => flags y ∧ moves y none ∧ y.rng = x3.rng))) ∧
  (∀ (s : State) (x : Ctx) (i : Issue), Here s x → x.issue = some i →
     ∃ y, getCtx (finishIssue s) s.cur = some y ∧ y.snap = (if i.detach then none else x.snap) ∧ s.now + i.holdFor ≤ y.nextIssue)

/-- R141: loads from the window: the bytes at the address, low bits cleared, as a result of latency 6, or 10 for a
gather; each lane of a strided or gathered load has an address of its own. -/
def Obligations.ScratchLoads : Prop :=
  ∀ (s : State) (x : Ctx) (f : TFields), THere s x f →
    let ea := (x.seen.g.toList.getD f.gidx.toNat 0 + f.imm.signExtend 32).toNat
    let lane := fun (o : Word) => (BitVec.ofNat 32 ea + o).toNat / 4 * 4
    (∀ bs s1 x1, loadT s x 1 (ea / 64 * 64) 512 = (bs, s1, x1) →
      exec (.ldv f) s = .next (setCtx s1 s1.cur (addResult x1 f.dst .v 2 6 (.v (vecOfBytes bs))))) ∧
    (∀ bs s1 x1, loadT s x 1 (ea / 4 * 4) 4 = (bs, s1, x1) →
      exec (.lds f) s = .next (setCtx s1 s1.cur (addResult x1 f.dst .s 2 6 (.s (BitVec.ofNat 32 (natOfBytes bs)))))) ∧
    (∀ b x1 ws s2 x2, readS x f.srcB = .ok (b, x1) →
      loadLanes ((List.range 128).map fun i => lane (BitVec.ofNat 32 i * b)) s x1 = (ws, s2, x2) →
      exec (.ldvx f) s = .next (setCtx s2 s2.cur (addResult x2 f.dst .v 2 6 (.v (vpackE 32 ws))))) ∧
    (∀ v x1 ws s2 x2, readV x f.srcA = .ok (v, x1) →
      loadLanes ((velems 32 v).map fun o => lane (BitVec.ofNat 32 o)) s x1 = (ws, s2, x2) →
      exec (.gthv f) s = .next (setCtx s2 s2.cur (addResult x2 f.dst .v 2 10 (.v (vpackE 32 ws)))))

/-- R141: stores to the window, at the address with its low bits cleared, lanes ascending. The frame of `stv` and
`sts`, which store to EA with its low bits cleared: where the operand reads without a pop (a peek or a latch), nothing
of the slice changes but a held fault; no byte of the scratchpad outside the stored bytes changes, and no byte of HBM,
of another store or of another core. -/
def Obligations.ScratchStores : Prop :=
  (∀ (s : State) (x : Ctx) (f : TFields), THere s x f →
     let ea := (x.seen.g.toList.getD f.gidx.toNat 0 + f.imm.signExtend 32).toNat
     let lane := fun (o : Word) => (BitVec.ofNat 32 ea + o).toNat / 4 * 4
     (∀ v x1 s2 x2, readV x f.srcA = .ok (v, x1) → storeT s x1 (ea / 64 * 64) (vecBytes v) = (s2, x2) →
       exec (.stv f) s = .next (setCtx s2 s2.cur x2)) ∧
     (∀ w x1 s2 x2, readS x f.srcA = .ok (w, x1) → storeT s x1 (ea / 4 * 4) (bytesOf 4 w.toNat) = (s2, x2) →
       exec (.sts f) s = .next (setCtx s2 s2.cur x2)) ∧
     (∀ v x1 b x2 s3 x3, readV x f.srcA = .ok (v, x1) → readS x1 f.srcB = .ok (b, x2) →
       storeLanes (((List.range 128).map fun i => lane (BitVec.ofNat 32 i * b)).zip (velems 32 v)) s x2 = (s3, x3) →
       exec (.stvx f) s = .next (setCtx s3 s3.cur x3)) ∧
     (∀ v x1 b x2 s3 x3, readV x f.srcA = .ok (v, x1) → readV x1 f.srcB = .ok (b, x2) →
       storeLanes (((velems 32 b).map fun o => lane (BitVec.ofNat 32 o)).zip (velems 32 v)) s x2 = (s3, x3) →
       exec (.sctv f) s = .next (setCtx s3 s3.cur x3))) ∧
  (∀ (s t : State) (x : Ctx) (f : TFields), THere s x f → 64 ∣ hdrScratch x.hdr →
     let ea := (x.seen.g.toList.getD f.gidx.toNat 0 + f.imm.signExtend 32).toNat
     let frame := fun (lo n : Nat) => ∃ x', getCtx t s.cur = some x' ∧ SameButHeld x x' ∧
       (∀ p, p < x.window + lo ∨ x.window + lo + n ≤ p →
         memGet (getCore t s.cur.core).scratch p = memGet (getCore s s.cur.core).scratch p) ∧
       (getCore t s.cur.core).opmem = (getCore s s.cur.core).opmem ∧
       (getCore t s.cur.core).acc = (getCore s s.cur.core).acc ∧
       (∀ c, c ≠ s.cur.core → getCore t c = getCore s c) ∧
       (∀ c, c ≠ s.cur → getCtx t c = getCtx s c) ∧ t.hbm = s.hbm ∧ t.tasks = s.tasks ∧ t.regions = s.regions
     (∀ v, readV x f.srcA = .ok (v, x) → exec (.stv f) s = .next t → frame (ea / 64 * 64) 512) ∧
     (∀ w, readS x f.srcA = .ok (w, x) → exec (.sts f) s = .next t → frame (ea / 4 * 4) 4))

/-- R137: what a load of a range gives: each byte of the window, zero where the byte faults; the range's first fault
held unless one is held already; nothing of any store changes. R137: what a store to a range does: every byte that
does not fault takes its new value, every other byte of the scratchpad, and everything in HBM, in the other stores of
the core and in the other cores, reads as before. -/
def Obligations.WindowAccess : Prop :=
  (∀ (s : State) (x : Ctx) (slot a n : Nat), 64 ∣ hdrScratch x.hdr →
     (∀ r ∈ s.log, r.space ≠ .scratch s.cur.core) → Memory.wf (getCore s s.cur.core).scratch = true →
     ∃ bs x', loadT s x slot a n = (bs, s, x') ∧ bs.length = n ∧
       (∀ i, i < n → bs.getD i 0 =
         if (byteFault x (a + i)).isSome then 0 else memGet (getCore s s.cur.core).scratch (x.window + a + i)) ∧
       (x.held.isSome = true → x' = x) ∧
       (x.held = none → (∀ i, i < n → byteFault x (a + i) = none) → x' = x) ∧
       (x.held = none → ∀ i c, i < n → byteFault x (a + i) = some c → (∀ j, j < i → byteFault x (a + j) = none) →
         x' = { x with held := some { who := none, code := c, slot := slot, opnd := 0, tinfo := granuleInfo x (a + i) } })) ∧
  (∀ (s : State) (x : Ctx) (a : Nat) (bs : List Byte), 64 ∣ hdrScratch x.hdr →
     ∃ s' x', storeT s x a bs = (s', x') ∧
       (∀ p, memGet (getCore s' s.cur.core).scratch p =
         if x.window + a ≤ p ∧ p < x.window + a + bs.length ∧ (byteFault x (p - x.window)).isNone
         then bs.getD (p - (x.window + a)) 0 else memGet (getCore s s.cur.core).scratch p) ∧
       (getCore s' s.cur.core).opmem = (getCore s s.cur.core).opmem ∧
       (getCore s' s.cur.core).acc = (getCore s s.cur.core).acc ∧
       (∀ c, c ≠ s.cur.core → getCore s' c = getCore s c) ∧
       s'.hbm = s.hbm ∧ s'.slots = s.slots ∧ s'.tasks = s.tasks ∧ s'.regions = s.regions ∧ s'.cmds = s.cmds)

/-- R88, R139, R142, R143: operand slots and accumulator tiles that the kernel declares: claims, fills with their busy
cycles and the tile port's, the store of a tile, the clear. -/
def Obligations.OperandMemory : Prop :=
  ∀ (s : State) (x : Ctx) (f : TFields), THere s x f →
    let n := f.dst.toNat % 16
    let ea := (x.seen.g.toList.getD f.gidx.toNat 0 + f.imm.signExtend 32).toNat / 64 * 64
    let ag := Agent.ctx x.task
    (n < hdrOsl x.hdr →
      (∃ m : BitVec 16, Leaves (.oclm f) s { x with claimed := m } ∧
        ∀ i, i < 16 → m.getLsbD i = if i = n then true else x.claimed.getLsbD i) ∧
      (∃ m : BitVec 16, Leaves (.orel f) s { x with claimed := m } ∧
        ∀ i, i < 16 → m.getLsbD i = if i = n then false else x.claimed.getLsbD i) ∧
      (x.claimed.getLsbD n = true →
        (∀ bs s1 x1, loadT s x 1 ea 8192 = (bs, s1, x1) →
          ∃ t, exec (.old f) s = .next (setCtx t t.cur { x1 with slotBusy := x1.slotBusy.setIfInBounds n (s1.now + 16) }) ∧
            t = takePort (writeAs s1 (.ctx x1.task) (.opmem s1.cur.core) (8192 * (x1.slotBase + n)) bs) 16) ∧
        (∀ b x1 bs s1 x2, readS x f.srcB = .ok (b, x1) →
          let first := b.toNat % 16
          let c := b.toNat / 16 % 16 + 1
          loadT s x1 1 ea (512 * c) = (bs, s1, x2) →
          ∃ t, exec (.oldp f) s = .next (setCtx t t.cur { x2 with slotBusy := x2.slotBusy.setIfInBounds n (t.now + c) }) ∧
            t = takePort (writeAs s1 (.ctx x2.task) (.opmem s1.cur.core) (8192 * (x2.slotBase + n) + 512 * first)
              (bs.take (512 * (16 - first)))) c))) ∧
    (n < hdrZt x.hdr →
      (∀ bs s1 x1, loadT s x 1 ea 16384 = (bs, s1, x1) →
        ∃ t, exec (.zld f) s = .next (setCtx t t.cur { x1 with accBusyT := x1.accBusyT.setIfInBounds n (t.now + 32) }) ∧
          t = takePort (writeAs s1 (.ctx x1.task) (.acc s1.cur.core) (16384 * (x1.tileBase + n)) bs) 32) ∧
      (∀ bs s1 s2 x1, readAs s ag (.acc s.cur.core) (16384 * (x.tileBase + n)) 16384 = (bs, s1) →
        storeT s1 x ea bs = (s2, x1) →
        exec (.zst f) s = .next (setCtx (takePort s2 32) s2.cur { x1 with zstUntil := s2.now + 32, zstLo := ea })) ∧
      (exec (.zclr f) s = .next (setCtx (writeAs s ag (.acc s.cur.core) (16384 * (x.tileBase + n)) (List.replicate 16384 0))
        s.cur { x with accBusyT := x.accBusyT.setIfInBounds n (s.now + 2) })))

/-- R161: `grd` marks and `grdc` clears the named granules inside the window, for the accesses of the next cycle on;
no other granule's mark changes. R156: tag instructions on declared tags, which read the tags as they stood before the
bundle (log 125). The reads of a tag observe it; `cclr` makes every tag of the range that is not BUSY idle, and
changes no other. R157, R158: barrier instructions on a declared barrier with no fault held: with no publication of
the slice pending and none of its earlier `copya`, `copyf` and `pvpub` of the barrier's scope to be performed, an
arrival and the recorded phase, the wait that ends, a drop and a join; behind one of those the change waits for it
(R159; R290, DEDUCED, log 117). A fault that was held when the bundle was offered is reported first (R137). R157: an
arrival counts, and flips the barrier when the expected arrivals have come: the phase goes on, the expected count
takes the pending change within 0 and 65,535; an idle barrier discards it. -/
def Obligations.GuardsTagsBarriers : Prop :=
  (∀ (s : State) (x x1 : Ctx) (f : TFields) (b : Word), THere s x f → readS x f.srcB = .ok (b, x1) →
     let g := (x1.seen.g.toList.getD f.gidx.toNat 0 + f.imm.signExtend 32).toNat / 64
     let named := fun (k : Nat) => g ≤ k ∧ k < g + b.toNat ∧ k < hdrScratch x1.hdr / 64
     (∃ x', Leaves (.grd f) s x' ∧ x'.guards = x1.guards ∧ ∀ k, k ∈ dueGuards x' ↔ (named k ∨ k ∈ dueGuards x1)) ∧
     (∃ x', Leaves (.grdc f) s x' ∧ x'.guards = x1.guards ∧ ∀ k, k ∈ dueGuards x' ↔ (¬named k ∧ k ∈ dueGuards x1)) ∧
     (x1.held = none → hdrScratch x1.hdr / 64 < g + b.toNat → b ≠ 0 →
       ∃ x' h, Leaves (.grd f) s x' ∧ x'.held = some h ∧ h.code = 0x11)) ∧
  (∀ (s : State) (x : Ctx) (f : TFields), THere s x f →
     let first := f.imm.toNat % 64
     let count := f.imm.toNat / 64 % 64 + 1
     let ns := (List.range count).map (first + ·)
     let ag := Agent.ctx x.task
     let y := undone s x
     let low := ns.find? fun n => (getTag y n).st = .done
     let w : Word := match low with
       | some n => BitVec.ofNat 32 n
       | none => 0xFFFFFFFF
     let seen := fun (l : List Nat) (y : Ctx) => let t := observeTags s ag x.task l; setCtx t t.cur y
     (first + count ≤ hdrTags x.hdr →
       ((∀ n ∈ ns, (getTag y n).st ≠ .busy) → exec (.cwait f) s = .next (seen ns (addBoundary x))) ∧
       ((∃ n ∈ ns, (getTag y n).st = .busy) →
         exec (.cwait f) s = .next (holdBundle s s.cur (undone s x) (.tag first count false))) ∧
       ((low.isSome = true ∨ ∀ n ∈ ns, (getTag y n).st ≠ .busy) →
         exec (.cany f) s = .next (seen low.toList (addResult (addBoundary x) f.dst .s 2 2 (.s w)))) ∧
       (low = none → (∃ n ∈ ns, (getTag y n).st = .busy) →
         exec (.cany f) s = .next (holdBundle s s.cur (undone s x) (.tag first count true))) ∧
       exec (.cfirst f) s = .next (seen low.toList (addResult x f.dst .s 2 2 (.s w))) ∧
       (∃ t x', exec (.cclr f) s = .next (setCtx t t.cur x') ∧ t.cur = s.cur ∧ t.slots = s.slots ∧ t.hbm = s.hbm ∧
         t.cores = s.cores ∧ t.tasks = s.tasks ∧
         (∀ n, n < 64 → n ∈ ns → (getTag x n).st ≠ .busy → getTag x' n = { st := .idle, count := 0, status := 0 }) ∧
         (∀ n, n ∉ ns ∨ (getTag x n).st = .busy → getTag x' n = getTag x n))) ∧
     (first < hdrTags x.hdr → ∃ t, exec (.cstat f) s = .next (setCtx t t.cur (addResult x f.dst .s 2 2 (.s (BitVec.ofNat 32
         ((getTag y first).status.toNat + 256 * (match (getTag y first).st with | .idle => 0 | .busy => 1 | .done => 2) +
           1024 * ((getTag y first).count % 256)))))) ∧ t.hbm = s.hbm ∧ t.cores = s.cores) ∧
     (32 * (f.imm.toNat % 2) < hdrTags x.hdr →
       ∃ t v, exec (.ctags f) s = .next (setCtx t t.cur (addResult x f.dst .s 2 2 (.s v))) ∧
         (∀ i, i < 32 → (v.getLsbD i = true ↔
           (32 * (f.imm.toNat % 2) + i < hdrTags y.hdr ∧ (getTag y (32 * (f.imm.toNat % 2) + i)).st = .done))) ∧
         t.hbm = s.hbm ∧ t.cores = s.cores)) ∧
  (∀ (s : State) (x : Ctx) (f : TFields), THere s x f → (f.mod = 1 ∨ f.mod = 2) →
     let die := decide (f.mod = 2)
     let n := f.imm.toNat % 64
     let m := f.imm.toNat / 64 % 1024
     let k := barOf s x.region s.cur.core die n
     let b := getBar s k
     let rec' := { x with records := alSet x.records (die, n) b.phase }
     n < (if die then hdrDbar x.hdr else hdrCbar x.hdr) →
     (∀ h, (undone s x).held = some h →
       exec (.barr f) s = .next (reportHeld s x h) ∧ exec (.barw f) s = .next (reportHeld s x h) ∧
       exec (.bard f) s = .next (reportHeld s x h) ∧ exec (.barj f) s = .next (reportHeld s x h)) ∧
     let earlier := syncsBefore s (.ctx x.task) (if die then 2 else 1)
     ((undone s x).held = none → pendingPubs s (.ctx x.task) = [] → earlier = [] →
       (∃ t, exec (.barr f) s = .next (setCtx t t.cur rec') ∧ t.hbm = s.hbm ∧ t.cores = s.cores ∧
         getBar t k = arriveBar s.now { b with pending := satPending b.pending }) ∧
       (∃ t, exec (.bard f) s = .next (setCtx t t.cur rec') ∧ t.hbm = s.hbm ∧ t.cores = s.cores ∧
         getBar t k = arriveBar s.now { b with pending := satPending (b.pending - m) }) ∧
       (0 < m → ∃ t, exec (.barj f) s = .next (setCtx t t.cur x) ∧ t.hbm = s.hbm ∧ t.cores = s.cores ∧
         getBar t k = if b.e = 0 then { b with e := m } else { b with pending := satPending (b.pending + m) })) ∧
     ((undone s x).held = none → pendingPubs s (.ctx x.task) ≠ [] ∨ earlier ≠ [] →
       let waits := fun (i : Instr) (y : Ctx) (n : Int) =>
         ∃ t p, exec i s = .next (setCtx t t.cur y) ∧ p ∈ t.pubs ∧ p.agent = .ctx x.task ∧ p.arrive = some (k, n) ∧
           (∀ q ∈ earlier, q ∈ p.after) ∧ t.cbars = s.cbars ∧ t.dbars = s.dbars
       waits (.barr f) rec' 0 ∧ waits (.bard f) rec' m ∧ waits (.barj f) x (-m)) ∧
     ((undone s x).held = none → alGet x.records (die, n) = none → x.awaited = none →
       exec (.barw f) s = .next (holdBundle s s.cur (undone s x) (.barrier die n b.phase))) ∧
     (∀ r, (undone s x).held = none → alGet x.records (die, n) = some r →
       ((b.phase ≠ r → b.flipAt + (if die then 12 else 4) ≤ s.now →
         ∃ t, exec (.barw f) s = .next (setCtx t t.cur { addBoundary x with awaited := none }) ∧
           t.hbm = s.hbm ∧ t.cores = s.cores) ∧
        (b.phase = r → exec (.barw f) s = .next (holdBundle s s.cur (undone s x) (.barrier die n r)))))) ∧
  (∀ (now : Nat) (b : Bar),
     (b.e = 0 → arriveBar now b = b) ∧
     (b.arrivals + 1 < b.e → arriveBar now b = { b with arrivals := b.arrivals + 1 }) ∧
     (0 < b.e → b.e ≤ b.arrivals + 1 →
       arriveBar now b =
         { e := (max 0 (min 65535 ((b.e : Int) + b.pending))).toNat, arrivals := 0, phase := b.phase + 1, pending := 0
           flipAt := now }))

/-- R144, R155, R160: the commands of the T slot on a declared tag: the record is read at its address as it stands,
the command is queued at the engine, and its tag is BUSY with one command more. R160, R258, R354, R357: the policy
instructions in a region with a partition, `ifill` of an address inside the image, and `phase`; without a partition
the policy instructions take PRIVILEGED. A `pvsnap` reserves D with a placeholder of 0 and goes to its record, which
it reaches in the next cycle (the model's choice, log 55): D receives the version when the record applies it, which
TimeoutsAndRecords states. -/
def Obligations.CommandIssue : Prop :=
  (∀ (s : State) (x : Ctx) (f : TFields), THere s x f →
     let n := f.imm.toNat % 64
     let ra := recordAddr x f
     let takes := fun (k : Cmd) => k.recAddr = ra ∧ k.record = BitVec.ofNat 512 (natOfBytes (loadT s x 1 ra 64).1)
     n < hdrTags x.hdr →
     Queues (.copy f) s x .copy n takes ∧ Queues (.copym f) s x .copym n takes ∧
     Queues (.copyr f) s x .copyr n takes ∧ Queues (.copyd f) s x .copyd n takes ∧
     Queues (.copya f) s x .copya n takes ∧ Queues (.copyfFill f) s x .copyf n takes ∧
     Queues (.copyfDrain f) s x .copyf n takes ∧ Queues (.copyfReadfull f) s x .copyf n takes ∧
     Queues (.copyfEmpty f) s x .copyf n takes ∧ Queues (.aqry f) s x .aqry n takes ∧
     Queues (.kvap f) s x .kvap n takes ∧ Queues (.kvmsk f) s x .kvmsk n takes ∧
     Queues (.kvtrMove f) s x .kvtr n takes ∧ Queues (.kvtrCompact f) s x .kvtr n takes ∧
     Queues (.kvtrTrim f) s x .kvtr n takes ∧ Queues (.kvtrPshare f) s x .kvtr n takes ∧
     (∀ v x1, readV x f.srcA = .ok (v, x1) →
       Queues (.copyq f) s x1 .copyq n fun k => k.recAddr = ra ∧ k.data = vecBytes v)) ∧
  (∀ (s : State) (x : Ctx) (f : TFields), THere s x f →
     let n := f.imm.toNat % 64
     (∀ p, (getRegion s x.region).part = some p →
       (∃ t id, exec (.pvsnap f) s = .next (setCtx t t.cur (addResult x f.dst .s 2 0 (.s 0))) ∧
         t.partOps = s.partOps ++ [(p, s.now, .snapshot x.task id)] ∧ t.hbm = s.hbm ∧ t.cores = s.cores) ∧
       Leaves (.pvrd f) s (addResult x f.dst .s 2 8 (.s (getPart s p).ver)) ∧
       (∀ a x1, readS x f.srcA = .ok (a, x1) → n < hdrTags x.hdr →
         Queues (.pvpub f) s x1 .pvpub n fun k => k.recAddr = a.toNat)) ∧
     ((getRegion s x.region).part = none → n < hdrTags x.hdr →
       exec (.pvsnap f) s = .next (preciseTrap s x 0x15 1 0 none) ∧
       exec (.pvpub f) s = .next (preciseTrap s x 0x15 1 0 none) ∧
       exec (.pvrd f) s = .next (preciseTrap s x 0x15 1 0 none)) ∧
     (∀ a x1, readS x f.srcA = .ok (a, x1) → n < hdrTags x.hdr → a.toNat < hdrImglen x1.hdr →
       ∃ t x' k, exec (.ifill f) s = .next (setCtx t t.cur x') ∧ k ∈ t.cmds ∧ k.kind = .ifill ∧ k.tag = n ∧
         k.recAddr = (x1.image + a.toNat) / 4096 * 4096 ∧ TagTakes x1 x' n) ∧
     (∃ t p, exec (.phase f) s = .next (setCtx t t.cur x) ∧ t.pubs = s.pubs ++ [p] ∧ p.agent = .ctx x.task ∧
       p.arrive = none ∧ p.writes = boundaryWrites s (.ctx x.task) ∧
       p.insts = boundaryInsts s (.ctx x.task) f.mod.toNat ∧ t.hbm = s.hbm ∧ t.cores = s.cores))

/-- R169, R170, R173, R174, R177, R181, R184: integer elements: the exact result wrapped, or saturated under the flag,
of latency 2; minimum, maximum, absolute value, negation, the high half of a product, the clamp, the counts. -/
def Obligations.VectorIntegers : Prop :=
  ∀ (s : State) (x x1 : Ctx) (f : VFields) (a : Vec), VHere s x f → f.type.toNat < 8 → readV x f.srcA = .ok (a, x1) →
    let t := f.type.toNat
    let w := typeWidth t
    let sat := f.imm8.getLsbD 0
    let A := fun n => intVal t (elemW w a.toNat n)
    let out := fun (i : Int) => narrowInt sat t i
    let one := fun (i : Instr) (h : Nat → Nat) => VLanes i s x1 f 2 w h
    one (.vabs f) (fun n => out (A n).natAbs) ∧
    one (.vneg f) (fun n => out (-(A n))) ∧
    one (.vclz f) (fun n => if elemW w a.toNat n = 0 then w else w - 1 - (elemW w a.toNat n).log2) ∧
    one (.vpopc f) (fun n => ((List.range w).filter fun i => (elemW w a.toNat n).testBit i).length) ∧
    (f.stype.toNat < 8 →
      let u := f.stype.toNat
      VLanes (.vsat f) s x1 f 2 (typeWidth u) (fun n =>
        wrapI (typeWidth u) (clampI (max (intRange t).1 (intRange u).1) (min (intRange t).2 (intRange u).2)
          (intVal u (elemW (typeWidth u) a.toNat n))))) ∧
    ∀ (x2 : Ctx) (b : Vec), readV x1 f.srcB = .ok (b, x2) →
      let B := fun n => intVal t (elemW w b.toNat n)
      let two := fun (i : Instr) (h : Nat → Nat) => VLanes i s x2 f 2 w h
      two (.vadd f) (fun n => out (A n + B n)) ∧
      two (.vsub f) (fun n => out (A n - B n)) ∧
      two (.vmul f) (fun n => out (A n * B n)) ∧
      two (.vmin f) (fun n => wrapI w (min (A n) (B n))) ∧
      two (.vmax f) (fun n => wrapI w (max (A n) (B n))) ∧
      two (.vmulh f) (fun n => wrapI w (A n * B n / 2 ^ w)) ∧
      (∀ c x3, readV x2 f.srcC = .ok (c, x3) →
        let C := fun n => intVal t (elemW w c.toNat n)
        VLanes (.vfma f) s x3 f 2 w (fun n => out (A n * B n + C n)) ∧
        VLanes (.vfms f) s x3 f 2 w (fun n => out (A n * B n - C n)) ∧
        VLanes (.vfnm f) s x3 f 2 w (fun n => out (C n - A n * B n)))

/-- R46, R168, R170, R173, R175, R178, R183: floating elements: the exact result rounded once in the mode of `fmt`,
saturated under its SAT bit; latency 4, or 6 for FP64, and 12 for the divide class. -/
def Obligations.VectorFloats : Prop :=
  ∀ (s : State) (x x1 : Ctx) (f : VFields) (a : Vec), VHere s x f → 8 ≤ f.type.toNat → f.type.toNat < 12 →
    readV x f.srcA = .ok (a, x1) →
    let t := f.type.toNat
    let w := typeWidth t
    let F := fmtOfType t
    let rm := rndOf (field x.seen.fmt 10 9)
    let out := fun (v : FVal) => fround F rm (x.seen.fmt.getLsbD 11) v
    let A := fun n => fdec F (elemW w a.toNat n)
    let lat := if t = 11 then 6 else 4
    let one := fun (i : Instr) (l : Nat) (h : Nat → Nat) => VLanes i s x1 f l w h
    one (.vabs f) lat (fun n => if fisNan F (elemW w a.toNat n) then F.nanBits else elemW w a.toNat n % 2 ^ (w - 1)) ∧
    one (.vneg f) lat (fun n => if fisNan F (elemW w a.toNat n) then F.nanBits
      else if (elemW w a.toNat n).testBit (w - 1) then elemW w a.toNat n - 2 ^ (w - 1) else elemW w a.toNat n + 2 ^ (w - 1)) ∧
    one (.vrcp f) 12 (fun n => out (fdiv (fofInt 1) (A n))) ∧
    one (.vrsq f) 12 (fun n => out (frsqrt (A n))) ∧
    one (.vsqrt f) 12 (fun n => out (fsqrt (A n))) ∧
    one (.vrnd f) lat (fun n => vrndE F (if f.imm8.toNat % 8 = 4 then rm else rndOf f.imm8.toNat) (elemW w a.toNat n)) ∧
    VLanes (.vclass f) s x1 f 2 w (fun n =>
      let e := elemW w a.toNat n
      let minus := e.testBit (w - 1)
      let fr := e % 2 ^ F.fbits
      2 ^ (if e / 2 ^ F.fbits % 2 ^ F.ebits = 2 ^ F.ebits - 1 then
            (if fr = 0 then (if minus then 0 else 7) else if fr.testBit (F.fbits - 1) then 9 else 8)
          else if e / 2 ^ F.fbits % 2 ^ F.ebits = 0 then (if fr = 0 then (if minus then 3 else 4) else if minus then 2 else 5)
          else if minus then 1 else 6)) ∧
    ∀ (x2 : Ctx) (b : Vec), readV x1 f.srcB = .ok (b, x2) →
      let B := fun n => fdec F (elemW w b.toNat n)
      let two := fun (i : Instr) (l : Nat) (h : Nat → Nat) => VLanes i s x2 f l w h
      two (.vadd f) lat (fun n => out (fsum rm [A n, B n])) ∧
      two (.vsub f) lat (fun n => out (fsum rm [A n, fneg (B n)])) ∧
      two (.vmul f) lat (fun n => out (fmul (A n) (B n))) ∧
      two (.vmin f) lat (fun n => fminB F (elemW w a.toNat n) (elemW w b.toNat n)) ∧
      two (.vmax f) lat (fun n => fmaxB F (elemW w a.toNat n) (elemW w b.toNat n)) ∧
      two (.vdiv f) 12 (fun n => out (fdiv (A n) (B n))) ∧
      two (.vscale f) lat (fun n => out (fscale (A n) (sext w (elemW w b.toNat n)))) ∧
      (∀ c x3, readV x2 f.srcC = .ok (c, x3) →
        let C := fun n => fdec F (elemW w c.toNat n)
        VLanes (.vfma f) s x3 f lat w (fun n => out (fsum rm [fmul (A n) (B n), C n])) ∧
        VLanes (.vfms f) s x3 f lat w (fun n => out (fsum rm [fmul (A n) (B n), fneg (C n)])) ∧
        VLanes (.vfnm f) s x3 f lat w (fun n => out (fsum rm [C n, fneg (fmul (A n) (B n))])))

/-- R176, R177, R179, R180, R185: compares give all ones or zeros, selects pick by a mask, conversions between any two
types, packing and unpacking, the paired dot product. -/
def Obligations.VectorSelectConvert : Prop :=
  ∀ (s : State) (x x1 : Ctx) (f : VFields) (a : Vec), VHere s x f → f.type.toNat < 12 → readV x f.srcA = .ok (a, x1) →
    let t := f.type.toNat
    let u := f.stype.toNat
    let w := typeWidth t
    let lat := if t = 11 then 6 else if 8 ≤ t then 4 else 2
    let clat := if t = 11 ∨ u = 11 then 6 else if 8 ≤ t ∨ (8 ≤ u ∧ u < 12) then 4 else 2
    (u < 12 → typeWidth u = w →
      VLanes (.vcvt f) s x1 f clat w (fun n => conv x u t (elemW w a.toNat n))) ∧
    (u < 12 → 2 * typeWidth u = w →
      VLanes (.vunpk f) s x1 f clat w (fun n => conv x u t (elemW (w / 2) a.toNat (4096 / w * (f.imm8.toNat % 2) + n)))) ∧
    (t = 0 → u = 12 → VLanes (.vunpk f) s x1 f 2 8 (fun n =>
      wrapI 8 (sext 4 (elemW 4 a.toNat (512 * (f.imm8.toNat % 2) + n))))) ∧
    (t = 0 → u = 13 → VLanes (.vunpk f) s x1 f 2 8 (fun n => wrapI 8 (sext 6 (elemW 6 a.toNat n)))) ∧
    ∀ (x2 : Ctx) (b : Vec), readV x1 f.srcB = .ok (b, x2) →
    VLanes (.vcmp f) s x2 f lat w (fun n =>
      if vcond t (f.imm8.toNat % 8) (elemW w a.toNat n) (elemW w b.toNat n) then 2 ^ w - 1 else 0) ∧
    (u < 12 → typeWidth u = 2 * w →
      VLanes (.vpack f) s x2 f clat w (fun n => conv x u t
        (if n < 2048 / w then elemW (2 * w) a.toNat n else elemW (2 * w) b.toNat (n - 2048 / w)))) ∧
    (∀ c x3, readV x2 f.srcC = .ok (c, x3) →
      VLanes (.vsel f) s x3 f 2 w (fun n =>
        if elemW w c.toNat n = 0 then elemW w b.toNat n else elemW w a.toNat n) ∧
      (t = 1 → VLanes (.vdot2 f) s x3 f 2 32 (fun n => narrowInt (f.imm8.getLsbD 0) 2
        (sext 16 (elemW 16 a.toNat (2 * n)) * sext 16 (elemW 16 b.toNat (2 * n)) +
         sext 16 (elemW 16 a.toNat (2 * n + 1)) * sext 16 (elemW 16 b.toNat (2 * n + 1)) +
         sext 32 (elemW 32 c.toNat n)))) ∧
      (t = 8 ∨ t = 9 → VLanes (.vdot2 f) s x3 f 4 32 (fun n =>
        let G := fmtOfType t
        let rm := rndOf (field x.seen.fmt 10 9)
        fround f32 rm (x.seen.fmt.getLsbD 11) (fsum rm
          [fmul (fdec G (elemW 16 a.toNat (2 * n))) (fdec G (elemW 16 b.toNat (2 * n))),
           fmul (fdec G (elemW 16 a.toNat (2 * n + 1))) (fdec G (elemW 16 b.toNat (2 * n + 1))),
           fdec f32 (elemW 32 c.toNat n)]))))

/-- R186, R187: a word in every element, and element numbers. R184: bitwise instructions and shifts, counts modulo the
width in the register form. R186 to R192: movement of elements and bit planes. -/
def Obligations.VectorBitsAndMoves : Prop :=
  ((∀ f : VFields, vInstr 0x21 f = some (.vbcast f) ∧ vInstr 0x2D f = some (.viota f) ∧
     ((SlotForm.v 0x21 f).legal = true → f.type.toNat < 12 ∧ f.imm8 = 0 ∧ (typeWidth f.type.toNat < 64 → f.srcB = 0)) ∧
     ((SlotForm.v 0x2D f).legal = true → f.type.toNat < 8)) ∧
   ∀ (s : State) (x x1 : Ctx) (f : VFields) (a : Word), VHere s x f → f.type.toNat < 12 →
     readS x f.srcA = .ok (a, x1) →
     let w := typeWidth f.type.toNat
     (w < 64 → VLanes (.vbcast f) s x1 f 2 w (fun _ => a.toNat)) ∧
     (w = 64 → ∀ b x2, readS x1 f.srcB = .ok (b, x2) →
       VLanes (.vbcast f) s x2 f 2 64 (fun _ => a.toNat + 2 ^ 32 * b.toNat)) ∧
     (f.type.toNat < 8 → VLanes (.viota f) s x1 f 2 w (fun n =>
       wrapI w ((if f.type.toNat = 3 then a.toInt else (a.toNat : Int)) + n * f.imm8.toNat)))) ∧
  (∀ (s : State) (x x1 : Ctx) (f : VFields) (a : Vec), VHere s x f → f.type.toNat < 8 →
     readV x f.srcA = .ok (a, x1) →
     let t := f.type.toNat
     let w := typeWidth t
     let A := fun n => elemW w a.toNat n
     let k := f.imm8.toNat % 64
     let res := fun (y : Ctx) (v : Vec) => addResult y f.dst .v 4 2 (.v v)
     VLanes (.vshlImm f) s x1 f 2 w (fun n => A n * 2 ^ k) ∧
     VLanes (.vshrImm f) s x1 f 2 w (fun n => A n / 2 ^ k) ∧
     VLanes (.vsraImm f) s x1 f 2 w (fun n => wrapI w (sext w (A n) / 2 ^ k)) ∧
     (∀ b x2, readV x1 f.srcB = .ok (b, x2) →
       let c := fun n => elemW w b.toNat n % w
       Leaves (.vand f) s (res x2 (a &&& b)) ∧ Leaves (.vor f) s (res x2 (a ||| b)) ∧
       Leaves (.vxor f) s (res x2 (a ^^^ b)) ∧ Leaves (.vandn f) s (res x2 (a &&& ~~~b)) ∧
       VLanes (.vshl f) s x2 f 2 w (fun n => A n * 2 ^ c n) ∧
       VLanes (.vshr f) s x2 f 2 w (fun n => A n / 2 ^ c n) ∧
       VLanes (.vsra f) s x2 f 2 w (fun n => wrapI w (sext w (A n) / 2 ^ c n)))) ∧
  (∀ (s : State) (x x1 : Ctx) (f : VFields) (a : Vec), VHere s x f → readV x f.srcA = .ok (a, x1) →
     let w := typeWidth f.type.toNat
     let m := 4096 / w
     let A := fun n => elemW w a.toNat n
     let im := f.imm8.toNat
     Leaves (.vmov f) s (addResult x1 f.dst .v 4 2 (.v a)) ∧
     Leaves (.vlane f) s (addResult x1 f.dst .s 4 2 (.s (vlane a (im % 128)))) ∧
     (f.type.toNat < 12 → VLanes (.vrev f) s x1 f 2 w (fun n => A (m - 1 - n))) ∧
     (∀ b x2, readS x1 f.srcB = .ok (b, x2) →
       VLanes (.vins f) s x2 f 2 32 (fun n => if n = im % 128 then b.toNat else elemW 32 a.toNat n)) ∧
     (∀ c x2, readV x1 f.srcC = .ok (c, x2) →
       VLanes (.vplc f) s x2 f 2 8 (fun n => wrapI 8 (elemW 8 c.toNat n +
         (if a.toNat.testBit (512 * (im / 8 % 8) + n) then (if im % 8 = 0 then -128 else 2 ^ (7 - im % 8)) else 0) +
         (if im / 64 % 2 = 1 ∧ im % 8 < 7 then 2 ^ (6 - im % 8) else 0))) ∧
       ∃ r : Vec, Leaves (.vplx f) s (addResult x2 f.dst .v 4 2 (.v r)) ∧ ∀ n, n < 4096 →
         r.getLsbD n = if n / 512 = im / 8 % 8 then a.getLsbD (8 * (n % 512) + (7 - im % 8)) else c.getLsbD n) ∧
     (∀ b x2, f.type.toNat < 12 → readV x1 f.srcB = .ok (b, x2) →
       let B := fun n => elemW w b.toNat n
       (im ≤ m → VLanes (.vslide f) s x2 f 2 w (fun n => if im + n < m then A (im + n) else B (im + n - m))) ∧
       VLanes (.vzip f) s x2 f 2 w (fun n =>
         if n % 2 = 0 then A (im % 2 * (m / 2) + n / 2) else B (im % 2 * (m / 2) + n / 2)) ∧
       VLanes (.vunzip f) s x2 f 2 w (fun n =>
         if n < m / 2 then A (2 * n + im % 2) else B (2 * (n - m / 2) + im % 2)) ∧
       (∀ c x3, readV x2 f.srcC = .ok (c, x3) →
         VLanes (.vperm f) s x3 f 2 w (fun n =>
           if B n % (2 * m) < m then A (B n % (2 * m)) else elemW w c.toNat (B n % (2 * m) - m)))))

/-- R220 to R224: elementary functions, reductions, scans and online softmax by its equations, with their latencies.
The order of FP32 values puts NaN below −∞ and −0 below +0. -/
def Obligations.Reductions : Prop :=
  ∀ (s : State) (x x1 : Ctx) (f : VFields) (a : Vec), VHere s x f →
    (f.type.toNat = 2 ∨ f.type.toNat = 6 ∨ f.type.toNat = 10) → readV x f.srcA = .ok (a, x1) →
    let t := f.type.toNat
    let A := fun n => elemW 32 a.toNat n
    let xs := (List.range 128).map A
    let num := fun (n : Nat) => Val.s (BitVec.ofNat 32 n)
    let rm := rndOf (field x.seen.fmt 10 9)
    let key := fun (e : Nat) => if t = 6 then (e : Int) else if t = 2 then sext 32 e
      else if fisNan f32 e then -(2 ^ 33) else if e < 2 ^ 31 then (e : Int) else 2 ^ 31 - 1 - (e : Int)
    let term := fun (v k : Nat) => if k = 0 then 0 else mul32 v k
    let total := fun (l : List Nat) (sat : Bool) =>
      if t = 10 then fround f32 rm (x.seen.fmt.getLsbD 11) (fsum rm (l.map (fdec f32)))
      else narrowInt sat 2 ((l.map (sext 32)).foldl (· + ·) 0)
    KGives (.kexp2 f) s x1 f 6 (.v (vpackE 32 (xs.map kexp2f))) ∧
    KGives (.klog2 f) s x1 f 6 (.v (vpackE 32 (xs.map klog2f))) ∧
    (∃ n, n < 128 ∧ KGives (.kargmx f) s x1 f 4 (num n) ∧
      (∀ m, m < 128 → key (A m) ≤ key (A n)) ∧ ∀ m, m < n → key (A m) < key (A n)) ∧
    (t = 2 → ∃ n, n < 128 ∧ KGives (.kmax f) s x1 f 4 (num (A n)) ∧ ∀ m, m < 128 → sext 32 (A m) ≤ sext 32 (A n)) ∧
    (t = 6 → ∃ n, n < 128 ∧ KGives (.kmax f) s x1 f 4 (num (A n)) ∧ ∀ m, m < 128 → A m ≤ A n) ∧
    (t = 10 → (∀ n, n < 128 → fisNan f32 (A n) = false) → KGives (.kmax f) s x1 f 4 (num (xs.tail.foldl (fmaxB f32) (A 0)))) ∧
    (t = 10 → (∃ n, n < 128 ∧ fisNan f32 (A n) = true) → KGives (.kmax f) s x1 f 4 (num f32.nanBits)) ∧
    (t ≠ 6 → KGives (.ksum f) s x1 f 6 (num (total xs (f.imm8.getLsbD 0)))) ∧
    (t ≠ 6 → KGives (.kscan f) s x1 f 6 (.v (vpackE 32 ((List.range 128).map fun n =>
      let p := xs.take (if f.imm8.getLsbD 0 then n else n + 1)
      if p.isEmpty then 0 else total p (f.imm8.getLsbD 1))))) ∧
    (∀ b x2, readV x1 f.srcB = .ok (b, x2) →
      KGives (.kexp2Biased f) s x2 f 6 (.v (vpackE 32 (xs.map fun e => kexp2f (sub32 e (vlane b 0).toNat)))) ∧
      (let mA := A 0
       let mB := elemW 32 b.toNat 0
       let none' := mA = 0xFF800000 ∧ mB = 0xFF800000
       let m := if none' then 0xFF800000 else fmaxB f32 mA mB
       let sA := if none' then 0 else kexp2f (sub32 mA m)
       let sB := if none' then 0 else kexp2f (sub32 mB m)
       KGives (.ksmrg f) s x2 f 6 (.v (vpackE 32 [m, sum32 [term (A 1) sA, term (elemW 32 b.toNat 1) sB], sA, sB]))) ∧
      (t = 10 → KGives (.ksumw f) s x2 f 6 (num (fround f32 rm (x.seen.fmt.getLsbD 11) (fsum rm
        ((List.range 128).map fun n => fmul (fdec f32 (A n)) (fdec f32 (elemW 32 b.toNat n))))))) ∧
      (t = 2 → KGives (.ksumw f) s x2 f 6 (num (narrowInt (f.imm8.getLsbD 0) 2
        (((List.range 128).map fun n => sext 32 (A n) * sext 32 (elemW 32 b.toNat n)).foldl (· + ·) 0)))) ∧
      (∀ c x3, readV x2 f.srcC = .ok (c, x3) →
        KGives (.ksmrgBody f) s x3 f 6 (.v (vpackE 32 ((List.range 128).map fun n =>
          sum32 [term (A n) (elemW 32 c.toNat 2), term (elemW 32 b.toNat n) (elemW 32 c.toNat 3)]))))) ∧
    (∀ c x2, readV x1 f.srcC = .ok (c, x2) →
      let m := elemW 32 c.toNat 0
      let l := elemW 32 c.toNat 1
      let m2 := if fisNan f32 m || xs.any (fisNan f32) then f32.nanBits else xs.foldl (fmaxB f32) m
      let alpha := kexp2f (sub32 m m2)
      KGives (.ksmx f) s x2 f 10 (.v (vpackE 32 (if m2 = 0xFF800000 then [m2, l, 0x3F800000]
        else [m2, sum32 (mul32 l alpha :: xs.map fun e => kexp2f (sub32 e m2)), alpha]))))

/-- R225: candidate order as a relation on pairs: a greater score first, with NaN below −∞ and −0 below +0, then a
smaller id, then the pair that came first. R218, R226 to R228: `ksort`, `kmrg`, `kcclr`, `kcrd` and both forms of
`kpick` complete: 64 pairs sorted into candidate order; merged with the file, which keeps the first 64; the file
emptied, given as a pair vector, its first id and its first score given. A write of the file holds later file
instructions for its latency. -/
def Obligations.CandidateFile : Prop :=
  (∀ (ps : List (Word × BitVec 24)),
     let score := fun (p : Word × BitVec 24) => if fisNan f32 p.1.toNat then -(2 ^ 33)
       else if p.1.toNat < 2 ^ 31 then (p.1.toNat : Int) else 2 ^ 31 - 1 - (p.1.toNat : Int)
     let before := fun (p q : Word × BitVec 24) => score q < score p ∨ score p = score q ∧ p.2.toNat < q.2.toNat
     (∀ p q, pairBefore p q = true ↔ before p q) ∧ (candSort ps).Perm ps ∧ (candSort ps).Pairwise (fun p q => ¬before q p) ∧
     ∀ p, (candSort ps).filter (fun q => decide (score q = score p) && decide (q.2 = p.2)) =
       ps.filter fun q => decide (score q = score p) && decide (q.2 = p.2)) ∧
  (∀ (s : State) (x : Ctx) (f : VFields), VHere s x f →
     let file := fun (y : Ctx) (lat : Nat) (ps : List (Word × BitVec 24)) => { y with cand := ps, fileUntil := s.now + lat }
     let none' : Word × BitVec 24 := (0xFF800000, 0xFFFFFF)
     Leaves (.kcclr f) s (file x 1 []) ∧
     KGives (.kcrd f) s x f 4 (.v (pairVec (x.cand ++ List.replicate (64 - x.cand.length) none'))) ∧
     KGives (.kpick f) s x f 2 (.s (match x.cand.head? with | some p => p.2.setWidth 32 | none => 0xFFFFFFFF)) ∧
     KGives (.kpickScore f) s x f 2 (.s (match x.cand.head? with | some p => p.1 | none => 0xFF800000)) ∧
     (∀ a x1, readV x f.srcA = .ok (a, x1) →
       Leaves (.kmrg f) s (file x1 8 ((candSort (x1.cand ++ ((List.range 64).map fun e =>
         (vlane a (2 * e), (vlane a (2 * e + 1)).setWidth 24)).filter fun p => !deadScore p.1)).take 64)) ∧
       (∀ b x2, readV x1 f.srcB = .ok (b, x2) →
         let h := 64 * (f.imm8.toNat % 2)
         KGives (.ksort f) s x2 f 12 (.v (pairVec (candSort ((List.range 64).map fun e =>
           (vlane a (h + e), (vlane b (h + e)).setWidth 24))))))))

/-- R218, R229, R230: `kgmb`, `ktemp` and `ktopp` complete: noise added to every score of the file, every score
scaled, the file cut to its most likely candidates; the file then stands in candidate order, held for the latency.
R58, R231, R232: the random stream: `krngk` sets the key, sequence, position and lane and restarts the draws; `krng`
draws its counter values and moves the index on, or takes RNG_EXHAUSTED past the last index. -/
def Obligations.CandidateSampling : Prop :=
  (∀ (s : State) (x : Ctx) (f : VFields), VHere s x f →
     let file := fun (y : Ctx) (lat : Nat) (ps : List (Word × BitVec 24)) => { y with cand := ps, fileUntil := s.now + lat }
     (∀ a x1, readV x f.srcA = .ok (a, x1) →
       Leaves (.kgmb f) s (file x1 12 (candSort ((x1.cand.zipIdx.map fun p =>
         (BitVec.ofNat 32 (sum32 [p.1.1.toNat, gumbel (vlane a p.2).toNat]), p.1.2)).filter fun p =>
           !fisNan f32 p.1.toNat)))) ∧
     (∀ w x1, readS x f.srcA = .ok (w, x1) →
       Leaves (.ktemp f) s (file x1 8 (candSort ((x1.cand.map fun p => (BitVec.ofNat 32 (mul32 p.1.toNat w.toNat), p.2)).filter
         fun p => !deadScore p.1))) ∧
       Leaves (.ktopp f) s (file x1 12 (topP x1.cand w.toNat)))) ∧
  (∀ (s : State) (x : Ctx) (f : VFields), VHere s x f →
     let c := f.imm8.toNat
     (∀ a x1, readV x f.srcA = .ok (a, x1) →
       ∃ r, Leaves (.krngk f) s { x1 with rng := r } ∧ r.idx = 0 ∧ r.k0 = vlane a 0 ∧ r.k1 = vlane a 1 ∧ r.seq = vlane a 2 ∧
         r.pos = (vlane a 3).toNat + 2 ^ 32 * ((vlane a 4).toNat % 256) ∧ r.lane.toNat = (vlane a 5).toNat % 65536) ∧
     (0 < c → x.rng.idx + c ≤ 65536 → x.rng.pos < 2 ^ 40 →
       Leaves (.krng f) s (addResult { x with rng := { x.rng with idx := x.rng.idx + c } } f.dst .v 6 6
         (.v (vpackE 32 ((List.range c).flatMap fun j => drawWords x.rng (x.rng.idx + j)))))) ∧
     (0 < c → 65536 < x.rng.idx + c → exec (.krng f) s = .next (preciseTrap s x 0x0E 4 0 none)))

/-- R196, R199, R200, R202: every M instruction on declared tiles and claimed slots, with a legal `fmt`, enters the M
queue; a repeat field asks for that many steps more; rows of `mgrp` past the bound raise GROUP_OVERRUN at its issue
(R206); `mwait` has no other effect than its one step. R196, R203: an M instruction whose `fmt` is not legal takes
FORMAT, with OPND 0 (the model's choice, log 114). That `mwait` enters the queue, and that the bases are read at
issue, is DEDUCED (logs 30, 32). -/
def Obligations.MatrixIssue : Prop :=
  (∀ (s : State) (x : Ctx) (f : MFields), MHere s x f → fmtLegal x.seen.fmt = true →
     let ok := fun (o : Nat) => mUnprovisioned s s.cur x o f = none ∧ mUnclaimed s s.cur x o f = none
     let n := if f.rpt then f.rcount.toNat + 1 else 1
     (ok 1 → EntersM (.mma f) s x x f n 0) ∧ (ok 2 → EntersM (.mmaz f) s x x f n 0) ∧
     (ok 3 → EntersM (.mmap f) s x x f n 0) ∧ (ok 4 →
       let late : HeldFault := { who := none, code := 0x12, slot := 3, opnd := f.acc.toNat, tinfo := 0 }
       let groups := groupsOf s s.cur x f x.seen.fmt
       let y := if groups.2 then { x with issue := x.issue.map fun i => { i with fault := some late } } else x
       let t := (opRead s s.cur x (tableBase x f) (4 * (f.cnt5.toNat + 1))).2
       ∃ w : MWork, exec (.mgrp f) s = .next (setCtx t s.cur { y with mq := y.mq ++ [w] }) ∧ w.op = .mgrp f ∧
         w.fmt = x.seen.fmt ∧ w.steps = 1 ∧ w.done = 0 ∧ w.started = false ∧ w.formed = none ∧ w.groups = groups.1 ∧
         w.abase = x.seen.g.toList.getD f.abase.toNat 0 ∧ t.hbm = s.hbm ∧ t.cores = s.cores ∧ t.slots = s.slots) ∧
     (ok 5 → EntersM (.mtrn f) s x x f 1 0) ∧ (ok 8 → EntersM (.mmov f) s x x f 1 0) ∧
     (ok 9 → EntersM (.madd f) s x x f 1 0) ∧ (ok 10 → EntersM (.mwait f) s x x f 1 0) ∧
     (∀ v x1, readV x f.qsrc = .ok (v, x1) →
       (ok 6 → EntersM (.mscl f) s x x1 f 1 v) ∧ (ok 7 → EntersM (.mfill f) s x x1 f 1 v))) ∧
  (∀ (s : State) (x : Ctx) (f : MFields), MHere s x f → fmtLegal x.seen.fmt = false →
     let ok := fun (o : Nat) => mUnprovisioned s s.cur x o f = none ∧ mUnclaimed s s.cur x o f = none
     let traps := fun (i : Instr) => exec i s = .next (preciseTrap s x 0x18 3 0 none)
     (ok 1 → traps (.mma f)) ∧ (ok 2 → traps (.mmaz f)) ∧ (ok 3 → traps (.mmap f)) ∧ (ok 4 → traps (.mgrp f)) ∧
     (ok 5 → traps (.mtrn f)) ∧ (ok 6 → traps (.mscl f)) ∧ (ok 7 → traps (.mfill f)) ∧ (ok 8 → traps (.mmov f)) ∧
     (ok 9 → traps (.madd f)) ∧ (ok 10 → traps (.mwait f)))

/-- R53, R54, R203: a product step, element by element: the exact products of a row of A and a column of B in chunks,
each chunk's sum rounded once, or the exact integer sum scaled and added. Rows outside the range keep their values. -/
def Obligations.MatrixProduct : Prop :=
  ∀ (fmt : Word) (scales : BitVec 2048) (a b lo hi : Nat) (z : List Nat) (i j : Nat),
    let n := edgeOf fmt
    z.length = n * n → i < n → j < n →
    let e := (stepRows fmt scales a b lo hi z).getD (n * i + j) 0
    let old := z.getD (n * i + j) 0
    let F := operandFmt fmt
    (¬(lo ≤ i ∧ i < hi) → e = old) ∧
    (lo ≤ i → i < hi → pairOf fmt < 3 →
      e = chunkSums (viewFmt fmt) (chunkOf fmt) 16
        ((List.range n).map fun q => (fdec F (elemW F.width a (n * i + q)), fdec F (elemW F.width b (n * q + j)))) old) ∧
    (lo ≤ i → i < hi → pairOf fmt = 3 →
      let total := ((List.range 64).map fun q =>
        sext 8 (elemW 8 a (64 * i + q)) * planeWeight (planesOf fmt) b (64 * q + j)).foldl (· + ·) 0
      e = sum32 [old, scaledHalf total
        (if fmt.getLsbD 12 then 65536 * elemW 16 scales.toNat i else 0x3F800000)
        (if fmt.getLsbD 12 then 65536 * elemW 16 scales.toNat (64 + j) else 0x3F800000)])

/-- R199, R201, R205, R207: a step that has run its cycles ends: its effect is made and the instruction leaves the
queue after its last step; one that a halt has cut parks; a step still running goes on; a free datapath starts the
next step, context 0's first. A `mscl` writes the scales of its tile. R209, R210: paired steps. A partner's half moves
into the lead's empty buffer and the partner's count goes on; the lead's half and the buffered half of the same step
and format commit one tile, from the exact sums and the tiles of the spans that a halt left where there are any
(R205). A half that has waited 65,536 cycles (log 110), or halves whose formats differ, abandon the step on both sides
(R210, R212): nothing is committed, the current `mmap` leaves its queue, the counts restart, and PAIR_ABANDONED is
held with the accumulator in OPND (DEDUCED, log 29) and the other side's core in TINFO; which instruction leaves is
the model's choice (log 142). -/
def Obligations.MatrixSteps : Prop :=
  (∀ (s : State) (core k due : Nat) (x : Ctx) (w : MWork) (rest : List MWork),
     getCtx s ⟨core, k⟩ = some x → x.mq = w :: rest → mOpc w.op ≠ 3 →
     ((getCore s core).dp = some (k, due) → s.now < due → exec (.mStep core) s = .next s) ∧
     ((getCore s core).dp = none → canStart s x = true → w.done = 0 →
       k = 0 ∨ k = 1 ∧ (∀ y, getCtx s ⟨core, 0⟩ = some y → canStart s y = false) →
       ∃ t x', exec (.mStep core) s = .next t ∧ (getCore t core).dp = some (k, s.now + max 1 (workCycles w - 8 * w.spans)) ∧
         getCtx t ⟨core, k⟩ = some x' ∧ x'.mq = { w with started := true } :: rest) ∧
     ((getCore s core).dp = some (k, due) → due ≤ s.now → parked x = true →
       let r := parkSpans (setCore s core { getCore s core with dp := none }) ⟨core, k⟩ x
       exec (.mStep core) s = .next (setCtx r.1 ⟨core, k⟩ r.2)) ∧
     ((getCore s core).dp = some (k, due) → due ≤ s.now → parked x = false →
       let s0 := setCore s core { getCore s core with dp := none }
       let r := stepEffect s0 ⟨core, k⟩ x w
       exec (.mStep core) s = .next (setCtx r.1 ⟨core, k⟩ (countStep r.1 ⟨core, k⟩ r.2 w)) ∧
       (∀ f, w.op = .mscl f → r = (s0, { x with scales := x.scales.setIfInBounds f.acc.toNat (w.vec.setWidth 2048) })))) ∧
  (∀ (s : State) (lead part : CtxId) (x y : Ctx) (w : MWork), leads lead.core = true → part.core = partnerCore lead.core →
     getCtx s lead = some x → getCtx s part = some y → partnerCtx s lead x = some part →
     let tiles := fun (s : State) (c : CtxId) (z : Ctx) (w : MWork) =>
       let a := readTile s c z w.abase.toNat (aBytes w.fmt)
       (a.1, readTile a.2 c z w.bbase.toNat (bBytes w.fmt))
     let fault := fun (c : CtxId) (z : Ctx) => ({
       who := none, code := 0x13, slot := 3, opnd := ((currentPair z).map fun w => (mFields w.op).acc.toNat).getD 0
       tinfo := BitVec.ofNat 32 (partnerCore c.core % 1024) } : HeldFault)
     let leaves := fun (t : State) (c : CtxId) (z : Ctx) => ∃ z', getCtx t c = some z' ∧ z'.pairs = 0 ∧ z'.pairBuf = none ∧
       ((currentPair z).isSome → z'.mq = z.mq.drop 1) ∧ (z.held = none → z'.held = some (fault c z)) ∧
       (z.held.isSome → z'.held = z.held) ∧ (getCore t c.core).acc = (getCore s c.core).acc
     let abandoned := fun (i : Instr) => ∃ t, exec i s = .next t ∧ leaves t lead x ∧ leaves t part y
     (x.pairBuf = none → formedPair x = none → formedPair y = some w →
       ∃ t x' y' h, exec (.pairHalfArrival lead) s = .next t ∧ getCtx t lead = some x' ∧ getCtx t part = some y' ∧
         x'.pairBuf = some h ∧ h.step = y.pairs ∧ h.fmt = w.fmt ∧ h.spans = stepCycles w.fmt / 8 ∧
         h.a = BitVec.ofNat 65536 (tiles s part y w).1 ∧ h.b = BitVec.ofNat 65536 (tiles s part y w).2.1 ∧ y'.pairs = y.pairs + 1 ∧
         x'.mate = some y.task ∧ y'.mate = some x.task) ∧
     (∀ h, x.pairBuf = some h → x.mq = [w] → formedPair x = some w → formedPair y = none → wholeHalf h = true →
       pairKey h.fmt = pairKey w.fmt → h.step = x.pairs →
       let n := (mFields w.op).acc.toNat
       let a := (tiles s lead x w).1
       let b := (tiles s lead x w).2.1
       let z := (readAcc (tiles s lead x w).2.2 lead x w.fmt n).1
       let s1 := (readAcc (tiles s lead x w).2.2 lead x w.fmt n).2
       let new := if w.early ≠ [] ∨ h.early ≠ [] then splitPairRows w.fmt w.early a b h z
         else if w.sums = [] ∧ h.sums = [] then pairRows w.fmt (getScales x n) a b h.a.toNat h.b.toNat z
         else scaledRows w.fmt (getScales x n) (List.zipWith (· + ·) (planeTotals w.fmt a b w.planes w.sums)
           (planeTotals h.fmt h.a.toNat h.b.toNat h.planes h.sums)) z
       ∃ t x', exec (.pairHalfArrival lead) s = .next t ∧ getCtx t lead = some x' ∧ x'.pairs = x.pairs + 1 ∧
         x'.pairBuf = none ∧
         (getCore t lead.core).acc = (getCore (putTile s1 lead x w.fmt n new) lead.core).acc) ∧
     (∀ h, x.pairBuf = some h → formedPair x = some w → wholeHalf h = true → pairKey h.fmt ≠ pairKey w.fmt →
       (∀ q ∈ y.mq.drop 1, q.formed = none) → abandoned (.pairHalfArrival lead)) ∧
     (∀ t0, w.formed = some t0 → t0 + 65536 ≤ s.now →
       (formedPair x = some w → abandoned (.pairStepTimeout lead x.pairs)) ∧
       (formedPair y = some w → partnerCtx s part y = some lead → abandoned (.pairStepTimeout part y.pairs))))

/-- R234: register instructions of a hart: the value goes to rd, a write to x0 is discarded, the pc goes past the
instruction. R234: jumps and branches of a hart: the target, and for a jump the address after the instruction in rd.
-/
def Obligations.HartRegistersAndControl : Prop :=
  (∀ (s : State) (x : Ctx) (r : Role) (h : Hart), HartHere s x r h →
     let next := h.pc + BitVec.ofNat 32 (hartStep h)
     ∀ (rd a b : BitVec 5) (imm : Word) (len : Nat) (k : RvOp) (u : RvUnary),
       let A := getX h a
       let B := getX h b
       HartSets (.hartInstruction (.lui rd imm) len) s x r h rd imm next ∧
       HartSets (.hartInstruction (.auipc rd imm) len) s x r h rd (h.pc + imm) next ∧
       HartSets (.hartInstruction (.opImm k rd a imm) len) s x r h rd (rvAlu k A imm) next ∧
       HartSets (.hartInstruction (.op k rd a b) len) s x r h rd (rvAlu k A B) next ∧
       HartSets (.hartInstruction (.unary u rd a) len) s x r h rd (rvUnary u A) next ∧
       HartSets (.hartInstruction .fence len) s x r h 0 0 next ∧
       HartSets (.hartInstruction .wfi len) s x r h 0 0 next) ∧
  (∀ (s : State) (x : Ctx) (r : Role) (h : Hart), HartHere s x r h →
     ∀ (rd a b : BitVec 5) (off : Word) (len : Nat),
       let A := getX h a
       let B := getX h b
       let link := h.pc + BitVec.ofNat 32 len
       let branch := fun (k : RvBr) (c : Prop) =>
         (c → HartSets (.hartInstruction (.branch k a b off) len) s x r h 0 0 (h.pc + off)) ∧
         (¬c → HartSets (.hartInstruction (.branch k a b off) len) s x r h 0 0 (h.pc + BitVec.ofNat 32 (hartStep h)))
       HartSets (.hartInstruction (.jal rd off) len) s x r h rd link (h.pc + off) ∧
       HartSets (.hartInstruction (.jalr rd a off) len) s x r h rd link ((A + off) &&& 0xFFFFFFFE) ∧
       branch .eq (A = B) ∧ branch .ne (A ≠ B) ∧ branch .lt (A.toInt < B.toInt) ∧ branch .ge (A.toInt ≥ B.toInt) ∧
       branch .ltu (A.toNat < B.toNat) ∧ branch .geu (A.toNat ≥ B.toNat))

/-- R234, RV32IM, Zba, Zbb (log 12): the arithmetic of the two-operand operations: sums, shifts of the low 5 bits,
comparisons, the halves of the exact products, division with its fixed results for a zero divisor and for overflow. -/
def Obligations.HartArithmetic : Prop :=
  ∀ (a b : Word),
    let n := b.toNat % 32
    rvAlu .add a b = a + b ∧ rvAlu .sub a b = a - b ∧ rvAlu .xor a b = a ^^^ b ∧ rvAlu .or a b = a ||| b ∧
    rvAlu .and a b = a &&& b ∧ rvAlu .andn a b = a &&& ~~~b ∧ rvAlu .orn a b = a ||| ~~~b ∧ rvAlu .xnor a b = ~~~(a ^^^ b) ∧
    rvAlu .sll a b = a <<< n ∧ rvAlu .srl a b = a >>> n ∧ rvAlu .sra a b = a.sshiftRight n ∧
    rvAlu .rol a b = (a <<< n ||| a >>> ((32 - n) % 32)) ∧ rvAlu .ror a b = (a >>> n ||| a <<< ((32 - n) % 32)) ∧
    rvAlu .sh1add a b = 2 * a + b ∧ rvAlu .sh2add a b = 4 * a + b ∧ rvAlu .sh3add a b = 8 * a + b ∧
    rvAlu .slt a b = (if a.toInt < b.toInt then 1 else 0) ∧ rvAlu .sltu a b = (if a.toNat < b.toNat then 1 else 0) ∧
    (rvAlu .max a b).toInt = max a.toInt b.toInt ∧ (rvAlu .min a b).toInt = min a.toInt b.toInt ∧
    (rvAlu .maxu a b).toNat = max a.toNat b.toNat ∧ (rvAlu .minu a b).toNat = min a.toNat b.toNat ∧
    (rvAlu .mul a b).toNat + 2 ^ 32 * (rvAlu .mulhu a b).toNat = a.toNat * b.toNat ∧
    ((rvAlu .mul a b).toNat : Int) + 2 ^ 32 * (rvAlu .mulh a b).toInt = a.toInt * b.toInt ∧
    ((rvAlu .mul a b).toNat : Int) + 2 ^ 32 * (rvAlu .mulhsu a b).toInt = a.toInt * b.toNat ∧
    (b = 0 → rvAlu .div a b = 0xFFFFFFFF ∧ rvAlu .divu a b = 0xFFFFFFFF ∧ rvAlu .rem a b = a ∧ rvAlu .remu a b = a) ∧
    (b ≠ 0 → (rvAlu .divu a b).toNat = a.toNat / b.toNat ∧ (rvAlu .remu a b).toNat = a.toNat % b.toNat) ∧
    (b ≠ 0 → ¬(a = 0x80000000 ∧ b = 0xFFFFFFFF) →
      (rvAlu .div a b).toInt = a.toInt.tdiv b.toInt ∧ (rvAlu .rem a b).toInt = a.toInt.tmod b.toInt) ∧
    (a = 0x80000000 → b = 0xFFFFFFFF → rvAlu .div a b = a ∧ rvAlu .rem a b = 0)

/-- R235, R236, and RV32I's rules of loads and stores (PRESUMED, log 12, since R234 names the standard and does not
repeat it): loads and stores of a hart's own data memory, at the address its register and offset give, the bytes
little-endian, no byte outside the stored ones changed; an access outside the map takes PRIVILEGED; (the other devices
and CSRs: R235, R237). -/
def Obligations.HartMemory : Prop :=
  ∀ (s : State) (x : Ctx) (r : Role) (h : Hart), HartHere s x r h →
    ∀ (rd a b : BitVec 5) (imm : Word) (len off : Nat), (getX h a + imm).toNat = 0x10000000 + off → off < 2 ^ 28 →
      let next := h.pc + BitVec.ofNat 32 (hartStep h)
      let at' := fun (n : Nat) => natOfBytes ((List.range n).map fun i => memGet h.data (off + i))
      let load := fun (k : RvLoad) (n : Nat) (v : Word) => off + n ≤ h.dataSize → Memory.wf h.data = true →
        HartSets (.hartInstruction (.load k rd a imm) len) s x r h rd v next
      let store := fun (k : RvStore) (n : Nat) => off + n ≤ h.dataSize →
        ∃ h', exec (.hartInstruction (.store k a b imm) len) s = .next (setCtx s s.cur (putHart x r h')) ∧ h'.pc = next ∧
          h'.x = h.x ∧ h'.code = h.code ∧ h'.mscratch = h.mscratch ∧ h'.hstall = h.hstall ∧ ∀ p, memGet h'.data p =
            if off ≤ p ∧ p < off + n then ((getX h b).extractLsb' (8 * (p - off)) 8) else memGet h.data p
      load .lw 4 (BitVec.ofNat 32 (at' 4)) ∧ load .lhu 2 (BitVec.ofNat 32 (at' 2)) ∧ load .lbu 1 (BitVec.ofNat 32 (at' 1)) ∧
      load .lh 2 ((BitVec.ofNat 16 (at' 2)).signExtend 32) ∧ load .lb 1 ((BitVec.ofNat 8 (at' 1)).signExtend 32) ∧
      store .sw 4 ∧ store .sh 2 ∧ store .sb 1 ∧
      (h.dataSize < off + 4 →
        exec (.hartInstruction (.load .lw rd a imm) len) s = .next (hartTrap s s.cur x r h 0 (hartInfo r h 0x15 0)) ∧
        exec (.hartInstruction (.store .sw a b imm) len) s = .next (hartTrap s s.cur x r h 0 (hartInfo r h 0x15 0)))

/-- R235, R237: HSTALL and mscratch are written and read back; a CSR that is read-only or not listed takes
ILLEGAL_OPCODE. R244, R317: the exceptions of a hart reach its slice: with a handler named and neither a hand-over
wait nor a halt, the slice is in handler mode at HNDL, TCAUSE names the hart (OPND 62 or 63), TPC holds its pc, and
both harts stop; a hart that made a call resumes after it. The loads, the stores and the CSR forms themselves are
RV32I's and Zicsr's (PRESUMED, log 12). -/
def Obligations.HartDeviceAndCalls : Prop :=
  (∀ (s : State) (x : Ctx) (r : Role) (h : Hart), HartHere s x r h →
     ∀ (rd a b : BitVec 5) (imm : Word) (len : Nat),
       let next := h.pc + BitVec.ofNat 32 (hartStep h)
       (getX h a + imm = 0x3000001C →
         (∃ h', exec (.hartDeviceRegisterWrite (.store .sw a b imm) len) s = .next (setCtx s s.cur (putHart x r h')) ∧
           h'.hstall = getX h b ∧ h'.pc = next ∧ h'.x = h.x ∧ h'.data = h.data) ∧
         HartSets (.hartInstruction (.load .lw rd a imm) len) s x r h rd h.hstall next) ∧
       (∃ h', exec (.hartDeviceRegisterWrite (.csr .rw rd a false 0x340) len) s =
           .next (setCtx s s.cur (putHart x r h')) ∧ h'.mscratch = getX h a ∧ h'.pc = next ∧
         ∀ q, getX h' q = if q = rd ∧ q ≠ 0 then h.mscratch else getX h q) ∧
       HartSets (.hartInstruction (.csr .rs rd 0 false 0xC00) len) s x r h rd (BitVec.ofNat 32 x.cycle) next ∧
       HartSets (.hartInstruction (.csr .rs rd 0 false 0x301) len) s x r h rd 0x40001104 next ∧
       (exec (.hartDeviceRegisterWrite (.csr .rw rd a false 0xC00) len) s =
         .next (hartTrap s s.cur x r h 0 (hartInfo r h 0x02 0))) ∧
       (exec (.hartInstruction (.csr .rs rd 0 false 0x7C0) len) s = .next (hartTrap s s.cur x r h 0 (hartInfo r h 0x02 0)))) ∧
  (∀ (s : State) (x : Ctx) (r : Role) (h : Hart), HartHere s x r h → x.halting = false → x.wait = .none →
     x.handler = false → (getRegion s x.region).hndl ≠ 0xFFFFFFFF → h.st = .running →
     let enters := fun (i : Instr) (code skip : Nat) (info : Word) => ∃ t x' h', exec i s = .next t ∧
       getCtx t s.cur = some x' ∧ getHart x' r = some h' ∧ x'.handler = true ∧ x'.pc = (getRegion s x.region).hndl ∧
       x'.tcause = BitVec.ofNat 32 (code + 7 * 256 + (if r = .loader then 62 else 63) * 8192) ∧ x'.tpc = h.pc ∧
       x'.tinfo = info ∧ h'.st = .stopped ∧ h'.pc = h.pc + BitVec.ofNat 32 skip ∧ h'.x = h.x ∧ t.hbm = s.hbm ∧
       ∀ q g, q ≠ r → getHart x q = some g → getHart x' q = some (if g.st = .halted then g else { g with st := .stopped })
     enters .hartEcall 0x0F 4 (getX h 10) ∧ enters .hartEbreak 0x0F (hartStep h) 0 ∧
     (∀ len, enters (.hartInstruction .illegal len) 0x02 0 0))

/-- R239, R242, R244: the tag instructions of a hart and `lyld`, which joins the yield or reports the hart's own held
fault; a tag at or beyond the declared count takes UNPROVISIONED. R239, R240: queues from a hart: `lpush` lands one
entry where there is room and waits where there is none; `lpop` takes a landed head and waits for one otherwise. A
dead queue gives zero, or takes DEAD_READ. The vector forms move 512 bytes of the window, and rd takes lane 0. R239:
the remaining extension instructions: `lcopy` hands a copy to the engine and gives the tag's count; `lfe` sends its
read and, once it has ended, gives the bit and the status; `ltsk` gives the child's handle; `lbar` arrives with the
hart's own record, and in wait mode ends once the phase has moved on. -/
def Obligations.HartTagsQueuesCommands : Prop :=
  (∀ (s : State) (x : Ctx) (r : Role) (h : Hart), HartHere s x r h →
     ∀ (d a b : BitVec 5),
       let first := (getX h a).toNat
       let count := (getX h b).toNat
       let ns := (List.range count).map (first + ·)
       let bad := ns.find? fun n => (getTag x n).status ≠ 0 && (getTag x n).status ≠ 7
       let low := ns.find? fun n => (getTag x n).st = .done
       let num := fun (o : Option Nat) => match o with
         | some n => BitVec.ofNat 32 n
         | none => (0xFFFFFFFF : Word)
       (0 < count → count ≤ 64 → first + count ≤ 64 → first + count ≤ hdrTags x.hdr →
         ((∀ n ∈ ns, (getTag x n).st ≠ .busy) → HartGives (.lwait d a b) s x r h d (num bad)) ∧
         ((∃ n ∈ ns, (getTag x n).st = .busy) → HartWaits (.lwait d a b) s x r h) ∧
         HartGives (.lpoll d a b) s x r h d (num low)) ∧
       (first < hdrTags x.hdr → HartGives (.lstat d a) s x r h d (tagStat (getTag x first))) ∧
       (hdrTags x.hdr ≤ first →
         exec (.lstat d a) s = .next (hartTrap s s.cur x r h 0 (hartInfo r h 0x08 0))) ∧
       ((∀ e, x.held = some e → e.who ≠ some r) →
         exec .lyld s = .next (setCtx s s.cur (putHart x r { h with st := .lyld }))) ∧
       (∀ e, x.held = some e → e.who = some r → exec .lyld s = .next (hartTrap s s.cur { x with held := none } r h 0
         { code := e.code.toNat, slot := e.slot, cls := 1, opnd := e.opnd, tpc := h.pc, tinfo := e.tinfo }))) ∧
  (∀ (s : State) (x : Ctx) (r : Role) (h : Hart), HartHere s x r h →
     ∀ (d a b : BitVec 5) (n : Nat), (getX h b).toNat = 32 + n → n < 32 → n < hdrSq x.hdr →
       let q := getQueue x .s n
       ((q.dead = true ∨ q.entries.length < 4) → ∃ t x' e, exec (.lpush a b) s = .next t ∧ getCtx t s.cur = some x' ∧
         getQueue x' .s n = joinQueue q e ∧ e.val = some (.s (getX h a)) ∧ x'.latches = x.latches ∧
         (∀ c m, (c, m) ≠ (.s, n) → getQueue x' c m = getQueue x c m) ∧ x'.pc = x.pc ∧ t.hbm = s.hbm ∧
         t.cores = s.cores) ∧
       (q.dead = false → 4 ≤ q.entries.length → HartWaits (.lpush a b) s x r h) ∧
       (∀ e rest v, q.dead = false → q.entries = e :: rest → e.val = some (.s v) → ∃ t x' h',
         exec (.lpop d a b) s = .next t ∧ getCtx t s.cur = some x' ∧ getHart x' r = some h' ∧
         getQueue x' .s n = { q with entries := rest } ∧ (d ≠ 0 → getX h' d = v) ∧
         (∀ q, q ≠ d → getX h' q = getX h q) ∧ (∀ c m, (c, m) ≠ (.s, n) → getQueue x' c m = getQueue x c m) ∧
         x'.latches = x.latches ∧ x'.pc = x.pc ∧ t.hbm = s.hbm ∧ t.cores = s.cores) ∧
       (q.dead = false → (∀ e, q.entries.head? = some e → e.val = none) → HartWaits (.lpop d a b) s x r h) ∧
       (q.dead = true → strict x = false → HartGives (.lpop d a b) s x r h d 0) ∧
       (q.dead = true → strict x = true → exec (.lpop d a b) s = .next (hartTrap s s.cur x r h 0 (hartInfo r h 0x06 0)))) ∧
  (∀ (s : State) (x : Ctx) (r : Role) (h : Hart), HartHere s x r h → 64 ∣ hdrScratch x.hdr →
     ∀ (d a b : BitVec 5) (n : Nat), (getX h b).toNat = n → n < 32 → n < hdrVq x.hdr →
       let q := getQueue x .v n
       let at' := (getX h a).toNat / 64 * 64
       refilling x at' 512 = false →
       ((q.dead = true ∨ q.entries.length < 4) → ∀ bs s1, hartRead s x r at' 512 = (bs, s1) →
         ∃ t x' e, exec (.lpush a b) s = .next t ∧ getCtx t s.cur = some x' ∧ getQueue x' .v n = joinQueue q e ∧
           e.val = some (.v (vecOfBytes bs)) ∧ x'.latches = x.latches ∧
           (∀ c m, (c, m) ≠ (.v, n) → getQueue x' c m = getQueue x c m) ∧ x'.pc = x.pc ∧ t.hbm = s.hbm ∧ t.cores = s.cores) ∧
       (q.dead = false → 4 ≤ q.entries.length → HartWaits (.lpush a b) s x r h) ∧
       let pops := fun (left : List QEntry) (v : Vec) => ∃ t x' h', exec (.lpop d a b) s = .next t ∧
         getCtx t s.cur = some x' ∧ getHart x' r = some h' ∧ getQueue x' .v n = { q with entries := left } ∧
         (d ≠ 0 → getX h' d = vlane v 0) ∧ (∀ k, k ≠ d → getX h' k = getX h k) ∧
         (∀ p, memGet (getCore t s.cur.core).scratch p =
           if x.window + at' ≤ p ∧ p < x.window + at' + 512 ∧ (byteFault x (p - x.window)).isNone
           then (vecBytes v).getD (p - (x.window + at')) 0 else memGet (getCore s s.cur.core).scratch p) ∧
         (∀ c m, (c, m) ≠ (.v, n) → getQueue x' c m = getQueue x c m) ∧ x'.latches = x.latches ∧ x'.pc = x.pc ∧ t.hbm = s.hbm
       (∀ e rest v, q.dead = false → q.entries = e :: rest → e.val = some (.v v) → pops rest v) ∧
       (q.dead = false → (∀ e, q.entries.head? = some e → e.val = none) → HartWaits (.lpop d a b) s x r h) ∧
       (q.dead = true → strict x = false → pops q.entries 0) ∧
       (q.dead = true → strict x = true → exec (.lpop d a b) s = .next (hartTrap s s.cur x r h 0 (hartInfo r h 0x06 0)))) ∧
  (∀ (s : State) (x : Ctx) (r : Role) (h : Hart), HartHere s x r h →
     ∀ (d a b : BitVec 5),
       let A := getX h a
       let B := getX h b
       (∀ tag kind, tag < hdrTags x.hdr → tag < 64 → x.outstanding < 255 →
         refilling x (A.toNat / 64 * 64) 64 = false →
         (B.toNat = tag ∧ kind = CmdKind.copy ∨ B.toNat = 256 + tag ∧ kind = .copym ∨ B.toNat = 512 + tag ∧ kind = .copyr ∨
           B.toNat = 768 + tag ∧ kind = .copyd ∨ B.toNat = 1024 + tag ∧ kind = .copya ∨
           B.toNat = 1280 + tag ∧ kind = .copyf) →
         ∃ t x' h' k, exec (.lcopy d a b) s = .next t ∧ getCtx t s.cur = some x' ∧ getHart x' r = some h' ∧ k ∈ t.cmds ∧
           k.kind = kind ∧ k.tag = tag ∧ k.recAddr = A.toNat / 64 * 64 ∧ k.st = .queued ∧ TagTakes x x' tag ∧
           (d ≠ 0 → getX h' d = BitVec.ofNat 32 (getTag x' tag).count)) ∧
       (B.toNat < 2 ^ 24 → h.lfe = none → ∃ t x' h' k, exec (.lfe d a b) s = .next t ∧ getCtx t s.cur = some x' ∧
         getHart x' r = some h' ∧ h'.st = .waiting (.lfe d a b) ∧ h'.lfe = some k.id ∧ k ∈ t.cmds ∧ k.kind = .lfe ∧
         k.recAddr = (A.toNat + B.toNat * 2 ^ 32) / 8 * 8) ∧
       (∀ id k st, B.toNat < 2 ^ 24 → h.lfe = some id → getCmd s id = some k → k.st = .done st → k.status < 256 →
         HartGives (.lfe d a b) s x r h d
           (BitVec.ofNat 32 ((if k.status = 0 then k.result.toNat % 2 else 0) + 256 * k.status))) ∧
       (∀ bs s1 s2 hd, (∀ e c, x.wait ≠ .handover e c) → hartRead s x r (A.toNat / 128 * 128) 128 = (bs, s1) →
         submitTask s1 s1.cur (ctxIn s1 x) bs = .child s2 hd →
         let y := ctxIn s2 x
         let s3 := takePieces s2 s2.cur y
         y.views = [] → untaken s3 y.task = [] →
         ∃ h', exec (.ltsk d a) s = .next (modCtx s3 s3.cur fun z => putHart z r h') ∧ h'.st = .running ∧
           (d ≠ 0 → getX h' d = hd)) ∧
       (∀ n, A.toNat = n → n < 64 → B.toNat < 4 → (∀ e, x.held = some e → e.who ≠ some r) →
         let die := B.getLsbD 1
         n < (if die then hdrDbar x.hdr else hdrCbar x.hdr) →
         let k := barOf s x.region s.cur.core die n
         (pendingPubs s (.hart x.task r) = [] → syncsBefore s (.hart x.task r) (if die then 2 else 1) = [] →
           ∃ t x' h', exec (.lbarArrive a b) s = .next t ∧
           getCtx t s.cur = some x' ∧ getHart x' r = some h' ∧ alGet h'.records (die, n) = some (getBar s k).phase ∧
           getBar t k = arriveBar s.now { getBar s k with pending := satPending (getBar s k).pending }) ∧
         (∀ w, alGet h.records (die, n) = some w → (getBar s k).phase ≠ w →
           (getBar s k).flipAt + (if die then 12 else 4) ≤ s.now →
           HartGives (.lbarWait a b) s x r h 0 0) ∧
         (alGet h.records (die, n) = some (getBar s k).phase → ∃ h', exec (.lbarWait a b) s =
           .next (setCtx s s.cur (putHart x r h')) ∧ h'.st = .waiting (.lbarWait a b) ∧ h'.pc = h.pc)))

/-- R239, R242: the turn of a hart that waits tries its instruction again, with the hart whose turn it is. -/
def Obligations.HartWaitEnd : Prop :=
  ∀ (s : State) (q : HartId) (x : Ctx) (h : Hart) (d a b : BitVec 5), getCtx s q.c = some x →
    getHart x q.role = some h → x.halting = false → x.blocked = [] → x.wait = .none →
    let s' := { s with cur := q.c, curHart := some q.role }
    let again := fun (i : Instr) => h.st = .waiting i → exec (.hartWaitEnd q) s = exec i s'
    again (.lcopy d a b) ∧ again (.lwait d a b) ∧ again (.lpush a b) ∧ again (.lpop d a b) ∧ again (.lfe d a b) ∧
    again (.ltsk d a) ∧ again (.lbarWait a b) ∧
    (h.st = .waiting (.lwait d a b) →
      let ns := (List.range (getX h b).toNat).map ((getX h a).toNat + ·)
      0 < (getX h b).toNat → (getX h b).toNat ≤ 64 → (getX h a).toNat + (getX h b).toNat ≤ min 64 (hdrTags x.hdr) →
      (∀ n ∈ ns, (getTag x n).st ≠ .busy) →
      ∃ t x' h', exec (.hartWaitEnd q) s = .next t ∧ getCtx t q.c = some x' ∧ getHart x' q.role = some h' ∧
        h'.st = .running ∧ h'.pc = h.pc + BitVec.ofNat 32 (hartStep h))

/-- R30, R62, R77 to R81: a bundle issues: the turns of its issue are the instructions of its slots that execute, in
slot order, but that an M instruction which reads operand memory at issue has its turn before the T slot's (R206, log
126); the context as it stood is kept for a trap; its bases are stepped, and its issue knows its PC and length. -/
def Obligations.BundleIssue : Prop :=
  ∀ (s : State) (c : CtxId) (x0 x : Ctx) (t : Word) (ps : List Word) (present : List (Slot × Instr)) (os : List Offer),
    Issues s c x0 x t ps present os →
    ∃ u y i, exec (.bundleIssue c) s = .next u ∧ u.ops = turnOrder ((runsOf x os).map (resolveInstr s c x)) ∧
      u.cur = c ∧ u.curHart = none ∧ u.undo = some x0 ∧ getCtx u c = some y ∧ y.issue = some i ∧ i.pc = x0.pc ∧
      i.parcels = bundleParcels t ∧ i.rep = x0.rep ∧ i.results = [] ∧ i.transfer = none ∧ y.g = x.g ∧ y.seen = x.seen ∧
      y.v = x0.v ∧ y.s = x0.s ∧ y.p = x0.p ∧ u.hbm = s.hbm ∧ u.tasks = s.tasks ∧
      ∀ n, (getCore u n).scratch = (getCore s n).scratch ∧ (getCore u n).opmem = (getCore s n).opmem ∧
        (getCore u n).acc = (getCore s n).acc

/-- R77, R91: a bundle of a context that is able to offer one, illegal by its template, takes ILLEGAL_BUNDLE (code
0x01, SLOT 7) with the slice as it stands. R62: with its template's line not in the store, the context's bundle is
held on a fill of that line, and so is the context while a parcel is missing by which a skip is sized (R118), or a
loop exit or a pin (the model's choice, log 115: R113, R115 and R116 do not say); nothing else of the slice changes.
SLOT 7 is DEDUCED (log 25). -/
def Obligations.BundleHolds : Prop :=
  (∀ (s : State) (c : CtxId) (x : Ctx) (t : Word) (ps : List Word), getCtx s c = some x → ableToOffer s c x = true →
     x.sizing = none → fetchBundle s c x = .ok (t, ps) → templateIllegal t = true →
     exec (.bundleIssue c) s = .next (takeTrap { s with cur := c } c x
       { code := 0x01, slot := 7, cls := 0, opnd := 0, tpc := x.pc, tinfo := BitVec.ofNat 32 (x.rep % 16) })) ∧
  (∀ (s : State) (c : CtxId) (x : Ctx), getCtx s c = some x → ableToOffer s c x = true →
     let waits := fun (y : Ctx) (pc tpc : Word) =>
       ∃ t, exec (.bundleIssue c) s = .next t ∧ getCtx t c = some { y with wait := .fill pc tpc, issue := none } ∧
         (∃ k ∈ t.cmds, k.kind = .ifill ∧ k.recAddr = (x.image + pc.toNat) / 4096 * 4096 ∧
           k.asid = (getRegion s x.region).asid) ∧
         t.hbm = s.hbm ∧ t.cores = s.cores ∧ t.tasks = s.tasks
     (x.sizing = none → parcelAt s c x x.pc.toNat = none → waits x x.pc x.pc) ∧
     (∀ z z' pc tpc, x.sizing = some z → settleSizing s c x z = .error (z', pc, tpc) → waits (openSize x z' tpc) pc tpc))

/-- R83: the end of an issue: last-use and dead marks first, then one entry for a result, landing after its latency.
-/
def Obligations.ResultReservation : Prop :=
  ∀ (s : State) (x : Ctx) (i : Issue) (b : Bank) (n l : Nat) (v : Val) (ml : Nat) (vw : Bool), Here s x →
    x.issue = some i →
    i.results = [{ queue := some (b, n), latch := ml, latency := l + 1, val := v, view := vw }] → i.carried = [] → i.wait = .none →
    n < 32 →
    ∃ y e, getCtx (finishIssue s) s.cur = some y ∧ y.issue = none ∧ e.val = none ∧
      getQueue y b n = joinQueue (getQueue (applyMarks x) b n) e ∧
      (s.now + (l + 1), Instr.resultLanding s.cur e.id) ∈ (finishIssue s).timers ∧
      ∃ f ∈ y.flights, f.id = e.id ∧ f.val = v ∧ f.latch = ml ∧ f.queue = some (b, n)

/-- R82, R85, R87: a result lands in its entry, if its queue still holds it, and in its latch, and is in flight no
more. R114, R111: what follows the last repetition of a bundle: with the top entry's end bundle at its PC, the loop
turns or exits, else the next bundle in order; a transfer goes to its target with its dead cycles. -/
def Obligations.LandingAndLoopEnd : Prop :=
  (∀ (s : State) (c : CtxId) (x : Ctx) (f : Flight), getCtx s c = some x → x.flights.find? (fun g => g.id = f.id) = some f →
     f.latch < 8 →
     ∃ y, exec (.resultLanding c f.id) s = .next (setCtx s c y) ∧
       y.latches.toList.getD f.latch .lost = (match f.val with | .s w => .scalar w | .v v => .vector v) ∧
       (∀ m, m < 8 → m ≠ f.latch → y.latches.toList.getD m .lost = x.latches.toList.getD m .lost) ∧
       (∀ g, g ∈ y.flights ↔ g ∈ x.flights ∧ g.id ≠ f.id) ∧
       (∀ b n, f.queue = some (b, n) → n < 32 → getQueue y b n =
         { getQueue x b n with entries := (getQueue x b n).entries.map fun e => if e.id = f.id then { e with val := some f.val } else e }) ∧
       y.pc = x.pc ∧ y.g = x.g ∧ y.p = x.p) ∧
  (∀ (s : State) (c : CtxId) (x : Ctx) (i : Issue), i.reps ≤ i.rep →
     let next := i.pc + BitVec.ofNat 32 (4 * i.parcels)
     (∀ t d b, i.transfer = some { goal := .pc t, dead := d, boundary := b } →
       ∃ y, nextPc s c x i = (y, b, true) ∧ y.pc = t ∧ y.nextIssue = s.now + d ∧ y.loops = x.loops) ∧
     (i.transfer = none →
       ((∀ e, x.loops.head? = some e → e.stop ≠ i.pc) →
         ∃ y, nextPc s c x i = (y, false, false) ∧ y.pc = next ∧ y.loops = x.loops ∧ y.nextIssue = s.now + 1) ∧
       (∀ e rest, x.loops = e :: rest → e.stop = i.pc → e.index.toNat + 1 < e.count.toNat →
         ∃ y, nextPc s c x i = (y, true, false) ∧ y.pc = e.start ∧ y.loops = { e with index := e.index + 1 } :: rest) ∧
       (∀ e, x.loops = [e] → e.stop = i.pc → e.count.toNat ≤ e.index.toNat + 1 →
         ∃ y, nextPc s c x i = (y, true, false) ∧ y.pc = next ∧ y.loops = [])))

/-- R33, R121, R156, R158, R284: the events that end waits: a pending `fmt` write, a tag wait, a barrier wait, a wait
for a full pool, a publication with what it carried; a barrier change that waits for earlier synchronising operations
of its agent, once those have taken effect (the order of R290: the model's reading, log 117). -/
def Obligations.WaitEnds : Prop :=
  ∀ (s : State) (c : CtxId) (x : Ctx), getCtx s c = some x →
    (∀ w pre post, x.fmtPend = pre ++ (0, w) :: post → (∀ p ∈ pre, p.1 = 0) → (∀ p ∈ post, p.1 ≠ 0) →
      exec (.fmtWriteApply c) s = .next (setCtx s c { x with fmt := w, fmtPend := post })) ∧
    (∀ first count, x.wait = .tag first count false → (∀ n, first ≤ n → n < first + count → (getTag x n).st ≠ .busy) →
      exec (.tagWaitEnd c) s = .next (setCtx s c { x with wait := .none })) ∧
    (∀ first count n, x.wait = .tag first count true → first ≤ n → n < first + count → (getTag x n).st = .done →
      exec (.tagWaitEnd c) s = .next (setCtx s c { x with wait := .none })) ∧
    (∀ die n r, x.wait = .barrier die n r →
      let b := getBar s (barOf s x.region c.core die n)
      b.phase ≠ r → b.flipAt + (if die then 12 else 4) ≤ s.now →
      exec (.barrierWaitEnd c) s = .next (setCtx s c { x with wait := .none })) ∧
    (∀ die, x.wait = .spawnPool die → (s.tasks.filter fun t => t.die = die).length < 4096 →
      exec (.spawnPoolWaitEnd c) s = .next (setCtx s c { x with wait := .none })) ∧
    (∀ p, s.pubs.find? (fun q => q.id = p.id) = some p → p.after ≠ [] →
      ((∃ i ∈ p.after, (∃ q ∈ s.pubs, q.id = i) ∨ ∃ q ∈ s.cmds, q.id = i ∧ effectsMade q = false) →
        exec (.publicationComplete p.id) s = .next (addTimer s (s.now + 1) (.publicationComplete p.id))) ∧
      ∀ kk (n : Int), p.arrive = some (kk, n) → 0 ≤ n →
        (∀ i ∈ p.after, (∀ q ∈ s.pubs, q.id ≠ i) ∧ ∀ q ∈ s.cmds, q.id = i → effectsMade q = true) →
        ∃ t, exec (.publicationComplete p.id) s = .next t ∧ (∀ q, q ∈ t.pubs ↔ q ∈ s.pubs ∧ q.id ≠ p.id) ∧
          getBar t kk = arriveBar s.now { getBar s kk with pending := satPending ((getBar s kk).pending - n) } ∧
          ∀ k2, k2 ≠ kk → getBar t k2 = getBar s k2) ∧
    (∀ p, s.pubs.find? (fun q => q.id = p.id) = some p →
      (s.pubs.filter fun q => q.agent = p.agent && q.after.isEmpty).head? = some p → p.after = [] → p.arrive = none → ∃ t, exec (.publicationComplete p.id) s = .next t ∧
        (∀ q, q ∈ t.pubs ↔ q ∈ s.pubs ∧ q.id ≠ p.id) ∧ t.cmds.length = s.cmds.length ∧
        (∀ k ∈ t.cmds, p.id ∉ k.heldBy) ∧
        t.log = s.log.map fun r => if r.id ∈ p.writes then { r with pubs := (r.pubs ++ p.insts).eraseDups } else r)

/-- R124, R128, R129, R242: the ends of slices. A yield whose results have landed, whose M work is done and whose
harts stand at `lyld` parks its task with its state; a `tend` whose copies have ended starts the hand-over; a `halt`,
or the end of that hand-over, ends the task. R314: pre-emption: a context that waits with a request pending begins to
halt; one that has drained is saved and its task parks with its budget. -/
def Obligations.SliceEndEvents : Prop :=
  (∀ (s : State) (c : CtxId) (x : Ctx) (t : Task), getCtx s c = some x → getTask s x.task = some t → x.halting = false →
     (x.wait = .yieldLand → x.flights = [] → mIdle s x = true → hartJoined x.loader = true → hartJoined x.storer = true →
       ∃ u t' y, exec (.yieldSliceEnd c) s = .next u ∧ getCtx u c = none ∧ getTask u x.task = some t' ∧ t'.st = .parked ∧
         t'.preempted = false ∧ t'.since = s.now ∧ t'.saved = some y ∧ y.pc = x.pc ∧ y.v = x.v ∧ y.s = x.s ∧ y.g = x.g ∧
         y.tags = x.tags ∧ y.loops = x.loops) ∧
     (x.wait = .tend → openCmds s x.task = [] → mIdle s x = true →
       ∃ u y due, exec (.tendComplete c) s = .next u ∧ getCtx u c = some y ∧ y.wait = .handover true due ∧
         (∀ h, y.loader = some h → h.st = .halted) ∧ (∀ h, y.storer = some h → h.st = .halted)) ∧
     (x.wait = .halt → openCmds s x.task = [] → mIdle s x = true →
       ∃ u, exec (.haltComplete c) s = .next u ∧ getCtx u c = none ∧ ∀ t', getTask u x.task = some t' → t'.st = .ended) ∧
     (∀ due, x.wait = .handover false due → due ≤ s.now → x.views = [] → arenaCopies s c x = false →
       untaken s x.task = [] →
       ∃ u y, exec (.spawnHandoverEnd c) s = .next u ∧ getCtx u c = some y ∧ y.wait = .none ∧ s.now < y.nextIssue) ∧
     (∀ due, x.wait = .handover true due → due ≤ s.now → x.views = [] → arenaCopies s c x = false →
       untaken s x.task = [] →
       ∃ u, exec (.spawnHandoverEnd c) s = .next u ∧ getCtx u c = none ∧ ∀ t', getTask u x.task = some t' → t'.st = .ended)) ∧
  (∀ (s : State) (c : CtxId) (x : Ctx) (t : Task), getCtx s c = some x → getTask s x.task = some t →
     (∀ t0, x.preempt = some t0 → x.halting = false → x.wait ≠ .none →
       ∃ u y, exec (.preemptHalt c) s = .next u ∧ getCtx u c = some y ∧ y.halting = true ∧ y.draining = true) ∧
     (x.halting = true → x.draining = true → x.flights = [] → (getCore s c.core).dp = none →
       ∃ u t' y, exec (.preemptHalt c) s = .next u ∧ getCtx u c = none ∧ getTask u x.task = some t' ∧ t'.st = .parked ∧
         t'.preempted = true ∧ t'.saved = some y ∧ y.sbudget = x.sbudget ∧ y.pc = x.pc))

/-- R311, R312, R315, R316, R318: the timed traps. SBUDGET 0 takes BUDGET before the next bundle, and its handler runs
with 4,096 cycles more, once; the watchdog and an overrun request abort the region. -/
def Obligations.TimedTraps : Prop :=
  ∀ (s : State) (c : CtxId) (x : Ctx), getCtx s c = some x → x.region < s.regions.length →
    (getRegion s x.region).st = .admitted →
    let aborts := fun (i : Instr) (code : Nat) => ∃ t r, exec i s = .next t ∧ Out.domainRecord r ∈ t.out ∧
      r.toNat % 2 ^ 32 = code + 7 * 256 + 2 * 2048 ∧ r.toNat / 2 ^ 32 % 2 ^ 32 = x.pc.toNat ∧
      (getRegion t x.region).st = .aborted
    (x.sbudget = 0 → atBundle s x = true → (getRegion s x.region).hndl ≠ 0xFFFFFFFF → x.handler = false →
      x.extended = false → ∃ t y, exec (.budgetTrap c) s = .next t ∧ getCtx t c = some y ∧ t.hbm = s.hbm ∧ y.handler = true ∧ y.pc = (getRegion s x.region).hndl ∧ y.tcause = BitVec.ofNat 32 (0x0B + 7 * 256) ∧ y.tpc = x.pc ∧
        y.sbudget = 4096 ∧ y.extended = true ∧ y.wait = .none) ∧
    (2 ^ 24 ≤ x.sinceYield → aborts (.watchdog c) 0x0C) ∧
    (∀ t0, x.preempt = some t0 → 256 ≤ s.now - t0 - x.fetchWait → x.halting = false → aborts (.boundaryOverrun c) 0x0D)

/-- R42: start waves and gating. A wave starts its gated cores of the sequence 32 cycles after the one before; the
last ends the sequence (log 113); a core whose contexts have both been empty for 65,536 cycles is gated. R38, R193,
R310: a slice may issue once its state is read back, its images are written and its core is cleared. R307, R308, R309:
a satisfied readiness word is noted, the last one makes its task READY and calls the arbiter; a decision places the
first candidate in order that fits. R308, R313, R322: that order; a candidate that does not fit, and has a context
reserved or no slice below its class, is passed over for the next; one with a slice below its class asks the
pre-emption of one victim, of the lowest class and then the latest deadline, and has its context reserved. -/
def Obligations.StartPlacementArbiter : Prop :=
  ((∀ (s : State) (w t : Nat) (cores : List Nat), s.sequence = some (t, cores) → t + 32 * w ≤ s.now → w < 48 →
     ∃ u, exec (.waveStart w) s = .next u ∧ (w < 47 → u.sequence = s.sequence) ∧
       (w = 47 → waitsGated u = false → u.sequence = none) ∧
       (∀ n ∈ cores, n % 96 / 2 = w → (getCore u n).gated = false) ∧
       (∀ n, n ∉ cores ∨ n % 96 / 2 ≠ w → (getCore u n).gated = (getCore s n).gated) ∧
       ∀ n, (getCore u n).scratch = (getCore s n).scratch) ∧
   (∀ (s : State) (n : Nat), getCtx s ⟨n, 0⟩ = none → getCtx s ⟨n, 1⟩ = none → (getCore s n).gated = false →
     (getCore s n).emptySince + 65536 ≤ s.now →
     exec (.coreGating n) s = .next (setCore s n { getCore s n with gated := true }))) ∧
  ((∀ (s : State) (c : CtxId) (x : Ctx), getCtx s c = some x → (∀ k ∈ s.cmds, k.kind = .fill → k.task ≠ x.task) →
     (∀ d, Blocker.restore d ∈ x.blocked → d ≤ s.now) →
     ∃ y, exec (.stateRestoreComplete c) s = .next (setCtx s c y) ∧ (∀ d, Blocker.restore d ∉ y.blocked) ∧
       (∀ b, (∀ d, b ≠ Blocker.restore d) → (b ∈ y.blocked ↔ b ∈ x.blocked)) ∧ y.pc = x.pc ∧ y.v = x.v ∧ y.s = x.s) ∧
   (∀ (s : State) (n : Nat), ∃ t, exec (.scratchClearComplete n) s = .next t ∧ t.cores = s.cores ∧ t.hbm = s.hbm ∧
     ∀ c x, getCtx s c = some x → ∃ y, getCtx t c = some y ∧
       (c.core = n → ∀ d, d ≤ s.now → Blocker.clear d ∉ y.blocked) ∧ (c.core ≠ n → y = x) ∧
       ∀ b, (∀ d, b ≠ Blocker.clear d) → (b ∈ y.blocked ↔ b ∈ x.blocked))) ∧
  ((∀ (s : State) (t : Task) (i va : Nat), getTask s t.uid = some t → t.st = .waiting → t.ready[i]? = some (va, false) →
     ∀ pa, seeWord s t.region va = .word pa → isFull s pa = true → wordParked s t.uid i = false →
     ∃ u t', exec (.readinessWordFilled t.uid i) s = .next u ∧ getTask u t.uid = some t' ∧
       t'.ready = t.ready.set i (va, true) ∧ u.hbm = s.hbm ∧
       ((∀ j p, j ≠ i → t.ready[j]? = some p → p.2 = true) → t'.st = .ready) ∧
       ((∃ j p, j ≠ i ∧ t.ready[j]? = some p ∧ p.2 = false) → t'.st = .waiting)) ∧
   (∀ (s : State) (die : Nat) (t : Task) (rest : List Task) (q : Spot),
     let s0 := lapse s
     sortBy (ranksBefore s0) (s0.tasks.filter fun t => t.die = die && isCandidate s0 t) = t :: rest →
     getTask s0 t.uid = some t → (t.st = .ready ∨ t.run ≤ t.budget ∨ t.preempted = true) → findSpot s0 t = some q →
     exec (.arbiterDecision die) s = .next (addTurn (placeTask s0 t q) (.arbiterDecision die)))) ∧
  ((∀ (s : State) (a b : Task),
     let p := fun (t : Task) => (getRegion s t.region).prio
     ranksBefore s a b = true ↔ p b < p a ∨ (p a = p b ∧ (a.deadline < b.deadline ∨ (a.deadline = b.deadline ∧
       (a.since < b.since ∨ (a.since = b.since ∧ a.index < b.index)))))) ∧
   (∀ (s : State) (die : Nat) (t : Task) (rest : List Task),
     let s0 := lapse s
     sortBy (ranksBefore s0) (s0.tasks.filter fun t => t.die = die && isCandidate s0 t) = t :: rest →
     getTask s0 t.uid = some t → (t.st = .ready ∨ t.run ≤ t.budget ∨ t.preempted = true) → findSpot s0 t = none →
     (∀ (u : Task) (more : List Task) (q : Spot), rest = u :: more → getTask s0 u.uid = some u →
       (u.st = .ready ∨ u.run ≤ u.budget ∨ u.preempted = true) → findSpot s0 u = some q →
       ((∃ r ∈ s0.reserved, r.2 = t.uid) ∨ victim s0 t.die (getRegion s0 t.region).prio = none) →
       exec (.arbiterDecision die) s = .next (addTurn (placeTask s0 u q) (.arbiterDecision die))) ∧
     (rest = [] → (∀ r ∈ s0.reserved, r.2 ≠ t.uid) → ∀ c, victim s0 t.die (getRegion s0 t.region).prio = some c →
       exec (.arbiterDecision die) s = .next (requestHalt { s0 with reserved := s0.reserved ++ [(c, t.uid)] } c))) ∧
   (∀ (s : State) (die cls : Nat) (c : CtxId), victim s die cls = some c →
     let dl := fun (x : Ctx) => ((getTask s x.task).map fun t => t.deadline).getD 0
     ∃ x, (c, x) ∈ s.slots ∧ dieOf c.core = die ∧ (getRegion s x.region).prio < cls ∧
       ∀ d y, (d, y) ∈ s.slots → dieOf d.core = die → (∀ r ∈ s.reserved, r.1 ≠ d) →
         (getRegion s x.region).prio ≤ (getRegion s y.region).prio ∧
         ((getRegion s x.region).prio = (getRegion s y.region).prio → dl y ≤ dl x)))

/-- R89, R90: what every system register holds: identity, timebase, deadline, slice budget, the task, its region's
RCB, the declared resources, the trap registers, the counters; a number of no register reads zero here (R89 traps the
instructions that name one before they read; log 104). R3: the timebase: the next cycle; what fell due, and what was
still to be done, has its turn, and nothing due is pending; where a slice was left alone in context 1 its core's
contexts have been exchanged (R29), and its events with them. R89, R133, R310, R311, R312: what a cycle counts for a
placed slice: CYCLE and the watchdog's count up, SBUDGET down but in a restore or a clear, where the others count all
the same (the model's choice, log 37), MIDLE up with the datapath not at work for it, MSTALL up in a tag or fill wait;
a counter that `syswr` wrote in the cycle keeps its value; guards changed in a cycle hold from the next one (R161). -/
def Obligations.TimeAndCycles : Prop :=
  (∀ (s : State) (c : CtxId) (x : Ctx),
     let pair := fun (n : Nat) => (sysReg s c x n).toNat + 2 ^ 32 * (sysReg s c x (n + 1)).toNat
     (c.core < 768 → c.ctx < 2 → s.pkg < 1024 →
       field (sysReg s c x 0x000) 9 0 = s.pkg ∧ field (sysReg s c x 0x000) 13 10 = c.core / 96 ∧
       field (sysReg s c x 0x000) 20 14 = c.core % 96 ∧ field (sysReg s c x 0x000) 21 21 = c.ctx ∧
       field (sysReg s c x 0x000) 31 22 = 0) ∧
     pair 0x001 = s.now % 2 ^ 64 ∧
     (∀ t, getTask s x.task = some t → pair 0x003 = t.deadline % 2 ^ 64 ∧
       (∀ h : Word, t.spawned = some h → pair 0x006 = 2 ^ 63 + h.toNat) ∧
       (t.spawned = none → pair 0x006 = t.descriptor.toNat)) ∧
     sysReg s c x 0x005 = BitVec.ofNat 32 x.sbudget ∧ pair 0x008 = (getRegion s x.region).rcb % 2 ^ 64 ∧
     sysReg s c x 0x00A = (x.hdr.extractLsb' 0 29).setWidth 32 ∧
     sysReg s c x 0x00B = x.tcause ∧ sysReg s c x 0x00C = x.tpc ∧ sysReg s c x 0x00D = x.tinfo ∧
     sysReg s c x 0x010 = BitVec.ofNat 32 x.cycle ∧ sysReg s c x 0x011 = x.midle ∧ sysReg s c x 0x012 = x.mstall ∧
     (∀ n, 0x012 < n ∨ n = 0x00E ∨ n = 0x00F → sysReg s c x n = 0)) ∧
  (∀ (s : State), ∃ t, exec .timebaseAdvance s = .next t ∧ t.now = s.now + 1 ∧
     (∀ p ∈ t.timers, s.now + 1 < p.1) ∧ t.cur = s.cur ∧ t.ops = s.ops ∧
     ∃ cores : List Nat, (∀ n ∈ cores, getCtx t ⟨n, 1⟩ = none) ∧
       (∀ p ∈ s.timers, p.1 ≤ s.now + 1 → Sum.inl (cores.foldl (fun i n => swapInstr n i) p.2) ∈ t.todo) ∧
       (∀ i, Sum.inl i ∈ s.todo → Sum.inl (cores.foldl (fun i n => swapInstr n i) i) ∈ t.todo) ∧
       ∀ q, Sum.inr q ∈ s.todo → ∃ r, Sum.inr r ∈ t.todo ∧ r.role = q.role ∧ r.c.core = q.c.core) ∧
  (∀ (s : State) (c : CtxId) (x : Ctx),
     ∃ y, countCycle s c x = y ∧ y.cycle = x.cycle + 1 ∧ y.sinceYield = x.sinceYield + 1 ∧
       (x.blocked = [] → y.sbudget = x.sbudget - 1) ∧
       (∀ d, Blocker.restore d ∈ x.blocked ∨ Blocker.clear d ∈ x.blocked → y.sbudget = x.sbudget) ∧
       ((getCore s c.core).dp = none → x.midleSet = false → y.midle = x.midle + 1) ∧
       (∀ n due, (getCore s c.core).dp = some (n, due) → n ≠ c.ctx → x.midleSet = false → y.midle = x.midle + 1) ∧
       (∀ due, (getCore s c.core).dp = some (c.ctx, due) → y.midle = x.midle) ∧ (x.midleSet = true → y.midle = x.midle) ∧
       ((∃ f n a, x.wait = .tag f n a) ∨ (∃ p q, x.wait = .fill p q) ∨ Blocker.wave ∈ x.blocked → x.mstallSet = false →
         y.mstall = x.mstall + 1) ∧
       (x.wait = .none → x.blocked = [] → y.mstall = x.mstall) ∧ (x.mstallSet = true → y.mstall = x.mstall) ∧
       y.guards = dueGuards x ∧ dueGuards y = dueGuards x ∧
       y.midleSet = false ∧ y.mstallSet = false ∧ y.pc = x.pc ∧ y.v = x.v ∧ y.s = x.s ∧ y.g = x.g ∧ y.p = x.p)

/-- R127, R258: a private view's identity reaches the window as the slice's own write; an instruction fill whose walk
finds a code page places the line under its ASID's generation. R148, R151, R155, R163: a command that has made every
effect ends: its tag takes the status, its record takes RESULT, and the barrier that it names takes an arrival. A copy
to another package first has the arrival made there, with one packet, whose acknowledgement it waits for (that packet,
and the wait for it, are the model's choice, log 133); a package whose incarnation is not known is probed first
(R262), and the copy keeps the arrival till then. -/
def Obligations.CommandCompletes : Prop :=
  ((∀ (s : State) (k : Cmd) (task : Task) (x : Ctx) (core base : Nat), getCmd s k.id = some k → k.kind = .viewFill →
     getTask s k.task = some task → sliceOf s k.task = some x → ∀ m, task.scratch = .here core base [] m →
     firstFault { x with window := base } k.recAddr k.data.length = none →
     ∃ t, exec (.viewFillComplete k.id) s = .next t ∧ (∀ q ∈ t.cmds, q.id ≠ k.id) ∧ t.hbm = s.hbm ∧
       (getCore t core).scratch = memPut (getCore s core).scratch (base + k.recAddr) k.data ∧
       ∀ n, n ≠ core → getCore t n = getCore s n) ∧
   (∀ (s : State) (k : Cmd) (va level e : Nat) (w : Bool), getCmd s k.id = some k → k.kind = .ifill → k.tag = 64 →
     k.st = .walking (getAsid s k.asid).gen va w → walk s k.asid k.recAddr = .leaf level e → codeLeaf e = true →
     ∃ t l, exec (.instructionFillComplete k.id) s = .next t ∧ l ∈ (getCore t k.c.core).lines ∧ l.asid = k.asid ∧
       l.va = k.recAddr ∧ l.gen = (getAsid s k.asid).gen ∧ (∀ q ∈ t.cmds, q.id ≠ k.id) ∧
       l.data = BitVec.ofNat 32768 (natOfBytes (rawRead s .hbm (teAddr e + k.recAddr % pageSize level) 4096)))) ∧
  (∀ (s : State) (k : Cmd), getCmd s k.id = some k → k.st = .ending →
     (k.arrive = false → ∃ t, exec (.copyComplete k.id) s = .next t ∧ CmdEnded s t k k.status ∧ t.hbm = s.hbm ∧
       (∀ b, k.bar = some b → getBar t b = arriveBar s.now (getBar s b)) ∧ (k.bar = none → t.cbars = s.cbars ∧ t.dbars = s.dbars) ∧
       (∀ task x core base m, getTask s k.task = some task → sliceOf s k.task = some x → task.scratch = .here core base [] m →
         takesResult k.kind = true → k.tag < 64 → firstFault { x with window := base } (k.recAddr + 56) 8 = none →
         (getCore t core).scratch = memPut (getCore s core).scratch (base + (k.recAddr + 56)) (bytesOf 8 k.result.toNat) ∧
         ∀ n, n ≠ core → getCore t n = getCore s n)) ∧
     (k.arrive = true →
       let pkg := copyPkg s k
       let what := RemoteWhat.copyrEnd k.id k.owner (nth (targetsOf .copyr k.record) 0 0) (descBar k.record)
       (knownInc s pkg ≠ 0 → ∃ t, exec (.copyComplete k.id) s = .next t ∧
         getCmd t k.id = some { k with arrive := false, st := .arriving pkg s.fresh } ∧
         Sends s t pkg s.fresh (.remote pkg s.fresh (knownInc s pkg) what) ∧ t.hbm = s.hbm ∧ t.cores = s.cores ∧
         t.cbars = s.cbars ∧ t.dbars = s.dbars) ∧
       (knownInc s pkg = 0 → ∃ t, exec (.copyComplete k.id) s = .next t ∧
         getCmd t k.id = some { k with st := .arriving pkg 0 } ∧ pkg ∈ t.probes ∧ t.hbm = s.hbm ∧ t.cores = s.cores ∧
         t.cbars = s.cbars ∧ t.dbars = s.dbars)))

/-- R254, R255: the end of a walk: with its generation moved it is begun again; a park hands the fault record to the
fault service; a malformed entry is reported and ends the copy FAULTED; a leaf goes to the TLB and the copy goes on.
R151, R153, R293: the last unit of a waiting copy, moved when its condition holds: a push's entry lands in a queue
with room; a `copyf` word is moved and its full/empty bit set or cleared; the reduction unit replaces an element by
the operation's value, once. -/
def Obligations.WalksAndUnits : Prop :=
  (∀ (s : State) (k : Cmd) (gen va : Nat) (w : Bool), getCmd s k.id = some k → k.kind = .copy → k.st = .walking gen va w →
     (gen ≠ (getAsid s k.asid).gen → exec (.walkComplete k.id) s = .next (startWalk s k va w)) ∧
     (gen = (getAsid s k.asid).gen →
       (walk s k.asid va = .park → (s.cmds.filter fun q => q.cluster = k.cluster && isParked q).length < 64 →
         ∃ t r, exec (.walkComplete k.id) s = .next t ∧
           getCmd t k.id = some { k with st := .parked va (if w then 1 else 0) } ∧ t.out = s.out ++ [.faultRecord r] ∧
           field r 55 0 = va % 2 ^ 56 ∧ field r 59 56 = (if w then 1 else 0) ∧ field r 75 64 = k.asid % 2 ^ 12 ∧
           field r 91 76 = gen % 2 ^ 16 ∧ field r 159 128 = doneIndex k % 2 ^ 32 ∧ t.hbm = s.hbm) ∧
       (∀ pa, walk s k.asid va = .bad pa → ∃ t, exec (.walkComplete k.id) s = .next t ∧ CmdEnding t k stFaulted ∧
         t.out = s.out ++ [.malformedEntry pa] ∧ t.hbm = s.hbm) ∧
       (∀ level e, walk s k.asid va = .leaf level e →
         exec (.walkComplete k.id) s = .next (advance 64 k.id (modCmd (tlbFill s k.cluster k.asid va level e) k.id fun q =>
           { q with
             st := .active
             trans := q.trans ++ [walked s k gen va level e] }))))) ∧
  (∀ (s : State) (k : Cmd), getCmd s k.id = some k →
     (k.kind = .copy → k.st = .pushWait →
       let s1 := withSt s k .active
       (k.index = 0 → checkCurrent s1 { k with st := .active } = none) → pushesEntries k = true → unitsOf k = k.index + 1 → 512 * (k.index + 1) ≤ k.buf.length → k.target = 0 →
       ∀ c x, targetCtx s1 { k with st := .active } (dDaddr k.record) = some c → getCtx s c = some x →
         bits (dDaddr k.record) 4 0 < hdrVq x.hdr → hasRoom x .v (bits (dDaddr k.record) 4 0) = true →
         ∃ t y e, exec (.pushEntryFreed k.id) s = .next t ∧ getCtx t c = some y ∧
           getQueue y .v (bits (dDaddr k.record) 4 0) = joinQueue (getQueue x .v (bits (dDaddr k.record) 4 0)) e ∧
           e.val = some (.v (vecOfBytes ((k.buf.drop (512 * k.index)).take 512))) ∧ CmdEnding t k stOk ∧ t.hbm = s.hbm) ∧
     (k.kind = .copyf → k.st = .wordWait → laneFree s k.cluster = true → k.target = 0 → unitsOf k = k.index + 1 →
       isPush k.record = false → k.stored = false →
       let s1 := withSt s k .active
       let k1 := { k with st := .active }
       (k.index = 0 → checkCurrent s1 k1 = none) →
       let m := bits (dMode k.record) 1 0
       let r := k.index / perRun k
       let skip := 8 * (k.index % perRun k)
       ∀ a b, sourcePlaces s1 k1 r skip 8 = (.ok [(.hbm a, 8)], s1) →
         let goesTo := fun (u : State) => destPlaces u k1 r skip 8 = (.ok [(.hbm b, 8)], u)
         let took := readNewest s1 (.cmd k.id) .hbm (a / 8 * 8) 8
         let kept := fun (u : State) => modCmd u k.id fun q => { q with buf := took.1 }
         goesTo s1 →
         (m = 0 → goesTo (readPlaces k1 k1.answers [(.hbm a, 8)] s1).2 → isFull s (b / 8 * 8) = false → ∃ t, exec (.copyfWordReady k.id) s = .next t ∧
           t.hbm = memPut s.hbm b ((readPlaces k1 k1.answers [(.hbm a, 8)] s1).1.take 8) ∧ isFull t (b / 8 * 8) = true ∧ CmdEnding t k stOk) ∧
         (m = 1 → k.buf = [] → goesTo (kept (setFull took.2 (a / 8 * 8) false)) → isFull s (a / 8 * 8) = true → ∃ t, exec (.copyfWordReady k.id) s = .next t ∧
           t.hbm = memPut s.hbm b (rawRead s .hbm (a / 8 * 8) 8) ∧ isFull t (a / 8 * 8) = false ∧ CmdEnding t k stOk) ∧
         (m = 2 → k.buf = [] → goesTo (kept took.2) → isFull s (a / 8 * 8) = true → ∃ t, exec (.copyfWordReady k.id) s = .next t ∧
           t.hbm = memPut s.hbm b (rawRead s .hbm (a / 8 * 8) 8) ∧ t.full = s.full ∧ CmdEnding t k stOk)) ∧
     (k.kind = .copya → k.st = .active → k.target = 0 → unitsOf k = k.index + 1 → k.stored = false →
       (dMode k.record).testBit 8 = false →
       let e := esizeBytes k.record
       ∀ src b, elementPlaces s k = (.ok (src, [(.hbm b, e)], []), s) → farReads k src = [] → k.buf = [] →
         let arg := (readPlaces k k.answers src s).1
         let s2 := (readPlaces k k.answers src s).2
         let at' := addrAt (dDaddr k.record)
           (runOffset k.record true (k.index / perRun k) + ((k.index % perRun k * e : Nat) : Int))
         targetPlaces s2 k = (.ok [(.hbm b, e)], s2) → (∀ n, (placesAt s2 k at' e false).1 ≠ .ok [(.zeros, n)]) →
         ∃ t, exec (.atomicElementApply k.id) s = .next t ∧ CmdEnding t k stOk ∧
           t.hbm = memPut s.hbm b (bytesOf e (atomValue (bits (dMode k.record) 7 0) (8 * e)
             (natOfBytes (rawRead s .hbm b e)) (natOfBytes (arg.drop (arg.length - e))) (natOfBytes (arg.take e))))))

/-- R146, R255, R347: what ends a wait of a command otherwise: no target slice in 65,536 cycles aborts a copy, or a
query's delivery of which nothing is written, which the solder unit of the root counts, or, for a root on another
package, is told; a replay sends a parked copy back to its engine at its index, a failure ends it FAULTED. R353, R358:
the commands of a commit and of a partition record: a commit with every token record written, neither a mask nor a
release left, ends OK; a publication alone at its record takes effect there and reports its status. R160, R278: a
`pvsnap` alone at its record first releases the snapshot its context has, then takes a count under RD(CUR) and the
version, which lands in D as the instruction's result (at once where it waited for nothing: 8 cycles from the issue,
log 55); at a count of 65,535 it waits. -/
def Obligations.TimeoutsAndRecords : Prop :=
  (∀ (s : State) (k : Cmd), getCmd s k.id = some k →
     (∀ since, k.st = .targetWait since → since + 65536 ≤ s.now →
       (checkNow s k = some .target → ∃ t, exec (.copyTargetTimeout k.id) s = .next t ∧ CmdEnding t k stAborted ∧
         t.hbm = s.hbm) ∧
       (k.kind = .aqry → k.shared = true → isWin (qDest k.record) = true → k.index = 0 →
         targetCtx s k (qDest k.record) = none →
         ∃ t, exec (.windowDestTimeout k.id) s = .next t ∧ CmdEnding t k stAborted ∧ t.hbm = s.hbm ∧
           (k.root = none → t.out = s.out ∧ ∀ n, getTree t n = (getTree s n).map fun r =>
             if n = qTree k.record then
               { r with late := if n % 2 = 0 then (r.late.1 + 1, r.late.2) else (r.late.1, r.late.2 + 1) }
             else r) ∧
           (∀ pkg, k.root = some (pkg, 0) → t.out = s.out ∧ t.trees = s.trees) ∧
           (∀ pkg num, k.root = some (pkg, num) → num ≠ 0 →
             Sends s t pkg s.fresh (.answer pkg s.fresh num (.ends stAborted)) ∧ t.trees = s.trees))) ∧
     (∀ va kind, k.st = .parked va kind → isCopy k.kind = true →
       (kind ≠ 5 → ∃ t, exec (.faultServiceReplay k.id) s = .next t ∧
         getCmd t k.id = some { k with st := .queued, trans := [] } ∧ t.todo = s.todo ++ [.inl (.walkComplete k.id)] ∧
         t.hbm = s.hbm) ∧
       ∃ t, exec (.faultServiceFail k.id) s = .next t ∧ CmdEnding t k stFaulted ∧ t.hbm = s.hbm)) ∧
  ((∀ (s : State) (k : Cmd), getCmd s k.id = some k → k.kind = .commit → k.st = .active → cmNemit k.record ≤ k.index →
     cmMsk k.record = false → cmRel k.record = false →
     ∃ t, exec (.commitAsync k.id) s = .next t ∧ CmdEnding t k stOk ∧ t.hbm = s.hbm ∧ t.slots = s.slots) ∧
   (∀ (s : State) (p c : Nat) (v : Word) (k : Cmd), s.partOps = [(p, c, .publish v k.id)] → c < s.now → getCmd s k.id = some k →
     ∃ t, exec (.partitionRecordApply p) s = .next t ∧ t.partOps = [] ∧
       CmdEnding t k (publishVersion (getPart s p) v).1 ∧ getPart t p = (publishVersion (getPart s p) v).2 ∧
       ∀ q, q ≠ p → getPart t q = getPart s q) ∧
   (∀ (s : State) (p c : Nat) (i : Bool), s.partOps = [(p, c, .release i)] → c < s.now →
     ∃ t, exec (.partitionRecordApply p) s = .next t ∧ t.partOps = [] ∧ getPart t p = releaseReader (getPart s p) i ∧
       t.slots = s.slots ∧ t.hbm = s.hbm) ∧
   (∀ (s : State) (p c task id : Nat) (cx : CtxId) (x : Ctx), s.partOps = [(p, c, .snapshot task id)] → c < s.now →
     s.cmds = [] → ctxOfTask s task = some cx → getCtx s cx = some x →
     let r := (x.snap.map fun v => releaseReader (getPart s p) v.2).getD (getPart s p)
     (65535 ≤ readers r r.cur → ∃ t, exec (.partitionRecordApply p) s = .next t ∧ t.partOps = s.partOps ∧
       getPart t p = getPart s p ∧ t.slots = s.slots) ∧
     (readers r r.cur < 65535 → ∃ t y, exec (.partitionRecordApply p) s = .next t ∧ t.partOps = [] ∧
       getPart t p = setReaders r r.cur (readers r r.cur + 1) ∧ getCtx t cx = some y ∧ y.snap = some (r.ver, r.cur) ∧
       (∀ f, x.flights.find? (fun g => g.due = 0 && decide (2 ≤ g.latch)) = some f →
         (s.now + 7, Instr.resultLanding cx f.id) ∈ t.timers ∧
         ∃ g ∈ y.flights, g.id = f.id ∧ g.due = s.now + 7 ∧ g.val = .s r.ver ∧ g.queue = f.queue ∧ g.latch = f.latch) ∧
       y.v = x.v ∧ y.s = x.s ∧ y.pc = x.pc ∧ t.hbm = s.hbm)))

/-- R249, R253, R257, R261, R269, R272: what the root monitor and the service firmware do to memory: an install
rewrites its entry, stamps or counts the frame that it maps, or gives one up (a 64 KiB frame that no leaf maps any
more returns to its free list), and raises the generation where it changes a valid entry, but for the end of a
migration (log 72); a raise completes once no access translated before it is under way; a page moves with its
full/empty bits, in the newest state of each word (the model's choice, log 22); the free lists take free frames; a PIN
goes; a block leaves tier 0 (its bytes kept by the model for their return, log 76). -/
def Obligations.MemoryService : Prop :=
  (∀ (s : State) (asid va level pa : Nat) (entry : DWord),
    let a := getAsid s asid
    let old := hbmNat s pa 8
    let e := entry.toNat
    a.root ≠ 0 → entryAt s va level 4 a.root = some pa → old ≠ e →
    (installOk s a.owner level e = false → exec (.translationInstall asid va level entry) s = .next s) ∧
    (installOk s a.owner level e = true → ∃ t, exec (.translationInstall asid va level entry) s = .next t ∧
      (framesUnder s level old = framesUnder s level e → t.hbm = memPut s.hbm pa (bytesOf 8 e) ∧ t.frames = s.frames) ∧
      (framesUnder s level old = [] → ∀ f n, framesUnder s level e = [(f, n)] → getFrame t f =
        if (getFrame s f).owner = a.owner ∧ (getFrame s f).size = n then
          { getFrame s f with shares := (getFrame s f).shares + 1 }
        else { owner := a.owner, shares := 1, size := n }) ∧
      (teV e = false → ∀ f n, framesUnder s level old = [(f, n)] →
        (1 < (getFrame s f).shares → getFrame t f = { getFrame s f with shares := (getFrame s f).shares - 1 }) ∧
        ((getFrame s f).shares ≤ 1 → getFrame t f = { getFrame s f with owner := 0, shares := 0 } ∧
          t.freePages = if n = 2 ^ 16 then s.freePages ++ [f] else s.freePages)) ∧
      (getAsid t asid).gen = (if teV old && !endsMigration old e then (a.gen + 1) % 2 ^ 16 else a.gen) ∧
      (∀ b, b ≠ asid → getAsid t b = getAsid s b) ∧ t.slots = s.slots)) ∧
  (∀ (s : State) (asid : Nat), exec (.generationRaiseComplete asid) s =
    .next { s with raises := s.raises.filter fun r => r.1 ≠ asid || raiseHeld s r }) ∧
  (∀ (s : State) (asid va pa level e src : Nat), leafEntry s asid va = some (level, e) → mapsFrame level e = some src →
    let n := pageSize level
    teMig e = true → (∀ r ∈ s.raises, r.1 ≠ asid) → pa % n = 0 → stackOk pa = true → meets src n pa n = false →
    (getFrame s pa).owner = (getAsid s asid).owner →
    ∃ t, exec (.pageMigration asid va pa) s = .next t ∧ t.hbm = memPut s.hbm pa (rawRead s .hbm src n) ∧
      (∀ i, i < n → isFull t (pa + i) = isFull s (src + i)) ∧ t.frames = s.frames ∧ t.slots = s.slots) ∧
  (∀ (s : State) (x : Nat),
    (x % 4096 = 0 → stackOk x = true → frameFree s x 4096 = true →
      exec (.freeListFill .block [x]) s = .next { s with freeBlocks := s.freeBlocks ++ [x] }) ∧
    (x % 2 ^ 16 = 0 → stackOk x = true → frameFree s x (2 ^ 16) = true →
      exec (.freeListFill .page [x]) s = .next { s with freePages := s.freePages ++ [x] }) ∧
    (x < 2 ^ 30 → x ∉ s.freeGbns → geLive (gbnEntry s x) = false →
      exec (.freeListFill .gbn [x]) s = .next { s with freeGbns := s.freeGbns ++ [x] })) ∧
  (∀ (s : State) (g : Nat), gePin (gbnEntry s g) = true →
    let e := putBits (gbnEntry s g) 205 205 0
    ∃ t, exec (.pinClear g) s = .next t ∧
      (geRefcnt e ≠ 0 → t.hbm = memPut s.hbm (gbnAddr s g) (bytesOf 32 e) ∧ t.freeBlocks = s.freeBlocks) ∧
      (geRefcnt e = 0 → t.hbm = memPut s.hbm (gbnAddr s g) (bytesOf 32 0) ∧ t.freeGbns = s.freeGbns ++ [g] ∧
        ((∀ b ∈ s.tiered, b.1 ≠ g) → t.freeBlocks = s.freeBlocks ++ [geFrame e] ∧ (getFrame t (geFrame e)).owner = 0) ∧
        ((∃ b ∈ s.tiered, b.1 = g) → t.freeBlocks = s.freeBlocks ∧ t.frames = s.frames ∧ ∀ b ∈ t.tiered, b.1 ≠ g))) ∧
  (∀ (s : State) (ra tier : Nat), 0 < tier → tier < 3 →
    let r := hbmNat s ra 8
    let g := refGbn r
    let e := gbnEntry s g
    refV r = true → refPkg r = s.pkg → refTier r = 0 → geLive e = true → gePin e = false → geCmp e = false →
    geRefcnt e ≤ 1 → ∃ t, exec (.blockTierEvict (.reference ra) tier) s = .next t ∧
      t.hbm = memPut (memPut s.hbm (gbnAddr s g) (bytesOf 32 (putBits e 35 0 0))) ra (bytesOf 8 (putBits r 43 42 tier)) ∧
      t.freeBlocks = s.freeBlocks ++ [geFrame e] ∧ ∃ bs full, t.tiered = s.tiered ++ [(g, bs, full)])

/-- R332, R360, R373: the two-phase commit of a MOVE: acknowledgements are counted at home, and the last one commits,
the new map to every participant; the old blocks go with the last acknowledgement of the commit; an outcome is told,
and an abort is kept until its receipts are acknowledged; a participant records, adopts or forgets the move, or
remembers an abort that has overtaken its prepare (R360); a lost stripe is marked under the next generation, at once
and without a prepare (the model's choice, log 63). Each message is taken in once. -/
def Obligations.Moves : Prop :=
  (∀ (s : State) (v : Move) (num move pkg : Nat), s.up = true → (pkg, num) ∉ s.seenPackets →
    getMove s s.pkg move = some v → v.atHome = true →
    let s1 := tookIn s pkg num
    let left := { v with waiting := v.waiting.filter fun p => p ≠ pkg }
    (v.decided = none → ∀ refs,
      let made := if pkg = mvNew v.msg.record then (v.msg.blocks.zip refs).map fun p => (p.1.1, p.1.2.1, p.2) else v.made
      ((∃ p ∈ v.waiting, p ≠ pkg) →
        exec (.movePrepareAck move ⟨pkg, num, refs, 0⟩) s = .next (putMove s1 { left with made := made })) ∧
      ((∀ p ∈ v.waiting, p = pkg) → ∃ t, exec (.movePrepareAck move ⟨pkg, num, refs, 0⟩) s = .next t ∧ (∀ e ∈ v.msg.map, e ∈ t.map) ∧
        ∀ p ∈ v.parties, ∃ n, Sends s t p n (.commit p n v.msg))) ∧
    (v.decided = some true →
      (∃ t, exec (.moveOutcomeQuery move ⟨pkg, num, (), 0⟩) s = .next t ∧
        Sends s t pkg s.fresh (.commit pkg s.fresh v.msg) ∧ t.moves = s.moves ∧ t.hbm = s.hbm) ∧
      ((∃ p ∈ v.waiting, p ≠ pkg) → exec (.moveCommitAck move ⟨pkg, num, (), 0⟩) s = .next (putMove s1 left)) ∧
      ((∀ p ∈ v.waiting, p = pkg) → ∃ t, exec (.moveCommitAck move ⟨pkg, num, (), 0⟩) s = .next t ∧
        getMove t v.msg.home v.msg.id = none ∧ (v.old = [] → t.hbm = s.hbm))) ∧
    (v.decided = some false →
      (∃ t, exec (.moveOutcomeQuery move ⟨pkg, num, (), 0⟩) s = .next t ∧
        Sends s t pkg s.fresh (.abort pkg s.fresh v.msg) ∧ t.moves = s.moves) ∧
      ∀ p bs, s.packets.find? (fun q => q.pkg = pkg && q.num = num) = some p → p.what = .abort pkg num v.msg →
        (∀ k ∈ s.cmds, awaited k ≠ some (pkg, num)) →
        ∃ t, exec (.packetAck pkg { num := num, reply := .done bs none none, own := none }) s = .next t ∧ t.hbm = s.hbm ∧
          ((∃ p ∈ v.waiting, p ≠ pkg) → getMove t s.pkg move = some left) ∧
          ((∀ p ∈ v.waiting, p = pkg) → getMove t s.pkg move = none))) ∧
  (∀ (s : State) (src num : Nat) (m : MoveMsg), s.up = true → (src, num) ∉ s.seenPackets →
    (∀ v, getMove s m.home m.id = some v → v.decided = none → ∃ t, exec (.movePrepare ⟨src, num, m, 0⟩) s = .next t ∧
      t.moves = s.moves ∧ t.hbm = s.hbm ∧
      Sends s t m.home s.fresh (.prepareAck m.home s.fresh m.id (v.made.map fun r => r.2.2))) ∧
    (∀ v, getMove s m.home m.id = some v → v.decided ≠ none → ∃ t, exec (.movePrepare ⟨src, num, m, 0⟩) s = .next t ∧
      getMove t m.home m.id = none ∧ t.hbm = s.hbm ∧ t.out = (tookIn s src num).out) ∧
    (getMove s m.home m.id = none → mvNew m.record ≠ s.pkg → ∃ t v, exec (.movePrepare ⟨src, num, m, 0⟩) s = .next t ∧
      getMove t m.home m.id = some v ∧ v.msg = m ∧ v.atHome = false ∧ v.made = [] ∧ t.hbm = s.hbm ∧
      Sends s t m.home s.fresh (.prepareAck m.home s.fresh m.id [])) ∧
    (getMove s m.home m.id = none → mvNew m.record = s.pkg →
      ∀ made s1, prepareBlocks m.owner m.blocks (tookIn s src num) = some (made, s1) →
      ∃ t v n, exec (.movePrepare ⟨src, num, m, 0⟩) s = .next t ∧ getMove t m.home m.id = some v ∧ v.made = made ∧
        Sends s t m.home n (.prepareAck m.home n m.id (made.map fun r => r.2.2))) ∧
    (∀ e rest, m.map = e :: rest → ∃ t n, exec (.moveCommit ⟨src, num, m, 0⟩) s = .next t ∧
      t.map = s.map.filter (fun f => f.seq ≠ e.seq) ++ m.map ∧ Sends s t m.home n (.commitAck m.home n m.id) ∧
      getMove t m.home m.id = none ∧ t.hbm = s.hbm) ∧
    (getMove s m.home m.id = none → m.home ≠ s.pkg → ∃ t v, exec (.moveAbort ⟨src, num, m, 0⟩) s = .next t ∧
      getMove t m.home m.id = some v ∧ v.decided = some false ∧ v.atHome = false ∧ v.made = [] ∧ t.hbm = s.hbm ∧
      t.out = (tookIn s src num).out)) ∧
  (∀ (s : State) (num src : Nat) (m : MoveMsg) (v : Move), s.up = true → (src, num) ∉ s.seenPackets →
    getMove s m.home m.id = some v → v.atHome = false → ∃ t, exec (.moveAbort ⟨src, num, m, 0⟩) s = .next t ∧
      getMove t m.home m.id = none ∧ t.out = (tookIn s src num).out ∧ t.map = s.map ∧ (v.made = [] → t.hbm = s.hbm)) ∧
  (∀ (s : State) (seq first : Nat) (e : StripeEntry),
    let g := groupOf s seq
    g.find? (fun e => e.first = first) = some e → groupHome g = s.pkg → e.st ≠ 3 → (∀ f ∈ g, f.st ≠ 2) →
    ∃ t, exec (.stripeLost seq first) s = .next t ∧ t.hbm = s.hbm ∧
      t.map = s.map.filter (fun f => f.seq ≠ e.seq) ++
        g.map fun f => { f with st := (if f = e then 3 else f.st), gen := (f.gen + 1) % 2 ^ 16 })

/-- R323, R324, R326, R335: the service firmware's part of the key-value store: a sequence record made and removed, a
stripe map installed for its groups, with the packages that hold it (the model's way of giving R332's holders, log
62), a unit hot where its half has room and cold where nothing uses it, a prefix entry evicted (the index is a table
of the state, and the entry before it in its chain is linked on: log 64). -/
def Obligations.SequenceService : Prop :=
  ∀ (s : State) (seq : Nat),
    (∀ dhc table, getSeq s seq = none → dhc < 3 → seq < 2 ^ 32 →
      ∃ t q, exec (.sequenceRecordCreate seq dhc table) s = .next t ∧ getSeq t seq = some q ∧ q.dhc = dhc ∧
        q.home = s.pkg ∧ q.nextPos = 0 ∧ q.tail = 0 ∧ q.tfill = 0 ∧ q.table = table ∧
        (∀ n, n ≠ seq → getSeq t n = getSeq s n) ∧ t.hbm = s.hbm) ∧
    (∃ t, exec (.sequenceRecordRemove seq) s = .next t ∧ getSeq t seq = none ∧ seq ∉ t.pewter ∧
      (∀ n, n ≠ seq → getSeq t n = getSeq s n ∧ (n ∈ t.pewter ↔ n ∈ s.pewter)) ∧ t.hbm = s.hbm) ∧
    (∀ es holders, ∃ t, exec (.positionMapInstall ⟨es, holders⟩) s = .next t ∧ t.hbm = s.hbm ∧
      (∀ e, e ∈ t.map ↔ e ∈ es ∨ e ∈ s.map ∧ ∀ f ∈ es, f.seq ≠ e.seq) ∧
      ∀ h, h ∈ t.mapHolders ↔ (h.2 = holders ∧ ∃ f ∈ es, f.seq = h.1) ∨ h ∈ s.mapHolders ∧ ∀ f ∈ es, f.seq ≠ h.1) ∧
    (seq ∉ s.pewter → unitRows s seq ≤ 131072 → halfRows s (seq % 2) + unitRows s seq ≤ 131072 →
      exec (.pewterLoad seq) s = .next { s with pewter := s.pewter ++ [seq] }) ∧
    (s.queries = [] → s.cmds = [] → exec (.pewterEvict seq) s = .next { s with pewter := s.pewter.filter fun q => q ≠ seq }) ∧
    (∀ p, s.prefixes.find? (fun q => q.id = seq) = some p → ∃ t, exec (.prefixIndexEvict seq) s = .next t ∧
      (∀ q, q ∈ t.prefixes ↔ ∃ r ∈ s.prefixes, r.id ≠ seq ∧ q = if r.next = p.at' then { r with next := p.next } else r) ∧
      (∀ r, p.refs = [r] → ∀ g, g = refGbn r.toNat → 1 < geRefcnt (gbnEntry s g) →
        t.hbm = memPut s.hbm (gbnAddr s g)
          (bytesOf 32 (geSetRefcnt (gbnEntry s g) (geRefcnt (gbnEntry s g) - 1)))))

/-- R319, R320, R337 to R342: merges and queries: a current piece's chunk of 512 bytes folds into its tile, an
online-softmax record in its two chunks; a unit's partial is scored and counted; a query's leaves, nodes and timers
send what they know upwards; a tree table is installed or refused. -/
def Obligations.MergesAndQueries : Prop :=
  (∀ (s : State) (p : Piece) (k : Cmd) (pa : Nat), getPiece s p.id = some p → mergeable s p = true →
    (getRegion s p.region).mergeDead = false → p.cmd = some k.id → getCmd s k.id = some k → k.kind = .merge →
    k.st = .active → p.spill = none → p.identity = false →
    512 * k.index < p.view.size → k.stored = false →
    let va := addrAt p.view.addr.toNat (512 * k.index : Nat)
    let tile := rawRead s .hbm pa 512
    let piece := (p.bytes.drop (512 * k.index)).take 512
    let kept := if k.buf = [] then tile.take 8 ++ piece.take 8 else k.buf
    let goesTo := fun (u : State) => placesAt u k va 512 true = (.ok [(.hbm pa, 512)], u)
    goesTo s → goesTo (modCmd (readNewest s (.cmd k.id) .hbm pa 512).2 k.id fun q => { q with buf := kept }) →
    (∀ n, (placesAt s k va 512 false).1 ≠ .ok [(.zeros, n)]) →
    ∃ t q, exec (.viewPieceMerge p.id) s = .next t ∧ getCmd t k.id = some q ∧ q.index = k.index + 1 ∧
      q.buf = (if p.view.op = 10 ∧ k.index % 2 = 0 then kept else []) ∧
      t.hbm = memPut s.hbm pa ((foldChunk p.view k.index kept tile piece).take 512) ∧ t.slots = s.slots) ∧
  (∀ (s : State) (q : Query) (stack : Nat) (rows : List (Nat × Nat)), s.queries.find? (fun r => r.key = q.key) = some q →
    q.gathered = true → alGet q.pending stack = some rows → unitStands s q stack rows = true →
    ((∃ r ∈ rows, geCmp (gbnEntry s (refGbn r.2)) = true) →
      exec (.nmaPartial q.key stack) s = .next (addTimer s (s.now + 1) (.nmaPartial q.key stack))) ∧
    ((∀ r ∈ rows, geCmp (gbnEntry s (refGbn r.2)) = false) → alDel q.pending stack ≠ [] →
      ∃ t, exec (.nmaPartial q.key stack) s = .next t ∧ t.queries = s.queries.map fun r =>
        if r.key = q.key then
          { q with
            pending := alDel q.pending stack
            units := q.units ++ [(stack, unitPartials q.msg (readBlocks (.nma stack q.key) rows s).1)] }
        else r)) ∧
  (∀ (s : State) (src num : Nat) (m : QueryMsg) (t : Tree) (n child : Nat) (e : MergeNode) (a : Answer),
    getTree s (qTree m.record) = some t → child ≠ 0 → nodeParent (treeNode t child) = n → getNode s m n = some e →
    e.msg = m → e.node = n →
    (s.up = true → (src, num) ∉ s.seenPackets →
      let s1 := tookIn s src num
      (e.forwarded = true → exec (.solderPartialArrival ⟨src, num, m, 0⟩ child a) s = .next (countLate s1 t m n)) ∧
      (e.forwarded = false → alGet e.got child = none → child ∉ e.lost → t.version = m.version →
        nodeAnswer t { e with got := e.got ++ [(child, a)] } = none →
        exec (.solderPartialArrival ⟨src, num, m, 0⟩ child a) s = .next (putNode s1 { e with got := e.got ++ [(child, a)] }))) ∧
    (s.nodes.find? (fun f => f.key = e.key && f.node = n) = some e → e.forwarded = false → missing t e ≠ [] →
      ∀ b, nodeAnswer t { e with lost := e.lost ++ missing t e } = some b →
        ∃ u due, exec (.mergeChildTimeout e.key n) s = .next u ∧ s.now ≤ due ∧ ((∀ hs ls, b ≠ .part hs ls) → due = s.now) ∧
          u.nodes = s.nodes.map fun f =>
            if f.key = e.key then { e with lost := e.lost ++ missing t e, forwarded := true, leaving := some (due, b) }
            else f)) ∧
  (∀ (s : State) (src num : Nat) (m : QueryMsg) (t : Tree) (n : Nat), s.up = true → (src, num) ∉ s.seenPackets →
    getTree s (qTree m.record) = some t → getNode s m n = none → groupOf s (qSeq m.record) = [] →
    ∃ u e, exec (.startNotice ⟨src, num, m, 0⟩ n) s = .next u ∧ u.nodes = s.nodes ++ [e] ∧ e.msg = m ∧
      e.node = n ∧ e.got = [] ∧ e.lost = [] ∧ e.forwarded = false ∧ e.leaving = none ∧
      (s.now + heightOf t 1024 n * qTmo m.record * 1400, Instr.mergeChildTimeout e.key n) ∈ u.timers) ∧
  (∀ (s : State) (id : Nat) (ws : List Word),
    ((badTree ws = true ∨ 256 ≤ id) → exec (.treeTableInstall id ws) s = .next (emit s (.topology id))) ∧
    (badTree ws = false → id < 256 → ∃ u t, exec (.treeTableInstall id ws) s = .next u ∧ getTree u id = some t ∧
      t.version = field (nth ws 0 0) 31 16 ∧ t.nodes = ws.drop 1 ∧ t.late = (0, 0) ∧
      ∀ n, n ≠ id → getTree u n = getTree s n))

/-- R262, R264, R359, R360, R371: links and packages: a flit expected is delivered once, a bad one asks for a replay,
eight failures in a row, here or at the peer (log 154), retrain, and a peer's request has the flits kept sent again;
while a link retrains, flits wait, and at its end it goes on from the flit that failed, or is down (what comes of a
retraining is an outside event, a bad request is discarded, a wave's links are up in its event: logs 97, 110); a
packet's answer, a packet of its own (log 155), lets its command go on or ends it, and an access is served once, under
this package's incarnation, else refused (the answer `refused` and the status after it: log 98; duplicates are not
answered: log 99); a probe is answered, its reply fills the table and lets what waited for it go, and a probe without
a reply ends the command (its status: log 102); the loss of a package voids what is known of it (log 99); the waves
train four links each; the routing table wires the domain. -/
def Obligations.Fabric : Prop :=
  (∀ (s : State) (l seq : Nat) (data : BitVec 512), (getLink s l).up = true → (getLink s l).training = false →
    (seq = (getLink s l).expect →
      exec (.flitReceive l seq true (.flit data)) s = .next (setLink s l
        { getLink s l with expect := seq + 1, fails := 0, received := (getLink s l).received ++ [data] }) ∧
      exec (.flitReceive l seq false (.flit data)) s = .next (emit
        (setLink s l { getLink s l with fails := (getLink s l).fails + 1 }) (.replayRequest l seq))) ∧
    (∀ ok, seq ≠ (getLink s l).expect → exec (.flitReceive l seq ok (.flit data)) s = .next s) ∧
    exec (.flitReceive l seq false .replay) s = .next s ∧
    (∃ t, exec (.flitReceive l seq true .replay) s = .next t ∧ (∀ m, m ≠ l → getLink t m = getLink s m) ∧
      getLink t l = { getLink s l with
        asked := (seq, if (getLink s l).asked.1 = seq then (getLink s l).asked.2 + 1 else 1) } ∧
      t.out = s.out ++ ((getLink s l).sent.filter fun f => seq ≤ f.1).map fun f => .flit l f.1 f.2) ∧
    (∀ b, ∃ t, sendFlit l s b = t ∧ t.out = s.out ++ [.flit l (getLink s l).next b] ∧
      (getLink t l).next = (getLink s l).next + 1 ∧ ((getLink s l).next, b) ∈ (getLink t l).sent ∧
      (getLink t l).sent.length ≤ 256) ∧
    (8 ≤ (getLink s l).fails ∨ 8 ≤ (getLink s l).asked.2 →
      exec (.linkRetrain l) s = .next (setLink s l { getLink s l with training := true, since := s.now }))) ∧
  (∀ (s : State) (l : Nat), (getLink s l).training = true →
    let k := getLink s l
    (∀ b, sendFlit l s b = setLink s l { k with pending := k.pending ++ [b] }) ∧
    (s.packets = [] → s.known = [] → s.nodes = [] → s.moves = [] →
      exec (.linkRetrainEnd l false) s = .next (setLink s l
        { k with up := false, training := false, fails := 0, pending := [], asked := (0, 0) })) ∧
    ∃ t, exec (.linkRetrainEnd l true) s = .next t ∧ (getLink t l).up = true ∧ (getLink t l).training = false ∧
      (getLink t l).fails = 0 ∧ (getLink t l).asked = (0, 0) ∧ (getLink t l).pending = [] ∧
      (getLink t l).expect = k.expect ∧ (getLink t l).next = k.next + k.pending.length ∧
      (k.fails ≠ 0 → .replayRequest l k.expect ∈ t.out) ∧
      (k.asked.2 ≠ 0 → ∀ f ∈ k.sent, k.asked.1 ≤ f.1 → .flit l f.1 f.2 ∈ t.out) ∧
      ∀ i b, k.pending[i]? = some b → .flit l (k.next + i) b ∈ t.out) ∧
  (∀ (s : State) (w : Nat), s.up = true → w < 9 → s.poweredAt + 28000 * w ≤ s.now → alGet s.links (4 * w) = none →
    s.packets = [] → s.known = [] → s.nodes = [] → s.moves = [] → ∃ t, exec (.linkTrainingWave w) s = .next t ∧
      (∀ l, (getLink t l).up = true ↔ (4 * w ≤ l ∧ l < 4 * w + 4) ∨ (getLink s l).up = true) ∧ t.out = s.out ++ [.wave w]) ∧
  (∀ (s : State) (es : List (Nat × List Nat)), s.packets = [] → s.known = [] → s.nodes = [] → s.moves = [] →
    exec (.routingTableWrite es) s =
      .next { s with switched := false, routes := es.map fun e => (e.1, e.2.filter fun l => l < 36) }) ∧
  (∀ (s : State) (k : Cmd) (pkg num : Nat) (p : Packet), s.cmds = [k] → s.packets = [p] → p.pkg = pkg → p.num = num →
    num ≠ 0 → k.st = .remoteWait pkg num → k.heldBy = [] → (∀ a b m, p.what ≠ .abort a b m) →
    (∀ bs, ∃ t, exec (.packetAck pkg ⟨num, .done bs none none, none⟩) s = .next t ∧ t.packets = [] ∧
      t.cmds = [{ k with
        st := if k.kind = .copyf then .queued else .active
        acks := k.acks + 1
        answers := k.answers ++ [bs]
        wrote := k.wrote || k.asks.1
        asks := (false, 0) }] ∧ t.todo = s.todo ++ [.inl (.walkComplete k.id)]) ∧
    (k.kind = .copy → s.nodes = [] →
      (∀ st, ∃ t, exec (.packetAck pkg ⟨num, .ends st, none⟩) s = .next t ∧ t.packets = [] ∧ CmdEnding t k st) ∧
      ∃ t, exec (.packetAck pkg ⟨num, .refused, none⟩) s = .next t ∧ t.packets = [] ∧
        CmdEnding t k (if k.wrote then stIndeterminate else stUnreachable))) ∧
  (∀ (s : State) (pkg num own : Nat) (r : Reply), s.up = true →
    ((pkg, own) ∈ s.seenPackets → exec (.packetAck pkg ⟨num, r, some own⟩) s = .next (ackPacket s pkg own)) ∧
    ((pkg, own) ∉ s.seenPackets →
      exec (.packetAck pkg ⟨num, r, some own⟩) s = exec (.packetAck pkg ⟨num, r, none⟩) (tookIn s pkg own))) ∧
  (∀ (s : State) (pkg num age : Nat), s.up = true →
    ((pkg, num) ∈ s.seenPackets → exec (.incarnationProbe ⟨pkg, num, (), age⟩) s = .next (ackPacket s pkg num)) ∧
    ((pkg, num) ∉ s.seenPackets → ∃ t, exec (.incarnationProbe ⟨pkg, num, (), age⟩) s = .next t ∧
      (pkg, num) ∈ t.seenPackets ∧ Sends s t pkg s.fresh (.probeReply pkg s.fresh s.incarnation) ∧ t.hbm = s.hbm) ∧
    ∀ inc : Word, (pkg, num) ∉ s.seenPackets → pkg < 576 → inc ≠ 0 → knownInc s pkg = 0 →
      ∃ t, exec (.incarnationProbeReply ⟨pkg, num, (), age⟩ inc) s = .next t ∧ knownInc t pkg = inc ∧ pkg ∉ t.probes ∧
        (∀ q, q ≠ pkg → knownInc t q = knownInc s q) ∧ (∀ k ∈ t.cmds, k.st ≠ .remoteWait pkg 0) ∧
        (∀ u ∈ t.unsent, u.1 ≠ pkg) ∧
        ∀ u ∈ s.unsent, u.1 = pkg → Sends s t pkg u.2.1 (.remote pkg u.2.1 inc u.2.2)) ∧
  (∀ (s : State) (pkg : Nat) (k : Cmd), pkg ∈ s.probes → s.unsent = [] → s.cmds = [k] → k.st = .remoteWait pkg 0 → k.kind = .copy →
    ∃ t, exec (.incarnationProbeTimeout pkg) s = .next t ∧ pkg ∉ t.probes ∧
      CmdEnding t k (if k.wrote then stIndeterminate else stUnreachable)) ∧
  (∀ (s : State) (pkg : Nat), s.cmds = [] → s.moves = [] → s.nodes = [] →
    ∃ t u, exec (.targetResetNotice pkg) s = .next t ∧ exec (.targetPowerDownNotice pkg) s = .next u ∧
      knownInc t pkg = 0 ∧ (∀ p ∈ t.seenPackets, p.1 ≠ pkg) ∧ (∀ w ∈ t.farWaits, w.2.src ≠ pkg) ∧
      knownInc u pkg = 0 ∧ (∀ p ∈ u.seenPackets, p.1 ≠ pkg) ∧ (∀ w ∈ u.farWaits, w.2.src ≠ pkg)) ∧
  (∀ (s : State) (r : RemoteReq), s.up = true → ((r.src, r.num) ∈ s.seenPackets → exec (.remoteAccess r) s = .next s) ∧
    ((r.src, r.num) ∉ s.seenPackets →
      (∀ a bs, r.what = .writePa a bs → stackOk a = true → r.inc = s.incarnation →
        ∃ t n, exec (.remoteAccess r) s = .next t ∧ t.hbm = memPut s.hbm a bs ∧ (r.src, r.num) ∈ t.seenPackets ∧
          Sends s t r.src n (.answer r.src n r.num (.done [] none none))) ∧
      (r.inc ≠ s.incarnation → ∃ t, exec (.remoteAccess r) s = .next t ∧ t.hbm = s.hbm ∧
        Sends s t r.src s.fresh (.answer r.src s.fresh r.num .refused))))

/-- R262, R264, R366, R368, R369, R371: the package as a whole: corrected errors are counted by source, a count at the
threshold warns the host (source and count as four bytes each: the model's layout, log 93), and one met while an
earlier checkpoint of the region is under way is only recorded (log 151); the window turns; stack n refreshes at stack
0's time offset by n × tREFI ÷ 12, no two together; a finished snapshot stream is digested, signed and let go; a reset
gives the next incarnation, never 0, and a power-down takes the package away. -/
def Obligations.PackageEvents : Prop :=
  (∀ (s : State) (n : Nat), isSource n = true → ∃ t, exec (.correctedError n) s = .next t ∧
    errorCount t n = errorCount s n + 1 ∧ ∀ m, m ≠ n → errorCount t m = errorCount s m) ∧
  (∀ (s : State) (n : Nat), isSource n = true → s.errWarned = false → s.errThreshold ≤ errorCount s n → s.regions = [] →
    exec (.checkpointWarning n) s = .next (sendDevice { s with errWarned := true } 0x85 0
      (bytesOf 4 n ++ bytesOf 4 (errorCount s n)))) ∧
  (∀ (s : State), s.errStart + 2 ^ 30 ≤ s.now →
    exec .errorWindowEnd s = .next { s with errors := [], errStart := s.errStart + 2 ^ 30, errWarned := false }) ∧
  (∀ (s : State) (n : Nat) (g : Region), isSource n = true → s.errWarned = false → s.errThreshold ≤ errorCount s n →
    s.regions = [g] → g.parent = 0 → g.ckpt = true → g.st = .admitted → (∃ m ∈ s.snapshots, m.root = 0) →
    ∃ t, exec (.checkpointWarning n) s = .next t ∧ t.warned = s.warned ++ [(s.now, n, 0)] ∧ t.snapshots = s.snapshots ∧
      t.errWarned = true ∧ t.hbm = s.hbm) ∧
  ((∀ (s : State), s.refreshAt = none → s.lastRefresh ≠ some s.now → exec (.hbmRefresh 0) s =
      .next (emit { s with refreshAt := some s.now, lastRefresh := some s.now } (.refresh 0))) ∧
   ∀ (s : State) (n : Nat),
    (∀ t, s.refreshAt = some t → s.lastRefresh ≠ some s.now → n < 12 → (s.now - t) % Config.trefi = n * Config.trefi / 12 →
      exec (.hbmRefresh n) s = .next (emit { s with lastRefresh := some s.now } (.refresh n))) ∧
    (12 ≤ n ∨ s.lastRefresh = some s.now ∨ (s.refreshAt = none ∧ n ≠ 0) ∨
        (∃ t, s.refreshAt = some t ∧ (s.now - t) % Config.trefi ≠ n * Config.trefi / 12) →
      exec (.hbmRefresh n) s = .next s)) ∧
  (∀ (s : State) (n : Snapshot), s.snapshots.find? (fun m => m.root = n.root) = some n → n.streaming = true →
    let bs := snapBytes s n
    let parts := chunks (2 ^ 28) ((bs.length + 2 ^ 28 - 1) / 2 ^ 28) bs
    ∃ t shards, exec (.snapshotStreamComplete n.root) s = .next t ∧ (∀ m ∈ t.snapshots, m.root ≠ n.root) ∧
      (shards.map fun p => p.2) = (parts.map fun c => shake256 (storedShard n.owner c) 32) ∧
      let body := manifestBody { n with shards := shards }
      Out.manifest n.rcb (body ++ signature s body) ∈ t.out) ∧
  (∀ (s : State), ∃ t u, exec .packageReset s = .next t ∧ exec .powerDown s = .next u ∧
    t.incarnation ≠ 0 ∧ (s.incarnation.toNat < 2 ^ 32 - 1 → t.incarnation = s.incarnation + 1) ∧
    t.up = Config.bootVerified t.incarnation.toNat ∧ u.up = false ∧ u.incarnation = s.incarnation ∧
    t.slots = [] ∧ t.tasks = [] ∧ t.regions = [] ∧ t.hostA = 0 ∧ t.devSeq = 0 ∧ t.retained = [] ∧ t.known = [] ∧
    t.now = s.now ∧ t.pkg = s.pkg ∧ t.identityKey = s.identityKey ∧ Out.notice false ∈ t.out ∧ Out.notice true ∈ u.out ∧
    ∀ n, (getCore t n).gated = true ∧ (getCore t n).scratch = [])

/-- R302, R313, R362 to R365, R367, R370, R372: the messages of the host, each with the next number and its fields in
order: LAUNCH reads its RCB; PREEMPT and RESUME name an ADMITTED region or are answered NOREGION; SYNC is answered by
a SYNCR, a duplicate by the response already given; REPLAY sends the retained messages again; ATTEST writes its
report; RESTORE restores or says why not; any other type is MALFORMED. The service firmware launches, and the root
monitor pre-empts and resumes, in the same way. R308, R313, R363: a PREEMPT suspends its region and that region's
descendants, and asks their resident slices to halt; a RESUME ends the suspension, makes their PARKED tasks candidates
from then on, and has every die's arbiter decide. A task of a suspended region that is PARKED is no candidate. -/
def Obligations.HostMessages : Prop :=
  ((∀ (s : State) (m : HostMsg), MsgArrives s m → MsgNext s m →
     let a := accepted s m
     let h := heard a m
     (msgOk m = true →
       (msgType m = 0x01 → ∃ t k, exec (.launch (.host m)) s = .next t ∧ t.launching = some (.host m) ∧ k ∈ t.cmds ∧ k.kind = .launch ∧
         k.recAddr = msgArg m 8 ∧ k.asid = m.asid ∧ t.hostA = a.hostA ∧ t.hbm = s.hbm) ∧
       (msgType m = 0x02 → ∀ r, regionByRcb a m.asid (msgArg m 8) = some r →
         exec (.preempt (.host m)) s = .next (ack (suspendTree h r) hsOk [])) ∧
       (msgType m = 0x02 → regionByRcb a m.asid (msgArg m 8) = none → exec (.preempt (.host m)) s = .next (ack a hsNoRegion [])) ∧
       (msgType m = 0x03 → ∀ r, regionByRcb a m.asid (msgArg m 8) = some r →
         exec (.resume (.host m)) s = .next (ack (resumeTree h r) hsOk [])) ∧
       (msgType m = 0x04 → exec (.sync m) s = .next (respond h 0x83 hsOk (syncrPayload a (msgArg m 4)))) ∧
       (msgType m = 0x05 → exec (.replay m) s = .next (ack (replayFrom h (BitVec.ofNat 32 (msgArg m 4))) hsOk [])) ∧
       (msgType m = 0x06 → ∀ t, natOfBytes (m.payload.drop 32) < 2 ^ 56 →
         monitorWrite h m.asid (natOfBytes (m.payload.drop 32)) (report a m.payload) = some t →
         exec (.attest m) s = .next (ack t hsOk [])) ∧
       (msgType m = 0x07 →
         (∀ t, restore h m.asid (msgArg m 8) = .ok t → exec (.restore m) s = .next (ack t hsOk [])) ∧
         ∀ bs, restore h m.asid (msgArg m 8) = .error bs → exec (.restore m) s = .next (ack a hsBadCkpt bs))) ∧
     (msgOk m = false → msgType m = 0x04 → exec (.sync m) s = .next (ack a hsMalformed [])) ∧
     (typeLen (msgType m) = none → exec (.unknownMessage m) s = .next (ack a hsMalformed []))) ∧
   (∀ (s : State) (m : HostMsg) (r : DevMsg), MsgArrives s m → BitVec.ofNat 32 (msgHseq m) = s.hostA →
     s.responses.find? (fun d => d.hseq.toNat = msgHseq m) = some r → msgType m = 0x04 →
     exec (.sync m) s = .next (deviceOut s r)) ∧
   ∀ (s : State) (asid rcb : Nat),
     (s.up = true → s.launching = none → s.waitingMsgs = [] → ∃ t k, exec (.launch (.unit asid rcb)) s = .next t ∧
       t.launching = some (.unit asid rcb) ∧ k ∈ t.cmds ∧ k.kind = .launch ∧ k.recAddr = rcb ∧ k.asid = asid ∧ t.hbm = s.hbm) ∧
     (∀ r, regionByRcb s asid rcb = some r → exec (.preempt (.unit asid rcb)) s = .next (suspendTree s r) ∧
       exec (.resume (.unit asid rcb)) s = .next (resumeTree s r)) ∧
     (regionByRcb s asid rcb = none → exec (.preempt (.unit asid rcb)) s = .next s ∧ exec (.resume (.unit asid rcb)) s = .next s)) ∧
  (∀ (s : State) (r : Nat),
     (∀ d, d < s.regions.length →
       (d ∈ subtree s r → (getRegion (suspendTree s r) d).suspended = true ∧ (getRegion (resumeTree s r) d).suspended = false) ∧
       (d ∉ subtree s r → getRegion (suspendTree s r) d = getRegion s d ∧ getRegion (resumeTree s r) d = getRegion s d)) ∧
     (∀ c x, getCtx s c = some x → x.region ∈ subtree s r → ∃ y, getCtx (suspendTree s r) c = some y ∧ y.preempt.isSome = true) ∧
     (suspendTree s r).tasks = s.tasks ∧
     (resumeTree s r).tasks = (s.tasks.map fun t =>
       if t.region ∈ subtree s r ∧ t.st = .parked ∧ (getRegion s t.region).suspended = true then { t with since := s.now }
       else t) ∧
     (∀ d, d < 8 → Sum.inl (Instr.arbiterDecision d) ∈ (resumeTree s r).todo) ∧
     ∀ t, t.st = .parked → (getRegion s t.region).suspended = true → isCandidate s t = false)

/-- R296, R361, R362: connections and RDMA: one control connection on each host port, on a queue pair with a path MTU;
a Reliable Connection queue pair on a free number, with a path MTU, of 256 a port (queue pair 1 not counted, log 121);
notifications slow a queue pair, a pause of the port's own priority holds the port (what they hold, log 95); an
operation on a queue pair goes to the engine of the hub die that has its port (scale-out ports: the model's choice,
logs 94 and 120), one with an address beyond 56 bits or of another kind is answered at once, or when the port lets its
answer leave. -/
def Obligations.ConnectionsAndRdma : Prop :=
  ∀ (s : State), s.up = true →
    (∀ port asid (r : ConnectionRequest),
      (port < 4 → r.service = BitVec.ofNat 64 controlService → (∀ c ∈ s.control, c.1 ≠ port) → portQps s port < 256 →
        (r.mtu = 1024 ∨ r.mtu = 2048 ∨ r.mtu = 4096) → r.qp ≠ 1 → (∀ q ∈ s.qps, q.1 = port → q.2.1 ≠ r.qp) →
        exec (.controlConnectionRequest port r asid) s =
          .next (emit { s with control := s.control ++ [(port, asid, r.qp, r.mtu)] } (.connection port true))) ∧
      ((4 ≤ port ∨ r.service ≠ BitVec.ofNat 64 controlService ∨ (∃ c ∈ s.control, c.1 = port) ∨ 256 ≤ portQps s port ∨
          (r.mtu ≠ 1024 ∧ r.mtu ≠ 2048 ∧ r.mtu ≠ 4096) ∨ r.qp = 1 ∨ (∃ q ∈ s.qps, q.1 = port ∧ q.2.1 = r.qp)) →
        exec (.controlConnectionRequest port r asid) s = .next (emit s (.connection port false)))) ∧
    (∀ port, ∃ t, exec (.controlConnectionClose port) s = .next t ∧
      (∀ c, c ∈ t.control ↔ c ∈ s.control ∧ c.1 ≠ port) ∧
      ∀ q, q ∈ t.portQueue ↔ q ∈ s.portQueue ∧ ∀ c ∈ s.control, c.1 = port → q.1 = port → q.2.1 ≠ c.2.2.1) ∧
    (∀ port transport qp asid mtu,
      (transport = 0 → port < 12 → qp ≠ 1 → portQps s port < 256 → (∀ q ∈ s.qps, q.1 = port → q.2.1 ≠ qp) →
        (∀ c ∈ s.control, c.1 = port → c.2.2.1 ≠ qp) → (mtu = 1024 ∨ mtu = 2048 ∨ mtu = 4096) → exec (.connectionSetUp port transport ⟨qp, mtu⟩ asid) s =
          .next (emit { s with qps := s.qps ++ [(port, qp, asid, mtu)] } (.connection port true))) ∧
      ((transport ≠ 0 ∨ 12 ≤ port ∨ qp = 1 ∨ 256 ≤ portQps s port ∨ (∃ q ∈ s.qps, q.1 = port ∧ q.2.1 = qp) ∨
          (∃ c ∈ s.control, c.1 = port ∧ c.2.2.1 = qp) ∨ (mtu ≠ 1024 ∧ mtu ≠ 2048 ∧ mtu ≠ 4096)) →
        exec (.connectionSetUp port transport ⟨qp, mtu⟩ asid) s = .next (emit s (.connection port false)))) ∧
    (∀ port qp, ∃ t due, exec (.congestionNotificationPacket port qp) s = .next t ∧ s.now < due ∧
      ∀ p, p ∈ t.slowed ↔ p = (port, qp, due) ∨ (p ∈ s.slowed ∧ ¬ (p.1 = port ∧ p.2.1 = qp))) ∧
    (∀ port priority pause, alGet s.pfc port = some priority → ∃ t,
      exec (.priorityFlowControlPause port priority pause) s = .next t ∧
      ∀ p, p ∈ t.paused ↔ if p = port then pause = true else p ∈ s.paused) ∧
    (∀ r : RdmaOp, (∃ mtu, (r.port, r.qp, r.asid, mtu) ∈ s.qps) →
      let leaves := fun (o : Out) => if portHeld s r.port r.qp then { s with portQueue := s.portQueue ++ [(r.port, r.qp, o)] }
        else { s with out := s.out ++ [o] }
      (r.ecn = false → exec (.rdmaInvalidOperation r) s = .next (leaves (.rdma r.port r.qp rdInvalid []))) ∧
      (r.ecn = true → portHeld s r.port r.qp = false → exec (.rdmaInvalidOperation r) s =
        .next { s with out := s.out ++ [.congestion r.port r.qp, .rdma r.port r.qp rdInvalid []] }) ∧
      (r.ecn = false → 2 ^ 56 ≤ r.va →
        exec (.rdmaWrite r) s = .next (leaves (.rdma r.port r.qp rdAccessError [])) ∧
        exec (.rdmaRead r) s = .next (leaves (.rdma r.port r.qp rdAccessError []))) ∧
      (r.va < 2 ^ 56 →
        let hub := if r.port < 2 ∨ (4 ≤ r.port ∧ r.port < 8) then 96 else 97
        let marked := fun (t : State) => r.ecn = true → portHeld s r.port r.qp = false → Out.congestion r.port r.qp ∈ t.out
        (∃ t k, exec (.rdmaWrite r) s = .next t ∧ k ∈ t.cmds ∧ k.kind = .rdmaWrite ∧ k.recAddr = r.va ∧ k.data = r.data ∧
          k.asid = r.asid ∧ k.target = r.port ∧ k.cluster = hub ∧ k.st = .queued ∧ t.hbm = s.hbm ∧ marked t) ∧
        ∃ t k, exec (.rdmaRead r) s = .next t ∧ k ∈ t.cmds ∧ k.kind = .rdmaRead ∧ k.recAddr = r.va ∧ k.index = r.len ∧
          k.asid = r.asid ∧ k.target = r.port ∧ k.cluster = hub ∧ k.st = .queued ∧ t.hbm = s.hbm ∧ marked t))

/-- R67, R83 to R87: what a source selector reads. Bits [5:0] name a queue of the instruction's bank below 32, a latch
from 32 on. The head of a queue, landed, is read, and popped unless bit 7 peeks; bit 6 marks the queue dead at the end
of the issue; a dead queue, or a lost latch, reads zero or takes its trap by the header's mode; a head not landed
takes UNDERFLOW; a latch read changes nothing. -/
def Obligations.OperandReads : Prop :=
  ∀ (x : Ctx) (sel : BitVec 8) (b : Bank),
    let n := sel.toNat % 64
    let q := getQueue x b n
    let marked := fun (y : Ctx) => if sel.getLsbD 6 then addMark y (b, n) else y
    (n < 32 →
      (q.dead = true → strict x = false → readSel x sel b = .ok (zeroVal b, marked x)) ∧
      (q.dead = true → strict x = true → readSel x sel b = .error (0x06, n)) ∧
      (q.dead = false → q.entries = [] → readSel x sel b = .error (0x05, n)) ∧
      (∀ e rest, q.dead = false → q.entries = e :: rest → e.val = none → readSel x sel b = .error (0x05, n)) ∧
      (∀ e rest v, q.dead = false → q.entries = e :: rest → e.val = some v →
        (sel.getLsbD 7 = true → readSel x sel b = .ok (v, marked x)) ∧
        (sel.getLsbD 7 = false → ∃ y, readSel x sel b = .ok (v, y) ∧ getQueue y b n = { dead := false, entries := rest } ∧
          (∀ m c, (c, m) ≠ (b, n) → getQueue y c m = getQueue x c m) ∧ y.latches = x.latches ∧ y.p = x.p ∧ y.g = x.g ∧
          y.pc = x.pc ∧ y.seen = x.seen ∧ y.flights = x.flights))) ∧
    (32 ≤ n → ∀ l, x.latches.toList.getD (n - 32) .lost = l →
      (∀ w, l = .scalar w → readSel x sel b = .ok (.s w, x)) ∧ (∀ v, l = .vector v → readSel x sel b = .ok (.v v, x)) ∧
      (l = .lost → readSel x sel b = if strict x then .error (0x07, n - 32) else .ok (zeroVal b, x))) ∧
    (∀ v y, readSel x sel .s = .ok (v, y) → readS x sel = .ok (match v with | .s w => w | .v u => vlane u 0, y)) ∧
    (∀ v y, readSel x sel .v = .ok (v, y) → readV x sel = .ok (match v with | .s w => vsplat w | .v u => u, y))

/-- R62, R81, R91: whatever a V-slot or K-slot instruction does, it changes nothing of the package but its own slice's
context, unless it takes a precise trap; predicated off, it changes nothing at all. -/
def Obligations.VectorFrame : Prop :=
  ∀ (i : Instr) (s t : State) (o : Nat) (f : VFields), formOf i = some (.v o f) ∨ formOf i = some (.k o f) →
    exec i s = .next t →
    ∃ x, Here s x ∧
      (executes x f.pred f.psense = false → t = s) ∧
      (executes x f.pred f.psense = true →
        (∃ y, t = setCtx s s.cur y ∧ y.pc = x.pc ∧ y.loops = x.loops ∧ y.tags = x.tags ∧ y.g = x.g ∧ y.e = x.e ∧
          y.latches = x.latches ∧ y.flights = x.flights ∧ y.handler = x.handler ∧ y.mq = x.mq ∧ y.views = x.views) ∨
        ∃ code slot opnd info, t = preciseTrap s x code slot opnd info)

/-- R3, R62: a step runs the instruction whose turn it is: an event as `exec` of it; a bundle as its issue and then,
at once, `exec` of each of its decoded instructions that executes, one after another, and the end of the issue (the
order of their turns, `turnOrder`, is the model's reading, log 126); a hart's next instruction as `exec` of what its
bytes at its pc decode to; with no turn left, the timebase. -/
def Obligations.StepRunsTheDecodedInstruction : Prop :=
  ∀ (s : State),
    (∀ i rest t v, s.ops = [] → s.todo = .inl i :: rest → exec i { s with todo := rest } = .next t → t.ops.length ≤ 6 →
      Turns t v → step s = .next (if v.undo.isSome then finishIssue v else v)) ∧
    (∀ c rest x0 x t ps present os, s.ops = [] → s.todo = .inl (.bundleIssue c) :: rest →
      Issues { s with todo := rest } c x0 x t ps present os →
      ∃ u, u.ops = turnOrder ((runsOf x os).map (resolveInstr { s with todo := rest } c x)) ∧ u.cur = c ∧
        ∀ v, Turns u v → step s = .next (if v.undo.isSome then finishIssue v else v)) ∧
    (∀ v, s.ops ≠ [] → s.ops.length ≤ 6 → Turns s v →
      step s = .next (if v.undo.isSome then finishIssue v else v)) ∧
    (∀ q rest x h w code, s.ops = [] → s.todo = .inr q :: rest → getCtx s q.c = some x → getHart x q.role = some h →
      hartsRun x = true → h.st = .running → h.nextIssue ≤ s.now → (getCore s q.c.core).gated = false →
      h.code.drop h.pc.toNat = bytesOf 4 w.toNat ++ code → w.extractLsb' 0 2 = 3 →
      let i := resolveHart h (decodeHart w)
      (∀ r ∈ hartReads i, ∀ l ∈ h.loads, l.1 = r → l.2 ≤ s.now) →
      ∀ t, exec i { s with todo := rest, cur := q.c, curHart := some q.role } = .next t → t.ops = [] → t.undo = none →
        step s = .next t) ∧
    (∀ q rest x h (w : BitVec 16) code, s.ops = [] → s.todo = .inr q :: rest → getCtx s q.c = some x →
      getHart x q.role = some h → hartsRun x = true → h.st = .running → h.nextIssue ≤ s.now →
      (getCore s q.c.core).gated = false → h.code.drop h.pc.toNat = bytesOf 2 w.toNat ++ code → w.extractLsb' 0 2 ≠ 3 →
      let i := resolveHart h (decodeShort w)
      (∀ r ∈ hartReads i, ∀ l ∈ h.loads, l.1 = r → l.2 ≤ s.now) →
      ∀ t, exec i { s with todo := rest, cur := q.c, curHart := some q.role } = .next t → t.ops = [] → t.undo = none →
        step s = .next t) ∧
    (s.ops = [] → s.todo = [] → step s = exec .timebaseAdvance s)

/-- The words of the manual's own worked encodings decode to the instructions they stand for. -/
def Obligations.WorkedEncodings : Prop :=
  let c0 : CFields := { pred := 0, psense := false, dst := 0, srcA := 0, srcB := 0, imm := 0, mod := 0 }
  let t0 : TFields := { pred := 0, psense := false, srcA := 0, srcB := 0, dst := 0, gidx := 0, imm := 0, mod := 0 }
  let v0 : VFields :=
    { pred := 0, psense := false, srcA := 0, srcB := 0, srcC := 0, dst := 0, type := 0, stype := 0, imm8 := 0 }
  let m0 : MFields :=
    { pred := 0, psense := false, abase := 0, bbase := 0, acc := 0, rpt := false, rcount := 0, qsrc := 0, zsrc := 0, cnt5 := 0 }
  let addi := Instr.addi { c0 with dst := 1, srcA := 1, imm := 1 }
  let vadd := Instr.vadd { v0 with srcA := 1, srcB := 2, dst := 4, type := 10 }
  decodeSlot .c 0x1000101000000010 = some addi ∧
  decodeSlot .v 0x01001020004A0001 = some vadd ∧
  decodeBundle 0x099400D9 [0x00000010, 0x10001010, 0x004A0001, 0x01001020] = .ok [(.c, addi), (.v, vadd)] ∧
  decodeSlot .c 0x2500000000060031 = some (.loop { c0 with imm := 0x6003 }) ∧
  decodeSlot .c 0x25000000000C8001 = some (.loopExtent { c0 with imm := 0xC800 }) ∧
  decodeSlot .c 0x30000000000185B1 = some (.fmt { c0 with imm := 0x185B }) ∧
  decodeSlot .c 0x2F00006000000011 = some (.commit { c0 with srcA := 6, imm := 1 }) ∧
  decodeSlot .c 0x3408007000000001 = some (.spawn { c0 with dst := 0x80, srcA := 7 }) ∧
  decodeSlot .t 0x1100000002000851 = some (.copym { t0 with gidx := 2, imm := 0x85 }) ∧
  decodeSlot .t 0x2200000003000821 = some (.aqry { t0 with gidx := 3, imm := 0x82 }) ∧
  decodeSlot .m 0x0104510010000001 = some (.mma { m0 with abase := 4, bbase := 5, rpt := true, rcount := 1 }) ∧
  decodeSlot .k 0x0700800090AA0001 = some (.ksmx { v0 with srcA := 8, srcC := 9, dst := 10, type := 10 }) ∧
  decodeHart 0x00B5200B = .lpush 10 11 ∧ decodeHart 0x00C5C50B = .lfe 10 11 12 ∧ decodeHart 0x0405950B = .lstat 10 11 ∧
  decodeSlot .c 0xFF00000000000001 = none

/-- R63 to R72, R75, R234, R239: encoding and decoding agree, with every operand at every value: the word of a
well-formed slot instruction decodes to it, with either stop bit; a bundle's words decode to its instructions, slot by
slot; the word of a hart instruction decodes to it. (An opcode that the table gives several rows, told apart by a
record or a register and not by the word, decodes to the first of them.) -/
def Obligations.EncodingRoundTrip : Prop :=
  (∀ (i : Instr) (x : SlotForm) (stop : Bool), i.wf = true → formOf i = some x →
    decodeSlot x.slot (encodeForm x stop) = some (canon i)) ∧
  (∀ (i : Instr) (w : Word), i.wf = true → encodeHart i = some w → decodeHart w = canon i) ∧
  (∀ (t : Word) (is : List Instr) (xs : List SlotForm), templateIllegal t = false → (∀ i ∈ is, i.wf = true) →
    is.map formOf = xs.map some → presentSlots t = xs.map SlotForm.slot →
    decodeBundle t (bundleWords xs) = .ok (is.map fun i => (match formOf i with | some x => x.slot | none => .c, canon i)))

/-- R31, R42, R157, R248, R260, R262, R268, R276, R364, R366, R368: the machine right after reset: no slice, task,
region, command or barrier state; every core gated and its stores empty; A and the device numbers 0; the error
threshold 32; tables at 0; memory in canonical form. (That memory which nothing has written reads as 0 is the model's
choice, log 10; links down, frames of no size and whatever else no rule gives at reset, log 11.) R81 to R87, R108,
R119, R142, R155, R161, R207, R225, R238: the context of a task's first slice: queues dead, latches lost, registers
and predicates zero (of the predicates p1 to p7 the model's choice, log 11), tags idle, no slot claimed, scales 1.0,
the file empty, the PC at its entry. -/
def Obligations.ResetState : Prop :=
  (let s := State.reset
   s.memWf = true ∧ s.slots = [] ∧ s.tasks = [] ∧ s.regions = [] ∧ s.cmds = [] ∧ s.pieces = [] ∧ s.hostA = 0 ∧
     s.devSeq = 0 ∧ s.retained = [] ∧ s.dlost = 0 ∧ s.errThreshold = 32 ∧ s.errors = [] ∧ s.control = [] ∧ s.qps = [] ∧
     s.known = [] ∧ s.seqs = [] ∧ s.pewter = [] ∧ s.incarnation ≠ 0 ∧
     (∀ c, getCtx s c = none) ∧
     (∀ n, (getCore s n).gated = true ∧ (getCore s n).scratch = [] ∧ (getCore s n).lines = [] ∧ (getCore s n).dp = none) ∧
     (∀ k, getBar s k = { e := 0, arrivals := 0, phase := 0, pending := 0, flipAt := 0 }) ∧
     (∀ a, (getAsid s a).root = 0 ∧ (getAsid s a).gen = 0) ∧ (∀ pa, (getFrame s pa).owner = 0 ∧ (getFrame s pa).shares = 0 ∧ (getFrame s pa).size = 0) ∧
     s.keyed = [] ∧ s.lastRefresh = none ∧ s.snapshots = [] ∧ s.packets = [] ∧ s.unsent = [] ∧
     (∀ p, (getPart s p).ver = 0 ∧ (getPart s p).rd0 = 0 ∧ (getPart s p).rd1 = 0) ∧
     (∀ l, (getLink s l).up = false) ∧ (∀ a, hbmByte s a = 0)) ∧
  (∀ (t : Task) (h : BitVec 512) (image : Nat),
     let x := freshCtx t h image
     (∀ b n, n < 32 → getQueue x b n = { dead := true, entries := [] }) ∧
     (∀ n, x.latches.toList.getD n .lost = .lost) ∧ (∀ n, getG x n = 0) ∧ (∀ n, getStep x n = 0) ∧ x.p = 0 ∧
     (∀ n, getE x n = 0) ∧ x.j = 0 ∧ x.fmt = 0 ∧ x.loops = [] ∧ x.sticky = [] ∧
     (∀ n, getTag x n = { st := .idle, count := 0, status := 0 }) ∧ x.claimed = 0 ∧ x.guards = [] ∧ x.cand = [] ∧
     (∀ n i, n < 8 → i < 128 → elemW 16 (getScales x n).toNat i = 0x3F80) ∧ x.handler = false ∧
     x.pc = (if t.entryC = 0xFFFFFFFF then BitVec.ofNat 32 (hdrEcomp h) else t.entryC) ∧
     (hdrLi h = 0 → x.loader = none) ∧
     (∀ q, x.loader = some q → getX q 2 = BitVec.ofNat 32 (0x10000000 + hdrLd h) ∧ ∀ n, n ≠ 2 → getX q n = 0))

/-- R30, R77: no instruction or event of the table is ever refused, whatever the state. A slot instruction faults
exactly where no slice stands in the context whose turn it is, a hart instruction exactly where no hart stands there,
neither of which ever issues (the fault is the model's choice, log 17); an event never faults. All else that can go
wrong is a trap, a status or a report, each of them a next state. -/
def Obligations.NothingIsRefused : Prop :=
  ∀ (i : Instr) (s : State),
    (∀ r, exec i s ≠ .refused r) ∧
    ((formOf i).isSome = true → ((∃ e, exec i s = .fault e) ↔ getCtx s s.cur = none)) ∧
    (isHartInstr i = true → ((∃ e, exec i s = .fault e) ↔ s.curHart = none ∨ getCtx s s.cur = none ∨
      ∃ r x, s.curHart = some r ∧ getCtx s s.cur = some x ∧ getHart x r = none)) ∧
    (formOf i = none → isHartInstr i = false → ∀ e, exec i s ≠ .fault e)

/-- R23, R134, R142, R207: bytes written to a store read back, and in canonical memories every byte outside them reads
as before, in any of the four kinds of store; every write keeps every memory of the package in canonical form. -/
def Obligations.WriteThenRead : Prop :=
  ∀ (s : State) (sp : Space) (a : Nat) (bs : List Byte),
    rawRead (rawWrite s sp a bs) sp a bs.length = bs ∧
    (s.memWf = true → ∀ b, b < a ∨ a + bs.length ≤ b → rawRead (rawWrite s sp a bs) sp b 1 = rawRead s sp b 1) ∧
    (∀ sq b n, sq ≠ sp → rawRead (rawWrite s sp a bs) sq b n = rawRead s sq b n) ∧
    (∀ g, rawRead (writeAs s g sp a bs) sp a bs.length = bs) ∧
    (s.memWf = true → (rawWrite s sp a bs).memWf = true ∧ (∀ g, (writeAs s g sp a bs).memWf = true) ∧
      (blur s a bs.length).memWf = true ∧ ∀ b n, (copyFrame s a b n).memWf = true)

/-- Every step keeps every memory of the package in its one canonical form: HBM, the stores of every core, the data
memory of every hart, the state saved of every task, and what HBM holds under other keys. -/
def Obligations.StepKeepsMemories : Prop :=
  ∀ (s t : State), s.memWf = true → step s = .next t → t.memWf = true
end

