-- ==== Sys2Proof/Laws/State.lean ====
section
/-! SUPPORT. What each basic update leaves in each field of the state and of a context, so that no proof unfolds a record
update. -/

namespace Sys2Proof.Machine

/-! ### A context replaced -/

@[simp] theorem setCtx_pkg (s : State) (c : CtxId) (x : Ctx) : (setCtx s c x).pkg = s.pkg := rfl
@[simp] theorem setCtx_incarnation (s : State) (c : CtxId) (x : Ctx) : (setCtx s c x).incarnation = s.incarnation := rfl
@[simp] theorem setCtx_up (s : State) (c : CtxId) (x : Ctx) : (setCtx s c x).up = s.up := rfl
@[simp] theorem setCtx_identityKey (s : State) (c : CtxId) (x : Ctx) : (setCtx s c x).identityKey = s.identityKey := rfl
@[simp] theorem setCtx_now (s : State) (c : CtxId) (x : Ctx) : (setCtx s c x).now = s.now := rfl
@[simp] theorem setCtx_fresh (s : State) (c : CtxId) (x : Ctx) : (setCtx s c x).fresh = s.fresh := rfl
@[simp] theorem setCtx_ops (s : State) (c : CtxId) (x : Ctx) : (setCtx s c x).ops = s.ops := rfl
@[simp] theorem setCtx_todo (s : State) (c : CtxId) (x : Ctx) : (setCtx s c x).todo = s.todo := rfl
@[simp] theorem setCtx_timers (s : State) (c : CtxId) (x : Ctx) : (setCtx s c x).timers = s.timers := rfl
@[simp] theorem setCtx_cur (s : State) (c : CtxId) (x : Ctx) : (setCtx s c x).cur = s.cur := rfl
@[simp] theorem setCtx_curHart (s : State) (c : CtxId) (x : Ctx) : (setCtx s c x).curHart = s.curHart := rfl
@[simp] theorem setCtx_undo (s : State) (c : CtxId) (x : Ctx) : (setCtx s c x).undo = s.undo := rfl
@[simp] theorem setCtx_hbm (s : State) (c : CtxId) (x : Ctx) : (setCtx s c x).hbm = s.hbm := rfl
@[simp] theorem setCtx_full (s : State) (c : CtxId) (x : Ctx) : (setCtx s c x).full = s.full := rfl
@[simp] theorem setCtx_fog (s : State) (c : CtxId) (x : Ctx) : (setCtx s c x).fog = s.fog := rfl
@[simp] theorem setCtx_veils (s : State) (c : CtxId) (x : Ctx) : (setCtx s c x).veils = s.veils := rfl
@[simp] theorem setCtx_cores (s : State) (c : CtxId) (x : Ctx) : (setCtx s c x).cores = s.cores := rfl
@[simp] theorem setCtx_slots (s : State) (c : CtxId) (x : Ctx) : (setCtx s c x).slots = alSet s.slots c x := rfl
@[simp] theorem setCtx_tasks (s : State) (c : CtxId) (x : Ctx) : (setCtx s c x).tasks = s.tasks := rfl
@[simp] theorem setCtx_regions (s : State) (c : CtxId) (x : Ctx) : (setCtx s c x).regions = s.regions := rfl
@[simp] theorem setCtx_cbars (s : State) (c : CtxId) (x : Ctx) : (setCtx s c x).cbars = s.cbars := rfl
@[simp] theorem setCtx_dbars (s : State) (c : CtxId) (x : Ctx) : (setCtx s c x).dbars = s.dbars := rfl
@[simp] theorem setCtx_cmds (s : State) (c : CtxId) (x : Ctx) : (setCtx s c x).cmds = s.cmds := rfl
@[simp] theorem setCtx_engines (s : State) (c : CtxId) (x : Ctx) : (setCtx s c x).engines = s.engines := rfl
@[simp] theorem setCtx_asids (s : State) (c : CtxId) (x : Ctx) : (setCtx s c x).asids = s.asids := rfl
@[simp] theorem setCtx_sysWaits (s : State) (c : CtxId) (x : Ctx) : (setCtx s c x).sysWaits = s.sysWaits := rfl
@[simp] theorem setCtx_raises (s : State) (c : CtxId) (x : Ctx) : (setCtx s c x).raises = s.raises := rfl
@[simp] theorem setCtx_frames (s : State) (c : CtxId) (x : Ctx) : (setCtx s c x).frames = s.frames := rfl
@[simp] theorem setCtx_keyed (s : State) (c : CtxId) (x : Ctx) : (setCtx s c x).keyed = s.keyed := rfl
@[simp] theorem setCtx_rootFrames (s : State) (c : CtxId) (x : Ctx) : (setCtx s c x).rootFrames = s.rootFrames := rfl
@[simp] theorem setCtx_spareTables (s : State) (c : CtxId) (x : Ctx) : (setCtx s c x).spareTables = s.spareTables := rfl
@[simp] theorem setCtx_freeBlocks (s : State) (c : CtxId) (x : Ctx) : (setCtx s c x).freeBlocks = s.freeBlocks := rfl
@[simp] theorem setCtx_freePages (s : State) (c : CtxId) (x : Ctx) : (setCtx s c x).freePages = s.freePages := rfl
@[simp] theorem setCtx_freeGbns (s : State) (c : CtxId) (x : Ctx) : (setCtx s c x).freeGbns = s.freeGbns := rfl
@[simp] theorem setCtx_tiered (s : State) (c : CtxId) (x : Ctx) : (setCtx s c x).tiered = s.tiered := rfl
@[simp] theorem setCtx_gbnBase (s : State) (c : CtxId) (x : Ctx) : (setCtx s c x).gbnBase = s.gbnBase := rfl
@[simp] theorem setCtx_keys (s : State) (c : CtxId) (x : Ctx) : (setCtx s c x).keys = s.keys := rfl
@[simp] theorem setCtx_known (s : State) (c : CtxId) (x : Ctx) : (setCtx s c x).known = s.known := rfl
@[simp] theorem setCtx_probes (s : State) (c : CtxId) (x : Ctx) : (setCtx s c x).probes = s.probes := rfl
@[simp] theorem setCtx_unsent (s : State) (c : CtxId) (x : Ctx) : (setCtx s c x).unsent = s.unsent := rfl
@[simp] theorem setCtx_remoteAsids (s : State) (c : CtxId) (x : Ctx) : (setCtx s c x).remoteAsids = s.remoteAsids := rfl
@[simp] theorem setCtx_dedup (s : State) (c : CtxId) (x : Ctx) : (setCtx s c x).dedup = s.dedup := rfl
@[simp] theorem setCtx_parts (s : State) (c : CtxId) (x : Ctx) : (setCtx s c x).parts = s.parts := rfl
@[simp] theorem setCtx_partOps (s : State) (c : CtxId) (x : Ctx) : (setCtx s c x).partOps = s.partOps := rfl
@[simp] theorem setCtx_pieces (s : State) (c : CtxId) (x : Ctx) : (setCtx s c x).pieces = s.pieces := rfl
@[simp] theorem setCtx_log (s : State) (c : CtxId) (x : Ctx) : (setCtx s c x).log = s.log := rfl
@[simp] theorem setCtx_views (s : State) (c : CtxId) (x : Ctx) : (setCtx s c x).views = s.views := rfl
@[simp] theorem setCtx_pubs (s : State) (c : CtxId) (x : Ctx) : (setCtx s c x).pubs = s.pubs := rfl
@[simp] theorem setCtx_seqs (s : State) (c : CtxId) (x : Ctx) : (setCtx s c x).seqs = s.seqs := rfl
@[simp] theorem setCtx_segments (s : State) (c : CtxId) (x : Ctx) : (setCtx s c x).segments = s.segments := rfl
@[simp] theorem setCtx_pewter (s : State) (c : CtxId) (x : Ctx) : (setCtx s c x).pewter = s.pewter := rfl
@[simp] theorem setCtx_map (s : State) (c : CtxId) (x : Ctx) : (setCtx s c x).map = s.map := rfl
@[simp] theorem setCtx_mapHolders (s : State) (c : CtxId) (x : Ctx) : (setCtx s c x).mapHolders = s.mapHolders := rfl
@[simp] theorem setCtx_trees (s : State) (c : CtxId) (x : Ctx) : (setCtx s c x).trees = s.trees := rfl
@[simp] theorem setCtx_prefixes (s : State) (c : CtxId) (x : Ctx) : (setCtx s c x).prefixes = s.prefixes := rfl
@[simp] theorem setCtx_queries (s : State) (c : CtxId) (x : Ctx) : (setCtx s c x).queries = s.queries := rfl
@[simp] theorem setCtx_nodes (s : State) (c : CtxId) (x : Ctx) : (setCtx s c x).nodes = s.nodes := rfl
@[simp] theorem setCtx_moves (s : State) (c : CtxId) (x : Ctx) : (setCtx s c x).moves = s.moves := rfl
@[simp] theorem setCtx_reserved (s : State) (c : CtxId) (x : Ctx) : (setCtx s c x).reserved = s.reserved := rfl
@[simp] theorem setCtx_sequence (s : State) (c : CtxId) (x : Ctx) : (setCtx s c x).sequence = s.sequence := rfl
@[simp] theorem setCtx_hostA (s : State) (c : CtxId) (x : Ctx) : (setCtx s c x).hostA = s.hostA := rfl
@[simp] theorem setCtx_devSeq (s : State) (c : CtxId) (x : Ctx) : (setCtx s c x).devSeq = s.devSeq := rfl
@[simp] theorem setCtx_retained (s : State) (c : CtxId) (x : Ctx) : (setCtx s c x).retained = s.retained := rfl
@[simp] theorem setCtx_responses (s : State) (c : CtxId) (x : Ctx) : (setCtx s c x).responses = s.responses := rfl
@[simp] theorem setCtx_dlost (s : State) (c : CtxId) (x : Ctx) : (setCtx s c x).dlost = s.dlost := rfl
@[simp] theorem setCtx_control (s : State) (c : CtxId) (x : Ctx) : (setCtx s c x).control = s.control := rfl
@[simp] theorem setCtx_qps (s : State) (c : CtxId) (x : Ctx) : (setCtx s c x).qps = s.qps := rfl
@[simp] theorem setCtx_paused (s : State) (c : CtxId) (x : Ctx) : (setCtx s c x).paused = s.paused := rfl
@[simp] theorem setCtx_slowed (s : State) (c : CtxId) (x : Ctx) : (setCtx s c x).slowed = s.slowed := rfl
@[simp] theorem setCtx_portQueue (s : State) (c : CtxId) (x : Ctx) : (setCtx s c x).portQueue = s.portQueue := rfl
@[simp] theorem setCtx_pfc (s : State) (c : CtxId) (x : Ctx) : (setCtx s c x).pfc = s.pfc := rfl
@[simp] theorem setCtx_launching (s : State) (c : CtxId) (x : Ctx) : (setCtx s c x).launching = s.launching := rfl
@[simp] theorem setCtx_waitingMsgs (s : State) (c : CtxId) (x : Ctx) : (setCtx s c x).waitingMsgs = s.waitingMsgs := rfl
@[simp] theorem setCtx_poweredAt (s : State) (c : CtxId) (x : Ctx) : (setCtx s c x).poweredAt = s.poweredAt := rfl
@[simp] theorem setCtx_refreshAt (s : State) (c : CtxId) (x : Ctx) : (setCtx s c x).refreshAt = s.refreshAt := rfl
@[simp] theorem setCtx_lastRefresh (s : State) (c : CtxId) (x : Ctx) : (setCtx s c x).lastRefresh = s.lastRefresh := rfl
@[simp] theorem setCtx_links (s : State) (c : CtxId) (x : Ctx) : (setCtx s c x).links = s.links := rfl
@[simp] theorem setCtx_switched (s : State) (c : CtxId) (x : Ctx) : (setCtx s c x).switched = s.switched := rfl
@[simp] theorem setCtx_routes (s : State) (c : CtxId) (x : Ctx) : (setCtx s c x).routes = s.routes := rfl
@[simp] theorem setCtx_packets (s : State) (c : CtxId) (x : Ctx) : (setCtx s c x).packets = s.packets := rfl
@[simp] theorem setCtx_seenPackets (s : State) (c : CtxId) (x : Ctx) : (setCtx s c x).seenPackets = s.seenPackets := rfl
@[simp] theorem setCtx_farWrites (s : State) (c : CtxId) (x : Ctx) : (setCtx s c x).farWrites = s.farWrites := rfl
@[simp] theorem setCtx_farBars (s : State) (c : CtxId) (x : Ctx) : (setCtx s c x).farBars = s.farBars := rfl
@[simp] theorem setCtx_farWaits (s : State) (c : CtxId) (x : Ctx) : (setCtx s c x).farWaits = s.farWaits := rfl
@[simp] theorem setCtx_errors (s : State) (c : CtxId) (x : Ctx) : (setCtx s c x).errors = s.errors := rfl
@[simp] theorem setCtx_errStart (s : State) (c : CtxId) (x : Ctx) : (setCtx s c x).errStart = s.errStart := rfl
@[simp] theorem setCtx_errWarned (s : State) (c : CtxId) (x : Ctx) : (setCtx s c x).errWarned = s.errWarned := rfl
@[simp] theorem setCtx_errThreshold (s : State) (c : CtxId) (x : Ctx) : (setCtx s c x).errThreshold = s.errThreshold := rfl
@[simp] theorem setCtx_snapshots (s : State) (c : CtxId) (x : Ctx) : (setCtx s c x).snapshots = s.snapshots := rfl
@[simp] theorem setCtx_warned (s : State) (c : CtxId) (x : Ctx) : (setCtx s c x).warned = s.warned := rfl
@[simp] theorem setCtx_stored (s : State) (c : CtxId) (x : Ctx) : (setCtx s c x).stored = s.stored := rfl
@[simp] theorem setCtx_out (s : State) (c : CtxId) (x : Ctx) : (setCtx s c x).out = s.out := rfl

/-! ### A context emptied -/

@[simp] theorem delCtx_pkg (s : State) (c : CtxId) : (delCtx s c).pkg = s.pkg := rfl
@[simp] theorem delCtx_incarnation (s : State) (c : CtxId) : (delCtx s c).incarnation = s.incarnation := rfl
@[simp] theorem delCtx_up (s : State) (c : CtxId) : (delCtx s c).up = s.up := rfl
@[simp] theorem delCtx_identityKey (s : State) (c : CtxId) : (delCtx s c).identityKey = s.identityKey := rfl
@[simp] theorem delCtx_now (s : State) (c : CtxId) : (delCtx s c).now = s.now := rfl
@[simp] theorem delCtx_fresh (s : State) (c : CtxId) : (delCtx s c).fresh = s.fresh := rfl
@[simp] theorem delCtx_ops (s : State) (c : CtxId) : (delCtx s c).ops = s.ops := rfl
@[simp] theorem delCtx_todo (s : State) (c : CtxId) : (delCtx s c).todo = s.todo := rfl
@[simp] theorem delCtx_timers (s : State) (c : CtxId) : (delCtx s c).timers = s.timers := rfl
@[simp] theorem delCtx_cur (s : State) (c : CtxId) : (delCtx s c).cur = s.cur := rfl
@[simp] theorem delCtx_curHart (s : State) (c : CtxId) : (delCtx s c).curHart = s.curHart := rfl
@[simp] theorem delCtx_undo (s : State) (c : CtxId) : (delCtx s c).undo = s.undo := rfl
@[simp] theorem delCtx_hbm (s : State) (c : CtxId) : (delCtx s c).hbm = s.hbm := rfl
@[simp] theorem delCtx_full (s : State) (c : CtxId) : (delCtx s c).full = s.full := rfl
@[simp] theorem delCtx_fog (s : State) (c : CtxId) : (delCtx s c).fog = s.fog := rfl
@[simp] theorem delCtx_veils (s : State) (c : CtxId) : (delCtx s c).veils = s.veils := rfl
@[simp] theorem delCtx_cores (s : State) (c : CtxId) : (delCtx s c).cores = s.cores := rfl
@[simp] theorem delCtx_slots (s : State) (c : CtxId) : (delCtx s c).slots = alDel s.slots c := rfl
@[simp] theorem delCtx_tasks (s : State) (c : CtxId) : (delCtx s c).tasks = s.tasks := rfl
@[simp] theorem delCtx_regions (s : State) (c : CtxId) : (delCtx s c).regions = s.regions := rfl
@[simp] theorem delCtx_cbars (s : State) (c : CtxId) : (delCtx s c).cbars = s.cbars := rfl
@[simp] theorem delCtx_dbars (s : State) (c : CtxId) : (delCtx s c).dbars = s.dbars := rfl
@[simp] theorem delCtx_cmds (s : State) (c : CtxId) : (delCtx s c).cmds = s.cmds := rfl
@[simp] theorem delCtx_engines (s : State) (c : CtxId) : (delCtx s c).engines = s.engines := rfl
@[simp] theorem delCtx_asids (s : State) (c : CtxId) : (delCtx s c).asids = s.asids := rfl
@[simp] theorem delCtx_sysWaits (s : State) (c : CtxId) : (delCtx s c).sysWaits = s.sysWaits := rfl
@[simp] theorem delCtx_raises (s : State) (c : CtxId) : (delCtx s c).raises = s.raises := rfl
@[simp] theorem delCtx_frames (s : State) (c : CtxId) : (delCtx s c).frames = s.frames := rfl
@[simp] theorem delCtx_keyed (s : State) (c : CtxId) : (delCtx s c).keyed = s.keyed := rfl
@[simp] theorem delCtx_rootFrames (s : State) (c : CtxId) : (delCtx s c).rootFrames = s.rootFrames := rfl
@[simp] theorem delCtx_spareTables (s : State) (c : CtxId) : (delCtx s c).spareTables = s.spareTables := rfl
@[simp] theorem delCtx_freeBlocks (s : State) (c : CtxId) : (delCtx s c).freeBlocks = s.freeBlocks := rfl
@[simp] theorem delCtx_freePages (s : State) (c : CtxId) : (delCtx s c).freePages = s.freePages := rfl
@[simp] theorem delCtx_freeGbns (s : State) (c : CtxId) : (delCtx s c).freeGbns = s.freeGbns := rfl
@[simp] theorem delCtx_tiered (s : State) (c : CtxId) : (delCtx s c).tiered = s.tiered := rfl
@[simp] theorem delCtx_gbnBase (s : State) (c : CtxId) : (delCtx s c).gbnBase = s.gbnBase := rfl
@[simp] theorem delCtx_keys (s : State) (c : CtxId) : (delCtx s c).keys = s.keys := rfl
@[simp] theorem delCtx_known (s : State) (c : CtxId) : (delCtx s c).known = s.known := rfl
@[simp] theorem delCtx_probes (s : State) (c : CtxId) : (delCtx s c).probes = s.probes := rfl
@[simp] theorem delCtx_unsent (s : State) (c : CtxId) : (delCtx s c).unsent = s.unsent := rfl
@[simp] theorem delCtx_remoteAsids (s : State) (c : CtxId) : (delCtx s c).remoteAsids = s.remoteAsids := rfl
@[simp] theorem delCtx_dedup (s : State) (c : CtxId) : (delCtx s c).dedup = s.dedup := rfl
@[simp] theorem delCtx_parts (s : State) (c : CtxId) : (delCtx s c).parts = s.parts := rfl
@[simp] theorem delCtx_partOps (s : State) (c : CtxId) : (delCtx s c).partOps = s.partOps := rfl
@[simp] theorem delCtx_pieces (s : State) (c : CtxId) : (delCtx s c).pieces = s.pieces := rfl
@[simp] theorem delCtx_log (s : State) (c : CtxId) : (delCtx s c).log = s.log := rfl
@[simp] theorem delCtx_views (s : State) (c : CtxId) : (delCtx s c).views = s.views := rfl
@[simp] theorem delCtx_pubs (s : State) (c : CtxId) : (delCtx s c).pubs = s.pubs := rfl
@[simp] theorem delCtx_seqs (s : State) (c : CtxId) : (delCtx s c).seqs = s.seqs := rfl
@[simp] theorem delCtx_segments (s : State) (c : CtxId) : (delCtx s c).segments = s.segments := rfl
@[simp] theorem delCtx_pewter (s : State) (c : CtxId) : (delCtx s c).pewter = s.pewter := rfl
@[simp] theorem delCtx_map (s : State) (c : CtxId) : (delCtx s c).map = s.map := rfl
@[simp] theorem delCtx_mapHolders (s : State) (c : CtxId) : (delCtx s c).mapHolders = s.mapHolders := rfl
@[simp] theorem delCtx_trees (s : State) (c : CtxId) : (delCtx s c).trees = s.trees := rfl
@[simp] theorem delCtx_prefixes (s : State) (c : CtxId) : (delCtx s c).prefixes = s.prefixes := rfl
@[simp] theorem delCtx_queries (s : State) (c : CtxId) : (delCtx s c).queries = s.queries := rfl
@[simp] theorem delCtx_nodes (s : State) (c : CtxId) : (delCtx s c).nodes = s.nodes := rfl
@[simp] theorem delCtx_moves (s : State) (c : CtxId) : (delCtx s c).moves = s.moves := rfl
@[simp] theorem delCtx_reserved (s : State) (c : CtxId) : (delCtx s c).reserved = s.reserved := rfl
@[simp] theorem delCtx_sequence (s : State) (c : CtxId) : (delCtx s c).sequence = s.sequence := rfl
@[simp] theorem delCtx_hostA (s : State) (c : CtxId) : (delCtx s c).hostA = s.hostA := rfl
@[simp] theorem delCtx_devSeq (s : State) (c : CtxId) : (delCtx s c).devSeq = s.devSeq := rfl
@[simp] theorem delCtx_retained (s : State) (c : CtxId) : (delCtx s c).retained = s.retained := rfl
@[simp] theorem delCtx_responses (s : State) (c : CtxId) : (delCtx s c).responses = s.responses := rfl
@[simp] theorem delCtx_dlost (s : State) (c : CtxId) : (delCtx s c).dlost = s.dlost := rfl
@[simp] theorem delCtx_control (s : State) (c : CtxId) : (delCtx s c).control = s.control := rfl
@[simp] theorem delCtx_qps (s : State) (c : CtxId) : (delCtx s c).qps = s.qps := rfl
@[simp] theorem delCtx_paused (s : State) (c : CtxId) : (delCtx s c).paused = s.paused := rfl
@[simp] theorem delCtx_slowed (s : State) (c : CtxId) : (delCtx s c).slowed = s.slowed := rfl
@[simp] theorem delCtx_portQueue (s : State) (c : CtxId) : (delCtx s c).portQueue = s.portQueue := rfl
@[simp] theorem delCtx_pfc (s : State) (c : CtxId) : (delCtx s c).pfc = s.pfc := rfl
@[simp] theorem delCtx_launching (s : State) (c : CtxId) : (delCtx s c).launching = s.launching := rfl
@[simp] theorem delCtx_waitingMsgs (s : State) (c : CtxId) : (delCtx s c).waitingMsgs = s.waitingMsgs := rfl
@[simp] theorem delCtx_poweredAt (s : State) (c : CtxId) : (delCtx s c).poweredAt = s.poweredAt := rfl
@[simp] theorem delCtx_refreshAt (s : State) (c : CtxId) : (delCtx s c).refreshAt = s.refreshAt := rfl
@[simp] theorem delCtx_lastRefresh (s : State) (c : CtxId) : (delCtx s c).lastRefresh = s.lastRefresh := rfl
@[simp] theorem delCtx_links (s : State) (c : CtxId) : (delCtx s c).links = s.links := rfl
@[simp] theorem delCtx_switched (s : State) (c : CtxId) : (delCtx s c).switched = s.switched := rfl
@[simp] theorem delCtx_routes (s : State) (c : CtxId) : (delCtx s c).routes = s.routes := rfl
@[simp] theorem delCtx_packets (s : State) (c : CtxId) : (delCtx s c).packets = s.packets := rfl
@[simp] theorem delCtx_seenPackets (s : State) (c : CtxId) : (delCtx s c).seenPackets = s.seenPackets := rfl
@[simp] theorem delCtx_farWrites (s : State) (c : CtxId) : (delCtx s c).farWrites = s.farWrites := rfl
@[simp] theorem delCtx_farBars (s : State) (c : CtxId) : (delCtx s c).farBars = s.farBars := rfl
@[simp] theorem delCtx_farWaits (s : State) (c : CtxId) : (delCtx s c).farWaits = s.farWaits := rfl
@[simp] theorem delCtx_errors (s : State) (c : CtxId) : (delCtx s c).errors = s.errors := rfl
@[simp] theorem delCtx_errStart (s : State) (c : CtxId) : (delCtx s c).errStart = s.errStart := rfl
@[simp] theorem delCtx_errWarned (s : State) (c : CtxId) : (delCtx s c).errWarned = s.errWarned := rfl
@[simp] theorem delCtx_errThreshold (s : State) (c : CtxId) : (delCtx s c).errThreshold = s.errThreshold := rfl
@[simp] theorem delCtx_snapshots (s : State) (c : CtxId) : (delCtx s c).snapshots = s.snapshots := rfl
@[simp] theorem delCtx_warned (s : State) (c : CtxId) : (delCtx s c).warned = s.warned := rfl
@[simp] theorem delCtx_stored (s : State) (c : CtxId) : (delCtx s c).stored = s.stored := rfl
@[simp] theorem delCtx_out (s : State) (c : CtxId) : (delCtx s c).out = s.out := rfl

/-! ### A core replaced -/

@[simp] theorem setCore_pkg (s : State) (n : Nat) (k : Core) : (setCore s n k).pkg = s.pkg := rfl
@[simp] theorem setCore_incarnation (s : State) (n : Nat) (k : Core) : (setCore s n k).incarnation = s.incarnation := rfl
@[simp] theorem setCore_up (s : State) (n : Nat) (k : Core) : (setCore s n k).up = s.up := rfl
@[simp] theorem setCore_identityKey (s : State) (n : Nat) (k : Core) : (setCore s n k).identityKey = s.identityKey := rfl
@[simp] theorem setCore_now (s : State) (n : Nat) (k : Core) : (setCore s n k).now = s.now := rfl
@[simp] theorem setCore_fresh (s : State) (n : Nat) (k : Core) : (setCore s n k).fresh = s.fresh := rfl
@[simp] theorem setCore_ops (s : State) (n : Nat) (k : Core) : (setCore s n k).ops = s.ops := rfl
@[simp] theorem setCore_todo (s : State) (n : Nat) (k : Core) : (setCore s n k).todo = s.todo := rfl
@[simp] theorem setCore_timers (s : State) (n : Nat) (k : Core) : (setCore s n k).timers = s.timers := rfl
@[simp] theorem setCore_cur (s : State) (n : Nat) (k : Core) : (setCore s n k).cur = s.cur := rfl
@[simp] theorem setCore_curHart (s : State) (n : Nat) (k : Core) : (setCore s n k).curHart = s.curHart := rfl
@[simp] theorem setCore_undo (s : State) (n : Nat) (k : Core) : (setCore s n k).undo = s.undo := rfl
@[simp] theorem setCore_hbm (s : State) (n : Nat) (k : Core) : (setCore s n k).hbm = s.hbm := rfl
@[simp] theorem setCore_full (s : State) (n : Nat) (k : Core) : (setCore s n k).full = s.full := rfl
@[simp] theorem setCore_fog (s : State) (n : Nat) (k : Core) : (setCore s n k).fog = s.fog := rfl
@[simp] theorem setCore_veils (s : State) (n : Nat) (k : Core) : (setCore s n k).veils = s.veils := rfl
@[simp] theorem setCore_cores (s : State) (n : Nat) (k : Core) : (setCore s n k).cores = alSet s.cores n k := rfl
@[simp] theorem setCore_slots (s : State) (n : Nat) (k : Core) : (setCore s n k).slots = s.slots := rfl
@[simp] theorem setCore_tasks (s : State) (n : Nat) (k : Core) : (setCore s n k).tasks = s.tasks := rfl
@[simp] theorem setCore_regions (s : State) (n : Nat) (k : Core) : (setCore s n k).regions = s.regions := rfl
@[simp] theorem setCore_cbars (s : State) (n : Nat) (k : Core) : (setCore s n k).cbars = s.cbars := rfl
@[simp] theorem setCore_dbars (s : State) (n : Nat) (k : Core) : (setCore s n k).dbars = s.dbars := rfl
@[simp] theorem setCore_cmds (s : State) (n : Nat) (k : Core) : (setCore s n k).cmds = s.cmds := rfl
@[simp] theorem setCore_engines (s : State) (n : Nat) (k : Core) : (setCore s n k).engines = s.engines := rfl
@[simp] theorem setCore_asids (s : State) (n : Nat) (k : Core) : (setCore s n k).asids = s.asids := rfl
@[simp] theorem setCore_sysWaits (s : State) (n : Nat) (k : Core) : (setCore s n k).sysWaits = s.sysWaits := rfl
@[simp] theorem setCore_raises (s : State) (n : Nat) (k : Core) : (setCore s n k).raises = s.raises := rfl
@[simp] theorem setCore_frames (s : State) (n : Nat) (k : Core) : (setCore s n k).frames = s.frames := rfl
@[simp] theorem setCore_keyed (s : State) (n : Nat) (k : Core) : (setCore s n k).keyed = s.keyed := rfl
@[simp] theorem setCore_rootFrames (s : State) (n : Nat) (k : Core) : (setCore s n k).rootFrames = s.rootFrames := rfl
@[simp] theorem setCore_spareTables (s : State) (n : Nat) (k : Core) : (setCore s n k).spareTables = s.spareTables := rfl
@[simp] theorem setCore_freeBlocks (s : State) (n : Nat) (k : Core) : (setCore s n k).freeBlocks = s.freeBlocks := rfl
@[simp] theorem setCore_freePages (s : State) (n : Nat) (k : Core) : (setCore s n k).freePages = s.freePages := rfl
@[simp] theorem setCore_freeGbns (s : State) (n : Nat) (k : Core) : (setCore s n k).freeGbns = s.freeGbns := rfl
@[simp] theorem setCore_tiered (s : State) (n : Nat) (k : Core) : (setCore s n k).tiered = s.tiered := rfl
@[simp] theorem setCore_gbnBase (s : State) (n : Nat) (k : Core) : (setCore s n k).gbnBase = s.gbnBase := rfl
@[simp] theorem setCore_keys (s : State) (n : Nat) (k : Core) : (setCore s n k).keys = s.keys := rfl
@[simp] theorem setCore_known (s : State) (n : Nat) (k : Core) : (setCore s n k).known = s.known := rfl
@[simp] theorem setCore_probes (s : State) (n : Nat) (k : Core) : (setCore s n k).probes = s.probes := rfl
@[simp] theorem setCore_unsent (s : State) (n : Nat) (k : Core) : (setCore s n k).unsent = s.unsent := rfl
@[simp] theorem setCore_remoteAsids (s : State) (n : Nat) (k : Core) : (setCore s n k).remoteAsids = s.remoteAsids := rfl
@[simp] theorem setCore_dedup (s : State) (n : Nat) (k : Core) : (setCore s n k).dedup = s.dedup := rfl
@[simp] theorem setCore_parts (s : State) (n : Nat) (k : Core) : (setCore s n k).parts = s.parts := rfl
@[simp] theorem setCore_partOps (s : State) (n : Nat) (k : Core) : (setCore s n k).partOps = s.partOps := rfl
@[simp] theorem setCore_pieces (s : State) (n : Nat) (k : Core) : (setCore s n k).pieces = s.pieces := rfl
@[simp] theorem setCore_log (s : State) (n : Nat) (k : Core) : (setCore s n k).log = s.log := rfl
@[simp] theorem setCore_views (s : State) (n : Nat) (k : Core) : (setCore s n k).views = s.views := rfl
@[simp] theorem setCore_pubs (s : State) (n : Nat) (k : Core) : (setCore s n k).pubs = s.pubs := rfl
@[simp] theorem setCore_seqs (s : State) (n : Nat) (k : Core) : (setCore s n k).seqs = s.seqs := rfl
@[simp] theorem setCore_segments (s : State) (n : Nat) (k : Core) : (setCore s n k).segments = s.segments := rfl
@[simp] theorem setCore_pewter (s : State) (n : Nat) (k : Core) : (setCore s n k).pewter = s.pewter := rfl
@[simp] theorem setCore_map (s : State) (n : Nat) (k : Core) : (setCore s n k).map = s.map := rfl
@[simp] theorem setCore_mapHolders (s : State) (n : Nat) (k : Core) : (setCore s n k).mapHolders = s.mapHolders := rfl
@[simp] theorem setCore_trees (s : State) (n : Nat) (k : Core) : (setCore s n k).trees = s.trees := rfl
@[simp] theorem setCore_prefixes (s : State) (n : Nat) (k : Core) : (setCore s n k).prefixes = s.prefixes := rfl
@[simp] theorem setCore_queries (s : State) (n : Nat) (k : Core) : (setCore s n k).queries = s.queries := rfl
@[simp] theorem setCore_nodes (s : State) (n : Nat) (k : Core) : (setCore s n k).nodes = s.nodes := rfl
@[simp] theorem setCore_moves (s : State) (n : Nat) (k : Core) : (setCore s n k).moves = s.moves := rfl
@[simp] theorem setCore_reserved (s : State) (n : Nat) (k : Core) : (setCore s n k).reserved = s.reserved := rfl
@[simp] theorem setCore_sequence (s : State) (n : Nat) (k : Core) : (setCore s n k).sequence = s.sequence := rfl
@[simp] theorem setCore_hostA (s : State) (n : Nat) (k : Core) : (setCore s n k).hostA = s.hostA := rfl
@[simp] theorem setCore_devSeq (s : State) (n : Nat) (k : Core) : (setCore s n k).devSeq = s.devSeq := rfl
@[simp] theorem setCore_retained (s : State) (n : Nat) (k : Core) : (setCore s n k).retained = s.retained := rfl
@[simp] theorem setCore_responses (s : State) (n : Nat) (k : Core) : (setCore s n k).responses = s.responses := rfl
@[simp] theorem setCore_dlost (s : State) (n : Nat) (k : Core) : (setCore s n k).dlost = s.dlost := rfl
@[simp] theorem setCore_control (s : State) (n : Nat) (k : Core) : (setCore s n k).control = s.control := rfl
@[simp] theorem setCore_qps (s : State) (n : Nat) (k : Core) : (setCore s n k).qps = s.qps := rfl
@[simp] theorem setCore_paused (s : State) (n : Nat) (k : Core) : (setCore s n k).paused = s.paused := rfl
@[simp] theorem setCore_slowed (s : State) (n : Nat) (k : Core) : (setCore s n k).slowed = s.slowed := rfl
@[simp] theorem setCore_portQueue (s : State) (n : Nat) (k : Core) : (setCore s n k).portQueue = s.portQueue := rfl
@[simp] theorem setCore_pfc (s : State) (n : Nat) (k : Core) : (setCore s n k).pfc = s.pfc := rfl
@[simp] theorem setCore_launching (s : State) (n : Nat) (k : Core) : (setCore s n k).launching = s.launching := rfl
@[simp] theorem setCore_waitingMsgs (s : State) (n : Nat) (k : Core) : (setCore s n k).waitingMsgs = s.waitingMsgs := rfl
@[simp] theorem setCore_poweredAt (s : State) (n : Nat) (k : Core) : (setCore s n k).poweredAt = s.poweredAt := rfl
@[simp] theorem setCore_refreshAt (s : State) (n : Nat) (k : Core) : (setCore s n k).refreshAt = s.refreshAt := rfl
@[simp] theorem setCore_lastRefresh (s : State) (n : Nat) (k : Core) : (setCore s n k).lastRefresh = s.lastRefresh := rfl
@[simp] theorem setCore_links (s : State) (n : Nat) (k : Core) : (setCore s n k).links = s.links := rfl
@[simp] theorem setCore_switched (s : State) (n : Nat) (k : Core) : (setCore s n k).switched = s.switched := rfl
@[simp] theorem setCore_routes (s : State) (n : Nat) (k : Core) : (setCore s n k).routes = s.routes := rfl
@[simp] theorem setCore_packets (s : State) (n : Nat) (k : Core) : (setCore s n k).packets = s.packets := rfl
@[simp] theorem setCore_seenPackets (s : State) (n : Nat) (k : Core) : (setCore s n k).seenPackets = s.seenPackets := rfl
@[simp] theorem setCore_farWrites (s : State) (n : Nat) (k : Core) : (setCore s n k).farWrites = s.farWrites := rfl
@[simp] theorem setCore_farBars (s : State) (n : Nat) (k : Core) : (setCore s n k).farBars = s.farBars := rfl
@[simp] theorem setCore_farWaits (s : State) (n : Nat) (k : Core) : (setCore s n k).farWaits = s.farWaits := rfl
@[simp] theorem setCore_errors (s : State) (n : Nat) (k : Core) : (setCore s n k).errors = s.errors := rfl
@[simp] theorem setCore_errStart (s : State) (n : Nat) (k : Core) : (setCore s n k).errStart = s.errStart := rfl
@[simp] theorem setCore_errWarned (s : State) (n : Nat) (k : Core) : (setCore s n k).errWarned = s.errWarned := rfl
@[simp] theorem setCore_errThreshold (s : State) (n : Nat) (k : Core) : (setCore s n k).errThreshold = s.errThreshold := rfl
@[simp] theorem setCore_snapshots (s : State) (n : Nat) (k : Core) : (setCore s n k).snapshots = s.snapshots := rfl
@[simp] theorem setCore_warned (s : State) (n : Nat) (k : Core) : (setCore s n k).warned = s.warned := rfl
@[simp] theorem setCore_stored (s : State) (n : Nat) (k : Core) : (setCore s n k).stored = s.stored := rfl
@[simp] theorem setCore_out (s : State) (n : Nat) (k : Core) : (setCore s n k).out = s.out := rfl

/-! ### A core changed -/

@[simp] theorem modCore_pkg (s : State) (n : Nat) (f : Core → Core) : (modCore s n f).pkg = s.pkg := rfl
@[simp] theorem modCore_incarnation (s : State) (n : Nat) (f : Core → Core) : (modCore s n f).incarnation = s.incarnation := rfl
@[simp] theorem modCore_up (s : State) (n : Nat) (f : Core → Core) : (modCore s n f).up = s.up := rfl
@[simp] theorem modCore_identityKey (s : State) (n : Nat) (f : Core → Core) : (modCore s n f).identityKey = s.identityKey := rfl
@[simp] theorem modCore_now (s : State) (n : Nat) (f : Core → Core) : (modCore s n f).now = s.now := rfl
@[simp] theorem modCore_fresh (s : State) (n : Nat) (f : Core → Core) : (modCore s n f).fresh = s.fresh := rfl
@[simp] theorem modCore_ops (s : State) (n : Nat) (f : Core → Core) : (modCore s n f).ops = s.ops := rfl
@[simp] theorem modCore_todo (s : State) (n : Nat) (f : Core → Core) : (modCore s n f).todo = s.todo := rfl
@[simp] theorem modCore_timers (s : State) (n : Nat) (f : Core → Core) : (modCore s n f).timers = s.timers := rfl
@[simp] theorem modCore_cur (s : State) (n : Nat) (f : Core → Core) : (modCore s n f).cur = s.cur := rfl
@[simp] theorem modCore_curHart (s : State) (n : Nat) (f : Core → Core) : (modCore s n f).curHart = s.curHart := rfl
@[simp] theorem modCore_undo (s : State) (n : Nat) (f : Core → Core) : (modCore s n f).undo = s.undo := rfl
@[simp] theorem modCore_hbm (s : State) (n : Nat) (f : Core → Core) : (modCore s n f).hbm = s.hbm := rfl
@[simp] theorem modCore_full (s : State) (n : Nat) (f : Core → Core) : (modCore s n f).full = s.full := rfl
@[simp] theorem modCore_fog (s : State) (n : Nat) (f : Core → Core) : (modCore s n f).fog = s.fog := rfl
@[simp] theorem modCore_veils (s : State) (n : Nat) (f : Core → Core) : (modCore s n f).veils = s.veils := rfl
@[simp] theorem modCore_cores (s : State) (n : Nat) (f : Core → Core) : (modCore s n f).cores = alSet s.cores n (f (getCore s n)) := rfl
@[simp] theorem modCore_slots (s : State) (n : Nat) (f : Core → Core) : (modCore s n f).slots = s.slots := rfl
@[simp] theorem modCore_tasks (s : State) (n : Nat) (f : Core → Core) : (modCore s n f).tasks = s.tasks := rfl
@[simp] theorem modCore_regions (s : State) (n : Nat) (f : Core → Core) : (modCore s n f).regions = s.regions := rfl
@[simp] theorem modCore_cbars (s : State) (n : Nat) (f : Core → Core) : (modCore s n f).cbars = s.cbars := rfl
@[simp] theorem modCore_dbars (s : State) (n : Nat) (f : Core → Core) : (modCore s n f).dbars = s.dbars := rfl
@[simp] theorem modCore_cmds (s : State) (n : Nat) (f : Core → Core) : (modCore s n f).cmds = s.cmds := rfl
@[simp] theorem modCore_engines (s : State) (n : Nat) (f : Core → Core) : (modCore s n f).engines = s.engines := rfl
@[simp] theorem modCore_asids (s : State) (n : Nat) (f : Core → Core) : (modCore s n f).asids = s.asids := rfl
@[simp] theorem modCore_sysWaits (s : State) (n : Nat) (f : Core → Core) : (modCore s n f).sysWaits = s.sysWaits := rfl
@[simp] theorem modCore_raises (s : State) (n : Nat) (f : Core → Core) : (modCore s n f).raises = s.raises := rfl
@[simp] theorem modCore_frames (s : State) (n : Nat) (f : Core → Core) : (modCore s n f).frames = s.frames := rfl
@[simp] theorem modCore_keyed (s : State) (n : Nat) (f : Core → Core) : (modCore s n f).keyed = s.keyed := rfl
@[simp] theorem modCore_rootFrames (s : State) (n : Nat) (f : Core → Core) : (modCore s n f).rootFrames = s.rootFrames := rfl
@[simp] theorem modCore_spareTables (s : State) (n : Nat) (f : Core → Core) : (modCore s n f).spareTables = s.spareTables := rfl
@[simp] theorem modCore_freeBlocks (s : State) (n : Nat) (f : Core → Core) : (modCore s n f).freeBlocks = s.freeBlocks := rfl
@[simp] theorem modCore_freePages (s : State) (n : Nat) (f : Core → Core) : (modCore s n f).freePages = s.freePages := rfl
@[simp] theorem modCore_freeGbns (s : State) (n : Nat) (f : Core → Core) : (modCore s n f).freeGbns = s.freeGbns := rfl
@[simp] theorem modCore_tiered (s : State) (n : Nat) (f : Core → Core) : (modCore s n f).tiered = s.tiered := rfl
@[simp] theorem modCore_gbnBase (s : State) (n : Nat) (f : Core → Core) : (modCore s n f).gbnBase = s.gbnBase := rfl
@[simp] theorem modCore_keys (s : State) (n : Nat) (f : Core → Core) : (modCore s n f).keys = s.keys := rfl
@[simp] theorem modCore_known (s : State) (n : Nat) (f : Core → Core) : (modCore s n f).known = s.known := rfl
@[simp] theorem modCore_probes (s : State) (n : Nat) (f : Core → Core) : (modCore s n f).probes = s.probes := rfl
@[simp] theorem modCore_unsent (s : State) (n : Nat) (f : Core → Core) : (modCore s n f).unsent = s.unsent := rfl
@[simp] theorem modCore_remoteAsids (s : State) (n : Nat) (f : Core → Core) : (modCore s n f).remoteAsids = s.remoteAsids := rfl
@[simp] theorem modCore_dedup (s : State) (n : Nat) (f : Core → Core) : (modCore s n f).dedup = s.dedup := rfl
@[simp] theorem modCore_parts (s : State) (n : Nat) (f : Core → Core) : (modCore s n f).parts = s.parts := rfl
@[simp] theorem modCore_partOps (s : State) (n : Nat) (f : Core → Core) : (modCore s n f).partOps = s.partOps := rfl
@[simp] theorem modCore_pieces (s : State) (n : Nat) (f : Core → Core) : (modCore s n f).pieces = s.pieces := rfl
@[simp] theorem modCore_log (s : State) (n : Nat) (f : Core → Core) : (modCore s n f).log = s.log := rfl
@[simp] theorem modCore_views (s : State) (n : Nat) (f : Core → Core) : (modCore s n f).views = s.views := rfl
@[simp] theorem modCore_pubs (s : State) (n : Nat) (f : Core → Core) : (modCore s n f).pubs = s.pubs := rfl
@[simp] theorem modCore_seqs (s : State) (n : Nat) (f : Core → Core) : (modCore s n f).seqs = s.seqs := rfl
@[simp] theorem modCore_segments (s : State) (n : Nat) (f : Core → Core) : (modCore s n f).segments = s.segments := rfl
@[simp] theorem modCore_pewter (s : State) (n : Nat) (f : Core → Core) : (modCore s n f).pewter = s.pewter := rfl
@[simp] theorem modCore_map (s : State) (n : Nat) (f : Core → Core) : (modCore s n f).map = s.map := rfl
@[simp] theorem modCore_mapHolders (s : State) (n : Nat) (f : Core → Core) : (modCore s n f).mapHolders = s.mapHolders := rfl
@[simp] theorem modCore_trees (s : State) (n : Nat) (f : Core → Core) : (modCore s n f).trees = s.trees := rfl
@[simp] theorem modCore_prefixes (s : State) (n : Nat) (f : Core → Core) : (modCore s n f).prefixes = s.prefixes := rfl
@[simp] theorem modCore_queries (s : State) (n : Nat) (f : Core → Core) : (modCore s n f).queries = s.queries := rfl
@[simp] theorem modCore_nodes (s : State) (n : Nat) (f : Core → Core) : (modCore s n f).nodes = s.nodes := rfl
@[simp] theorem modCore_moves (s : State) (n : Nat) (f : Core → Core) : (modCore s n f).moves = s.moves := rfl
@[simp] theorem modCore_reserved (s : State) (n : Nat) (f : Core → Core) : (modCore s n f).reserved = s.reserved := rfl
@[simp] theorem modCore_sequence (s : State) (n : Nat) (f : Core → Core) : (modCore s n f).sequence = s.sequence := rfl
@[simp] theorem modCore_hostA (s : State) (n : Nat) (f : Core → Core) : (modCore s n f).hostA = s.hostA := rfl
@[simp] theorem modCore_devSeq (s : State) (n : Nat) (f : Core → Core) : (modCore s n f).devSeq = s.devSeq := rfl
@[simp] theorem modCore_retained (s : State) (n : Nat) (f : Core → Core) : (modCore s n f).retained = s.retained := rfl
@[simp] theorem modCore_responses (s : State) (n : Nat) (f : Core → Core) : (modCore s n f).responses = s.responses := rfl
@[simp] theorem modCore_dlost (s : State) (n : Nat) (f : Core → Core) : (modCore s n f).dlost = s.dlost := rfl
@[simp] theorem modCore_control (s : State) (n : Nat) (f : Core → Core) : (modCore s n f).control = s.control := rfl
@[simp] theorem modCore_qps (s : State) (n : Nat) (f : Core → Core) : (modCore s n f).qps = s.qps := rfl
@[simp] theorem modCore_paused (s : State) (n : Nat) (f : Core → Core) : (modCore s n f).paused = s.paused := rfl
@[simp] theorem modCore_slowed (s : State) (n : Nat) (f : Core → Core) : (modCore s n f).slowed = s.slowed := rfl
@[simp] theorem modCore_portQueue (s : State) (n : Nat) (f : Core → Core) : (modCore s n f).portQueue = s.portQueue := rfl
@[simp] theorem modCore_pfc (s : State) (n : Nat) (f : Core → Core) : (modCore s n f).pfc = s.pfc := rfl
@[simp] theorem modCore_launching (s : State) (n : Nat) (f : Core → Core) : (modCore s n f).launching = s.launching := rfl
@[simp] theorem modCore_waitingMsgs (s : State) (n : Nat) (f : Core → Core) : (modCore s n f).waitingMsgs = s.waitingMsgs := rfl
@[simp] theorem modCore_poweredAt (s : State) (n : Nat) (f : Core → Core) : (modCore s n f).poweredAt = s.poweredAt := rfl
@[simp] theorem modCore_refreshAt (s : State) (n : Nat) (f : Core → Core) : (modCore s n f).refreshAt = s.refreshAt := rfl
@[simp] theorem modCore_lastRefresh (s : State) (n : Nat) (f : Core → Core) : (modCore s n f).lastRefresh = s.lastRefresh := rfl
@[simp] theorem modCore_links (s : State) (n : Nat) (f : Core → Core) : (modCore s n f).links = s.links := rfl
@[simp] theorem modCore_switched (s : State) (n : Nat) (f : Core → Core) : (modCore s n f).switched = s.switched := rfl
@[simp] theorem modCore_routes (s : State) (n : Nat) (f : Core → Core) : (modCore s n f).routes = s.routes := rfl
@[simp] theorem modCore_packets (s : State) (n : Nat) (f : Core → Core) : (modCore s n f).packets = s.packets := rfl
@[simp] theorem modCore_seenPackets (s : State) (n : Nat) (f : Core → Core) : (modCore s n f).seenPackets = s.seenPackets := rfl
@[simp] theorem modCore_farWrites (s : State) (n : Nat) (f : Core → Core) : (modCore s n f).farWrites = s.farWrites := rfl
@[simp] theorem modCore_farBars (s : State) (n : Nat) (f : Core → Core) : (modCore s n f).farBars = s.farBars := rfl
@[simp] theorem modCore_farWaits (s : State) (n : Nat) (f : Core → Core) : (modCore s n f).farWaits = s.farWaits := rfl
@[simp] theorem modCore_errors (s : State) (n : Nat) (f : Core → Core) : (modCore s n f).errors = s.errors := rfl
@[simp] theorem modCore_errStart (s : State) (n : Nat) (f : Core → Core) : (modCore s n f).errStart = s.errStart := rfl
@[simp] theorem modCore_errWarned (s : State) (n : Nat) (f : Core → Core) : (modCore s n f).errWarned = s.errWarned := rfl
@[simp] theorem modCore_errThreshold (s : State) (n : Nat) (f : Core → Core) : (modCore s n f).errThreshold = s.errThreshold := rfl
@[simp] theorem modCore_snapshots (s : State) (n : Nat) (f : Core → Core) : (modCore s n f).snapshots = s.snapshots := rfl
@[simp] theorem modCore_warned (s : State) (n : Nat) (f : Core → Core) : (modCore s n f).warned = s.warned := rfl
@[simp] theorem modCore_stored (s : State) (n : Nat) (f : Core → Core) : (modCore s n f).stored = s.stored := rfl
@[simp] theorem modCore_out (s : State) (n : Nat) (f : Core → Core) : (modCore s n f).out = s.out := rfl

/-! ### A task changed -/

@[simp] theorem modTask_pkg (s : State) (u : Nat) (f : Task → Task) : (modTask s u f).pkg = s.pkg := rfl
@[simp] theorem modTask_incarnation (s : State) (u : Nat) (f : Task → Task) : (modTask s u f).incarnation = s.incarnation := rfl
@[simp] theorem modTask_up (s : State) (u : Nat) (f : Task → Task) : (modTask s u f).up = s.up := rfl
@[simp] theorem modTask_identityKey (s : State) (u : Nat) (f : Task → Task) : (modTask s u f).identityKey = s.identityKey := rfl
@[simp] theorem modTask_now (s : State) (u : Nat) (f : Task → Task) : (modTask s u f).now = s.now := rfl
@[simp] theorem modTask_fresh (s : State) (u : Nat) (f : Task → Task) : (modTask s u f).fresh = s.fresh := rfl
@[simp] theorem modTask_ops (s : State) (u : Nat) (f : Task → Task) : (modTask s u f).ops = s.ops := rfl
@[simp] theorem modTask_todo (s : State) (u : Nat) (f : Task → Task) : (modTask s u f).todo = s.todo := rfl
@[simp] theorem modTask_timers (s : State) (u : Nat) (f : Task → Task) : (modTask s u f).timers = s.timers := rfl
@[simp] theorem modTask_cur (s : State) (u : Nat) (f : Task → Task) : (modTask s u f).cur = s.cur := rfl
@[simp] theorem modTask_curHart (s : State) (u : Nat) (f : Task → Task) : (modTask s u f).curHart = s.curHart := rfl
@[simp] theorem modTask_undo (s : State) (u : Nat) (f : Task → Task) : (modTask s u f).undo = s.undo := rfl
@[simp] theorem modTask_hbm (s : State) (u : Nat) (f : Task → Task) : (modTask s u f).hbm = s.hbm := rfl
@[simp] theorem modTask_full (s : State) (u : Nat) (f : Task → Task) : (modTask s u f).full = s.full := rfl
@[simp] theorem modTask_fog (s : State) (u : Nat) (f : Task → Task) : (modTask s u f).fog = s.fog := rfl
@[simp] theorem modTask_veils (s : State) (u : Nat) (f : Task → Task) : (modTask s u f).veils = s.veils := rfl
@[simp] theorem modTask_cores (s : State) (u : Nat) (f : Task → Task) : (modTask s u f).cores = s.cores := rfl
@[simp] theorem modTask_slots (s : State) (u : Nat) (f : Task → Task) : (modTask s u f).slots = s.slots := rfl
@[simp] theorem modTask_tasks (s : State) (u : Nat) (f : Task → Task) : (modTask s u f).tasks = s.tasks.map fun t => if t.uid = u then f t else t := rfl
@[simp] theorem modTask_regions (s : State) (u : Nat) (f : Task → Task) : (modTask s u f).regions = s.regions := rfl
@[simp] theorem modTask_cbars (s : State) (u : Nat) (f : Task → Task) : (modTask s u f).cbars = s.cbars := rfl
@[simp] theorem modTask_dbars (s : State) (u : Nat) (f : Task → Task) : (modTask s u f).dbars = s.dbars := rfl
@[simp] theorem modTask_cmds (s : State) (u : Nat) (f : Task → Task) : (modTask s u f).cmds = s.cmds := rfl
@[simp] theorem modTask_engines (s : State) (u : Nat) (f : Task → Task) : (modTask s u f).engines = s.engines := rfl
@[simp] theorem modTask_asids (s : State) (u : Nat) (f : Task → Task) : (modTask s u f).asids = s.asids := rfl
@[simp] theorem modTask_sysWaits (s : State) (u : Nat) (f : Task → Task) : (modTask s u f).sysWaits = s.sysWaits := rfl
@[simp] theorem modTask_raises (s : State) (u : Nat) (f : Task → Task) : (modTask s u f).raises = s.raises := rfl
@[simp] theorem modTask_frames (s : State) (u : Nat) (f : Task → Task) : (modTask s u f).frames = s.frames := rfl
@[simp] theorem modTask_keyed (s : State) (u : Nat) (f : Task → Task) : (modTask s u f).keyed = s.keyed := rfl
@[simp] theorem modTask_rootFrames (s : State) (u : Nat) (f : Task → Task) : (modTask s u f).rootFrames = s.rootFrames := rfl
@[simp] theorem modTask_spareTables (s : State) (u : Nat) (f : Task → Task) : (modTask s u f).spareTables = s.spareTables := rfl
@[simp] theorem modTask_freeBlocks (s : State) (u : Nat) (f : Task → Task) : (modTask s u f).freeBlocks = s.freeBlocks := rfl
@[simp] theorem modTask_freePages (s : State) (u : Nat) (f : Task → Task) : (modTask s u f).freePages = s.freePages := rfl
@[simp] theorem modTask_freeGbns (s : State) (u : Nat) (f : Task → Task) : (modTask s u f).freeGbns = s.freeGbns := rfl
@[simp] theorem modTask_tiered (s : State) (u : Nat) (f : Task → Task) : (modTask s u f).tiered = s.tiered := rfl
@[simp] theorem modTask_gbnBase (s : State) (u : Nat) (f : Task → Task) : (modTask s u f).gbnBase = s.gbnBase := rfl
@[simp] theorem modTask_keys (s : State) (u : Nat) (f : Task → Task) : (modTask s u f).keys = s.keys := rfl
@[simp] theorem modTask_known (s : State) (u : Nat) (f : Task → Task) : (modTask s u f).known = s.known := rfl
@[simp] theorem modTask_probes (s : State) (u : Nat) (f : Task → Task) : (modTask s u f).probes = s.probes := rfl
@[simp] theorem modTask_unsent (s : State) (u : Nat) (f : Task → Task) : (modTask s u f).unsent = s.unsent := rfl
@[simp] theorem modTask_remoteAsids (s : State) (u : Nat) (f : Task → Task) : (modTask s u f).remoteAsids = s.remoteAsids := rfl
@[simp] theorem modTask_dedup (s : State) (u : Nat) (f : Task → Task) : (modTask s u f).dedup = s.dedup := rfl
@[simp] theorem modTask_parts (s : State) (u : Nat) (f : Task → Task) : (modTask s u f).parts = s.parts := rfl
@[simp] theorem modTask_partOps (s : State) (u : Nat) (f : Task → Task) : (modTask s u f).partOps = s.partOps := rfl
@[simp] theorem modTask_pieces (s : State) (u : Nat) (f : Task → Task) : (modTask s u f).pieces = s.pieces := rfl
@[simp] theorem modTask_log (s : State) (u : Nat) (f : Task → Task) : (modTask s u f).log = s.log := rfl
@[simp] theorem modTask_views (s : State) (u : Nat) (f : Task → Task) : (modTask s u f).views = s.views := rfl
@[simp] theorem modTask_pubs (s : State) (u : Nat) (f : Task → Task) : (modTask s u f).pubs = s.pubs := rfl
@[simp] theorem modTask_seqs (s : State) (u : Nat) (f : Task → Task) : (modTask s u f).seqs = s.seqs := rfl
@[simp] theorem modTask_segments (s : State) (u : Nat) (f : Task → Task) : (modTask s u f).segments = s.segments := rfl
@[simp] theorem modTask_pewter (s : State) (u : Nat) (f : Task → Task) : (modTask s u f).pewter = s.pewter := rfl
@[simp] theorem modTask_map (s : State) (u : Nat) (f : Task → Task) : (modTask s u f).map = s.map := rfl
@[simp] theorem modTask_mapHolders (s : State) (u : Nat) (f : Task → Task) : (modTask s u f).mapHolders = s.mapHolders := rfl
@[simp] theorem modTask_trees (s : State) (u : Nat) (f : Task → Task) : (modTask s u f).trees = s.trees := rfl
@[simp] theorem modTask_prefixes (s : State) (u : Nat) (f : Task → Task) : (modTask s u f).prefixes = s.prefixes := rfl
@[simp] theorem modTask_queries (s : State) (u : Nat) (f : Task → Task) : (modTask s u f).queries = s.queries := rfl
@[simp] theorem modTask_nodes (s : State) (u : Nat) (f : Task → Task) : (modTask s u f).nodes = s.nodes := rfl
@[simp] theorem modTask_moves (s : State) (u : Nat) (f : Task → Task) : (modTask s u f).moves = s.moves := rfl
@[simp] theorem modTask_reserved (s : State) (u : Nat) (f : Task → Task) : (modTask s u f).reserved = s.reserved := rfl
@[simp] theorem modTask_sequence (s : State) (u : Nat) (f : Task → Task) : (modTask s u f).sequence = s.sequence := rfl
@[simp] theorem modTask_hostA (s : State) (u : Nat) (f : Task → Task) : (modTask s u f).hostA = s.hostA := rfl
@[simp] theorem modTask_devSeq (s : State) (u : Nat) (f : Task → Task) : (modTask s u f).devSeq = s.devSeq := rfl
@[simp] theorem modTask_retained (s : State) (u : Nat) (f : Task → Task) : (modTask s u f).retained = s.retained := rfl
@[simp] theorem modTask_responses (s : State) (u : Nat) (f : Task → Task) : (modTask s u f).responses = s.responses := rfl
@[simp] theorem modTask_dlost (s : State) (u : Nat) (f : Task → Task) : (modTask s u f).dlost = s.dlost := rfl
@[simp] theorem modTask_control (s : State) (u : Nat) (f : Task → Task) : (modTask s u f).control = s.control := rfl
@[simp] theorem modTask_qps (s : State) (u : Nat) (f : Task → Task) : (modTask s u f).qps = s.qps := rfl
@[simp] theorem modTask_paused (s : State) (u : Nat) (f : Task → Task) : (modTask s u f).paused = s.paused := rfl
@[simp] theorem modTask_slowed (s : State) (u : Nat) (f : Task → Task) : (modTask s u f).slowed = s.slowed := rfl
@[simp] theorem modTask_portQueue (s : State) (u : Nat) (f : Task → Task) : (modTask s u f).portQueue = s.portQueue := rfl
@[simp] theorem modTask_pfc (s : State) (u : Nat) (f : Task → Task) : (modTask s u f).pfc = s.pfc := rfl
@[simp] theorem modTask_launching (s : State) (u : Nat) (f : Task → Task) : (modTask s u f).launching = s.launching := rfl
@[simp] theorem modTask_waitingMsgs (s : State) (u : Nat) (f : Task → Task) : (modTask s u f).waitingMsgs = s.waitingMsgs := rfl
@[simp] theorem modTask_poweredAt (s : State) (u : Nat) (f : Task → Task) : (modTask s u f).poweredAt = s.poweredAt := rfl
@[simp] theorem modTask_refreshAt (s : State) (u : Nat) (f : Task → Task) : (modTask s u f).refreshAt = s.refreshAt := rfl
@[simp] theorem modTask_lastRefresh (s : State) (u : Nat) (f : Task → Task) : (modTask s u f).lastRefresh = s.lastRefresh := rfl
@[simp] theorem modTask_links (s : State) (u : Nat) (f : Task → Task) : (modTask s u f).links = s.links := rfl
@[simp] theorem modTask_switched (s : State) (u : Nat) (f : Task → Task) : (modTask s u f).switched = s.switched := rfl
@[simp] theorem modTask_routes (s : State) (u : Nat) (f : Task → Task) : (modTask s u f).routes = s.routes := rfl
@[simp] theorem modTask_packets (s : State) (u : Nat) (f : Task → Task) : (modTask s u f).packets = s.packets := rfl
@[simp] theorem modTask_seenPackets (s : State) (u : Nat) (f : Task → Task) : (modTask s u f).seenPackets = s.seenPackets := rfl
@[simp] theorem modTask_farWrites (s : State) (u : Nat) (f : Task → Task) : (modTask s u f).farWrites = s.farWrites := rfl
@[simp] theorem modTask_farBars (s : State) (u : Nat) (f : Task → Task) : (modTask s u f).farBars = s.farBars := rfl
@[simp] theorem modTask_farWaits (s : State) (u : Nat) (f : Task → Task) : (modTask s u f).farWaits = s.farWaits := rfl
@[simp] theorem modTask_errors (s : State) (u : Nat) (f : Task → Task) : (modTask s u f).errors = s.errors := rfl
@[simp] theorem modTask_errStart (s : State) (u : Nat) (f : Task → Task) : (modTask s u f).errStart = s.errStart := rfl
@[simp] theorem modTask_errWarned (s : State) (u : Nat) (f : Task → Task) : (modTask s u f).errWarned = s.errWarned := rfl
@[simp] theorem modTask_errThreshold (s : State) (u : Nat) (f : Task → Task) : (modTask s u f).errThreshold = s.errThreshold := rfl
@[simp] theorem modTask_snapshots (s : State) (u : Nat) (f : Task → Task) : (modTask s u f).snapshots = s.snapshots := rfl
@[simp] theorem modTask_warned (s : State) (u : Nat) (f : Task → Task) : (modTask s u f).warned = s.warned := rfl
@[simp] theorem modTask_stored (s : State) (u : Nat) (f : Task → Task) : (modTask s u f).stored = s.stored := rfl
@[simp] theorem modTask_out (s : State) (u : Nat) (f : Task → Task) : (modTask s u f).out = s.out := rfl

/-! ### A region changed -/

@[simp] theorem modRegion_pkg (s : State) (r : Nat) (f : Region → Region) : (modRegion s r f).pkg = s.pkg := rfl
@[simp] theorem modRegion_incarnation (s : State) (r : Nat) (f : Region → Region) : (modRegion s r f).incarnation = s.incarnation := rfl
@[simp] theorem modRegion_up (s : State) (r : Nat) (f : Region → Region) : (modRegion s r f).up = s.up := rfl
@[simp] theorem modRegion_identityKey (s : State) (r : Nat) (f : Region → Region) : (modRegion s r f).identityKey = s.identityKey := rfl
@[simp] theorem modRegion_now (s : State) (r : Nat) (f : Region → Region) : (modRegion s r f).now = s.now := rfl
@[simp] theorem modRegion_fresh (s : State) (r : Nat) (f : Region → Region) : (modRegion s r f).fresh = s.fresh := rfl
@[simp] theorem modRegion_ops (s : State) (r : Nat) (f : Region → Region) : (modRegion s r f).ops = s.ops := rfl
@[simp] theorem modRegion_todo (s : State) (r : Nat) (f : Region → Region) : (modRegion s r f).todo = s.todo := rfl
@[simp] theorem modRegion_timers (s : State) (r : Nat) (f : Region → Region) : (modRegion s r f).timers = s.timers := rfl
@[simp] theorem modRegion_cur (s : State) (r : Nat) (f : Region → Region) : (modRegion s r f).cur = s.cur := rfl
@[simp] theorem modRegion_curHart (s : State) (r : Nat) (f : Region → Region) : (modRegion s r f).curHart = s.curHart := rfl
@[simp] theorem modRegion_undo (s : State) (r : Nat) (f : Region → Region) : (modRegion s r f).undo = s.undo := rfl
@[simp] theorem modRegion_hbm (s : State) (r : Nat) (f : Region → Region) : (modRegion s r f).hbm = s.hbm := rfl
@[simp] theorem modRegion_full (s : State) (r : Nat) (f : Region → Region) : (modRegion s r f).full = s.full := rfl
@[simp] theorem modRegion_fog (s : State) (r : Nat) (f : Region → Region) : (modRegion s r f).fog = s.fog := rfl
@[simp] theorem modRegion_veils (s : State) (r : Nat) (f : Region → Region) : (modRegion s r f).veils = s.veils := rfl
@[simp] theorem modRegion_cores (s : State) (r : Nat) (f : Region → Region) : (modRegion s r f).cores = s.cores := rfl
@[simp] theorem modRegion_slots (s : State) (r : Nat) (f : Region → Region) : (modRegion s r f).slots = s.slots := rfl
@[simp] theorem modRegion_tasks (s : State) (r : Nat) (f : Region → Region) : (modRegion s r f).tasks = s.tasks := rfl
@[simp] theorem modRegion_regions (s : State) (r : Nat) (f : Region → Region) : (modRegion s r f).regions = (s.regions.zipIdx).map fun p => if p.2 = r then f p.1 else p.1 := rfl
@[simp] theorem modRegion_cbars (s : State) (r : Nat) (f : Region → Region) : (modRegion s r f).cbars = s.cbars := rfl
@[simp] theorem modRegion_dbars (s : State) (r : Nat) (f : Region → Region) : (modRegion s r f).dbars = s.dbars := rfl
@[simp] theorem modRegion_cmds (s : State) (r : Nat) (f : Region → Region) : (modRegion s r f).cmds = s.cmds := rfl
@[simp] theorem modRegion_engines (s : State) (r : Nat) (f : Region → Region) : (modRegion s r f).engines = s.engines := rfl
@[simp] theorem modRegion_asids (s : State) (r : Nat) (f : Region → Region) : (modRegion s r f).asids = s.asids := rfl
@[simp] theorem modRegion_sysWaits (s : State) (r : Nat) (f : Region → Region) : (modRegion s r f).sysWaits = s.sysWaits := rfl
@[simp] theorem modRegion_raises (s : State) (r : Nat) (f : Region → Region) : (modRegion s r f).raises = s.raises := rfl
@[simp] theorem modRegion_frames (s : State) (r : Nat) (f : Region → Region) : (modRegion s r f).frames = s.frames := rfl
@[simp] theorem modRegion_keyed (s : State) (r : Nat) (f : Region → Region) : (modRegion s r f).keyed = s.keyed := rfl
@[simp] theorem modRegion_rootFrames (s : State) (r : Nat) (f : Region → Region) : (modRegion s r f).rootFrames = s.rootFrames := rfl
@[simp] theorem modRegion_spareTables (s : State) (r : Nat) (f : Region → Region) : (modRegion s r f).spareTables = s.spareTables := rfl
@[simp] theorem modRegion_freeBlocks (s : State) (r : Nat) (f : Region → Region) : (modRegion s r f).freeBlocks = s.freeBlocks := rfl
@[simp] theorem modRegion_freePages (s : State) (r : Nat) (f : Region → Region) : (modRegion s r f).freePages = s.freePages := rfl
@[simp] theorem modRegion_freeGbns (s : State) (r : Nat) (f : Region → Region) : (modRegion s r f).freeGbns = s.freeGbns := rfl
@[simp] theorem modRegion_tiered (s : State) (r : Nat) (f : Region → Region) : (modRegion s r f).tiered = s.tiered := rfl
@[simp] theorem modRegion_gbnBase (s : State) (r : Nat) (f : Region → Region) : (modRegion s r f).gbnBase = s.gbnBase := rfl
@[simp] theorem modRegion_keys (s : State) (r : Nat) (f : Region → Region) : (modRegion s r f).keys = s.keys := rfl
@[simp] theorem modRegion_known (s : State) (r : Nat) (f : Region → Region) : (modRegion s r f).known = s.known := rfl
@[simp] theorem modRegion_probes (s : State) (r : Nat) (f : Region → Region) : (modRegion s r f).probes = s.probes := rfl
@[simp] theorem modRegion_unsent (s : State) (r : Nat) (f : Region → Region) : (modRegion s r f).unsent = s.unsent := rfl
@[simp] theorem modRegion_remoteAsids (s : State) (r : Nat) (f : Region → Region) : (modRegion s r f).remoteAsids = s.remoteAsids := rfl
@[simp] theorem modRegion_dedup (s : State) (r : Nat) (f : Region → Region) : (modRegion s r f).dedup = s.dedup := rfl
@[simp] theorem modRegion_parts (s : State) (r : Nat) (f : Region → Region) : (modRegion s r f).parts = s.parts := rfl
@[simp] theorem modRegion_partOps (s : State) (r : Nat) (f : Region → Region) : (modRegion s r f).partOps = s.partOps := rfl
@[simp] theorem modRegion_pieces (s : State) (r : Nat) (f : Region → Region) : (modRegion s r f).pieces = s.pieces := rfl
@[simp] theorem modRegion_log (s : State) (r : Nat) (f : Region → Region) : (modRegion s r f).log = s.log := rfl
@[simp] theorem modRegion_views (s : State) (r : Nat) (f : Region → Region) : (modRegion s r f).views = s.views := rfl
@[simp] theorem modRegion_pubs (s : State) (r : Nat) (f : Region → Region) : (modRegion s r f).pubs = s.pubs := rfl
@[simp] theorem modRegion_seqs (s : State) (r : Nat) (f : Region → Region) : (modRegion s r f).seqs = s.seqs := rfl
@[simp] theorem modRegion_segments (s : State) (r : Nat) (f : Region → Region) : (modRegion s r f).segments = s.segments := rfl
@[simp] theorem modRegion_pewter (s : State) (r : Nat) (f : Region → Region) : (modRegion s r f).pewter = s.pewter := rfl
@[simp] theorem modRegion_map (s : State) (r : Nat) (f : Region → Region) : (modRegion s r f).map = s.map := rfl
@[simp] theorem modRegion_mapHolders (s : State) (r : Nat) (f : Region → Region) : (modRegion s r f).mapHolders = s.mapHolders := rfl
@[simp] theorem modRegion_trees (s : State) (r : Nat) (f : Region → Region) : (modRegion s r f).trees = s.trees := rfl
@[simp] theorem modRegion_prefixes (s : State) (r : Nat) (f : Region → Region) : (modRegion s r f).prefixes = s.prefixes := rfl
@[simp] theorem modRegion_queries (s : State) (r : Nat) (f : Region → Region) : (modRegion s r f).queries = s.queries := rfl
@[simp] theorem modRegion_nodes (s : State) (r : Nat) (f : Region → Region) : (modRegion s r f).nodes = s.nodes := rfl
@[simp] theorem modRegion_moves (s : State) (r : Nat) (f : Region → Region) : (modRegion s r f).moves = s.moves := rfl
@[simp] theorem modRegion_reserved (s : State) (r : Nat) (f : Region → Region) : (modRegion s r f).reserved = s.reserved := rfl
@[simp] theorem modRegion_sequence (s : State) (r : Nat) (f : Region → Region) : (modRegion s r f).sequence = s.sequence := rfl
@[simp] theorem modRegion_hostA (s : State) (r : Nat) (f : Region → Region) : (modRegion s r f).hostA = s.hostA := rfl
@[simp] theorem modRegion_devSeq (s : State) (r : Nat) (f : Region → Region) : (modRegion s r f).devSeq = s.devSeq := rfl
@[simp] theorem modRegion_retained (s : State) (r : Nat) (f : Region → Region) : (modRegion s r f).retained = s.retained := rfl
@[simp] theorem modRegion_responses (s : State) (r : Nat) (f : Region → Region) : (modRegion s r f).responses = s.responses := rfl
@[simp] theorem modRegion_dlost (s : State) (r : Nat) (f : Region → Region) : (modRegion s r f).dlost = s.dlost := rfl
@[simp] theorem modRegion_control (s : State) (r : Nat) (f : Region → Region) : (modRegion s r f).control = s.control := rfl
@[simp] theorem modRegion_qps (s : State) (r : Nat) (f : Region → Region) : (modRegion s r f).qps = s.qps := rfl
@[simp] theorem modRegion_paused (s : State) (r : Nat) (f : Region → Region) : (modRegion s r f).paused = s.paused := rfl
@[simp] theorem modRegion_slowed (s : State) (r : Nat) (f : Region → Region) : (modRegion s r f).slowed = s.slowed := rfl
@[simp] theorem modRegion_portQueue (s : State) (r : Nat) (f : Region → Region) : (modRegion s r f).portQueue = s.portQueue := rfl
@[simp] theorem modRegion_pfc (s : State) (r : Nat) (f : Region → Region) : (modRegion s r f).pfc = s.pfc := rfl
@[simp] theorem modRegion_launching (s : State) (r : Nat) (f : Region → Region) : (modRegion s r f).launching = s.launching := rfl
@[simp] theorem modRegion_waitingMsgs (s : State) (r : Nat) (f : Region → Region) : (modRegion s r f).waitingMsgs = s.waitingMsgs := rfl
@[simp] theorem modRegion_poweredAt (s : State) (r : Nat) (f : Region → Region) : (modRegion s r f).poweredAt = s.poweredAt := rfl
@[simp] theorem modRegion_refreshAt (s : State) (r : Nat) (f : Region → Region) : (modRegion s r f).refreshAt = s.refreshAt := rfl
@[simp] theorem modRegion_lastRefresh (s : State) (r : Nat) (f : Region → Region) : (modRegion s r f).lastRefresh = s.lastRefresh := rfl
@[simp] theorem modRegion_links (s : State) (r : Nat) (f : Region → Region) : (modRegion s r f).links = s.links := rfl
@[simp] theorem modRegion_switched (s : State) (r : Nat) (f : Region → Region) : (modRegion s r f).switched = s.switched := rfl
@[simp] theorem modRegion_routes (s : State) (r : Nat) (f : Region → Region) : (modRegion s r f).routes = s.routes := rfl
@[simp] theorem modRegion_packets (s : State) (r : Nat) (f : Region → Region) : (modRegion s r f).packets = s.packets := rfl
@[simp] theorem modRegion_seenPackets (s : State) (r : Nat) (f : Region → Region) : (modRegion s r f).seenPackets = s.seenPackets := rfl
@[simp] theorem modRegion_farWrites (s : State) (r : Nat) (f : Region → Region) : (modRegion s r f).farWrites = s.farWrites := rfl
@[simp] theorem modRegion_farBars (s : State) (r : Nat) (f : Region → Region) : (modRegion s r f).farBars = s.farBars := rfl
@[simp] theorem modRegion_farWaits (s : State) (r : Nat) (f : Region → Region) : (modRegion s r f).farWaits = s.farWaits := rfl
@[simp] theorem modRegion_errors (s : State) (r : Nat) (f : Region → Region) : (modRegion s r f).errors = s.errors := rfl
@[simp] theorem modRegion_errStart (s : State) (r : Nat) (f : Region → Region) : (modRegion s r f).errStart = s.errStart := rfl
@[simp] theorem modRegion_errWarned (s : State) (r : Nat) (f : Region → Region) : (modRegion s r f).errWarned = s.errWarned := rfl
@[simp] theorem modRegion_errThreshold (s : State) (r : Nat) (f : Region → Region) : (modRegion s r f).errThreshold = s.errThreshold := rfl
@[simp] theorem modRegion_snapshots (s : State) (r : Nat) (f : Region → Region) : (modRegion s r f).snapshots = s.snapshots := rfl
@[simp] theorem modRegion_warned (s : State) (r : Nat) (f : Region → Region) : (modRegion s r f).warned = s.warned := rfl
@[simp] theorem modRegion_stored (s : State) (r : Nat) (f : Region → Region) : (modRegion s r f).stored = s.stored := rfl
@[simp] theorem modRegion_out (s : State) (r : Nat) (f : Region → Region) : (modRegion s r f).out = s.out := rfl

/-! ### A command changed -/

@[simp] theorem modCmd_pkg (s : State) (id : Nat) (f : Cmd → Cmd) : (modCmd s id f).pkg = s.pkg := rfl
@[simp] theorem modCmd_incarnation (s : State) (id : Nat) (f : Cmd → Cmd) : (modCmd s id f).incarnation = s.incarnation := rfl
@[simp] theorem modCmd_up (s : State) (id : Nat) (f : Cmd → Cmd) : (modCmd s id f).up = s.up := rfl
@[simp] theorem modCmd_identityKey (s : State) (id : Nat) (f : Cmd → Cmd) : (modCmd s id f).identityKey = s.identityKey := rfl
@[simp] theorem modCmd_now (s : State) (id : Nat) (f : Cmd → Cmd) : (modCmd s id f).now = s.now := rfl
@[simp] theorem modCmd_fresh (s : State) (id : Nat) (f : Cmd → Cmd) : (modCmd s id f).fresh = s.fresh := rfl
@[simp] theorem modCmd_ops (s : State) (id : Nat) (f : Cmd → Cmd) : (modCmd s id f).ops = s.ops := rfl
@[simp] theorem modCmd_todo (s : State) (id : Nat) (f : Cmd → Cmd) : (modCmd s id f).todo = s.todo := rfl
@[simp] theorem modCmd_timers (s : State) (id : Nat) (f : Cmd → Cmd) : (modCmd s id f).timers = s.timers := rfl
@[simp] theorem modCmd_cur (s : State) (id : Nat) (f : Cmd → Cmd) : (modCmd s id f).cur = s.cur := rfl
@[simp] theorem modCmd_curHart (s : State) (id : Nat) (f : Cmd → Cmd) : (modCmd s id f).curHart = s.curHart := rfl
@[simp] theorem modCmd_undo (s : State) (id : Nat) (f : Cmd → Cmd) : (modCmd s id f).undo = s.undo := rfl
@[simp] theorem modCmd_hbm (s : State) (id : Nat) (f : Cmd → Cmd) : (modCmd s id f).hbm = s.hbm := rfl
@[simp] theorem modCmd_full (s : State) (id : Nat) (f : Cmd → Cmd) : (modCmd s id f).full = s.full := rfl
@[simp] theorem modCmd_fog (s : State) (id : Nat) (f : Cmd → Cmd) : (modCmd s id f).fog = s.fog := rfl
@[simp] theorem modCmd_veils (s : State) (id : Nat) (f : Cmd → Cmd) : (modCmd s id f).veils = s.veils := rfl
@[simp] theorem modCmd_cores (s : State) (id : Nat) (f : Cmd → Cmd) : (modCmd s id f).cores = s.cores := rfl
@[simp] theorem modCmd_slots (s : State) (id : Nat) (f : Cmd → Cmd) : (modCmd s id f).slots = s.slots := rfl
@[simp] theorem modCmd_tasks (s : State) (id : Nat) (f : Cmd → Cmd) : (modCmd s id f).tasks = s.tasks := rfl
@[simp] theorem modCmd_regions (s : State) (id : Nat) (f : Cmd → Cmd) : (modCmd s id f).regions = s.regions := rfl
@[simp] theorem modCmd_cbars (s : State) (id : Nat) (f : Cmd → Cmd) : (modCmd s id f).cbars = s.cbars := rfl
@[simp] theorem modCmd_dbars (s : State) (id : Nat) (f : Cmd → Cmd) : (modCmd s id f).dbars = s.dbars := rfl
@[simp] theorem modCmd_cmds (s : State) (id : Nat) (f : Cmd → Cmd) : (modCmd s id f).cmds = s.cmds.map fun k => if k.id = id then f k else k := rfl
@[simp] theorem modCmd_engines (s : State) (id : Nat) (f : Cmd → Cmd) : (modCmd s id f).engines = s.engines := rfl
@[simp] theorem modCmd_asids (s : State) (id : Nat) (f : Cmd → Cmd) : (modCmd s id f).asids = s.asids := rfl
@[simp] theorem modCmd_sysWaits (s : State) (id : Nat) (f : Cmd → Cmd) : (modCmd s id f).sysWaits = s.sysWaits := rfl
@[simp] theorem modCmd_raises (s : State) (id : Nat) (f : Cmd → Cmd) : (modCmd s id f).raises = s.raises := rfl
@[simp] theorem modCmd_frames (s : State) (id : Nat) (f : Cmd → Cmd) : (modCmd s id f).frames = s.frames := rfl
@[simp] theorem modCmd_keyed (s : State) (id : Nat) (f : Cmd → Cmd) : (modCmd s id f).keyed = s.keyed := rfl
@[simp] theorem modCmd_rootFrames (s : State) (id : Nat) (f : Cmd → Cmd) : (modCmd s id f).rootFrames = s.rootFrames := rfl
@[simp] theorem modCmd_spareTables (s : State) (id : Nat) (f : Cmd → Cmd) : (modCmd s id f).spareTables = s.spareTables := rfl
@[simp] theorem modCmd_freeBlocks (s : State) (id : Nat) (f : Cmd → Cmd) : (modCmd s id f).freeBlocks = s.freeBlocks := rfl
@[simp] theorem modCmd_freePages (s : State) (id : Nat) (f : Cmd → Cmd) : (modCmd s id f).freePages = s.freePages := rfl
@[simp] theorem modCmd_freeGbns (s : State) (id : Nat) (f : Cmd → Cmd) : (modCmd s id f).freeGbns = s.freeGbns := rfl
@[simp] theorem modCmd_tiered (s : State) (id : Nat) (f : Cmd → Cmd) : (modCmd s id f).tiered = s.tiered := rfl
@[simp] theorem modCmd_gbnBase (s : State) (id : Nat) (f : Cmd → Cmd) : (modCmd s id f).gbnBase = s.gbnBase := rfl
@[simp] theorem modCmd_keys (s : State) (id : Nat) (f : Cmd → Cmd) : (modCmd s id f).keys = s.keys := rfl
@[simp] theorem modCmd_known (s : State) (id : Nat) (f : Cmd → Cmd) : (modCmd s id f).known = s.known := rfl
@[simp] theorem modCmd_probes (s : State) (id : Nat) (f : Cmd → Cmd) : (modCmd s id f).probes = s.probes := rfl
@[simp] theorem modCmd_unsent (s : State) (id : Nat) (f : Cmd → Cmd) : (modCmd s id f).unsent = s.unsent := rfl
@[simp] theorem modCmd_remoteAsids (s : State) (id : Nat) (f : Cmd → Cmd) : (modCmd s id f).remoteAsids = s.remoteAsids := rfl
@[simp] theorem modCmd_dedup (s : State) (id : Nat) (f : Cmd → Cmd) : (modCmd s id f).dedup = s.dedup := rfl
@[simp] theorem modCmd_parts (s : State) (id : Nat) (f : Cmd → Cmd) : (modCmd s id f).parts = s.parts := rfl
@[simp] theorem modCmd_partOps (s : State) (id : Nat) (f : Cmd → Cmd) : (modCmd s id f).partOps = s.partOps := rfl
@[simp] theorem modCmd_pieces (s : State) (id : Nat) (f : Cmd → Cmd) : (modCmd s id f).pieces = s.pieces := rfl
@[simp] theorem modCmd_log (s : State) (id : Nat) (f : Cmd → Cmd) : (modCmd s id f).log = s.log := rfl
@[simp] theorem modCmd_views (s : State) (id : Nat) (f : Cmd → Cmd) : (modCmd s id f).views = s.views := rfl
@[simp] theorem modCmd_pubs (s : State) (id : Nat) (f : Cmd → Cmd) : (modCmd s id f).pubs = s.pubs := rfl
@[simp] theorem modCmd_seqs (s : State) (id : Nat) (f : Cmd → Cmd) : (modCmd s id f).seqs = s.seqs := rfl
@[simp] theorem modCmd_segments (s : State) (id : Nat) (f : Cmd → Cmd) : (modCmd s id f).segments = s.segments := rfl
@[simp] theorem modCmd_pewter (s : State) (id : Nat) (f : Cmd → Cmd) : (modCmd s id f).pewter = s.pewter := rfl
@[simp] theorem modCmd_map (s : State) (id : Nat) (f : Cmd → Cmd) : (modCmd s id f).map = s.map := rfl
@[simp] theorem modCmd_mapHolders (s : State) (id : Nat) (f : Cmd → Cmd) : (modCmd s id f).mapHolders = s.mapHolders := rfl
@[simp] theorem modCmd_trees (s : State) (id : Nat) (f : Cmd → Cmd) : (modCmd s id f).trees = s.trees := rfl
@[simp] theorem modCmd_prefixes (s : State) (id : Nat) (f : Cmd → Cmd) : (modCmd s id f).prefixes = s.prefixes := rfl
@[simp] theorem modCmd_queries (s : State) (id : Nat) (f : Cmd → Cmd) : (modCmd s id f).queries = s.queries := rfl
@[simp] theorem modCmd_nodes (s : State) (id : Nat) (f : Cmd → Cmd) : (modCmd s id f).nodes = s.nodes := rfl
@[simp] theorem modCmd_moves (s : State) (id : Nat) (f : Cmd → Cmd) : (modCmd s id f).moves = s.moves := rfl
@[simp] theorem modCmd_reserved (s : State) (id : Nat) (f : Cmd → Cmd) : (modCmd s id f).reserved = s.reserved := rfl
@[simp] theorem modCmd_sequence (s : State) (id : Nat) (f : Cmd → Cmd) : (modCmd s id f).sequence = s.sequence := rfl
@[simp] theorem modCmd_hostA (s : State) (id : Nat) (f : Cmd → Cmd) : (modCmd s id f).hostA = s.hostA := rfl
@[simp] theorem modCmd_devSeq (s : State) (id : Nat) (f : Cmd → Cmd) : (modCmd s id f).devSeq = s.devSeq := rfl
@[simp] theorem modCmd_retained (s : State) (id : Nat) (f : Cmd → Cmd) : (modCmd s id f).retained = s.retained := rfl
@[simp] theorem modCmd_responses (s : State) (id : Nat) (f : Cmd → Cmd) : (modCmd s id f).responses = s.responses := rfl
@[simp] theorem modCmd_dlost (s : State) (id : Nat) (f : Cmd → Cmd) : (modCmd s id f).dlost = s.dlost := rfl
@[simp] theorem modCmd_control (s : State) (id : Nat) (f : Cmd → Cmd) : (modCmd s id f).control = s.control := rfl
@[simp] theorem modCmd_qps (s : State) (id : Nat) (f : Cmd → Cmd) : (modCmd s id f).qps = s.qps := rfl
@[simp] theorem modCmd_paused (s : State) (id : Nat) (f : Cmd → Cmd) : (modCmd s id f).paused = s.paused := rfl
@[simp] theorem modCmd_slowed (s : State) (id : Nat) (f : Cmd → Cmd) : (modCmd s id f).slowed = s.slowed := rfl
@[simp] theorem modCmd_portQueue (s : State) (id : Nat) (f : Cmd → Cmd) : (modCmd s id f).portQueue = s.portQueue := rfl
@[simp] theorem modCmd_pfc (s : State) (id : Nat) (f : Cmd → Cmd) : (modCmd s id f).pfc = s.pfc := rfl
@[simp] theorem modCmd_launching (s : State) (id : Nat) (f : Cmd → Cmd) : (modCmd s id f).launching = s.launching := rfl
@[simp] theorem modCmd_waitingMsgs (s : State) (id : Nat) (f : Cmd → Cmd) : (modCmd s id f).waitingMsgs = s.waitingMsgs := rfl
@[simp] theorem modCmd_poweredAt (s : State) (id : Nat) (f : Cmd → Cmd) : (modCmd s id f).poweredAt = s.poweredAt := rfl
@[simp] theorem modCmd_refreshAt (s : State) (id : Nat) (f : Cmd → Cmd) : (modCmd s id f).refreshAt = s.refreshAt := rfl
@[simp] theorem modCmd_lastRefresh (s : State) (id : Nat) (f : Cmd → Cmd) : (modCmd s id f).lastRefresh = s.lastRefresh := rfl
@[simp] theorem modCmd_links (s : State) (id : Nat) (f : Cmd → Cmd) : (modCmd s id f).links = s.links := rfl
@[simp] theorem modCmd_switched (s : State) (id : Nat) (f : Cmd → Cmd) : (modCmd s id f).switched = s.switched := rfl
@[simp] theorem modCmd_routes (s : State) (id : Nat) (f : Cmd → Cmd) : (modCmd s id f).routes = s.routes := rfl
@[simp] theorem modCmd_packets (s : State) (id : Nat) (f : Cmd → Cmd) : (modCmd s id f).packets = s.packets := rfl
@[simp] theorem modCmd_seenPackets (s : State) (id : Nat) (f : Cmd → Cmd) : (modCmd s id f).seenPackets = s.seenPackets := rfl
@[simp] theorem modCmd_farWrites (s : State) (id : Nat) (f : Cmd → Cmd) : (modCmd s id f).farWrites = s.farWrites := rfl
@[simp] theorem modCmd_farBars (s : State) (id : Nat) (f : Cmd → Cmd) : (modCmd s id f).farBars = s.farBars := rfl
@[simp] theorem modCmd_farWaits (s : State) (id : Nat) (f : Cmd → Cmd) : (modCmd s id f).farWaits = s.farWaits := rfl
@[simp] theorem modCmd_errors (s : State) (id : Nat) (f : Cmd → Cmd) : (modCmd s id f).errors = s.errors := rfl
@[simp] theorem modCmd_errStart (s : State) (id : Nat) (f : Cmd → Cmd) : (modCmd s id f).errStart = s.errStart := rfl
@[simp] theorem modCmd_errWarned (s : State) (id : Nat) (f : Cmd → Cmd) : (modCmd s id f).errWarned = s.errWarned := rfl
@[simp] theorem modCmd_errThreshold (s : State) (id : Nat) (f : Cmd → Cmd) : (modCmd s id f).errThreshold = s.errThreshold := rfl
@[simp] theorem modCmd_snapshots (s : State) (id : Nat) (f : Cmd → Cmd) : (modCmd s id f).snapshots = s.snapshots := rfl
@[simp] theorem modCmd_warned (s : State) (id : Nat) (f : Cmd → Cmd) : (modCmd s id f).warned = s.warned := rfl
@[simp] theorem modCmd_stored (s : State) (id : Nat) (f : Cmd → Cmd) : (modCmd s id f).stored = s.stored := rfl
@[simp] theorem modCmd_out (s : State) (id : Nat) (f : Cmd → Cmd) : (modCmd s id f).out = s.out := rfl

/-! ### A command removed -/

@[simp] theorem delCmd_pkg (s : State) (id : Nat) : (delCmd s id).pkg = s.pkg := rfl
@[simp] theorem delCmd_incarnation (s : State) (id : Nat) : (delCmd s id).incarnation = s.incarnation := rfl
@[simp] theorem delCmd_up (s : State) (id : Nat) : (delCmd s id).up = s.up := rfl
@[simp] theorem delCmd_identityKey (s : State) (id : Nat) : (delCmd s id).identityKey = s.identityKey := rfl
@[simp] theorem delCmd_now (s : State) (id : Nat) : (delCmd s id).now = s.now := rfl
@[simp] theorem delCmd_fresh (s : State) (id : Nat) : (delCmd s id).fresh = s.fresh := rfl
@[simp] theorem delCmd_ops (s : State) (id : Nat) : (delCmd s id).ops = s.ops := rfl
@[simp] theorem delCmd_todo (s : State) (id : Nat) : (delCmd s id).todo = s.todo := rfl
@[simp] theorem delCmd_timers (s : State) (id : Nat) : (delCmd s id).timers = s.timers := rfl
@[simp] theorem delCmd_cur (s : State) (id : Nat) : (delCmd s id).cur = s.cur := rfl
@[simp] theorem delCmd_curHart (s : State) (id : Nat) : (delCmd s id).curHart = s.curHart := rfl
@[simp] theorem delCmd_undo (s : State) (id : Nat) : (delCmd s id).undo = s.undo := rfl
@[simp] theorem delCmd_hbm (s : State) (id : Nat) : (delCmd s id).hbm = s.hbm := rfl
@[simp] theorem delCmd_full (s : State) (id : Nat) : (delCmd s id).full = s.full := rfl
@[simp] theorem delCmd_fog (s : State) (id : Nat) : (delCmd s id).fog = s.fog := rfl
@[simp] theorem delCmd_veils (s : State) (id : Nat) : (delCmd s id).veils = s.veils := rfl
@[simp] theorem delCmd_cores (s : State) (id : Nat) : (delCmd s id).cores = s.cores := rfl
@[simp] theorem delCmd_slots (s : State) (id : Nat) : (delCmd s id).slots = s.slots := rfl
@[simp] theorem delCmd_tasks (s : State) (id : Nat) : (delCmd s id).tasks = s.tasks := rfl
@[simp] theorem delCmd_regions (s : State) (id : Nat) : (delCmd s id).regions = s.regions := rfl
@[simp] theorem delCmd_cbars (s : State) (id : Nat) : (delCmd s id).cbars = s.cbars := rfl
@[simp] theorem delCmd_dbars (s : State) (id : Nat) : (delCmd s id).dbars = s.dbars := rfl
@[simp] theorem delCmd_cmds (s : State) (id : Nat) : (delCmd s id).cmds = s.cmds.filter fun k => k.id ≠ id := rfl
@[simp] theorem delCmd_engines (s : State) (id : Nat) : (delCmd s id).engines = s.engines := rfl
@[simp] theorem delCmd_asids (s : State) (id : Nat) : (delCmd s id).asids = s.asids := rfl
@[simp] theorem delCmd_sysWaits (s : State) (id : Nat) : (delCmd s id).sysWaits = s.sysWaits := rfl
@[simp] theorem delCmd_raises (s : State) (id : Nat) : (delCmd s id).raises = s.raises := rfl
@[simp] theorem delCmd_frames (s : State) (id : Nat) : (delCmd s id).frames = s.frames := rfl
@[simp] theorem delCmd_keyed (s : State) (id : Nat) : (delCmd s id).keyed = s.keyed := rfl
@[simp] theorem delCmd_rootFrames (s : State) (id : Nat) : (delCmd s id).rootFrames = s.rootFrames := rfl
@[simp] theorem delCmd_spareTables (s : State) (id : Nat) : (delCmd s id).spareTables = s.spareTables := rfl
@[simp] theorem delCmd_freeBlocks (s : State) (id : Nat) : (delCmd s id).freeBlocks = s.freeBlocks := rfl
@[simp] theorem delCmd_freePages (s : State) (id : Nat) : (delCmd s id).freePages = s.freePages := rfl
@[simp] theorem delCmd_freeGbns (s : State) (id : Nat) : (delCmd s id).freeGbns = s.freeGbns := rfl
@[simp] theorem delCmd_tiered (s : State) (id : Nat) : (delCmd s id).tiered = s.tiered := rfl
@[simp] theorem delCmd_gbnBase (s : State) (id : Nat) : (delCmd s id).gbnBase = s.gbnBase := rfl
@[simp] theorem delCmd_keys (s : State) (id : Nat) : (delCmd s id).keys = s.keys := rfl
@[simp] theorem delCmd_known (s : State) (id : Nat) : (delCmd s id).known = s.known := rfl
@[simp] theorem delCmd_probes (s : State) (id : Nat) : (delCmd s id).probes = s.probes := rfl
@[simp] theorem delCmd_unsent (s : State) (id : Nat) : (delCmd s id).unsent = s.unsent := rfl
@[simp] theorem delCmd_remoteAsids (s : State) (id : Nat) : (delCmd s id).remoteAsids = s.remoteAsids := rfl
@[simp] theorem delCmd_dedup (s : State) (id : Nat) : (delCmd s id).dedup = s.dedup := rfl
@[simp] theorem delCmd_parts (s : State) (id : Nat) : (delCmd s id).parts = s.parts := rfl
@[simp] theorem delCmd_partOps (s : State) (id : Nat) : (delCmd s id).partOps = s.partOps := rfl
@[simp] theorem delCmd_pieces (s : State) (id : Nat) : (delCmd s id).pieces = s.pieces := rfl
@[simp] theorem delCmd_log (s : State) (id : Nat) : (delCmd s id).log = s.log := rfl
@[simp] theorem delCmd_views (s : State) (id : Nat) : (delCmd s id).views = s.views := rfl
@[simp] theorem delCmd_pubs (s : State) (id : Nat) : (delCmd s id).pubs = s.pubs := rfl
@[simp] theorem delCmd_seqs (s : State) (id : Nat) : (delCmd s id).seqs = s.seqs := rfl
@[simp] theorem delCmd_segments (s : State) (id : Nat) : (delCmd s id).segments = s.segments := rfl
@[simp] theorem delCmd_pewter (s : State) (id : Nat) : (delCmd s id).pewter = s.pewter := rfl
@[simp] theorem delCmd_map (s : State) (id : Nat) : (delCmd s id).map = s.map := rfl
@[simp] theorem delCmd_mapHolders (s : State) (id : Nat) : (delCmd s id).mapHolders = s.mapHolders := rfl
@[simp] theorem delCmd_trees (s : State) (id : Nat) : (delCmd s id).trees = s.trees := rfl
@[simp] theorem delCmd_prefixes (s : State) (id : Nat) : (delCmd s id).prefixes = s.prefixes := rfl
@[simp] theorem delCmd_queries (s : State) (id : Nat) : (delCmd s id).queries = s.queries := rfl
@[simp] theorem delCmd_nodes (s : State) (id : Nat) : (delCmd s id).nodes = s.nodes := rfl
@[simp] theorem delCmd_moves (s : State) (id : Nat) : (delCmd s id).moves = s.moves := rfl
@[simp] theorem delCmd_reserved (s : State) (id : Nat) : (delCmd s id).reserved = s.reserved := rfl
@[simp] theorem delCmd_sequence (s : State) (id : Nat) : (delCmd s id).sequence = s.sequence := rfl
@[simp] theorem delCmd_hostA (s : State) (id : Nat) : (delCmd s id).hostA = s.hostA := rfl
@[simp] theorem delCmd_devSeq (s : State) (id : Nat) : (delCmd s id).devSeq = s.devSeq := rfl
@[simp] theorem delCmd_retained (s : State) (id : Nat) : (delCmd s id).retained = s.retained := rfl
@[simp] theorem delCmd_responses (s : State) (id : Nat) : (delCmd s id).responses = s.responses := rfl
@[simp] theorem delCmd_dlost (s : State) (id : Nat) : (delCmd s id).dlost = s.dlost := rfl
@[simp] theorem delCmd_control (s : State) (id : Nat) : (delCmd s id).control = s.control := rfl
@[simp] theorem delCmd_qps (s : State) (id : Nat) : (delCmd s id).qps = s.qps := rfl
@[simp] theorem delCmd_paused (s : State) (id : Nat) : (delCmd s id).paused = s.paused := rfl
@[simp] theorem delCmd_slowed (s : State) (id : Nat) : (delCmd s id).slowed = s.slowed := rfl
@[simp] theorem delCmd_portQueue (s : State) (id : Nat) : (delCmd s id).portQueue = s.portQueue := rfl
@[simp] theorem delCmd_pfc (s : State) (id : Nat) : (delCmd s id).pfc = s.pfc := rfl
@[simp] theorem delCmd_launching (s : State) (id : Nat) : (delCmd s id).launching = s.launching := rfl
@[simp] theorem delCmd_waitingMsgs (s : State) (id : Nat) : (delCmd s id).waitingMsgs = s.waitingMsgs := rfl
@[simp] theorem delCmd_poweredAt (s : State) (id : Nat) : (delCmd s id).poweredAt = s.poweredAt := rfl
@[simp] theorem delCmd_refreshAt (s : State) (id : Nat) : (delCmd s id).refreshAt = s.refreshAt := rfl
@[simp] theorem delCmd_lastRefresh (s : State) (id : Nat) : (delCmd s id).lastRefresh = s.lastRefresh := rfl
@[simp] theorem delCmd_links (s : State) (id : Nat) : (delCmd s id).links = s.links := rfl
@[simp] theorem delCmd_switched (s : State) (id : Nat) : (delCmd s id).switched = s.switched := rfl
@[simp] theorem delCmd_routes (s : State) (id : Nat) : (delCmd s id).routes = s.routes := rfl
@[simp] theorem delCmd_packets (s : State) (id : Nat) : (delCmd s id).packets = s.packets := rfl
@[simp] theorem delCmd_seenPackets (s : State) (id : Nat) : (delCmd s id).seenPackets = s.seenPackets := rfl
@[simp] theorem delCmd_farWrites (s : State) (id : Nat) : (delCmd s id).farWrites = s.farWrites := rfl
@[simp] theorem delCmd_farBars (s : State) (id : Nat) : (delCmd s id).farBars = s.farBars := rfl
@[simp] theorem delCmd_farWaits (s : State) (id : Nat) : (delCmd s id).farWaits = s.farWaits := rfl
@[simp] theorem delCmd_errors (s : State) (id : Nat) : (delCmd s id).errors = s.errors := rfl
@[simp] theorem delCmd_errStart (s : State) (id : Nat) : (delCmd s id).errStart = s.errStart := rfl
@[simp] theorem delCmd_errWarned (s : State) (id : Nat) : (delCmd s id).errWarned = s.errWarned := rfl
@[simp] theorem delCmd_errThreshold (s : State) (id : Nat) : (delCmd s id).errThreshold = s.errThreshold := rfl
@[simp] theorem delCmd_snapshots (s : State) (id : Nat) : (delCmd s id).snapshots = s.snapshots := rfl
@[simp] theorem delCmd_warned (s : State) (id : Nat) : (delCmd s id).warned = s.warned := rfl
@[simp] theorem delCmd_stored (s : State) (id : Nat) : (delCmd s id).stored = s.stored := rfl
@[simp] theorem delCmd_out (s : State) (id : Nat) : (delCmd s id).out = s.out := rfl

/-! ### An event set for a cycle -/

@[simp] theorem addTimer_pkg (s : State) (d : Nat) (i : Instr) : (addTimer s d i).pkg = s.pkg := rfl
@[simp] theorem addTimer_incarnation (s : State) (d : Nat) (i : Instr) : (addTimer s d i).incarnation = s.incarnation := rfl
@[simp] theorem addTimer_up (s : State) (d : Nat) (i : Instr) : (addTimer s d i).up = s.up := rfl
@[simp] theorem addTimer_identityKey (s : State) (d : Nat) (i : Instr) : (addTimer s d i).identityKey = s.identityKey := rfl
@[simp] theorem addTimer_now (s : State) (d : Nat) (i : Instr) : (addTimer s d i).now = s.now := rfl
@[simp] theorem addTimer_fresh (s : State) (d : Nat) (i : Instr) : (addTimer s d i).fresh = s.fresh := rfl
@[simp] theorem addTimer_ops (s : State) (d : Nat) (i : Instr) : (addTimer s d i).ops = s.ops := rfl
@[simp] theorem addTimer_todo (s : State) (d : Nat) (i : Instr) : (addTimer s d i).todo = s.todo := rfl
@[simp] theorem addTimer_timers (s : State) (d : Nat) (i : Instr) : (addTimer s d i).timers = s.timers ++ [(d, i)] := rfl
@[simp] theorem addTimer_cur (s : State) (d : Nat) (i : Instr) : (addTimer s d i).cur = s.cur := rfl
@[simp] theorem addTimer_curHart (s : State) (d : Nat) (i : Instr) : (addTimer s d i).curHart = s.curHart := rfl
@[simp] theorem addTimer_undo (s : State) (d : Nat) (i : Instr) : (addTimer s d i).undo = s.undo := rfl
@[simp] theorem addTimer_hbm (s : State) (d : Nat) (i : Instr) : (addTimer s d i).hbm = s.hbm := rfl
@[simp] theorem addTimer_full (s : State) (d : Nat) (i : Instr) : (addTimer s d i).full = s.full := rfl
@[simp] theorem addTimer_fog (s : State) (d : Nat) (i : Instr) : (addTimer s d i).fog = s.fog := rfl
@[simp] theorem addTimer_veils (s : State) (d : Nat) (i : Instr) : (addTimer s d i).veils = s.veils := rfl
@[simp] theorem addTimer_cores (s : State) (d : Nat) (i : Instr) : (addTimer s d i).cores = s.cores := rfl
@[simp] theorem addTimer_slots (s : State) (d : Nat) (i : Instr) : (addTimer s d i).slots = s.slots := rfl
@[simp] theorem addTimer_tasks (s : State) (d : Nat) (i : Instr) : (addTimer s d i).tasks = s.tasks := rfl
@[simp] theorem addTimer_regions (s : State) (d : Nat) (i : Instr) : (addTimer s d i).regions = s.regions := rfl
@[simp] theorem addTimer_cbars (s : State) (d : Nat) (i : Instr) : (addTimer s d i).cbars = s.cbars := rfl
@[simp] theorem addTimer_dbars (s : State) (d : Nat) (i : Instr) : (addTimer s d i).dbars = s.dbars := rfl
@[simp] theorem addTimer_cmds (s : State) (d : Nat) (i : Instr) : (addTimer s d i).cmds = s.cmds := rfl
@[simp] theorem addTimer_engines (s : State) (d : Nat) (i : Instr) : (addTimer s d i).engines = s.engines := rfl
@[simp] theorem addTimer_asids (s : State) (d : Nat) (i : Instr) : (addTimer s d i).asids = s.asids := rfl
@[simp] theorem addTimer_sysWaits (s : State) (d : Nat) (i : Instr) : (addTimer s d i).sysWaits = s.sysWaits := rfl
@[simp] theorem addTimer_raises (s : State) (d : Nat) (i : Instr) : (addTimer s d i).raises = s.raises := rfl
@[simp] theorem addTimer_frames (s : State) (d : Nat) (i : Instr) : (addTimer s d i).frames = s.frames := rfl
@[simp] theorem addTimer_keyed (s : State) (d : Nat) (i : Instr) : (addTimer s d i).keyed = s.keyed := rfl
@[simp] theorem addTimer_rootFrames (s : State) (d : Nat) (i : Instr) : (addTimer s d i).rootFrames = s.rootFrames := rfl
@[simp] theorem addTimer_spareTables (s : State) (d : Nat) (i : Instr) : (addTimer s d i).spareTables = s.spareTables := rfl
@[simp] theorem addTimer_freeBlocks (s : State) (d : Nat) (i : Instr) : (addTimer s d i).freeBlocks = s.freeBlocks := rfl
@[simp] theorem addTimer_freePages (s : State) (d : Nat) (i : Instr) : (addTimer s d i).freePages = s.freePages := rfl
@[simp] theorem addTimer_freeGbns (s : State) (d : Nat) (i : Instr) : (addTimer s d i).freeGbns = s.freeGbns := rfl
@[simp] theorem addTimer_tiered (s : State) (d : Nat) (i : Instr) : (addTimer s d i).tiered = s.tiered := rfl
@[simp] theorem addTimer_gbnBase (s : State) (d : Nat) (i : Instr) : (addTimer s d i).gbnBase = s.gbnBase := rfl
@[simp] theorem addTimer_keys (s : State) (d : Nat) (i : Instr) : (addTimer s d i).keys = s.keys := rfl
@[simp] theorem addTimer_known (s : State) (d : Nat) (i : Instr) : (addTimer s d i).known = s.known := rfl
@[simp] theorem addTimer_probes (s : State) (d : Nat) (i : Instr) : (addTimer s d i).probes = s.probes := rfl
@[simp] theorem addTimer_unsent (s : State) (d : Nat) (i : Instr) : (addTimer s d i).unsent = s.unsent := rfl
@[simp] theorem addTimer_remoteAsids (s : State) (d : Nat) (i : Instr) : (addTimer s d i).remoteAsids = s.remoteAsids := rfl
@[simp] theorem addTimer_dedup (s : State) (d : Nat) (i : Instr) : (addTimer s d i).dedup = s.dedup := rfl
@[simp] theorem addTimer_parts (s : State) (d : Nat) (i : Instr) : (addTimer s d i).parts = s.parts := rfl
@[simp] theorem addTimer_partOps (s : State) (d : Nat) (i : Instr) : (addTimer s d i).partOps = s.partOps := rfl
@[simp] theorem addTimer_pieces (s : State) (d : Nat) (i : Instr) : (addTimer s d i).pieces = s.pieces := rfl
@[simp] theorem addTimer_log (s : State) (d : Nat) (i : Instr) : (addTimer s d i).log = s.log := rfl
@[simp] theorem addTimer_views (s : State) (d : Nat) (i : Instr) : (addTimer s d i).views = s.views := rfl
@[simp] theorem addTimer_pubs (s : State) (d : Nat) (i : Instr) : (addTimer s d i).pubs = s.pubs := rfl
@[simp] theorem addTimer_seqs (s : State) (d : Nat) (i : Instr) : (addTimer s d i).seqs = s.seqs := rfl
@[simp] theorem addTimer_segments (s : State) (d : Nat) (i : Instr) : (addTimer s d i).segments = s.segments := rfl
@[simp] theorem addTimer_pewter (s : State) (d : Nat) (i : Instr) : (addTimer s d i).pewter = s.pewter := rfl
@[simp] theorem addTimer_map (s : State) (d : Nat) (i : Instr) : (addTimer s d i).map = s.map := rfl
@[simp] theorem addTimer_mapHolders (s : State) (d : Nat) (i : Instr) : (addTimer s d i).mapHolders = s.mapHolders := rfl
@[simp] theorem addTimer_trees (s : State) (d : Nat) (i : Instr) : (addTimer s d i).trees = s.trees := rfl
@[simp] theorem addTimer_prefixes (s : State) (d : Nat) (i : Instr) : (addTimer s d i).prefixes = s.prefixes := rfl
@[simp] theorem addTimer_queries (s : State) (d : Nat) (i : Instr) : (addTimer s d i).queries = s.queries := rfl
@[simp] theorem addTimer_nodes (s : State) (d : Nat) (i : Instr) : (addTimer s d i).nodes = s.nodes := rfl
@[simp] theorem addTimer_moves (s : State) (d : Nat) (i : Instr) : (addTimer s d i).moves = s.moves := rfl
@[simp] theorem addTimer_reserved (s : State) (d : Nat) (i : Instr) : (addTimer s d i).reserved = s.reserved := rfl
@[simp] theorem addTimer_sequence (s : State) (d : Nat) (i : Instr) : (addTimer s d i).sequence = s.sequence := rfl
@[simp] theorem addTimer_hostA (s : State) (d : Nat) (i : Instr) : (addTimer s d i).hostA = s.hostA := rfl
@[simp] theorem addTimer_devSeq (s : State) (d : Nat) (i : Instr) : (addTimer s d i).devSeq = s.devSeq := rfl
@[simp] theorem addTimer_retained (s : State) (d : Nat) (i : Instr) : (addTimer s d i).retained = s.retained := rfl
@[simp] theorem addTimer_responses (s : State) (d : Nat) (i : Instr) : (addTimer s d i).responses = s.responses := rfl
@[simp] theorem addTimer_dlost (s : State) (d : Nat) (i : Instr) : (addTimer s d i).dlost = s.dlost := rfl
@[simp] theorem addTimer_control (s : State) (d : Nat) (i : Instr) : (addTimer s d i).control = s.control := rfl
@[simp] theorem addTimer_qps (s : State) (d : Nat) (i : Instr) : (addTimer s d i).qps = s.qps := rfl
@[simp] theorem addTimer_paused (s : State) (d : Nat) (i : Instr) : (addTimer s d i).paused = s.paused := rfl
@[simp] theorem addTimer_slowed (s : State) (d : Nat) (i : Instr) : (addTimer s d i).slowed = s.slowed := rfl
@[simp] theorem addTimer_portQueue (s : State) (d : Nat) (i : Instr) : (addTimer s d i).portQueue = s.portQueue := rfl
@[simp] theorem addTimer_pfc (s : State) (d : Nat) (i : Instr) : (addTimer s d i).pfc = s.pfc := rfl
@[simp] theorem addTimer_launching (s : State) (d : Nat) (i : Instr) : (addTimer s d i).launching = s.launching := rfl
@[simp] theorem addTimer_waitingMsgs (s : State) (d : Nat) (i : Instr) : (addTimer s d i).waitingMsgs = s.waitingMsgs := rfl
@[simp] theorem addTimer_poweredAt (s : State) (d : Nat) (i : Instr) : (addTimer s d i).poweredAt = s.poweredAt := rfl
@[simp] theorem addTimer_refreshAt (s : State) (d : Nat) (i : Instr) : (addTimer s d i).refreshAt = s.refreshAt := rfl
@[simp] theorem addTimer_lastRefresh (s : State) (d : Nat) (i : Instr) : (addTimer s d i).lastRefresh = s.lastRefresh := rfl
@[simp] theorem addTimer_links (s : State) (d : Nat) (i : Instr) : (addTimer s d i).links = s.links := rfl
@[simp] theorem addTimer_switched (s : State) (d : Nat) (i : Instr) : (addTimer s d i).switched = s.switched := rfl
@[simp] theorem addTimer_routes (s : State) (d : Nat) (i : Instr) : (addTimer s d i).routes = s.routes := rfl
@[simp] theorem addTimer_packets (s : State) (d : Nat) (i : Instr) : (addTimer s d i).packets = s.packets := rfl
@[simp] theorem addTimer_seenPackets (s : State) (d : Nat) (i : Instr) : (addTimer s d i).seenPackets = s.seenPackets := rfl
@[simp] theorem addTimer_farWrites (s : State) (d : Nat) (i : Instr) : (addTimer s d i).farWrites = s.farWrites := rfl
@[simp] theorem addTimer_farBars (s : State) (d : Nat) (i : Instr) : (addTimer s d i).farBars = s.farBars := rfl
@[simp] theorem addTimer_farWaits (s : State) (d : Nat) (i : Instr) : (addTimer s d i).farWaits = s.farWaits := rfl
@[simp] theorem addTimer_errors (s : State) (d : Nat) (i : Instr) : (addTimer s d i).errors = s.errors := rfl
@[simp] theorem addTimer_errStart (s : State) (d : Nat) (i : Instr) : (addTimer s d i).errStart = s.errStart := rfl
@[simp] theorem addTimer_errWarned (s : State) (d : Nat) (i : Instr) : (addTimer s d i).errWarned = s.errWarned := rfl
@[simp] theorem addTimer_errThreshold (s : State) (d : Nat) (i : Instr) : (addTimer s d i).errThreshold = s.errThreshold := rfl
@[simp] theorem addTimer_snapshots (s : State) (d : Nat) (i : Instr) : (addTimer s d i).snapshots = s.snapshots := rfl
@[simp] theorem addTimer_warned (s : State) (d : Nat) (i : Instr) : (addTimer s d i).warned = s.warned := rfl
@[simp] theorem addTimer_stored (s : State) (d : Nat) (i : Instr) : (addTimer s d i).stored = s.stored := rfl
@[simp] theorem addTimer_out (s : State) (d : Nat) (i : Instr) : (addTimer s d i).out = s.out := rfl

/-! ### An event set for an open cycle -/

@[simp] theorem addFreeTimer_pkg (s : State) (i : Instr) : (addFreeTimer s i).pkg = s.pkg := rfl
@[simp] theorem addFreeTimer_incarnation (s : State) (i : Instr) : (addFreeTimer s i).incarnation = s.incarnation := rfl
@[simp] theorem addFreeTimer_up (s : State) (i : Instr) : (addFreeTimer s i).up = s.up := rfl
@[simp] theorem addFreeTimer_identityKey (s : State) (i : Instr) : (addFreeTimer s i).identityKey = s.identityKey := rfl
@[simp] theorem addFreeTimer_now (s : State) (i : Instr) : (addFreeTimer s i).now = s.now := rfl
@[simp] theorem addFreeTimer_fresh (s : State) (i : Instr) : (addFreeTimer s i).fresh = s.fresh + 1 := rfl
@[simp] theorem addFreeTimer_ops (s : State) (i : Instr) : (addFreeTimer s i).ops = s.ops := rfl
@[simp] theorem addFreeTimer_todo (s : State) (i : Instr) : (addFreeTimer s i).todo = s.todo := rfl
@[simp] theorem addFreeTimer_timers (s : State) (i : Instr) : (addFreeTimer s i).timers = s.timers ++ [(s.now + 1 + Config.freeDuration s.fresh, i)] := rfl
@[simp] theorem addFreeTimer_cur (s : State) (i : Instr) : (addFreeTimer s i).cur = s.cur := rfl
@[simp] theorem addFreeTimer_curHart (s : State) (i : Instr) : (addFreeTimer s i).curHart = s.curHart := rfl
@[simp] theorem addFreeTimer_undo (s : State) (i : Instr) : (addFreeTimer s i).undo = s.undo := rfl
@[simp] theorem addFreeTimer_hbm (s : State) (i : Instr) : (addFreeTimer s i).hbm = s.hbm := rfl
@[simp] theorem addFreeTimer_full (s : State) (i : Instr) : (addFreeTimer s i).full = s.full := rfl
@[simp] theorem addFreeTimer_fog (s : State) (i : Instr) : (addFreeTimer s i).fog = s.fog := rfl
@[simp] theorem addFreeTimer_veils (s : State) (i : Instr) : (addFreeTimer s i).veils = s.veils := rfl
@[simp] theorem addFreeTimer_cores (s : State) (i : Instr) : (addFreeTimer s i).cores = s.cores := rfl
@[simp] theorem addFreeTimer_slots (s : State) (i : Instr) : (addFreeTimer s i).slots = s.slots := rfl
@[simp] theorem addFreeTimer_tasks (s : State) (i : Instr) : (addFreeTimer s i).tasks = s.tasks := rfl
@[simp] theorem addFreeTimer_regions (s : State) (i : Instr) : (addFreeTimer s i).regions = s.regions := rfl
@[simp] theorem addFreeTimer_cbars (s : State) (i : Instr) : (addFreeTimer s i).cbars = s.cbars := rfl
@[simp] theorem addFreeTimer_dbars (s : State) (i : Instr) : (addFreeTimer s i).dbars = s.dbars := rfl
@[simp] theorem addFreeTimer_cmds (s : State) (i : Instr) : (addFreeTimer s i).cmds = s.cmds := rfl
@[simp] theorem addFreeTimer_engines (s : State) (i : Instr) : (addFreeTimer s i).engines = s.engines := rfl
@[simp] theorem addFreeTimer_asids (s : State) (i : Instr) : (addFreeTimer s i).asids = s.asids := rfl
@[simp] theorem addFreeTimer_sysWaits (s : State) (i : Instr) : (addFreeTimer s i).sysWaits = s.sysWaits := rfl
@[simp] theorem addFreeTimer_raises (s : State) (i : Instr) : (addFreeTimer s i).raises = s.raises := rfl
@[simp] theorem addFreeTimer_frames (s : State) (i : Instr) : (addFreeTimer s i).frames = s.frames := rfl
@[simp] theorem addFreeTimer_keyed (s : State) (i : Instr) : (addFreeTimer s i).keyed = s.keyed := rfl
@[simp] theorem addFreeTimer_rootFrames (s : State) (i : Instr) : (addFreeTimer s i).rootFrames = s.rootFrames := rfl
@[simp] theorem addFreeTimer_spareTables (s : State) (i : Instr) : (addFreeTimer s i).spareTables = s.spareTables := rfl
@[simp] theorem addFreeTimer_freeBlocks (s : State) (i : Instr) : (addFreeTimer s i).freeBlocks = s.freeBlocks := rfl
@[simp] theorem addFreeTimer_freePages (s : State) (i : Instr) : (addFreeTimer s i).freePages = s.freePages := rfl
@[simp] theorem addFreeTimer_freeGbns (s : State) (i : Instr) : (addFreeTimer s i).freeGbns = s.freeGbns := rfl
@[simp] theorem addFreeTimer_tiered (s : State) (i : Instr) : (addFreeTimer s i).tiered = s.tiered := rfl
@[simp] theorem addFreeTimer_gbnBase (s : State) (i : Instr) : (addFreeTimer s i).gbnBase = s.gbnBase := rfl
@[simp] theorem addFreeTimer_keys (s : State) (i : Instr) : (addFreeTimer s i).keys = s.keys := rfl
@[simp] theorem addFreeTimer_known (s : State) (i : Instr) : (addFreeTimer s i).known = s.known := rfl
@[simp] theorem addFreeTimer_probes (s : State) (i : Instr) : (addFreeTimer s i).probes = s.probes := rfl
@[simp] theorem addFreeTimer_unsent (s : State) (i : Instr) : (addFreeTimer s i).unsent = s.unsent := rfl
@[simp] theorem addFreeTimer_remoteAsids (s : State) (i : Instr) : (addFreeTimer s i).remoteAsids = s.remoteAsids := rfl
@[simp] theorem addFreeTimer_dedup (s : State) (i : Instr) : (addFreeTimer s i).dedup = s.dedup := rfl
@[simp] theorem addFreeTimer_parts (s : State) (i : Instr) : (addFreeTimer s i).parts = s.parts := rfl
@[simp] theorem addFreeTimer_partOps (s : State) (i : Instr) : (addFreeTimer s i).partOps = s.partOps := rfl
@[simp] theorem addFreeTimer_pieces (s : State) (i : Instr) : (addFreeTimer s i).pieces = s.pieces := rfl
@[simp] theorem addFreeTimer_log (s : State) (i : Instr) : (addFreeTimer s i).log = s.log := rfl
@[simp] theorem addFreeTimer_views (s : State) (i : Instr) : (addFreeTimer s i).views = s.views := rfl
@[simp] theorem addFreeTimer_pubs (s : State) (i : Instr) : (addFreeTimer s i).pubs = s.pubs := rfl
@[simp] theorem addFreeTimer_seqs (s : State) (i : Instr) : (addFreeTimer s i).seqs = s.seqs := rfl
@[simp] theorem addFreeTimer_segments (s : State) (i : Instr) : (addFreeTimer s i).segments = s.segments := rfl
@[simp] theorem addFreeTimer_pewter (s : State) (i : Instr) : (addFreeTimer s i).pewter = s.pewter := rfl
@[simp] theorem addFreeTimer_map (s : State) (i : Instr) : (addFreeTimer s i).map = s.map := rfl
@[simp] theorem addFreeTimer_mapHolders (s : State) (i : Instr) : (addFreeTimer s i).mapHolders = s.mapHolders := rfl
@[simp] theorem addFreeTimer_trees (s : State) (i : Instr) : (addFreeTimer s i).trees = s.trees := rfl
@[simp] theorem addFreeTimer_prefixes (s : State) (i : Instr) : (addFreeTimer s i).prefixes = s.prefixes := rfl
@[simp] theorem addFreeTimer_queries (s : State) (i : Instr) : (addFreeTimer s i).queries = s.queries := rfl
@[simp] theorem addFreeTimer_nodes (s : State) (i : Instr) : (addFreeTimer s i).nodes = s.nodes := rfl
@[simp] theorem addFreeTimer_moves (s : State) (i : Instr) : (addFreeTimer s i).moves = s.moves := rfl
@[simp] theorem addFreeTimer_reserved (s : State) (i : Instr) : (addFreeTimer s i).reserved = s.reserved := rfl
@[simp] theorem addFreeTimer_sequence (s : State) (i : Instr) : (addFreeTimer s i).sequence = s.sequence := rfl
@[simp] theorem addFreeTimer_hostA (s : State) (i : Instr) : (addFreeTimer s i).hostA = s.hostA := rfl
@[simp] theorem addFreeTimer_devSeq (s : State) (i : Instr) : (addFreeTimer s i).devSeq = s.devSeq := rfl
@[simp] theorem addFreeTimer_retained (s : State) (i : Instr) : (addFreeTimer s i).retained = s.retained := rfl
@[simp] theorem addFreeTimer_responses (s : State) (i : Instr) : (addFreeTimer s i).responses = s.responses := rfl
@[simp] theorem addFreeTimer_dlost (s : State) (i : Instr) : (addFreeTimer s i).dlost = s.dlost := rfl
@[simp] theorem addFreeTimer_control (s : State) (i : Instr) : (addFreeTimer s i).control = s.control := rfl
@[simp] theorem addFreeTimer_qps (s : State) (i : Instr) : (addFreeTimer s i).qps = s.qps := rfl
@[simp] theorem addFreeTimer_paused (s : State) (i : Instr) : (addFreeTimer s i).paused = s.paused := rfl
@[simp] theorem addFreeTimer_slowed (s : State) (i : Instr) : (addFreeTimer s i).slowed = s.slowed := rfl
@[simp] theorem addFreeTimer_portQueue (s : State) (i : Instr) : (addFreeTimer s i).portQueue = s.portQueue := rfl
@[simp] theorem addFreeTimer_pfc (s : State) (i : Instr) : (addFreeTimer s i).pfc = s.pfc := rfl
@[simp] theorem addFreeTimer_launching (s : State) (i : Instr) : (addFreeTimer s i).launching = s.launching := rfl
@[simp] theorem addFreeTimer_waitingMsgs (s : State) (i : Instr) : (addFreeTimer s i).waitingMsgs = s.waitingMsgs := rfl
@[simp] theorem addFreeTimer_poweredAt (s : State) (i : Instr) : (addFreeTimer s i).poweredAt = s.poweredAt := rfl
@[simp] theorem addFreeTimer_refreshAt (s : State) (i : Instr) : (addFreeTimer s i).refreshAt = s.refreshAt := rfl
@[simp] theorem addFreeTimer_lastRefresh (s : State) (i : Instr) : (addFreeTimer s i).lastRefresh = s.lastRefresh := rfl
@[simp] theorem addFreeTimer_links (s : State) (i : Instr) : (addFreeTimer s i).links = s.links := rfl
@[simp] theorem addFreeTimer_switched (s : State) (i : Instr) : (addFreeTimer s i).switched = s.switched := rfl
@[simp] theorem addFreeTimer_routes (s : State) (i : Instr) : (addFreeTimer s i).routes = s.routes := rfl
@[simp] theorem addFreeTimer_packets (s : State) (i : Instr) : (addFreeTimer s i).packets = s.packets := rfl
@[simp] theorem addFreeTimer_seenPackets (s : State) (i : Instr) : (addFreeTimer s i).seenPackets = s.seenPackets := rfl
@[simp] theorem addFreeTimer_farWrites (s : State) (i : Instr) : (addFreeTimer s i).farWrites = s.farWrites := rfl
@[simp] theorem addFreeTimer_farBars (s : State) (i : Instr) : (addFreeTimer s i).farBars = s.farBars := rfl
@[simp] theorem addFreeTimer_farWaits (s : State) (i : Instr) : (addFreeTimer s i).farWaits = s.farWaits := rfl
@[simp] theorem addFreeTimer_errors (s : State) (i : Instr) : (addFreeTimer s i).errors = s.errors := rfl
@[simp] theorem addFreeTimer_errStart (s : State) (i : Instr) : (addFreeTimer s i).errStart = s.errStart := rfl
@[simp] theorem addFreeTimer_errWarned (s : State) (i : Instr) : (addFreeTimer s i).errWarned = s.errWarned := rfl
@[simp] theorem addFreeTimer_errThreshold (s : State) (i : Instr) : (addFreeTimer s i).errThreshold = s.errThreshold := rfl
@[simp] theorem addFreeTimer_snapshots (s : State) (i : Instr) : (addFreeTimer s i).snapshots = s.snapshots := rfl
@[simp] theorem addFreeTimer_warned (s : State) (i : Instr) : (addFreeTimer s i).warned = s.warned := rfl
@[simp] theorem addFreeTimer_stored (s : State) (i : Instr) : (addFreeTimer s i).stored = s.stored := rfl
@[simp] theorem addFreeTimer_out (s : State) (i : Instr) : (addFreeTimer s i).out = s.out := rfl

/-! ### A turn in this cycle -/

@[simp] theorem addTurn_pkg (s : State) (i : Instr) : (addTurn s i).pkg = s.pkg := rfl
@[simp] theorem addTurn_incarnation (s : State) (i : Instr) : (addTurn s i).incarnation = s.incarnation := rfl
@[simp] theorem addTurn_up (s : State) (i : Instr) : (addTurn s i).up = s.up := rfl
@[simp] theorem addTurn_identityKey (s : State) (i : Instr) : (addTurn s i).identityKey = s.identityKey := rfl
@[simp] theorem addTurn_now (s : State) (i : Instr) : (addTurn s i).now = s.now := rfl
@[simp] theorem addTurn_fresh (s : State) (i : Instr) : (addTurn s i).fresh = s.fresh := rfl
@[simp] theorem addTurn_ops (s : State) (i : Instr) : (addTurn s i).ops = s.ops := rfl
@[simp] theorem addTurn_todo (s : State) (i : Instr) : (addTurn s i).todo = s.todo ++ [.inl i] := rfl
@[simp] theorem addTurn_timers (s : State) (i : Instr) : (addTurn s i).timers = s.timers := rfl
@[simp] theorem addTurn_cur (s : State) (i : Instr) : (addTurn s i).cur = s.cur := rfl
@[simp] theorem addTurn_curHart (s : State) (i : Instr) : (addTurn s i).curHart = s.curHart := rfl
@[simp] theorem addTurn_undo (s : State) (i : Instr) : (addTurn s i).undo = s.undo := rfl
@[simp] theorem addTurn_hbm (s : State) (i : Instr) : (addTurn s i).hbm = s.hbm := rfl
@[simp] theorem addTurn_full (s : State) (i : Instr) : (addTurn s i).full = s.full := rfl
@[simp] theorem addTurn_fog (s : State) (i : Instr) : (addTurn s i).fog = s.fog := rfl
@[simp] theorem addTurn_veils (s : State) (i : Instr) : (addTurn s i).veils = s.veils := rfl
@[simp] theorem addTurn_cores (s : State) (i : Instr) : (addTurn s i).cores = s.cores := rfl
@[simp] theorem addTurn_slots (s : State) (i : Instr) : (addTurn s i).slots = s.slots := rfl
@[simp] theorem addTurn_tasks (s : State) (i : Instr) : (addTurn s i).tasks = s.tasks := rfl
@[simp] theorem addTurn_regions (s : State) (i : Instr) : (addTurn s i).regions = s.regions := rfl
@[simp] theorem addTurn_cbars (s : State) (i : Instr) : (addTurn s i).cbars = s.cbars := rfl
@[simp] theorem addTurn_dbars (s : State) (i : Instr) : (addTurn s i).dbars = s.dbars := rfl
@[simp] theorem addTurn_cmds (s : State) (i : Instr) : (addTurn s i).cmds = s.cmds := rfl
@[simp] theorem addTurn_engines (s : State) (i : Instr) : (addTurn s i).engines = s.engines := rfl
@[simp] theorem addTurn_asids (s : State) (i : Instr) : (addTurn s i).asids = s.asids := rfl
@[simp] theorem addTurn_sysWaits (s : State) (i : Instr) : (addTurn s i).sysWaits = s.sysWaits := rfl
@[simp] theorem addTurn_raises (s : State) (i : Instr) : (addTurn s i).raises = s.raises := rfl
@[simp] theorem addTurn_frames (s : State) (i : Instr) : (addTurn s i).frames = s.frames := rfl
@[simp] theorem addTurn_keyed (s : State) (i : Instr) : (addTurn s i).keyed = s.keyed := rfl
@[simp] theorem addTurn_rootFrames (s : State) (i : Instr) : (addTurn s i).rootFrames = s.rootFrames := rfl
@[simp] theorem addTurn_spareTables (s : State) (i : Instr) : (addTurn s i).spareTables = s.spareTables := rfl
@[simp] theorem addTurn_freeBlocks (s : State) (i : Instr) : (addTurn s i).freeBlocks = s.freeBlocks := rfl
@[simp] theorem addTurn_freePages (s : State) (i : Instr) : (addTurn s i).freePages = s.freePages := rfl
@[simp] theorem addTurn_freeGbns (s : State) (i : Instr) : (addTurn s i).freeGbns = s.freeGbns := rfl
@[simp] theorem addTurn_tiered (s : State) (i : Instr) : (addTurn s i).tiered = s.tiered := rfl
@[simp] theorem addTurn_gbnBase (s : State) (i : Instr) : (addTurn s i).gbnBase = s.gbnBase := rfl
@[simp] theorem addTurn_keys (s : State) (i : Instr) : (addTurn s i).keys = s.keys := rfl
@[simp] theorem addTurn_known (s : State) (i : Instr) : (addTurn s i).known = s.known := rfl
@[simp] theorem addTurn_probes (s : State) (i : Instr) : (addTurn s i).probes = s.probes := rfl
@[simp] theorem addTurn_unsent (s : State) (i : Instr) : (addTurn s i).unsent = s.unsent := rfl
@[simp] theorem addTurn_remoteAsids (s : State) (i : Instr) : (addTurn s i).remoteAsids = s.remoteAsids := rfl
@[simp] theorem addTurn_dedup (s : State) (i : Instr) : (addTurn s i).dedup = s.dedup := rfl
@[simp] theorem addTurn_parts (s : State) (i : Instr) : (addTurn s i).parts = s.parts := rfl
@[simp] theorem addTurn_partOps (s : State) (i : Instr) : (addTurn s i).partOps = s.partOps := rfl
@[simp] theorem addTurn_pieces (s : State) (i : Instr) : (addTurn s i).pieces = s.pieces := rfl
@[simp] theorem addTurn_log (s : State) (i : Instr) : (addTurn s i).log = s.log := rfl
@[simp] theorem addTurn_views (s : State) (i : Instr) : (addTurn s i).views = s.views := rfl
@[simp] theorem addTurn_pubs (s : State) (i : Instr) : (addTurn s i).pubs = s.pubs := rfl
@[simp] theorem addTurn_seqs (s : State) (i : Instr) : (addTurn s i).seqs = s.seqs := rfl
@[simp] theorem addTurn_segments (s : State) (i : Instr) : (addTurn s i).segments = s.segments := rfl
@[simp] theorem addTurn_pewter (s : State) (i : Instr) : (addTurn s i).pewter = s.pewter := rfl
@[simp] theorem addTurn_map (s : State) (i : Instr) : (addTurn s i).map = s.map := rfl
@[simp] theorem addTurn_mapHolders (s : State) (i : Instr) : (addTurn s i).mapHolders = s.mapHolders := rfl
@[simp] theorem addTurn_trees (s : State) (i : Instr) : (addTurn s i).trees = s.trees := rfl
@[simp] theorem addTurn_prefixes (s : State) (i : Instr) : (addTurn s i).prefixes = s.prefixes := rfl
@[simp] theorem addTurn_queries (s : State) (i : Instr) : (addTurn s i).queries = s.queries := rfl
@[simp] theorem addTurn_nodes (s : State) (i : Instr) : (addTurn s i).nodes = s.nodes := rfl
@[simp] theorem addTurn_moves (s : State) (i : Instr) : (addTurn s i).moves = s.moves := rfl
@[simp] theorem addTurn_reserved (s : State) (i : Instr) : (addTurn s i).reserved = s.reserved := rfl
@[simp] theorem addTurn_sequence (s : State) (i : Instr) : (addTurn s i).sequence = s.sequence := rfl
@[simp] theorem addTurn_hostA (s : State) (i : Instr) : (addTurn s i).hostA = s.hostA := rfl
@[simp] theorem addTurn_devSeq (s : State) (i : Instr) : (addTurn s i).devSeq = s.devSeq := rfl
@[simp] theorem addTurn_retained (s : State) (i : Instr) : (addTurn s i).retained = s.retained := rfl
@[simp] theorem addTurn_responses (s : State) (i : Instr) : (addTurn s i).responses = s.responses := rfl
@[simp] theorem addTurn_dlost (s : State) (i : Instr) : (addTurn s i).dlost = s.dlost := rfl
@[simp] theorem addTurn_control (s : State) (i : Instr) : (addTurn s i).control = s.control := rfl
@[simp] theorem addTurn_qps (s : State) (i : Instr) : (addTurn s i).qps = s.qps := rfl
@[simp] theorem addTurn_paused (s : State) (i : Instr) : (addTurn s i).paused = s.paused := rfl
@[simp] theorem addTurn_slowed (s : State) (i : Instr) : (addTurn s i).slowed = s.slowed := rfl
@[simp] theorem addTurn_portQueue (s : State) (i : Instr) : (addTurn s i).portQueue = s.portQueue := rfl
@[simp] theorem addTurn_pfc (s : State) (i : Instr) : (addTurn s i).pfc = s.pfc := rfl
@[simp] theorem addTurn_launching (s : State) (i : Instr) : (addTurn s i).launching = s.launching := rfl
@[simp] theorem addTurn_waitingMsgs (s : State) (i : Instr) : (addTurn s i).waitingMsgs = s.waitingMsgs := rfl
@[simp] theorem addTurn_poweredAt (s : State) (i : Instr) : (addTurn s i).poweredAt = s.poweredAt := rfl
@[simp] theorem addTurn_refreshAt (s : State) (i : Instr) : (addTurn s i).refreshAt = s.refreshAt := rfl
@[simp] theorem addTurn_lastRefresh (s : State) (i : Instr) : (addTurn s i).lastRefresh = s.lastRefresh := rfl
@[simp] theorem addTurn_links (s : State) (i : Instr) : (addTurn s i).links = s.links := rfl
@[simp] theorem addTurn_switched (s : State) (i : Instr) : (addTurn s i).switched = s.switched := rfl
@[simp] theorem addTurn_routes (s : State) (i : Instr) : (addTurn s i).routes = s.routes := rfl
@[simp] theorem addTurn_packets (s : State) (i : Instr) : (addTurn s i).packets = s.packets := rfl
@[simp] theorem addTurn_seenPackets (s : State) (i : Instr) : (addTurn s i).seenPackets = s.seenPackets := rfl
@[simp] theorem addTurn_farWrites (s : State) (i : Instr) : (addTurn s i).farWrites = s.farWrites := rfl
@[simp] theorem addTurn_farBars (s : State) (i : Instr) : (addTurn s i).farBars = s.farBars := rfl
@[simp] theorem addTurn_farWaits (s : State) (i : Instr) : (addTurn s i).farWaits = s.farWaits := rfl
@[simp] theorem addTurn_errors (s : State) (i : Instr) : (addTurn s i).errors = s.errors := rfl
@[simp] theorem addTurn_errStart (s : State) (i : Instr) : (addTurn s i).errStart = s.errStart := rfl
@[simp] theorem addTurn_errWarned (s : State) (i : Instr) : (addTurn s i).errWarned = s.errWarned := rfl
@[simp] theorem addTurn_errThreshold (s : State) (i : Instr) : (addTurn s i).errThreshold = s.errThreshold := rfl
@[simp] theorem addTurn_snapshots (s : State) (i : Instr) : (addTurn s i).snapshots = s.snapshots := rfl
@[simp] theorem addTurn_warned (s : State) (i : Instr) : (addTurn s i).warned = s.warned := rfl
@[simp] theorem addTurn_stored (s : State) (i : Instr) : (addTurn s i).stored = s.stored := rfl
@[simp] theorem addTurn_out (s : State) (i : Instr) : (addTurn s i).out = s.out := rfl

/-! ### A message sent -/

@[simp] theorem emit_pkg (s : State) (o : Out) : (emit s o).pkg = s.pkg := rfl
@[simp] theorem emit_incarnation (s : State) (o : Out) : (emit s o).incarnation = s.incarnation := rfl
@[simp] theorem emit_up (s : State) (o : Out) : (emit s o).up = s.up := rfl
@[simp] theorem emit_identityKey (s : State) (o : Out) : (emit s o).identityKey = s.identityKey := rfl
@[simp] theorem emit_now (s : State) (o : Out) : (emit s o).now = s.now := rfl
@[simp] theorem emit_fresh (s : State) (o : Out) : (emit s o).fresh = s.fresh := rfl
@[simp] theorem emit_ops (s : State) (o : Out) : (emit s o).ops = s.ops := rfl
@[simp] theorem emit_todo (s : State) (o : Out) : (emit s o).todo = s.todo := rfl
@[simp] theorem emit_timers (s : State) (o : Out) : (emit s o).timers = s.timers := rfl
@[simp] theorem emit_cur (s : State) (o : Out) : (emit s o).cur = s.cur := rfl
@[simp] theorem emit_curHart (s : State) (o : Out) : (emit s o).curHart = s.curHart := rfl
@[simp] theorem emit_undo (s : State) (o : Out) : (emit s o).undo = s.undo := rfl
@[simp] theorem emit_hbm (s : State) (o : Out) : (emit s o).hbm = s.hbm := rfl
@[simp] theorem emit_full (s : State) (o : Out) : (emit s o).full = s.full := rfl
@[simp] theorem emit_fog (s : State) (o : Out) : (emit s o).fog = s.fog := rfl
@[simp] theorem emit_veils (s : State) (o : Out) : (emit s o).veils = s.veils := rfl
@[simp] theorem emit_cores (s : State) (o : Out) : (emit s o).cores = s.cores := rfl
@[simp] theorem emit_slots (s : State) (o : Out) : (emit s o).slots = s.slots := rfl
@[simp] theorem emit_tasks (s : State) (o : Out) : (emit s o).tasks = s.tasks := rfl
@[simp] theorem emit_regions (s : State) (o : Out) : (emit s o).regions = s.regions := rfl
@[simp] theorem emit_cbars (s : State) (o : Out) : (emit s o).cbars = s.cbars := rfl
@[simp] theorem emit_dbars (s : State) (o : Out) : (emit s o).dbars = s.dbars := rfl
@[simp] theorem emit_cmds (s : State) (o : Out) : (emit s o).cmds = s.cmds := rfl
@[simp] theorem emit_engines (s : State) (o : Out) : (emit s o).engines = s.engines := rfl
@[simp] theorem emit_asids (s : State) (o : Out) : (emit s o).asids = s.asids := rfl
@[simp] theorem emit_sysWaits (s : State) (o : Out) : (emit s o).sysWaits = s.sysWaits := rfl
@[simp] theorem emit_raises (s : State) (o : Out) : (emit s o).raises = s.raises := rfl
@[simp] theorem emit_frames (s : State) (o : Out) : (emit s o).frames = s.frames := rfl
@[simp] theorem emit_keyed (s : State) (o : Out) : (emit s o).keyed = s.keyed := rfl
@[simp] theorem emit_rootFrames (s : State) (o : Out) : (emit s o).rootFrames = s.rootFrames := rfl
@[simp] theorem emit_spareTables (s : State) (o : Out) : (emit s o).spareTables = s.spareTables := rfl
@[simp] theorem emit_freeBlocks (s : State) (o : Out) : (emit s o).freeBlocks = s.freeBlocks := rfl
@[simp] theorem emit_freePages (s : State) (o : Out) : (emit s o).freePages = s.freePages := rfl
@[simp] theorem emit_freeGbns (s : State) (o : Out) : (emit s o).freeGbns = s.freeGbns := rfl
@[simp] theorem emit_tiered (s : State) (o : Out) : (emit s o).tiered = s.tiered := rfl
@[simp] theorem emit_gbnBase (s : State) (o : Out) : (emit s o).gbnBase = s.gbnBase := rfl
@[simp] theorem emit_keys (s : State) (o : Out) : (emit s o).keys = s.keys := rfl
@[simp] theorem emit_known (s : State) (o : Out) : (emit s o).known = s.known := rfl
@[simp] theorem emit_probes (s : State) (o : Out) : (emit s o).probes = s.probes := rfl
@[simp] theorem emit_unsent (s : State) (o : Out) : (emit s o).unsent = s.unsent := rfl
@[simp] theorem emit_remoteAsids (s : State) (o : Out) : (emit s o).remoteAsids = s.remoteAsids := rfl
@[simp] theorem emit_dedup (s : State) (o : Out) : (emit s o).dedup = s.dedup := rfl
@[simp] theorem emit_parts (s : State) (o : Out) : (emit s o).parts = s.parts := rfl
@[simp] theorem emit_partOps (s : State) (o : Out) : (emit s o).partOps = s.partOps := rfl
@[simp] theorem emit_pieces (s : State) (o : Out) : (emit s o).pieces = s.pieces := rfl
@[simp] theorem emit_log (s : State) (o : Out) : (emit s o).log = s.log := rfl
@[simp] theorem emit_views (s : State) (o : Out) : (emit s o).views = s.views := rfl
@[simp] theorem emit_pubs (s : State) (o : Out) : (emit s o).pubs = s.pubs := rfl
@[simp] theorem emit_seqs (s : State) (o : Out) : (emit s o).seqs = s.seqs := rfl
@[simp] theorem emit_segments (s : State) (o : Out) : (emit s o).segments = s.segments := rfl
@[simp] theorem emit_pewter (s : State) (o : Out) : (emit s o).pewter = s.pewter := rfl
@[simp] theorem emit_map (s : State) (o : Out) : (emit s o).map = s.map := rfl
@[simp] theorem emit_mapHolders (s : State) (o : Out) : (emit s o).mapHolders = s.mapHolders := rfl
@[simp] theorem emit_trees (s : State) (o : Out) : (emit s o).trees = s.trees := rfl
@[simp] theorem emit_prefixes (s : State) (o : Out) : (emit s o).prefixes = s.prefixes := rfl
@[simp] theorem emit_queries (s : State) (o : Out) : (emit s o).queries = s.queries := rfl
@[simp] theorem emit_nodes (s : State) (o : Out) : (emit s o).nodes = s.nodes := rfl
@[simp] theorem emit_moves (s : State) (o : Out) : (emit s o).moves = s.moves := rfl
@[simp] theorem emit_reserved (s : State) (o : Out) : (emit s o).reserved = s.reserved := rfl
@[simp] theorem emit_sequence (s : State) (o : Out) : (emit s o).sequence = s.sequence := rfl
@[simp] theorem emit_hostA (s : State) (o : Out) : (emit s o).hostA = s.hostA := rfl
@[simp] theorem emit_devSeq (s : State) (o : Out) : (emit s o).devSeq = s.devSeq := rfl
@[simp] theorem emit_retained (s : State) (o : Out) : (emit s o).retained = s.retained := rfl
@[simp] theorem emit_responses (s : State) (o : Out) : (emit s o).responses = s.responses := rfl
@[simp] theorem emit_dlost (s : State) (o : Out) : (emit s o).dlost = s.dlost := rfl
@[simp] theorem emit_control (s : State) (o : Out) : (emit s o).control = s.control := rfl
@[simp] theorem emit_qps (s : State) (o : Out) : (emit s o).qps = s.qps := rfl
@[simp] theorem emit_paused (s : State) (o : Out) : (emit s o).paused = s.paused := rfl
@[simp] theorem emit_slowed (s : State) (o : Out) : (emit s o).slowed = s.slowed := rfl
@[simp] theorem emit_portQueue (s : State) (o : Out) : (emit s o).portQueue = s.portQueue := rfl
@[simp] theorem emit_pfc (s : State) (o : Out) : (emit s o).pfc = s.pfc := rfl
@[simp] theorem emit_launching (s : State) (o : Out) : (emit s o).launching = s.launching := rfl
@[simp] theorem emit_waitingMsgs (s : State) (o : Out) : (emit s o).waitingMsgs = s.waitingMsgs := rfl
@[simp] theorem emit_poweredAt (s : State) (o : Out) : (emit s o).poweredAt = s.poweredAt := rfl
@[simp] theorem emit_refreshAt (s : State) (o : Out) : (emit s o).refreshAt = s.refreshAt := rfl
@[simp] theorem emit_lastRefresh (s : State) (o : Out) : (emit s o).lastRefresh = s.lastRefresh := rfl
@[simp] theorem emit_links (s : State) (o : Out) : (emit s o).links = s.links := rfl
@[simp] theorem emit_switched (s : State) (o : Out) : (emit s o).switched = s.switched := rfl
@[simp] theorem emit_routes (s : State) (o : Out) : (emit s o).routes = s.routes := rfl
@[simp] theorem emit_packets (s : State) (o : Out) : (emit s o).packets = s.packets := rfl
@[simp] theorem emit_seenPackets (s : State) (o : Out) : (emit s o).seenPackets = s.seenPackets := rfl
@[simp] theorem emit_farWrites (s : State) (o : Out) : (emit s o).farWrites = s.farWrites := rfl
@[simp] theorem emit_farBars (s : State) (o : Out) : (emit s o).farBars = s.farBars := rfl
@[simp] theorem emit_farWaits (s : State) (o : Out) : (emit s o).farWaits = s.farWaits := rfl
@[simp] theorem emit_errors (s : State) (o : Out) : (emit s o).errors = s.errors := rfl
@[simp] theorem emit_errStart (s : State) (o : Out) : (emit s o).errStart = s.errStart := rfl
@[simp] theorem emit_errWarned (s : State) (o : Out) : (emit s o).errWarned = s.errWarned := rfl
@[simp] theorem emit_errThreshold (s : State) (o : Out) : (emit s o).errThreshold = s.errThreshold := rfl
@[simp] theorem emit_snapshots (s : State) (o : Out) : (emit s o).snapshots = s.snapshots := rfl
@[simp] theorem emit_warned (s : State) (o : Out) : (emit s o).warned = s.warned := rfl
@[simp] theorem emit_stored (s : State) (o : Out) : (emit s o).stored = s.stored := rfl
@[simp] theorem emit_out (s : State) (o : Out) : (emit s o).out = s.out ++ [o] := rfl

/-! ### The bundle being issued -/

@[simp] theorem modIssue_task (x : Ctx) (f : Issue → Issue) : (modIssue x f).task = x.task := rfl
@[simp] theorem modIssue_region (x : Ctx) (f : Issue → Issue) : (modIssue x f).region = x.region := rfl
@[simp] theorem modIssue_hdr (x : Ctx) (f : Issue → Issue) : (modIssue x f).hdr = x.hdr := rfl
@[simp] theorem modIssue_image (x : Ctx) (f : Issue → Issue) : (modIssue x f).image = x.image := rfl
@[simp] theorem modIssue_pc (x : Ctx) (f : Issue → Issue) : (modIssue x f).pc = x.pc := rfl
@[simp] theorem modIssue_v (x : Ctx) (f : Issue → Issue) : (modIssue x f).v = x.v := rfl
@[simp] theorem modIssue_s (x : Ctx) (f : Issue → Issue) : (modIssue x f).s = x.s := rfl
@[simp] theorem modIssue_latches (x : Ctx) (f : Issue → Issue) : (modIssue x f).latches = x.latches := rfl
@[simp] theorem modIssue_flights (x : Ctx) (f : Issue → Issue) : (modIssue x f).flights = x.flights := rfl
@[simp] theorem modIssue_g (x : Ctx) (f : Issue → Issue) : (modIssue x f).g = x.g := rfl
@[simp] theorem modIssue_gstep (x : Ctx) (f : Issue → Issue) : (modIssue x f).gstep = x.gstep := rfl
@[simp] theorem modIssue_p (x : Ctx) (f : Issue → Issue) : (modIssue x f).p = x.p := rfl
@[simp] theorem modIssue_e (x : Ctx) (f : Issue → Issue) : (modIssue x f).e = x.e := rfl
@[simp] theorem modIssue_j (x : Ctx) (f : Issue → Issue) : (modIssue x f).j = x.j := rfl
@[simp] theorem modIssue_loops (x : Ctx) (f : Issue → Issue) : (modIssue x f).loops = x.loops := rfl
@[simp] theorem modIssue_fmt (x : Ctx) (f : Issue → Issue) : (modIssue x f).fmt = x.fmt := rfl
@[simp] theorem modIssue_fmtPend (x : Ctx) (f : Issue → Issue) : (modIssue x f).fmtPend = x.fmtPend := rfl
@[simp] theorem modIssue_sticky (x : Ctx) (f : Issue → Issue) : (modIssue x f).sticky = x.sticky := rfl
@[simp] theorem modIssue_tags (x : Ctx) (f : Issue → Issue) : (modIssue x f).tags = x.tags := rfl
@[simp] theorem modIssue_outstanding (x : Ctx) (f : Issue → Issue) : (modIssue x f).outstanding = x.outstanding := rfl
@[simp] theorem modIssue_cand (x : Ctx) (f : Issue → Issue) : (modIssue x f).cand = x.cand := rfl
@[simp] theorem modIssue_fileUntil (x : Ctx) (f : Issue → Issue) : (modIssue x f).fileUntil = x.fileUntil := rfl
@[simp] theorem modIssue_rng (x : Ctx) (f : Issue → Issue) : (modIssue x f).rng = x.rng := rfl
@[simp] theorem modIssue_views (x : Ctx) (f : Issue → Issue) : (modIssue x f).views = x.views := rfl
@[simp] theorem modIssue_claimed (x : Ctx) (f : Issue → Issue) : (modIssue x f).claimed = x.claimed := rfl
@[simp] theorem modIssue_slotBusy (x : Ctx) (f : Issue → Issue) : (modIssue x f).slotBusy = x.slotBusy := rfl
@[simp] theorem modIssue_accBusy (x : Ctx) (f : Issue → Issue) : (modIssue x f).accBusy = x.accBusy := rfl
@[simp] theorem modIssue_accBusyT (x : Ctx) (f : Issue → Issue) : (modIssue x f).accBusyT = x.accBusyT := rfl
@[simp] theorem modIssue_zstUntil (x : Ctx) (f : Issue → Issue) : (modIssue x f).zstUntil = x.zstUntil := rfl
@[simp] theorem modIssue_zstLo (x : Ctx) (f : Issue → Issue) : (modIssue x f).zstLo = x.zstLo := rfl
@[simp] theorem modIssue_scales (x : Ctx) (f : Issue → Issue) : (modIssue x f).scales = x.scales := rfl
@[simp] theorem modIssue_mq (x : Ctx) (f : Issue → Issue) : (modIssue x f).mq = x.mq := rfl
@[simp] theorem modIssue_mlast (x : Ctx) (f : Issue → Issue) : (modIssue x f).mlast = x.mlast := rfl
@[simp] theorem modIssue_pairs (x : Ctx) (f : Issue → Issue) : (modIssue x f).pairs = x.pairs := rfl
@[simp] theorem modIssue_pairBuf (x : Ctx) (f : Issue → Issue) : (modIssue x f).pairBuf = x.pairBuf := rfl
@[simp] theorem modIssue_mate (x : Ctx) (f : Issue → Issue) : (modIssue x f).mate = x.mate := rfl
@[simp] theorem modIssue_records (x : Ctx) (f : Issue → Issue) : (modIssue x f).records = x.records := rfl
@[simp] theorem modIssue_guards (x : Ctx) (f : Issue → Issue) : (modIssue x f).guards = x.guards := rfl
@[simp] theorem modIssue_guardsDue (x : Ctx) (f : Issue → Issue) : (modIssue x f).guardsDue = x.guardsDue := rfl
@[simp] theorem modIssue_held (x : Ctx) (f : Issue → Issue) : (modIssue x f).held = x.held := rfl
@[simp] theorem modIssue_awaited (x : Ctx) (f : Issue → Issue) : (modIssue x f).awaited = x.awaited := rfl
@[simp] theorem modIssue_snap (x : Ctx) (f : Issue → Issue) : (modIssue x f).snap = x.snap := rfl
@[simp] theorem modIssue_handler (x : Ctx) (f : Issue → Issue) : (modIssue x f).handler = x.handler := rfl
@[simp] theorem modIssue_tcause (x : Ctx) (f : Issue → Issue) : (modIssue x f).tcause = x.tcause := rfl
@[simp] theorem modIssue_tpc (x : Ctx) (f : Issue → Issue) : (modIssue x f).tpc = x.tpc := rfl
@[simp] theorem modIssue_tinfo (x : Ctx) (f : Issue → Issue) : (modIssue x f).tinfo = x.tinfo := rfl
@[simp] theorem modIssue_sbudget (x : Ctx) (f : Issue → Issue) : (modIssue x f).sbudget = x.sbudget := rfl
@[simp] theorem modIssue_extended (x : Ctx) (f : Issue → Issue) : (modIssue x f).extended = x.extended := rfl
@[simp] theorem modIssue_cycle (x : Ctx) (f : Issue → Issue) : (modIssue x f).cycle = x.cycle := rfl
@[simp] theorem modIssue_midle (x : Ctx) (f : Issue → Issue) : (modIssue x f).midle = x.midle := rfl
@[simp] theorem modIssue_mstall (x : Ctx) (f : Issue → Issue) : (modIssue x f).mstall = x.mstall := rfl
@[simp] theorem modIssue_midleSet (x : Ctx) (f : Issue → Issue) : (modIssue x f).midleSet = x.midleSet := rfl
@[simp] theorem modIssue_mstallSet (x : Ctx) (f : Issue → Issue) : (modIssue x f).mstallSet = x.mstallSet := rfl
@[simp] theorem modIssue_sinceYield (x : Ctx) (f : Issue → Issue) : (modIssue x f).sinceYield = x.sinceYield := rfl
@[simp] theorem modIssue_wait (x : Ctx) (f : Issue → Issue) : (modIssue x f).wait = x.wait := rfl
@[simp] theorem modIssue_sizing (x : Ctx) (f : Issue → Issue) : (modIssue x f).sizing = x.sizing := rfl
@[simp] theorem modIssue_nextIssue (x : Ctx) (f : Issue → Issue) : (modIssue x f).nextIssue = x.nextIssue := rfl
@[simp] theorem modIssue_rep (x : Ctx) (f : Issue → Issue) : (modIssue x f).rep = x.rep := rfl
@[simp] theorem modIssue_seen (x : Ctx) (f : Issue → Issue) : (modIssue x f).seen = x.seen := rfl
@[simp] theorem modIssue_issue (x : Ctx) (f : Issue → Issue) : (modIssue x f).issue = x.issue.map f := rfl
@[simp] theorem modIssue_lbuf (x : Ctx) (f : Issue → Issue) : (modIssue x f).lbuf = x.lbuf := rfl
@[simp] theorem modIssue_preempt (x : Ctx) (f : Issue → Issue) : (modIssue x f).preempt = x.preempt := rfl
@[simp] theorem modIssue_halting (x : Ctx) (f : Issue → Issue) : (modIssue x f).halting = x.halting := rfl
@[simp] theorem modIssue_draining (x : Ctx) (f : Issue → Issue) : (modIssue x f).draining = x.draining := rfl
@[simp] theorem modIssue_keeps (x : Ctx) (f : Issue → Issue) : (modIssue x f).keeps = x.keeps := rfl
@[simp] theorem modIssue_blocked (x : Ctx) (f : Issue → Issue) : (modIssue x f).blocked = x.blocked := rfl
@[simp] theorem modIssue_fetchWait (x : Ctx) (f : Issue → Issue) : (modIssue x f).fetchWait = x.fetchWait := rfl
@[simp] theorem modIssue_window (x : Ctx) (f : Issue → Issue) : (modIssue x f).window = x.window := rfl
@[simp] theorem modIssue_slotBase (x : Ctx) (f : Issue → Issue) : (modIssue x f).slotBase = x.slotBase := rfl
@[simp] theorem modIssue_tileBase (x : Ctx) (f : Issue → Issue) : (modIssue x f).tileBase = x.tileBase := rfl
@[simp] theorem modIssue_loader (x : Ctx) (f : Issue → Issue) : (modIssue x f).loader = x.loader := rfl
@[simp] theorem modIssue_storer (x : Ctx) (f : Issue → Issue) : (modIssue x f).storer = x.storer := rfl
@[simp] theorem modIssue_resident (x : Ctx) (f : Issue → Issue) : (modIssue x f).resident = x.resident := rfl

/-! ### A result -/

@[simp] theorem addResult_task (x : Ctx) (d : BitVec 8) (b : Bank) (n l : Nat) (v : Val) : (addResult x d b n l v).task = x.task := rfl
@[simp] theorem addResult_region (x : Ctx) (d : BitVec 8) (b : Bank) (n l : Nat) (v : Val) : (addResult x d b n l v).region = x.region := rfl
@[simp] theorem addResult_hdr (x : Ctx) (d : BitVec 8) (b : Bank) (n l : Nat) (v : Val) : (addResult x d b n l v).hdr = x.hdr := rfl
@[simp] theorem addResult_image (x : Ctx) (d : BitVec 8) (b : Bank) (n l : Nat) (v : Val) : (addResult x d b n l v).image = x.image := rfl
@[simp] theorem addResult_pc (x : Ctx) (d : BitVec 8) (b : Bank) (n l : Nat) (v : Val) : (addResult x d b n l v).pc = x.pc := rfl
@[simp] theorem addResult_v (x : Ctx) (d : BitVec 8) (b : Bank) (n l : Nat) (v : Val) : (addResult x d b n l v).v = x.v := rfl
@[simp] theorem addResult_s (x : Ctx) (d : BitVec 8) (b : Bank) (n l : Nat) (v : Val) : (addResult x d b n l v).s = x.s := rfl
@[simp] theorem addResult_latches (x : Ctx) (d : BitVec 8) (b : Bank) (n l : Nat) (v : Val) : (addResult x d b n l v).latches = x.latches := rfl
@[simp] theorem addResult_flights (x : Ctx) (d : BitVec 8) (b : Bank) (n l : Nat) (v : Val) : (addResult x d b n l v).flights = x.flights := rfl
@[simp] theorem addResult_g (x : Ctx) (d : BitVec 8) (b : Bank) (n l : Nat) (v : Val) : (addResult x d b n l v).g = x.g := rfl
@[simp] theorem addResult_gstep (x : Ctx) (d : BitVec 8) (b : Bank) (n l : Nat) (v : Val) : (addResult x d b n l v).gstep = x.gstep := rfl
@[simp] theorem addResult_p (x : Ctx) (d : BitVec 8) (b : Bank) (n l : Nat) (v : Val) : (addResult x d b n l v).p = x.p := rfl
@[simp] theorem addResult_e (x : Ctx) (d : BitVec 8) (b : Bank) (n l : Nat) (v : Val) : (addResult x d b n l v).e = x.e := rfl
@[simp] theorem addResult_j (x : Ctx) (d : BitVec 8) (b : Bank) (n l : Nat) (v : Val) : (addResult x d b n l v).j = x.j := rfl
@[simp] theorem addResult_loops (x : Ctx) (d : BitVec 8) (b : Bank) (n l : Nat) (v : Val) : (addResult x d b n l v).loops = x.loops := rfl
@[simp] theorem addResult_fmt (x : Ctx) (d : BitVec 8) (b : Bank) (n l : Nat) (v : Val) : (addResult x d b n l v).fmt = x.fmt := rfl
@[simp] theorem addResult_fmtPend (x : Ctx) (d : BitVec 8) (b : Bank) (n l : Nat) (v : Val) : (addResult x d b n l v).fmtPend = x.fmtPend := rfl
@[simp] theorem addResult_sticky (x : Ctx) (d : BitVec 8) (b : Bank) (n l : Nat) (v : Val) : (addResult x d b n l v).sticky = x.sticky := rfl
@[simp] theorem addResult_tags (x : Ctx) (d : BitVec 8) (b : Bank) (n l : Nat) (v : Val) : (addResult x d b n l v).tags = x.tags := rfl
@[simp] theorem addResult_outstanding (x : Ctx) (d : BitVec 8) (b : Bank) (n l : Nat) (v : Val) : (addResult x d b n l v).outstanding = x.outstanding := rfl
@[simp] theorem addResult_cand (x : Ctx) (d : BitVec 8) (b : Bank) (n l : Nat) (v : Val) : (addResult x d b n l v).cand = x.cand := rfl
@[simp] theorem addResult_fileUntil (x : Ctx) (d : BitVec 8) (b : Bank) (n l : Nat) (v : Val) : (addResult x d b n l v).fileUntil = x.fileUntil := rfl
@[simp] theorem addResult_rng (x : Ctx) (d : BitVec 8) (b : Bank) (n l : Nat) (v : Val) : (addResult x d b n l v).rng = x.rng := rfl
@[simp] theorem addResult_views (x : Ctx) (d : BitVec 8) (b : Bank) (n l : Nat) (v : Val) : (addResult x d b n l v).views = x.views := rfl
@[simp] theorem addResult_claimed (x : Ctx) (d : BitVec 8) (b : Bank) (n l : Nat) (v : Val) : (addResult x d b n l v).claimed = x.claimed := rfl
@[simp] theorem addResult_slotBusy (x : Ctx) (d : BitVec 8) (b : Bank) (n l : Nat) (v : Val) : (addResult x d b n l v).slotBusy = x.slotBusy := rfl
@[simp] theorem addResult_accBusy (x : Ctx) (d : BitVec 8) (b : Bank) (n l : Nat) (v : Val) : (addResult x d b n l v).accBusy = x.accBusy := rfl
@[simp] theorem addResult_accBusyT (x : Ctx) (d : BitVec 8) (b : Bank) (n l : Nat) (v : Val) : (addResult x d b n l v).accBusyT = x.accBusyT := rfl
@[simp] theorem addResult_zstUntil (x : Ctx) (d : BitVec 8) (b : Bank) (n l : Nat) (v : Val) : (addResult x d b n l v).zstUntil = x.zstUntil := rfl
@[simp] theorem addResult_zstLo (x : Ctx) (d : BitVec 8) (b : Bank) (n l : Nat) (v : Val) : (addResult x d b n l v).zstLo = x.zstLo := rfl
@[simp] theorem addResult_scales (x : Ctx) (d : BitVec 8) (b : Bank) (n l : Nat) (v : Val) : (addResult x d b n l v).scales = x.scales := rfl
@[simp] theorem addResult_mq (x : Ctx) (d : BitVec 8) (b : Bank) (n l : Nat) (v : Val) : (addResult x d b n l v).mq = x.mq := rfl
@[simp] theorem addResult_mlast (x : Ctx) (d : BitVec 8) (b : Bank) (n l : Nat) (v : Val) : (addResult x d b n l v).mlast = x.mlast := rfl
@[simp] theorem addResult_pairs (x : Ctx) (d : BitVec 8) (b : Bank) (n l : Nat) (v : Val) : (addResult x d b n l v).pairs = x.pairs := rfl
@[simp] theorem addResult_pairBuf (x : Ctx) (d : BitVec 8) (b : Bank) (n l : Nat) (v : Val) : (addResult x d b n l v).pairBuf = x.pairBuf := rfl
@[simp] theorem addResult_mate (x : Ctx) (d : BitVec 8) (b : Bank) (n l : Nat) (v : Val) : (addResult x d b n l v).mate = x.mate := rfl
@[simp] theorem addResult_records (x : Ctx) (d : BitVec 8) (b : Bank) (n l : Nat) (v : Val) : (addResult x d b n l v).records = x.records := rfl
@[simp] theorem addResult_guards (x : Ctx) (d : BitVec 8) (b : Bank) (n l : Nat) (v : Val) : (addResult x d b n l v).guards = x.guards := rfl
@[simp] theorem addResult_guardsDue (x : Ctx) (d : BitVec 8) (b : Bank) (n l : Nat) (v : Val) : (addResult x d b n l v).guardsDue = x.guardsDue := rfl
@[simp] theorem addResult_held (x : Ctx) (d : BitVec 8) (b : Bank) (n l : Nat) (v : Val) : (addResult x d b n l v).held = x.held := rfl
@[simp] theorem addResult_awaited (x : Ctx) (d : BitVec 8) (b : Bank) (n l : Nat) (v : Val) : (addResult x d b n l v).awaited = x.awaited := rfl
@[simp] theorem addResult_snap (x : Ctx) (d : BitVec 8) (b : Bank) (n l : Nat) (v : Val) : (addResult x d b n l v).snap = x.snap := rfl
@[simp] theorem addResult_handler (x : Ctx) (d : BitVec 8) (b : Bank) (n l : Nat) (v : Val) : (addResult x d b n l v).handler = x.handler := rfl
@[simp] theorem addResult_tcause (x : Ctx) (d : BitVec 8) (b : Bank) (n l : Nat) (v : Val) : (addResult x d b n l v).tcause = x.tcause := rfl
@[simp] theorem addResult_tpc (x : Ctx) (d : BitVec 8) (b : Bank) (n l : Nat) (v : Val) : (addResult x d b n l v).tpc = x.tpc := rfl
@[simp] theorem addResult_tinfo (x : Ctx) (d : BitVec 8) (b : Bank) (n l : Nat) (v : Val) : (addResult x d b n l v).tinfo = x.tinfo := rfl
@[simp] theorem addResult_sbudget (x : Ctx) (d : BitVec 8) (b : Bank) (n l : Nat) (v : Val) : (addResult x d b n l v).sbudget = x.sbudget := rfl
@[simp] theorem addResult_extended (x : Ctx) (d : BitVec 8) (b : Bank) (n l : Nat) (v : Val) : (addResult x d b n l v).extended = x.extended := rfl
@[simp] theorem addResult_cycle (x : Ctx) (d : BitVec 8) (b : Bank) (n l : Nat) (v : Val) : (addResult x d b n l v).cycle = x.cycle := rfl
@[simp] theorem addResult_midle (x : Ctx) (d : BitVec 8) (b : Bank) (n l : Nat) (v : Val) : (addResult x d b n l v).midle = x.midle := rfl
@[simp] theorem addResult_mstall (x : Ctx) (d : BitVec 8) (b : Bank) (n l : Nat) (v : Val) : (addResult x d b n l v).mstall = x.mstall := rfl
@[simp] theorem addResult_midleSet (x : Ctx) (d : BitVec 8) (b : Bank) (n l : Nat) (v : Val) : (addResult x d b n l v).midleSet = x.midleSet := rfl
@[simp] theorem addResult_mstallSet (x : Ctx) (d : BitVec 8) (b : Bank) (n l : Nat) (v : Val) : (addResult x d b n l v).mstallSet = x.mstallSet := rfl
@[simp] theorem addResult_sinceYield (x : Ctx) (d : BitVec 8) (b : Bank) (n l : Nat) (v : Val) : (addResult x d b n l v).sinceYield = x.sinceYield := rfl
@[simp] theorem addResult_wait (x : Ctx) (d : BitVec 8) (b : Bank) (n l : Nat) (v : Val) : (addResult x d b n l v).wait = x.wait := rfl
@[simp] theorem addResult_sizing (x : Ctx) (d : BitVec 8) (b : Bank) (n l : Nat) (v : Val) : (addResult x d b n l v).sizing = x.sizing := rfl
@[simp] theorem addResult_nextIssue (x : Ctx) (d : BitVec 8) (b : Bank) (n l : Nat) (v : Val) : (addResult x d b n l v).nextIssue = x.nextIssue := rfl
@[simp] theorem addResult_rep (x : Ctx) (d : BitVec 8) (b : Bank) (n l : Nat) (v : Val) : (addResult x d b n l v).rep = x.rep := rfl
@[simp] theorem addResult_seen (x : Ctx) (d : BitVec 8) (b : Bank) (n l : Nat) (v : Val) : (addResult x d b n l v).seen = x.seen := rfl
@[simp] theorem addResult_lbuf (x : Ctx) (d : BitVec 8) (b : Bank) (n l : Nat) (v : Val) : (addResult x d b n l v).lbuf = x.lbuf := rfl
@[simp] theorem addResult_preempt (x : Ctx) (d : BitVec 8) (b : Bank) (n l : Nat) (v : Val) : (addResult x d b n l v).preempt = x.preempt := rfl
@[simp] theorem addResult_halting (x : Ctx) (d : BitVec 8) (b : Bank) (n l : Nat) (v : Val) : (addResult x d b n l v).halting = x.halting := rfl
@[simp] theorem addResult_draining (x : Ctx) (d : BitVec 8) (b : Bank) (n l : Nat) (v : Val) : (addResult x d b n l v).draining = x.draining := rfl
@[simp] theorem addResult_keeps (x : Ctx) (d : BitVec 8) (b : Bank) (n l : Nat) (v : Val) : (addResult x d b n l v).keeps = x.keeps := rfl
@[simp] theorem addResult_blocked (x : Ctx) (d : BitVec 8) (b : Bank) (n l : Nat) (v : Val) : (addResult x d b n l v).blocked = x.blocked := rfl
@[simp] theorem addResult_fetchWait (x : Ctx) (d : BitVec 8) (b : Bank) (n l : Nat) (v : Val) : (addResult x d b n l v).fetchWait = x.fetchWait := rfl
@[simp] theorem addResult_window (x : Ctx) (d : BitVec 8) (b : Bank) (n l : Nat) (v : Val) : (addResult x d b n l v).window = x.window := rfl
@[simp] theorem addResult_slotBase (x : Ctx) (d : BitVec 8) (b : Bank) (n l : Nat) (v : Val) : (addResult x d b n l v).slotBase = x.slotBase := rfl
@[simp] theorem addResult_tileBase (x : Ctx) (d : BitVec 8) (b : Bank) (n l : Nat) (v : Val) : (addResult x d b n l v).tileBase = x.tileBase := rfl
@[simp] theorem addResult_loader (x : Ctx) (d : BitVec 8) (b : Bank) (n l : Nat) (v : Val) : (addResult x d b n l v).loader = x.loader := rfl
@[simp] theorem addResult_storer (x : Ctx) (d : BitVec 8) (b : Bank) (n l : Nat) (v : Val) : (addResult x d b n l v).storer = x.storer := rfl
@[simp] theorem addResult_resident (x : Ctx) (d : BitVec 8) (b : Bank) (n l : Nat) (v : Val) : (addResult x d b n l v).resident = x.resident := rfl

/-! ### A mark -/

@[simp] theorem addMark_task (x : Ctx) (q : Bank × Nat) : (addMark x q).task = x.task := rfl
@[simp] theorem addMark_region (x : Ctx) (q : Bank × Nat) : (addMark x q).region = x.region := rfl
@[simp] theorem addMark_hdr (x : Ctx) (q : Bank × Nat) : (addMark x q).hdr = x.hdr := rfl
@[simp] theorem addMark_image (x : Ctx) (q : Bank × Nat) : (addMark x q).image = x.image := rfl
@[simp] theorem addMark_pc (x : Ctx) (q : Bank × Nat) : (addMark x q).pc = x.pc := rfl
@[simp] theorem addMark_v (x : Ctx) (q : Bank × Nat) : (addMark x q).v = x.v := rfl
@[simp] theorem addMark_s (x : Ctx) (q : Bank × Nat) : (addMark x q).s = x.s := rfl
@[simp] theorem addMark_latches (x : Ctx) (q : Bank × Nat) : (addMark x q).latches = x.latches := rfl
@[simp] theorem addMark_flights (x : Ctx) (q : Bank × Nat) : (addMark x q).flights = x.flights := rfl
@[simp] theorem addMark_g (x : Ctx) (q : Bank × Nat) : (addMark x q).g = x.g := rfl
@[simp] theorem addMark_gstep (x : Ctx) (q : Bank × Nat) : (addMark x q).gstep = x.gstep := rfl
@[simp] theorem addMark_p (x : Ctx) (q : Bank × Nat) : (addMark x q).p = x.p := rfl
@[simp] theorem addMark_e (x : Ctx) (q : Bank × Nat) : (addMark x q).e = x.e := rfl
@[simp] theorem addMark_j (x : Ctx) (q : Bank × Nat) : (addMark x q).j = x.j := rfl
@[simp] theorem addMark_loops (x : Ctx) (q : Bank × Nat) : (addMark x q).loops = x.loops := rfl
@[simp] theorem addMark_fmt (x : Ctx) (q : Bank × Nat) : (addMark x q).fmt = x.fmt := rfl
@[simp] theorem addMark_fmtPend (x : Ctx) (q : Bank × Nat) : (addMark x q).fmtPend = x.fmtPend := rfl
@[simp] theorem addMark_sticky (x : Ctx) (q : Bank × Nat) : (addMark x q).sticky = x.sticky := rfl
@[simp] theorem addMark_tags (x : Ctx) (q : Bank × Nat) : (addMark x q).tags = x.tags := rfl
@[simp] theorem addMark_outstanding (x : Ctx) (q : Bank × Nat) : (addMark x q).outstanding = x.outstanding := rfl
@[simp] theorem addMark_cand (x : Ctx) (q : Bank × Nat) : (addMark x q).cand = x.cand := rfl
@[simp] theorem addMark_fileUntil (x : Ctx) (q : Bank × Nat) : (addMark x q).fileUntil = x.fileUntil := rfl
@[simp] theorem addMark_rng (x : Ctx) (q : Bank × Nat) : (addMark x q).rng = x.rng := rfl
@[simp] theorem addMark_views (x : Ctx) (q : Bank × Nat) : (addMark x q).views = x.views := rfl
@[simp] theorem addMark_claimed (x : Ctx) (q : Bank × Nat) : (addMark x q).claimed = x.claimed := rfl
@[simp] theorem addMark_slotBusy (x : Ctx) (q : Bank × Nat) : (addMark x q).slotBusy = x.slotBusy := rfl
@[simp] theorem addMark_accBusy (x : Ctx) (q : Bank × Nat) : (addMark x q).accBusy = x.accBusy := rfl
@[simp] theorem addMark_accBusyT (x : Ctx) (q : Bank × Nat) : (addMark x q).accBusyT = x.accBusyT := rfl
@[simp] theorem addMark_zstUntil (x : Ctx) (q : Bank × Nat) : (addMark x q).zstUntil = x.zstUntil := rfl
@[simp] theorem addMark_zstLo (x : Ctx) (q : Bank × Nat) : (addMark x q).zstLo = x.zstLo := rfl
@[simp] theorem addMark_scales (x : Ctx) (q : Bank × Nat) : (addMark x q).scales = x.scales := rfl
@[simp] theorem addMark_mq (x : Ctx) (q : Bank × Nat) : (addMark x q).mq = x.mq := rfl
@[simp] theorem addMark_mlast (x : Ctx) (q : Bank × Nat) : (addMark x q).mlast = x.mlast := rfl
@[simp] theorem addMark_pairs (x : Ctx) (q : Bank × Nat) : (addMark x q).pairs = x.pairs := rfl
@[simp] theorem addMark_pairBuf (x : Ctx) (q : Bank × Nat) : (addMark x q).pairBuf = x.pairBuf := rfl
@[simp] theorem addMark_mate (x : Ctx) (q : Bank × Nat) : (addMark x q).mate = x.mate := rfl
@[simp] theorem addMark_records (x : Ctx) (q : Bank × Nat) : (addMark x q).records = x.records := rfl
@[simp] theorem addMark_guards (x : Ctx) (q : Bank × Nat) : (addMark x q).guards = x.guards := rfl
@[simp] theorem addMark_guardsDue (x : Ctx) (q : Bank × Nat) : (addMark x q).guardsDue = x.guardsDue := rfl
@[simp] theorem addMark_held (x : Ctx) (q : Bank × Nat) : (addMark x q).held = x.held := rfl
@[simp] theorem addMark_awaited (x : Ctx) (q : Bank × Nat) : (addMark x q).awaited = x.awaited := rfl
@[simp] theorem addMark_snap (x : Ctx) (q : Bank × Nat) : (addMark x q).snap = x.snap := rfl
@[simp] theorem addMark_handler (x : Ctx) (q : Bank × Nat) : (addMark x q).handler = x.handler := rfl
@[simp] theorem addMark_tcause (x : Ctx) (q : Bank × Nat) : (addMark x q).tcause = x.tcause := rfl
@[simp] theorem addMark_tpc (x : Ctx) (q : Bank × Nat) : (addMark x q).tpc = x.tpc := rfl
@[simp] theorem addMark_tinfo (x : Ctx) (q : Bank × Nat) : (addMark x q).tinfo = x.tinfo := rfl
@[simp] theorem addMark_sbudget (x : Ctx) (q : Bank × Nat) : (addMark x q).sbudget = x.sbudget := rfl
@[simp] theorem addMark_extended (x : Ctx) (q : Bank × Nat) : (addMark x q).extended = x.extended := rfl
@[simp] theorem addMark_cycle (x : Ctx) (q : Bank × Nat) : (addMark x q).cycle = x.cycle := rfl
@[simp] theorem addMark_midle (x : Ctx) (q : Bank × Nat) : (addMark x q).midle = x.midle := rfl
@[simp] theorem addMark_mstall (x : Ctx) (q : Bank × Nat) : (addMark x q).mstall = x.mstall := rfl
@[simp] theorem addMark_midleSet (x : Ctx) (q : Bank × Nat) : (addMark x q).midleSet = x.midleSet := rfl
@[simp] theorem addMark_mstallSet (x : Ctx) (q : Bank × Nat) : (addMark x q).mstallSet = x.mstallSet := rfl
@[simp] theorem addMark_sinceYield (x : Ctx) (q : Bank × Nat) : (addMark x q).sinceYield = x.sinceYield := rfl
@[simp] theorem addMark_wait (x : Ctx) (q : Bank × Nat) : (addMark x q).wait = x.wait := rfl
@[simp] theorem addMark_sizing (x : Ctx) (q : Bank × Nat) : (addMark x q).sizing = x.sizing := rfl
@[simp] theorem addMark_nextIssue (x : Ctx) (q : Bank × Nat) : (addMark x q).nextIssue = x.nextIssue := rfl
@[simp] theorem addMark_rep (x : Ctx) (q : Bank × Nat) : (addMark x q).rep = x.rep := rfl
@[simp] theorem addMark_seen (x : Ctx) (q : Bank × Nat) : (addMark x q).seen = x.seen := rfl
@[simp] theorem addMark_issue (x : Ctx) (q : Bank × Nat) : (addMark x q).issue = x.issue.map fun i => { i with marks := i.marks ++ [q] } := rfl
@[simp] theorem addMark_lbuf (x : Ctx) (q : Bank × Nat) : (addMark x q).lbuf = x.lbuf := rfl
@[simp] theorem addMark_preempt (x : Ctx) (q : Bank × Nat) : (addMark x q).preempt = x.preempt := rfl
@[simp] theorem addMark_halting (x : Ctx) (q : Bank × Nat) : (addMark x q).halting = x.halting := rfl
@[simp] theorem addMark_draining (x : Ctx) (q : Bank × Nat) : (addMark x q).draining = x.draining := rfl
@[simp] theorem addMark_keeps (x : Ctx) (q : Bank × Nat) : (addMark x q).keeps = x.keeps := rfl
@[simp] theorem addMark_blocked (x : Ctx) (q : Bank × Nat) : (addMark x q).blocked = x.blocked := rfl
@[simp] theorem addMark_fetchWait (x : Ctx) (q : Bank × Nat) : (addMark x q).fetchWait = x.fetchWait := rfl
@[simp] theorem addMark_window (x : Ctx) (q : Bank × Nat) : (addMark x q).window = x.window := rfl
@[simp] theorem addMark_slotBase (x : Ctx) (q : Bank × Nat) : (addMark x q).slotBase = x.slotBase := rfl
@[simp] theorem addMark_tileBase (x : Ctx) (q : Bank × Nat) : (addMark x q).tileBase = x.tileBase := rfl
@[simp] theorem addMark_loader (x : Ctx) (q : Bank × Nat) : (addMark x q).loader = x.loader := rfl
@[simp] theorem addMark_storer (x : Ctx) (q : Bank × Nat) : (addMark x q).storer = x.storer := rfl
@[simp] theorem addMark_resident (x : Ctx) (q : Bank × Nat) : (addMark x q).resident = x.resident := rfl

/-! ### A boundary point -/

@[simp] theorem addBoundary_task (x : Ctx) : (addBoundary x).task = x.task := rfl
@[simp] theorem addBoundary_region (x : Ctx) : (addBoundary x).region = x.region := rfl
@[simp] theorem addBoundary_hdr (x : Ctx) : (addBoundary x).hdr = x.hdr := rfl
@[simp] theorem addBoundary_image (x : Ctx) : (addBoundary x).image = x.image := rfl
@[simp] theorem addBoundary_pc (x : Ctx) : (addBoundary x).pc = x.pc := rfl
@[simp] theorem addBoundary_v (x : Ctx) : (addBoundary x).v = x.v := rfl
@[simp] theorem addBoundary_s (x : Ctx) : (addBoundary x).s = x.s := rfl
@[simp] theorem addBoundary_latches (x : Ctx) : (addBoundary x).latches = x.latches := rfl
@[simp] theorem addBoundary_flights (x : Ctx) : (addBoundary x).flights = x.flights := rfl
@[simp] theorem addBoundary_g (x : Ctx) : (addBoundary x).g = x.g := rfl
@[simp] theorem addBoundary_gstep (x : Ctx) : (addBoundary x).gstep = x.gstep := rfl
@[simp] theorem addBoundary_p (x : Ctx) : (addBoundary x).p = x.p := rfl
@[simp] theorem addBoundary_e (x : Ctx) : (addBoundary x).e = x.e := rfl
@[simp] theorem addBoundary_j (x : Ctx) : (addBoundary x).j = x.j := rfl
@[simp] theorem addBoundary_loops (x : Ctx) : (addBoundary x).loops = x.loops := rfl
@[simp] theorem addBoundary_fmt (x : Ctx) : (addBoundary x).fmt = x.fmt := rfl
@[simp] theorem addBoundary_fmtPend (x : Ctx) : (addBoundary x).fmtPend = x.fmtPend := rfl
@[simp] theorem addBoundary_sticky (x : Ctx) : (addBoundary x).sticky = x.sticky := rfl
@[simp] theorem addBoundary_tags (x : Ctx) : (addBoundary x).tags = x.tags := rfl
@[simp] theorem addBoundary_outstanding (x : Ctx) : (addBoundary x).outstanding = x.outstanding := rfl
@[simp] theorem addBoundary_cand (x : Ctx) : (addBoundary x).cand = x.cand := rfl
@[simp] theorem addBoundary_fileUntil (x : Ctx) : (addBoundary x).fileUntil = x.fileUntil := rfl
@[simp] theorem addBoundary_rng (x : Ctx) : (addBoundary x).rng = x.rng := rfl
@[simp] theorem addBoundary_views (x : Ctx) : (addBoundary x).views = x.views := rfl
@[simp] theorem addBoundary_claimed (x : Ctx) : (addBoundary x).claimed = x.claimed := rfl
@[simp] theorem addBoundary_slotBusy (x : Ctx) : (addBoundary x).slotBusy = x.slotBusy := rfl
@[simp] theorem addBoundary_accBusy (x : Ctx) : (addBoundary x).accBusy = x.accBusy := rfl
@[simp] theorem addBoundary_accBusyT (x : Ctx) : (addBoundary x).accBusyT = x.accBusyT := rfl
@[simp] theorem addBoundary_zstUntil (x : Ctx) : (addBoundary x).zstUntil = x.zstUntil := rfl
@[simp] theorem addBoundary_zstLo (x : Ctx) : (addBoundary x).zstLo = x.zstLo := rfl
@[simp] theorem addBoundary_scales (x : Ctx) : (addBoundary x).scales = x.scales := rfl
@[simp] theorem addBoundary_mq (x : Ctx) : (addBoundary x).mq = x.mq := rfl
@[simp] theorem addBoundary_mlast (x : Ctx) : (addBoundary x).mlast = x.mlast := rfl
@[simp] theorem addBoundary_pairs (x : Ctx) : (addBoundary x).pairs = x.pairs := rfl
@[simp] theorem addBoundary_pairBuf (x : Ctx) : (addBoundary x).pairBuf = x.pairBuf := rfl
@[simp] theorem addBoundary_mate (x : Ctx) : (addBoundary x).mate = x.mate := rfl
@[simp] theorem addBoundary_records (x : Ctx) : (addBoundary x).records = x.records := rfl
@[simp] theorem addBoundary_guards (x : Ctx) : (addBoundary x).guards = x.guards := rfl
@[simp] theorem addBoundary_guardsDue (x : Ctx) : (addBoundary x).guardsDue = x.guardsDue := rfl
@[simp] theorem addBoundary_held (x : Ctx) : (addBoundary x).held = x.held := rfl
@[simp] theorem addBoundary_awaited (x : Ctx) : (addBoundary x).awaited = x.awaited := rfl
@[simp] theorem addBoundary_snap (x : Ctx) : (addBoundary x).snap = x.snap := rfl
@[simp] theorem addBoundary_handler (x : Ctx) : (addBoundary x).handler = x.handler := rfl
@[simp] theorem addBoundary_tcause (x : Ctx) : (addBoundary x).tcause = x.tcause := rfl
@[simp] theorem addBoundary_tpc (x : Ctx) : (addBoundary x).tpc = x.tpc := rfl
@[simp] theorem addBoundary_tinfo (x : Ctx) : (addBoundary x).tinfo = x.tinfo := rfl
@[simp] theorem addBoundary_sbudget (x : Ctx) : (addBoundary x).sbudget = x.sbudget := rfl
@[simp] theorem addBoundary_extended (x : Ctx) : (addBoundary x).extended = x.extended := rfl
@[simp] theorem addBoundary_cycle (x : Ctx) : (addBoundary x).cycle = x.cycle := rfl
@[simp] theorem addBoundary_midle (x : Ctx) : (addBoundary x).midle = x.midle := rfl
@[simp] theorem addBoundary_mstall (x : Ctx) : (addBoundary x).mstall = x.mstall := rfl
@[simp] theorem addBoundary_midleSet (x : Ctx) : (addBoundary x).midleSet = x.midleSet := rfl
@[simp] theorem addBoundary_mstallSet (x : Ctx) : (addBoundary x).mstallSet = x.mstallSet := rfl
@[simp] theorem addBoundary_sinceYield (x : Ctx) : (addBoundary x).sinceYield = x.sinceYield := rfl
@[simp] theorem addBoundary_wait (x : Ctx) : (addBoundary x).wait = x.wait := rfl
@[simp] theorem addBoundary_sizing (x : Ctx) : (addBoundary x).sizing = x.sizing := rfl
@[simp] theorem addBoundary_nextIssue (x : Ctx) : (addBoundary x).nextIssue = x.nextIssue := rfl
@[simp] theorem addBoundary_rep (x : Ctx) : (addBoundary x).rep = x.rep := rfl
@[simp] theorem addBoundary_seen (x : Ctx) : (addBoundary x).seen = x.seen := rfl
@[simp] theorem addBoundary_issue (x : Ctx) : (addBoundary x).issue = x.issue.map fun i => { i with boundary := true } := rfl
@[simp] theorem addBoundary_lbuf (x : Ctx) : (addBoundary x).lbuf = x.lbuf := rfl
@[simp] theorem addBoundary_preempt (x : Ctx) : (addBoundary x).preempt = x.preempt := rfl
@[simp] theorem addBoundary_halting (x : Ctx) : (addBoundary x).halting = x.halting := rfl
@[simp] theorem addBoundary_draining (x : Ctx) : (addBoundary x).draining = x.draining := rfl
@[simp] theorem addBoundary_keeps (x : Ctx) : (addBoundary x).keeps = x.keeps := rfl
@[simp] theorem addBoundary_blocked (x : Ctx) : (addBoundary x).blocked = x.blocked := rfl
@[simp] theorem addBoundary_fetchWait (x : Ctx) : (addBoundary x).fetchWait = x.fetchWait := rfl
@[simp] theorem addBoundary_window (x : Ctx) : (addBoundary x).window = x.window := rfl
@[simp] theorem addBoundary_slotBase (x : Ctx) : (addBoundary x).slotBase = x.slotBase := rfl
@[simp] theorem addBoundary_tileBase (x : Ctx) : (addBoundary x).tileBase = x.tileBase := rfl
@[simp] theorem addBoundary_loader (x : Ctx) : (addBoundary x).loader = x.loader := rfl
@[simp] theorem addBoundary_storer (x : Ctx) : (addBoundary x).storer = x.storer := rfl
@[simp] theorem addBoundary_resident (x : Ctx) : (addBoundary x).resident = x.resident := rfl

/-! ### A transfer -/

@[simp] theorem addTransfer_task (x : Ctx) (t : Transfer) : (addTransfer x t).task = x.task := rfl
@[simp] theorem addTransfer_region (x : Ctx) (t : Transfer) : (addTransfer x t).region = x.region := rfl
@[simp] theorem addTransfer_hdr (x : Ctx) (t : Transfer) : (addTransfer x t).hdr = x.hdr := rfl
@[simp] theorem addTransfer_image (x : Ctx) (t : Transfer) : (addTransfer x t).image = x.image := rfl
@[simp] theorem addTransfer_pc (x : Ctx) (t : Transfer) : (addTransfer x t).pc = x.pc := rfl
@[simp] theorem addTransfer_v (x : Ctx) (t : Transfer) : (addTransfer x t).v = x.v := rfl
@[simp] theorem addTransfer_s (x : Ctx) (t : Transfer) : (addTransfer x t).s = x.s := rfl
@[simp] theorem addTransfer_latches (x : Ctx) (t : Transfer) : (addTransfer x t).latches = x.latches := rfl
@[simp] theorem addTransfer_flights (x : Ctx) (t : Transfer) : (addTransfer x t).flights = x.flights := rfl
@[simp] theorem addTransfer_g (x : Ctx) (t : Transfer) : (addTransfer x t).g = x.g := rfl
@[simp] theorem addTransfer_gstep (x : Ctx) (t : Transfer) : (addTransfer x t).gstep = x.gstep := rfl
@[simp] theorem addTransfer_p (x : Ctx) (t : Transfer) : (addTransfer x t).p = x.p := rfl
@[simp] theorem addTransfer_e (x : Ctx) (t : Transfer) : (addTransfer x t).e = x.e := rfl
@[simp] theorem addTransfer_j (x : Ctx) (t : Transfer) : (addTransfer x t).j = x.j := rfl
@[simp] theorem addTransfer_loops (x : Ctx) (t : Transfer) : (addTransfer x t).loops = x.loops := rfl
@[simp] theorem addTransfer_fmt (x : Ctx) (t : Transfer) : (addTransfer x t).fmt = x.fmt := rfl
@[simp] theorem addTransfer_fmtPend (x : Ctx) (t : Transfer) : (addTransfer x t).fmtPend = x.fmtPend := rfl
@[simp] theorem addTransfer_sticky (x : Ctx) (t : Transfer) : (addTransfer x t).sticky = x.sticky := rfl
@[simp] theorem addTransfer_tags (x : Ctx) (t : Transfer) : (addTransfer x t).tags = x.tags := rfl
@[simp] theorem addTransfer_outstanding (x : Ctx) (t : Transfer) : (addTransfer x t).outstanding = x.outstanding := rfl
@[simp] theorem addTransfer_cand (x : Ctx) (t : Transfer) : (addTransfer x t).cand = x.cand := rfl
@[simp] theorem addTransfer_fileUntil (x : Ctx) (t : Transfer) : (addTransfer x t).fileUntil = x.fileUntil := rfl
@[simp] theorem addTransfer_rng (x : Ctx) (t : Transfer) : (addTransfer x t).rng = x.rng := rfl
@[simp] theorem addTransfer_views (x : Ctx) (t : Transfer) : (addTransfer x t).views = x.views := rfl
@[simp] theorem addTransfer_claimed (x : Ctx) (t : Transfer) : (addTransfer x t).claimed = x.claimed := rfl
@[simp] theorem addTransfer_slotBusy (x : Ctx) (t : Transfer) : (addTransfer x t).slotBusy = x.slotBusy := rfl
@[simp] theorem addTransfer_accBusy (x : Ctx) (t : Transfer) : (addTransfer x t).accBusy = x.accBusy := rfl
@[simp] theorem addTransfer_accBusyT (x : Ctx) (t : Transfer) : (addTransfer x t).accBusyT = x.accBusyT := rfl
@[simp] theorem addTransfer_zstUntil (x : Ctx) (t : Transfer) : (addTransfer x t).zstUntil = x.zstUntil := rfl
@[simp] theorem addTransfer_zstLo (x : Ctx) (t : Transfer) : (addTransfer x t).zstLo = x.zstLo := rfl
@[simp] theorem addTransfer_scales (x : Ctx) (t : Transfer) : (addTransfer x t).scales = x.scales := rfl
@[simp] theorem addTransfer_mq (x : Ctx) (t : Transfer) : (addTransfer x t).mq = x.mq := rfl
@[simp] theorem addTransfer_mlast (x : Ctx) (t : Transfer) : (addTransfer x t).mlast = x.mlast := rfl
@[simp] theorem addTransfer_pairs (x : Ctx) (t : Transfer) : (addTransfer x t).pairs = x.pairs := rfl
@[simp] theorem addTransfer_pairBuf (x : Ctx) (t : Transfer) : (addTransfer x t).pairBuf = x.pairBuf := rfl
@[simp] theorem addTransfer_mate (x : Ctx) (t : Transfer) : (addTransfer x t).mate = x.mate := rfl
@[simp] theorem addTransfer_records (x : Ctx) (t : Transfer) : (addTransfer x t).records = x.records := rfl
@[simp] theorem addTransfer_guards (x : Ctx) (t : Transfer) : (addTransfer x t).guards = x.guards := rfl
@[simp] theorem addTransfer_guardsDue (x : Ctx) (t : Transfer) : (addTransfer x t).guardsDue = x.guardsDue := rfl
@[simp] theorem addTransfer_held (x : Ctx) (t : Transfer) : (addTransfer x t).held = x.held := rfl
@[simp] theorem addTransfer_awaited (x : Ctx) (t : Transfer) : (addTransfer x t).awaited = x.awaited := rfl
@[simp] theorem addTransfer_snap (x : Ctx) (t : Transfer) : (addTransfer x t).snap = x.snap := rfl
@[simp] theorem addTransfer_handler (x : Ctx) (t : Transfer) : (addTransfer x t).handler = x.handler := rfl
@[simp] theorem addTransfer_tcause (x : Ctx) (t : Transfer) : (addTransfer x t).tcause = x.tcause := rfl
@[simp] theorem addTransfer_tpc (x : Ctx) (t : Transfer) : (addTransfer x t).tpc = x.tpc := rfl
@[simp] theorem addTransfer_tinfo (x : Ctx) (t : Transfer) : (addTransfer x t).tinfo = x.tinfo := rfl
@[simp] theorem addTransfer_sbudget (x : Ctx) (t : Transfer) : (addTransfer x t).sbudget = x.sbudget := rfl
@[simp] theorem addTransfer_extended (x : Ctx) (t : Transfer) : (addTransfer x t).extended = x.extended := rfl
@[simp] theorem addTransfer_cycle (x : Ctx) (t : Transfer) : (addTransfer x t).cycle = x.cycle := rfl
@[simp] theorem addTransfer_midle (x : Ctx) (t : Transfer) : (addTransfer x t).midle = x.midle := rfl
@[simp] theorem addTransfer_mstall (x : Ctx) (t : Transfer) : (addTransfer x t).mstall = x.mstall := rfl
@[simp] theorem addTransfer_midleSet (x : Ctx) (t : Transfer) : (addTransfer x t).midleSet = x.midleSet := rfl
@[simp] theorem addTransfer_mstallSet (x : Ctx) (t : Transfer) : (addTransfer x t).mstallSet = x.mstallSet := rfl
@[simp] theorem addTransfer_sinceYield (x : Ctx) (t : Transfer) : (addTransfer x t).sinceYield = x.sinceYield := rfl
@[simp] theorem addTransfer_wait (x : Ctx) (t : Transfer) : (addTransfer x t).wait = x.wait := rfl
@[simp] theorem addTransfer_sizing (x : Ctx) (t : Transfer) : (addTransfer x t).sizing = x.sizing := rfl
@[simp] theorem addTransfer_nextIssue (x : Ctx) (t : Transfer) : (addTransfer x t).nextIssue = x.nextIssue := rfl
@[simp] theorem addTransfer_rep (x : Ctx) (t : Transfer) : (addTransfer x t).rep = x.rep := rfl
@[simp] theorem addTransfer_seen (x : Ctx) (t : Transfer) : (addTransfer x t).seen = x.seen := rfl
@[simp] theorem addTransfer_issue (x : Ctx) (t : Transfer) : (addTransfer x t).issue = x.issue.map fun i => { i with transfer := some t } := rfl
@[simp] theorem addTransfer_lbuf (x : Ctx) (t : Transfer) : (addTransfer x t).lbuf = x.lbuf := rfl
@[simp] theorem addTransfer_preempt (x : Ctx) (t : Transfer) : (addTransfer x t).preempt = x.preempt := rfl
@[simp] theorem addTransfer_halting (x : Ctx) (t : Transfer) : (addTransfer x t).halting = x.halting := rfl
@[simp] theorem addTransfer_draining (x : Ctx) (t : Transfer) : (addTransfer x t).draining = x.draining := rfl
@[simp] theorem addTransfer_keeps (x : Ctx) (t : Transfer) : (addTransfer x t).keeps = x.keeps := rfl
@[simp] theorem addTransfer_blocked (x : Ctx) (t : Transfer) : (addTransfer x t).blocked = x.blocked := rfl
@[simp] theorem addTransfer_fetchWait (x : Ctx) (t : Transfer) : (addTransfer x t).fetchWait = x.fetchWait := rfl
@[simp] theorem addTransfer_window (x : Ctx) (t : Transfer) : (addTransfer x t).window = x.window := rfl
@[simp] theorem addTransfer_slotBase (x : Ctx) (t : Transfer) : (addTransfer x t).slotBase = x.slotBase := rfl
@[simp] theorem addTransfer_tileBase (x : Ctx) (t : Transfer) : (addTransfer x t).tileBase = x.tileBase := rfl
@[simp] theorem addTransfer_loader (x : Ctx) (t : Transfer) : (addTransfer x t).loader = x.loader := rfl
@[simp] theorem addTransfer_storer (x : Ctx) (t : Transfer) : (addTransfer x t).storer = x.storer := rfl
@[simp] theorem addTransfer_resident (x : Ctx) (t : Transfer) : (addTransfer x t).resident = x.resident := rfl

/-! ### A wait -/

@[simp] theorem addWait_task (x : Ctx) (w : Wait) : (addWait x w).task = x.task := rfl
@[simp] theorem addWait_region (x : Ctx) (w : Wait) : (addWait x w).region = x.region := rfl
@[simp] theorem addWait_hdr (x : Ctx) (w : Wait) : (addWait x w).hdr = x.hdr := rfl
@[simp] theorem addWait_image (x : Ctx) (w : Wait) : (addWait x w).image = x.image := rfl
@[simp] theorem addWait_pc (x : Ctx) (w : Wait) : (addWait x w).pc = x.pc := rfl
@[simp] theorem addWait_v (x : Ctx) (w : Wait) : (addWait x w).v = x.v := rfl
@[simp] theorem addWait_s (x : Ctx) (w : Wait) : (addWait x w).s = x.s := rfl
@[simp] theorem addWait_latches (x : Ctx) (w : Wait) : (addWait x w).latches = x.latches := rfl
@[simp] theorem addWait_flights (x : Ctx) (w : Wait) : (addWait x w).flights = x.flights := rfl
@[simp] theorem addWait_g (x : Ctx) (w : Wait) : (addWait x w).g = x.g := rfl
@[simp] theorem addWait_gstep (x : Ctx) (w : Wait) : (addWait x w).gstep = x.gstep := rfl
@[simp] theorem addWait_p (x : Ctx) (w : Wait) : (addWait x w).p = x.p := rfl
@[simp] theorem addWait_e (x : Ctx) (w : Wait) : (addWait x w).e = x.e := rfl
@[simp] theorem addWait_j (x : Ctx) (w : Wait) : (addWait x w).j = x.j := rfl
@[simp] theorem addWait_loops (x : Ctx) (w : Wait) : (addWait x w).loops = x.loops := rfl
@[simp] theorem addWait_fmt (x : Ctx) (w : Wait) : (addWait x w).fmt = x.fmt := rfl
@[simp] theorem addWait_fmtPend (x : Ctx) (w : Wait) : (addWait x w).fmtPend = x.fmtPend := rfl
@[simp] theorem addWait_sticky (x : Ctx) (w : Wait) : (addWait x w).sticky = x.sticky := rfl
@[simp] theorem addWait_tags (x : Ctx) (w : Wait) : (addWait x w).tags = x.tags := rfl
@[simp] theorem addWait_outstanding (x : Ctx) (w : Wait) : (addWait x w).outstanding = x.outstanding := rfl
@[simp] theorem addWait_cand (x : Ctx) (w : Wait) : (addWait x w).cand = x.cand := rfl
@[simp] theorem addWait_fileUntil (x : Ctx) (w : Wait) : (addWait x w).fileUntil = x.fileUntil := rfl
@[simp] theorem addWait_rng (x : Ctx) (w : Wait) : (addWait x w).rng = x.rng := rfl
@[simp] theorem addWait_views (x : Ctx) (w : Wait) : (addWait x w).views = x.views := rfl
@[simp] theorem addWait_claimed (x : Ctx) (w : Wait) : (addWait x w).claimed = x.claimed := rfl
@[simp] theorem addWait_slotBusy (x : Ctx) (w : Wait) : (addWait x w).slotBusy = x.slotBusy := rfl
@[simp] theorem addWait_accBusy (x : Ctx) (w : Wait) : (addWait x w).accBusy = x.accBusy := rfl
@[simp] theorem addWait_accBusyT (x : Ctx) (w : Wait) : (addWait x w).accBusyT = x.accBusyT := rfl
@[simp] theorem addWait_zstUntil (x : Ctx) (w : Wait) : (addWait x w).zstUntil = x.zstUntil := rfl
@[simp] theorem addWait_zstLo (x : Ctx) (w : Wait) : (addWait x w).zstLo = x.zstLo := rfl
@[simp] theorem addWait_scales (x : Ctx) (w : Wait) : (addWait x w).scales = x.scales := rfl
@[simp] theorem addWait_mq (x : Ctx) (w : Wait) : (addWait x w).mq = x.mq := rfl
@[simp] theorem addWait_mlast (x : Ctx) (w : Wait) : (addWait x w).mlast = x.mlast := rfl
@[simp] theorem addWait_pairs (x : Ctx) (w : Wait) : (addWait x w).pairs = x.pairs := rfl
@[simp] theorem addWait_pairBuf (x : Ctx) (w : Wait) : (addWait x w).pairBuf = x.pairBuf := rfl
@[simp] theorem addWait_mate (x : Ctx) (w : Wait) : (addWait x w).mate = x.mate := rfl
@[simp] theorem addWait_records (x : Ctx) (w : Wait) : (addWait x w).records = x.records := rfl
@[simp] theorem addWait_guards (x : Ctx) (w : Wait) : (addWait x w).guards = x.guards := rfl
@[simp] theorem addWait_guardsDue (x : Ctx) (w : Wait) : (addWait x w).guardsDue = x.guardsDue := rfl
@[simp] theorem addWait_held (x : Ctx) (w : Wait) : (addWait x w).held = x.held := rfl
@[simp] theorem addWait_awaited (x : Ctx) (w : Wait) : (addWait x w).awaited = x.awaited := rfl
@[simp] theorem addWait_snap (x : Ctx) (w : Wait) : (addWait x w).snap = x.snap := rfl
@[simp] theorem addWait_handler (x : Ctx) (w : Wait) : (addWait x w).handler = x.handler := rfl
@[simp] theorem addWait_tcause (x : Ctx) (w : Wait) : (addWait x w).tcause = x.tcause := rfl
@[simp] theorem addWait_tpc (x : Ctx) (w : Wait) : (addWait x w).tpc = x.tpc := rfl
@[simp] theorem addWait_tinfo (x : Ctx) (w : Wait) : (addWait x w).tinfo = x.tinfo := rfl
@[simp] theorem addWait_sbudget (x : Ctx) (w : Wait) : (addWait x w).sbudget = x.sbudget := rfl
@[simp] theorem addWait_extended (x : Ctx) (w : Wait) : (addWait x w).extended = x.extended := rfl
@[simp] theorem addWait_cycle (x : Ctx) (w : Wait) : (addWait x w).cycle = x.cycle := rfl
@[simp] theorem addWait_midle (x : Ctx) (w : Wait) : (addWait x w).midle = x.midle := rfl
@[simp] theorem addWait_mstall (x : Ctx) (w : Wait) : (addWait x w).mstall = x.mstall := rfl
@[simp] theorem addWait_midleSet (x : Ctx) (w : Wait) : (addWait x w).midleSet = x.midleSet := rfl
@[simp] theorem addWait_mstallSet (x : Ctx) (w : Wait) : (addWait x w).mstallSet = x.mstallSet := rfl
@[simp] theorem addWait_sinceYield (x : Ctx) (w : Wait) : (addWait x w).sinceYield = x.sinceYield := rfl
@[simp] theorem addWait_wait (x : Ctx) (w : Wait) : (addWait x w).wait = x.wait := rfl
@[simp] theorem addWait_sizing (x : Ctx) (w : Wait) : (addWait x w).sizing = x.sizing := rfl
@[simp] theorem addWait_nextIssue (x : Ctx) (w : Wait) : (addWait x w).nextIssue = x.nextIssue := rfl
@[simp] theorem addWait_rep (x : Ctx) (w : Wait) : (addWait x w).rep = x.rep := rfl
@[simp] theorem addWait_seen (x : Ctx) (w : Wait) : (addWait x w).seen = x.seen := rfl
@[simp] theorem addWait_issue (x : Ctx) (w : Wait) : (addWait x w).issue = x.issue.map fun i => { i with wait := w } := rfl
@[simp] theorem addWait_lbuf (x : Ctx) (w : Wait) : (addWait x w).lbuf = x.lbuf := rfl
@[simp] theorem addWait_preempt (x : Ctx) (w : Wait) : (addWait x w).preempt = x.preempt := rfl
@[simp] theorem addWait_halting (x : Ctx) (w : Wait) : (addWait x w).halting = x.halting := rfl
@[simp] theorem addWait_draining (x : Ctx) (w : Wait) : (addWait x w).draining = x.draining := rfl
@[simp] theorem addWait_keeps (x : Ctx) (w : Wait) : (addWait x w).keeps = x.keeps := rfl
@[simp] theorem addWait_blocked (x : Ctx) (w : Wait) : (addWait x w).blocked = x.blocked := rfl
@[simp] theorem addWait_fetchWait (x : Ctx) (w : Wait) : (addWait x w).fetchWait = x.fetchWait := rfl
@[simp] theorem addWait_window (x : Ctx) (w : Wait) : (addWait x w).window = x.window := rfl
@[simp] theorem addWait_slotBase (x : Ctx) (w : Wait) : (addWait x w).slotBase = x.slotBase := rfl
@[simp] theorem addWait_tileBase (x : Ctx) (w : Wait) : (addWait x w).tileBase = x.tileBase := rfl
@[simp] theorem addWait_loader (x : Ctx) (w : Wait) : (addWait x w).loader = x.loader := rfl
@[simp] theorem addWait_storer (x : Ctx) (w : Wait) : (addWait x w).storer = x.storer := rfl
@[simp] theorem addWait_resident (x : Ctx) (w : Wait) : (addWait x w).resident = x.resident := rfl

/-! ### Handler mode left -/

@[simp] theorem leaveHandler_task (x : Ctx) : (leaveHandler x).task = x.task := rfl
@[simp] theorem leaveHandler_region (x : Ctx) : (leaveHandler x).region = x.region := rfl
@[simp] theorem leaveHandler_hdr (x : Ctx) : (leaveHandler x).hdr = x.hdr := rfl
@[simp] theorem leaveHandler_image (x : Ctx) : (leaveHandler x).image = x.image := rfl
@[simp] theorem leaveHandler_pc (x : Ctx) : (leaveHandler x).pc = x.pc := rfl
@[simp] theorem leaveHandler_v (x : Ctx) : (leaveHandler x).v = x.v := rfl
@[simp] theorem leaveHandler_s (x : Ctx) : (leaveHandler x).s = x.s := rfl
@[simp] theorem leaveHandler_latches (x : Ctx) : (leaveHandler x).latches = x.latches := rfl
@[simp] theorem leaveHandler_flights (x : Ctx) : (leaveHandler x).flights = x.flights := rfl
@[simp] theorem leaveHandler_g (x : Ctx) : (leaveHandler x).g = x.g := rfl
@[simp] theorem leaveHandler_gstep (x : Ctx) : (leaveHandler x).gstep = x.gstep := rfl
@[simp] theorem leaveHandler_p (x : Ctx) : (leaveHandler x).p = x.p := rfl
@[simp] theorem leaveHandler_e (x : Ctx) : (leaveHandler x).e = x.e := rfl
@[simp] theorem leaveHandler_j (x : Ctx) : (leaveHandler x).j = x.j := rfl
@[simp] theorem leaveHandler_loops (x : Ctx) : (leaveHandler x).loops = x.loops := rfl
@[simp] theorem leaveHandler_fmt (x : Ctx) : (leaveHandler x).fmt = x.fmt := rfl
@[simp] theorem leaveHandler_fmtPend (x : Ctx) : (leaveHandler x).fmtPend = x.fmtPend := rfl
@[simp] theorem leaveHandler_sticky (x : Ctx) : (leaveHandler x).sticky = x.sticky := rfl
@[simp] theorem leaveHandler_tags (x : Ctx) : (leaveHandler x).tags = x.tags := rfl
@[simp] theorem leaveHandler_outstanding (x : Ctx) : (leaveHandler x).outstanding = x.outstanding := rfl
@[simp] theorem leaveHandler_cand (x : Ctx) : (leaveHandler x).cand = x.cand := rfl
@[simp] theorem leaveHandler_fileUntil (x : Ctx) : (leaveHandler x).fileUntil = x.fileUntil := rfl
@[simp] theorem leaveHandler_rng (x : Ctx) : (leaveHandler x).rng = x.rng := rfl
@[simp] theorem leaveHandler_views (x : Ctx) : (leaveHandler x).views = x.views := rfl
@[simp] theorem leaveHandler_claimed (x : Ctx) : (leaveHandler x).claimed = x.claimed := rfl
@[simp] theorem leaveHandler_slotBusy (x : Ctx) : (leaveHandler x).slotBusy = x.slotBusy := rfl
@[simp] theorem leaveHandler_accBusy (x : Ctx) : (leaveHandler x).accBusy = x.accBusy := rfl
@[simp] theorem leaveHandler_accBusyT (x : Ctx) : (leaveHandler x).accBusyT = x.accBusyT := rfl
@[simp] theorem leaveHandler_zstUntil (x : Ctx) : (leaveHandler x).zstUntil = x.zstUntil := rfl
@[simp] theorem leaveHandler_zstLo (x : Ctx) : (leaveHandler x).zstLo = x.zstLo := rfl
@[simp] theorem leaveHandler_scales (x : Ctx) : (leaveHandler x).scales = x.scales := rfl
@[simp] theorem leaveHandler_mq (x : Ctx) : (leaveHandler x).mq = x.mq := rfl
@[simp] theorem leaveHandler_mlast (x : Ctx) : (leaveHandler x).mlast = x.mlast := rfl
@[simp] theorem leaveHandler_pairs (x : Ctx) : (leaveHandler x).pairs = x.pairs := rfl
@[simp] theorem leaveHandler_pairBuf (x : Ctx) : (leaveHandler x).pairBuf = x.pairBuf := rfl
@[simp] theorem leaveHandler_mate (x : Ctx) : (leaveHandler x).mate = x.mate := rfl
@[simp] theorem leaveHandler_records (x : Ctx) : (leaveHandler x).records = x.records := rfl
@[simp] theorem leaveHandler_guards (x : Ctx) : (leaveHandler x).guards = x.guards := rfl
@[simp] theorem leaveHandler_guardsDue (x : Ctx) : (leaveHandler x).guardsDue = x.guardsDue := rfl
@[simp] theorem leaveHandler_held (x : Ctx) : (leaveHandler x).held = x.held := rfl
@[simp] theorem leaveHandler_awaited (x : Ctx) : (leaveHandler x).awaited = x.awaited := rfl
@[simp] theorem leaveHandler_snap (x : Ctx) : (leaveHandler x).snap = x.snap := rfl
@[simp] theorem leaveHandler_handler (x : Ctx) : (leaveHandler x).handler = false := rfl
@[simp] theorem leaveHandler_tcause (x : Ctx) : (leaveHandler x).tcause = 0 := rfl
@[simp] theorem leaveHandler_tpc (x : Ctx) : (leaveHandler x).tpc = 0 := rfl
@[simp] theorem leaveHandler_tinfo (x : Ctx) : (leaveHandler x).tinfo = 0 := rfl
@[simp] theorem leaveHandler_sbudget (x : Ctx) : (leaveHandler x).sbudget = x.sbudget := rfl
@[simp] theorem leaveHandler_extended (x : Ctx) : (leaveHandler x).extended = x.extended := rfl
@[simp] theorem leaveHandler_cycle (x : Ctx) : (leaveHandler x).cycle = x.cycle := rfl
@[simp] theorem leaveHandler_midle (x : Ctx) : (leaveHandler x).midle = x.midle := rfl
@[simp] theorem leaveHandler_mstall (x : Ctx) : (leaveHandler x).mstall = x.mstall := rfl
@[simp] theorem leaveHandler_midleSet (x : Ctx) : (leaveHandler x).midleSet = x.midleSet := rfl
@[simp] theorem leaveHandler_mstallSet (x : Ctx) : (leaveHandler x).mstallSet = x.mstallSet := rfl
@[simp] theorem leaveHandler_sinceYield (x : Ctx) : (leaveHandler x).sinceYield = x.sinceYield := rfl
@[simp] theorem leaveHandler_wait (x : Ctx) : (leaveHandler x).wait = x.wait := rfl
@[simp] theorem leaveHandler_sizing (x : Ctx) : (leaveHandler x).sizing = x.sizing := rfl
@[simp] theorem leaveHandler_nextIssue (x : Ctx) : (leaveHandler x).nextIssue = x.nextIssue := rfl
@[simp] theorem leaveHandler_rep (x : Ctx) : (leaveHandler x).rep = x.rep := rfl
@[simp] theorem leaveHandler_seen (x : Ctx) : (leaveHandler x).seen = x.seen := rfl
@[simp] theorem leaveHandler_issue (x : Ctx) : (leaveHandler x).issue = x.issue := rfl
@[simp] theorem leaveHandler_lbuf (x : Ctx) : (leaveHandler x).lbuf = x.lbuf := rfl
@[simp] theorem leaveHandler_preempt (x : Ctx) : (leaveHandler x).preempt = x.preempt := rfl
@[simp] theorem leaveHandler_halting (x : Ctx) : (leaveHandler x).halting = x.halting := rfl
@[simp] theorem leaveHandler_draining (x : Ctx) : (leaveHandler x).draining = x.draining := rfl
@[simp] theorem leaveHandler_keeps (x : Ctx) : (leaveHandler x).keeps = x.keeps := rfl
@[simp] theorem leaveHandler_blocked (x : Ctx) : (leaveHandler x).blocked = x.blocked := rfl
@[simp] theorem leaveHandler_fetchWait (x : Ctx) : (leaveHandler x).fetchWait = x.fetchWait := rfl
@[simp] theorem leaveHandler_window (x : Ctx) : (leaveHandler x).window = x.window := rfl
@[simp] theorem leaveHandler_slotBase (x : Ctx) : (leaveHandler x).slotBase = x.slotBase := rfl
@[simp] theorem leaveHandler_tileBase (x : Ctx) : (leaveHandler x).tileBase = x.tileBase := rfl
@[simp] theorem leaveHandler_loader (x : Ctx) : (leaveHandler x).loader = x.loader := rfl
@[simp] theorem leaveHandler_storer (x : Ctx) : (leaveHandler x).storer = x.storer := rfl
@[simp] theorem leaveHandler_resident (x : Ctx) : (leaveHandler x).resident = x.resident := rfl

/-! ### A queue replaced -/

@[simp] theorem setQueue_task (x : Ctx) (b : Bank) (n : Nat) (q : Queue) : (setQueue x b n q).task = x.task := by
  cases b <;> rfl
@[simp] theorem setQueue_region (x : Ctx) (b : Bank) (n : Nat) (q : Queue) : (setQueue x b n q).region = x.region := by
  cases b <;> rfl
@[simp] theorem setQueue_hdr (x : Ctx) (b : Bank) (n : Nat) (q : Queue) : (setQueue x b n q).hdr = x.hdr := by
  cases b <;> rfl
@[simp] theorem setQueue_image (x : Ctx) (b : Bank) (n : Nat) (q : Queue) : (setQueue x b n q).image = x.image := by
  cases b <;> rfl
@[simp] theorem setQueue_pc (x : Ctx) (b : Bank) (n : Nat) (q : Queue) : (setQueue x b n q).pc = x.pc := by
  cases b <;> rfl
@[simp] theorem setQueue_latches (x : Ctx) (b : Bank) (n : Nat) (q : Queue) : (setQueue x b n q).latches = x.latches := by
  cases b <;> rfl
@[simp] theorem setQueue_flights (x : Ctx) (b : Bank) (n : Nat) (q : Queue) : (setQueue x b n q).flights = x.flights := by
  cases b <;> rfl
@[simp] theorem setQueue_g (x : Ctx) (b : Bank) (n : Nat) (q : Queue) : (setQueue x b n q).g = x.g := by
  cases b <;> rfl
@[simp] theorem setQueue_gstep (x : Ctx) (b : Bank) (n : Nat) (q : Queue) : (setQueue x b n q).gstep = x.gstep := by
  cases b <;> rfl
@[simp] theorem setQueue_p (x : Ctx) (b : Bank) (n : Nat) (q : Queue) : (setQueue x b n q).p = x.p := by
  cases b <;> rfl
@[simp] theorem setQueue_e (x : Ctx) (b : Bank) (n : Nat) (q : Queue) : (setQueue x b n q).e = x.e := by
  cases b <;> rfl
@[simp] theorem setQueue_j (x : Ctx) (b : Bank) (n : Nat) (q : Queue) : (setQueue x b n q).j = x.j := by
  cases b <;> rfl
@[simp] theorem setQueue_loops (x : Ctx) (b : Bank) (n : Nat) (q : Queue) : (setQueue x b n q).loops = x.loops := by
  cases b <;> rfl
@[simp] theorem setQueue_fmt (x : Ctx) (b : Bank) (n : Nat) (q : Queue) : (setQueue x b n q).fmt = x.fmt := by
  cases b <;> rfl
@[simp] theorem setQueue_fmtPend (x : Ctx) (b : Bank) (n : Nat) (q : Queue) : (setQueue x b n q).fmtPend = x.fmtPend := by
  cases b <;> rfl
@[simp] theorem setQueue_sticky (x : Ctx) (b : Bank) (n : Nat) (q : Queue) : (setQueue x b n q).sticky = x.sticky := by
  cases b <;> rfl
@[simp] theorem setQueue_tags (x : Ctx) (b : Bank) (n : Nat) (q : Queue) : (setQueue x b n q).tags = x.tags := by
  cases b <;> rfl
@[simp] theorem setQueue_outstanding (x : Ctx) (b : Bank) (n : Nat) (q : Queue) : (setQueue x b n q).outstanding = x.outstanding := by
  cases b <;> rfl
@[simp] theorem setQueue_cand (x : Ctx) (b : Bank) (n : Nat) (q : Queue) : (setQueue x b n q).cand = x.cand := by
  cases b <;> rfl
@[simp] theorem setQueue_fileUntil (x : Ctx) (b : Bank) (n : Nat) (q : Queue) : (setQueue x b n q).fileUntil = x.fileUntil := by
  cases b <;> rfl
@[simp] theorem setQueue_rng (x : Ctx) (b : Bank) (n : Nat) (q : Queue) : (setQueue x b n q).rng = x.rng := by
  cases b <;> rfl
@[simp] theorem setQueue_views (x : Ctx) (b : Bank) (n : Nat) (q : Queue) : (setQueue x b n q).views = x.views := by
  cases b <;> rfl
@[simp] theorem setQueue_claimed (x : Ctx) (b : Bank) (n : Nat) (q : Queue) : (setQueue x b n q).claimed = x.claimed := by
  cases b <;> rfl
@[simp] theorem setQueue_slotBusy (x : Ctx) (b : Bank) (n : Nat) (q : Queue) : (setQueue x b n q).slotBusy = x.slotBusy := by
  cases b <;> rfl
@[simp] theorem setQueue_accBusy (x : Ctx) (b : Bank) (n : Nat) (q : Queue) : (setQueue x b n q).accBusy = x.accBusy := by
  cases b <;> rfl
@[simp] theorem setQueue_accBusyT (x : Ctx) (b : Bank) (n : Nat) (q : Queue) : (setQueue x b n q).accBusyT = x.accBusyT := by
  cases b <;> rfl
@[simp] theorem setQueue_zstUntil (x : Ctx) (b : Bank) (n : Nat) (q : Queue) : (setQueue x b n q).zstUntil = x.zstUntil := by
  cases b <;> rfl
@[simp] theorem setQueue_zstLo (x : Ctx) (b : Bank) (n : Nat) (q : Queue) : (setQueue x b n q).zstLo = x.zstLo := by
  cases b <;> rfl
@[simp] theorem setQueue_scales (x : Ctx) (b : Bank) (n : Nat) (q : Queue) : (setQueue x b n q).scales = x.scales := by
  cases b <;> rfl
@[simp] theorem setQueue_mq (x : Ctx) (b : Bank) (n : Nat) (q : Queue) : (setQueue x b n q).mq = x.mq := by
  cases b <;> rfl
@[simp] theorem setQueue_mlast (x : Ctx) (b : Bank) (n : Nat) (q : Queue) : (setQueue x b n q).mlast = x.mlast := by
  cases b <;> rfl
@[simp] theorem setQueue_pairs (x : Ctx) (b : Bank) (n : Nat) (q : Queue) : (setQueue x b n q).pairs = x.pairs := by
  cases b <;> rfl
@[simp] theorem setQueue_pairBuf (x : Ctx) (b : Bank) (n : Nat) (q : Queue) : (setQueue x b n q).pairBuf = x.pairBuf := by
  cases b <;> rfl
@[simp] theorem setQueue_mate (x : Ctx) (b : Bank) (n : Nat) (q : Queue) : (setQueue x b n q).mate = x.mate := by
  cases b <;> rfl
@[simp] theorem setQueue_records (x : Ctx) (b : Bank) (n : Nat) (q : Queue) : (setQueue x b n q).records = x.records := by
  cases b <;> rfl
@[simp] theorem setQueue_guards (x : Ctx) (b : Bank) (n : Nat) (q : Queue) : (setQueue x b n q).guards = x.guards := by
  cases b <;> rfl
@[simp] theorem setQueue_guardsDue (x : Ctx) (b : Bank) (n : Nat) (q : Queue) : (setQueue x b n q).guardsDue = x.guardsDue := by
  cases b <;> rfl
@[simp] theorem setQueue_held (x : Ctx) (b : Bank) (n : Nat) (q : Queue) : (setQueue x b n q).held = x.held := by
  cases b <;> rfl
@[simp] theorem setQueue_awaited (x : Ctx) (b : Bank) (n : Nat) (q : Queue) : (setQueue x b n q).awaited = x.awaited := by
  cases b <;> rfl
@[simp] theorem setQueue_snap (x : Ctx) (b : Bank) (n : Nat) (q : Queue) : (setQueue x b n q).snap = x.snap := by
  cases b <;> rfl
@[simp] theorem setQueue_handler (x : Ctx) (b : Bank) (n : Nat) (q : Queue) : (setQueue x b n q).handler = x.handler := by
  cases b <;> rfl
@[simp] theorem setQueue_tcause (x : Ctx) (b : Bank) (n : Nat) (q : Queue) : (setQueue x b n q).tcause = x.tcause := by
  cases b <;> rfl
@[simp] theorem setQueue_tpc (x : Ctx) (b : Bank) (n : Nat) (q : Queue) : (setQueue x b n q).tpc = x.tpc := by
  cases b <;> rfl
@[simp] theorem setQueue_tinfo (x : Ctx) (b : Bank) (n : Nat) (q : Queue) : (setQueue x b n q).tinfo = x.tinfo := by
  cases b <;> rfl
@[simp] theorem setQueue_sbudget (x : Ctx) (b : Bank) (n : Nat) (q : Queue) : (setQueue x b n q).sbudget = x.sbudget := by
  cases b <;> rfl
@[simp] theorem setQueue_extended (x : Ctx) (b : Bank) (n : Nat) (q : Queue) : (setQueue x b n q).extended = x.extended := by
  cases b <;> rfl
@[simp] theorem setQueue_cycle (x : Ctx) (b : Bank) (n : Nat) (q : Queue) : (setQueue x b n q).cycle = x.cycle := by
  cases b <;> rfl
@[simp] theorem setQueue_midle (x : Ctx) (b : Bank) (n : Nat) (q : Queue) : (setQueue x b n q).midle = x.midle := by
  cases b <;> rfl
@[simp] theorem setQueue_mstall (x : Ctx) (b : Bank) (n : Nat) (q : Queue) : (setQueue x b n q).mstall = x.mstall := by
  cases b <;> rfl
@[simp] theorem setQueue_midleSet (x : Ctx) (b : Bank) (n : Nat) (q : Queue) : (setQueue x b n q).midleSet = x.midleSet := by
  cases b <;> rfl
@[simp] theorem setQueue_mstallSet (x : Ctx) (b : Bank) (n : Nat) (q : Queue) : (setQueue x b n q).mstallSet = x.mstallSet := by
  cases b <;> rfl
@[simp] theorem setQueue_sinceYield (x : Ctx) (b : Bank) (n : Nat) (q : Queue) : (setQueue x b n q).sinceYield = x.sinceYield := by
  cases b <;> rfl
@[simp] theorem setQueue_wait (x : Ctx) (b : Bank) (n : Nat) (q : Queue) : (setQueue x b n q).wait = x.wait := by
  cases b <;> rfl
@[simp] theorem setQueue_sizing (x : Ctx) (b : Bank) (n : Nat) (q : Queue) : (setQueue x b n q).sizing = x.sizing := by
  cases b <;> rfl
@[simp] theorem setQueue_nextIssue (x : Ctx) (b : Bank) (n : Nat) (q : Queue) : (setQueue x b n q).nextIssue = x.nextIssue := by
  cases b <;> rfl
@[simp] theorem setQueue_rep (x : Ctx) (b : Bank) (n : Nat) (q : Queue) : (setQueue x b n q).rep = x.rep := by
  cases b <;> rfl
@[simp] theorem setQueue_seen (x : Ctx) (b : Bank) (n : Nat) (q : Queue) : (setQueue x b n q).seen = x.seen := by
  cases b <;> rfl
@[simp] theorem setQueue_issue (x : Ctx) (b : Bank) (n : Nat) (q : Queue) : (setQueue x b n q).issue = x.issue := by
  cases b <;> rfl
@[simp] theorem setQueue_lbuf (x : Ctx) (b : Bank) (n : Nat) (q : Queue) : (setQueue x b n q).lbuf = x.lbuf := by
  cases b <;> rfl
@[simp] theorem setQueue_preempt (x : Ctx) (b : Bank) (n : Nat) (q : Queue) : (setQueue x b n q).preempt = x.preempt := by
  cases b <;> rfl
@[simp] theorem setQueue_halting (x : Ctx) (b : Bank) (n : Nat) (q : Queue) : (setQueue x b n q).halting = x.halting := by
  cases b <;> rfl
@[simp] theorem setQueue_draining (x : Ctx) (b : Bank) (n : Nat) (q : Queue) : (setQueue x b n q).draining = x.draining := by
  cases b <;> rfl
@[simp] theorem setQueue_keeps (x : Ctx) (b : Bank) (n : Nat) (q : Queue) : (setQueue x b n q).keeps = x.keeps := by
  cases b <;> rfl
@[simp] theorem setQueue_blocked (x : Ctx) (b : Bank) (n : Nat) (q : Queue) : (setQueue x b n q).blocked = x.blocked := by
  cases b <;> rfl
@[simp] theorem setQueue_fetchWait (x : Ctx) (b : Bank) (n : Nat) (q : Queue) : (setQueue x b n q).fetchWait = x.fetchWait := by
  cases b <;> rfl
@[simp] theorem setQueue_window (x : Ctx) (b : Bank) (n : Nat) (q : Queue) : (setQueue x b n q).window = x.window := by
  cases b <;> rfl
@[simp] theorem setQueue_slotBase (x : Ctx) (b : Bank) (n : Nat) (q : Queue) : (setQueue x b n q).slotBase = x.slotBase := by
  cases b <;> rfl
@[simp] theorem setQueue_tileBase (x : Ctx) (b : Bank) (n : Nat) (q : Queue) : (setQueue x b n q).tileBase = x.tileBase := by
  cases b <;> rfl
@[simp] theorem setQueue_loader (x : Ctx) (b : Bank) (n : Nat) (q : Queue) : (setQueue x b n q).loader = x.loader := by
  cases b <;> rfl
@[simp] theorem setQueue_storer (x : Ctx) (b : Bank) (n : Nat) (q : Queue) : (setQueue x b n q).storer = x.storer := by
  cases b <;> rfl
@[simp] theorem setQueue_resident (x : Ctx) (b : Bank) (n : Nat) (q : Queue) : (setQueue x b n q).resident = x.resident := by
  cases b <;> rfl

/-! ### A predicate written -/

@[simp] theorem setPred_task (x : Ctx) (n : Nat) (b : Bool) : (setPred x n b).task = x.task := by
  unfold setPred; split <;> rfl
@[simp] theorem setPred_region (x : Ctx) (n : Nat) (b : Bool) : (setPred x n b).region = x.region := by
  unfold setPred; split <;> rfl
@[simp] theorem setPred_hdr (x : Ctx) (n : Nat) (b : Bool) : (setPred x n b).hdr = x.hdr := by
  unfold setPred; split <;> rfl
@[simp] theorem setPred_image (x : Ctx) (n : Nat) (b : Bool) : (setPred x n b).image = x.image := by
  unfold setPred; split <;> rfl
@[simp] theorem setPred_pc (x : Ctx) (n : Nat) (b : Bool) : (setPred x n b).pc = x.pc := by
  unfold setPred; split <;> rfl
@[simp] theorem setPred_v (x : Ctx) (n : Nat) (b : Bool) : (setPred x n b).v = x.v := by
  unfold setPred; split <;> rfl
@[simp] theorem setPred_s (x : Ctx) (n : Nat) (b : Bool) : (setPred x n b).s = x.s := by
  unfold setPred; split <;> rfl
@[simp] theorem setPred_latches (x : Ctx) (n : Nat) (b : Bool) : (setPred x n b).latches = x.latches := by
  unfold setPred; split <;> rfl
@[simp] theorem setPred_flights (x : Ctx) (n : Nat) (b : Bool) : (setPred x n b).flights = x.flights := by
  unfold setPred; split <;> rfl
@[simp] theorem setPred_g (x : Ctx) (n : Nat) (b : Bool) : (setPred x n b).g = x.g := by
  unfold setPred; split <;> rfl
@[simp] theorem setPred_gstep (x : Ctx) (n : Nat) (b : Bool) : (setPred x n b).gstep = x.gstep := by
  unfold setPred; split <;> rfl
@[simp] theorem setPred_e (x : Ctx) (n : Nat) (b : Bool) : (setPred x n b).e = x.e := by
  unfold setPred; split <;> rfl
@[simp] theorem setPred_j (x : Ctx) (n : Nat) (b : Bool) : (setPred x n b).j = x.j := by
  unfold setPred; split <;> rfl
@[simp] theorem setPred_loops (x : Ctx) (n : Nat) (b : Bool) : (setPred x n b).loops = x.loops := by
  unfold setPred; split <;> rfl
@[simp] theorem setPred_fmt (x : Ctx) (n : Nat) (b : Bool) : (setPred x n b).fmt = x.fmt := by
  unfold setPred; split <;> rfl
@[simp] theorem setPred_fmtPend (x : Ctx) (n : Nat) (b : Bool) : (setPred x n b).fmtPend = x.fmtPend := by
  unfold setPred; split <;> rfl
@[simp] theorem setPred_sticky (x : Ctx) (n : Nat) (b : Bool) : (setPred x n b).sticky = x.sticky := by
  unfold setPred; split <;> rfl
@[simp] theorem setPred_tags (x : Ctx) (n : Nat) (b : Bool) : (setPred x n b).tags = x.tags := by
  unfold setPred; split <;> rfl
@[simp] theorem setPred_outstanding (x : Ctx) (n : Nat) (b : Bool) : (setPred x n b).outstanding = x.outstanding := by
  unfold setPred; split <;> rfl
@[simp] theorem setPred_cand (x : Ctx) (n : Nat) (b : Bool) : (setPred x n b).cand = x.cand := by
  unfold setPred; split <;> rfl
@[simp] theorem setPred_fileUntil (x : Ctx) (n : Nat) (b : Bool) : (setPred x n b).fileUntil = x.fileUntil := by
  unfold setPred; split <;> rfl
@[simp] theorem setPred_rng (x : Ctx) (n : Nat) (b : Bool) : (setPred x n b).rng = x.rng := by
  unfold setPred; split <;> rfl
@[simp] theorem setPred_views (x : Ctx) (n : Nat) (b : Bool) : (setPred x n b).views = x.views := by
  unfold setPred; split <;> rfl
@[simp] theorem setPred_claimed (x : Ctx) (n : Nat) (b : Bool) : (setPred x n b).claimed = x.claimed := by
  unfold setPred; split <;> rfl
@[simp] theorem setPred_slotBusy (x : Ctx) (n : Nat) (b : Bool) : (setPred x n b).slotBusy = x.slotBusy := by
  unfold setPred; split <;> rfl
@[simp] theorem setPred_accBusy (x : Ctx) (n : Nat) (b : Bool) : (setPred x n b).accBusy = x.accBusy := by
  unfold setPred; split <;> rfl
@[simp] theorem setPred_accBusyT (x : Ctx) (n : Nat) (b : Bool) : (setPred x n b).accBusyT = x.accBusyT := by
  unfold setPred; split <;> rfl
@[simp] theorem setPred_zstUntil (x : Ctx) (n : Nat) (b : Bool) : (setPred x n b).zstUntil = x.zstUntil := by
  unfold setPred; split <;> rfl
@[simp] theorem setPred_zstLo (x : Ctx) (n : Nat) (b : Bool) : (setPred x n b).zstLo = x.zstLo := by
  unfold setPred; split <;> rfl
@[simp] theorem setPred_scales (x : Ctx) (n : Nat) (b : Bool) : (setPred x n b).scales = x.scales := by
  unfold setPred; split <;> rfl
@[simp] theorem setPred_mq (x : Ctx) (n : Nat) (b : Bool) : (setPred x n b).mq = x.mq := by
  unfold setPred; split <;> rfl
@[simp] theorem setPred_mlast (x : Ctx) (n : Nat) (b : Bool) : (setPred x n b).mlast = x.mlast := by
  unfold setPred; split <;> rfl
@[simp] theorem setPred_pairs (x : Ctx) (n : Nat) (b : Bool) : (setPred x n b).pairs = x.pairs := by
  unfold setPred; split <;> rfl
@[simp] theorem setPred_pairBuf (x : Ctx) (n : Nat) (b : Bool) : (setPred x n b).pairBuf = x.pairBuf := by
  unfold setPred; split <;> rfl
@[simp] theorem setPred_mate (x : Ctx) (n : Nat) (b : Bool) : (setPred x n b).mate = x.mate := by
  unfold setPred; split <;> rfl
@[simp] theorem setPred_records (x : Ctx) (n : Nat) (b : Bool) : (setPred x n b).records = x.records := by
  unfold setPred; split <;> rfl
@[simp] theorem setPred_guards (x : Ctx) (n : Nat) (b : Bool) : (setPred x n b).guards = x.guards := by
  unfold setPred; split <;> rfl
@[simp] theorem setPred_guardsDue (x : Ctx) (n : Nat) (b : Bool) : (setPred x n b).guardsDue = x.guardsDue := by
  unfold setPred; split <;> rfl
@[simp] theorem setPred_held (x : Ctx) (n : Nat) (b : Bool) : (setPred x n b).held = x.held := by
  unfold setPred; split <;> rfl
@[simp] theorem setPred_awaited (x : Ctx) (n : Nat) (b : Bool) : (setPred x n b).awaited = x.awaited := by
  unfold setPred; split <;> rfl
@[simp] theorem setPred_snap (x : Ctx) (n : Nat) (b : Bool) : (setPred x n b).snap = x.snap := by
  unfold setPred; split <;> rfl
@[simp] theorem setPred_handler (x : Ctx) (n : Nat) (b : Bool) : (setPred x n b).handler = x.handler := by
  unfold setPred; split <;> rfl
@[simp] theorem setPred_tcause (x : Ctx) (n : Nat) (b : Bool) : (setPred x n b).tcause = x.tcause := by
  unfold setPred; split <;> rfl
@[simp] theorem setPred_tpc (x : Ctx) (n : Nat) (b : Bool) : (setPred x n b).tpc = x.tpc := by
  unfold setPred; split <;> rfl
@[simp] theorem setPred_tinfo (x : Ctx) (n : Nat) (b : Bool) : (setPred x n b).tinfo = x.tinfo := by
  unfold setPred; split <;> rfl
@[simp] theorem setPred_sbudget (x : Ctx) (n : Nat) (b : Bool) : (setPred x n b).sbudget = x.sbudget := by
  unfold setPred; split <;> rfl
@[simp] theorem setPred_extended (x : Ctx) (n : Nat) (b : Bool) : (setPred x n b).extended = x.extended := by
  unfold setPred; split <;> rfl
@[simp] theorem setPred_cycle (x : Ctx) (n : Nat) (b : Bool) : (setPred x n b).cycle = x.cycle := by
  unfold setPred; split <;> rfl
@[simp] theorem setPred_midle (x : Ctx) (n : Nat) (b : Bool) : (setPred x n b).midle = x.midle := by
  unfold setPred; split <;> rfl
@[simp] theorem setPred_mstall (x : Ctx) (n : Nat) (b : Bool) : (setPred x n b).mstall = x.mstall := by
  unfold setPred; split <;> rfl
@[simp] theorem setPred_midleSet (x : Ctx) (n : Nat) (b : Bool) : (setPred x n b).midleSet = x.midleSet := by
  unfold setPred; split <;> rfl
@[simp] theorem setPred_mstallSet (x : Ctx) (n : Nat) (b : Bool) : (setPred x n b).mstallSet = x.mstallSet := by
  unfold setPred; split <;> rfl
@[simp] theorem setPred_sinceYield (x : Ctx) (n : Nat) (b : Bool) : (setPred x n b).sinceYield = x.sinceYield := by
  unfold setPred; split <;> rfl
@[simp] theorem setPred_wait (x : Ctx) (n : Nat) (b : Bool) : (setPred x n b).wait = x.wait := by
  unfold setPred; split <;> rfl
@[simp] theorem setPred_sizing (x : Ctx) (n : Nat) (b : Bool) : (setPred x n b).sizing = x.sizing := by
  unfold setPred; split <;> rfl
@[simp] theorem setPred_nextIssue (x : Ctx) (n : Nat) (b : Bool) : (setPred x n b).nextIssue = x.nextIssue := by
  unfold setPred; split <;> rfl
@[simp] theorem setPred_rep (x : Ctx) (n : Nat) (b : Bool) : (setPred x n b).rep = x.rep := by
  unfold setPred; split <;> rfl
@[simp] theorem setPred_seen (x : Ctx) (n : Nat) (b : Bool) : (setPred x n b).seen = x.seen := by
  unfold setPred; split <;> rfl
@[simp] theorem setPred_issue (x : Ctx) (n : Nat) (b : Bool) : (setPred x n b).issue = x.issue := by
  unfold setPred; split <;> rfl
@[simp] theorem setPred_lbuf (x : Ctx) (n : Nat) (b : Bool) : (setPred x n b).lbuf = x.lbuf := by
  unfold setPred; split <;> rfl
@[simp] theorem setPred_preempt (x : Ctx) (n : Nat) (b : Bool) : (setPred x n b).preempt = x.preempt := by
  unfold setPred; split <;> rfl
@[simp] theorem setPred_halting (x : Ctx) (n : Nat) (b : Bool) : (setPred x n b).halting = x.halting := by
  unfold setPred; split <;> rfl
@[simp] theorem setPred_draining (x : Ctx) (n : Nat) (b : Bool) : (setPred x n b).draining = x.draining := by
  unfold setPred; split <;> rfl
@[simp] theorem setPred_keeps (x : Ctx) (n : Nat) (b : Bool) : (setPred x n b).keeps = x.keeps := by
  unfold setPred; split <;> rfl
@[simp] theorem setPred_blocked (x : Ctx) (n : Nat) (b : Bool) : (setPred x n b).blocked = x.blocked := by
  unfold setPred; split <;> rfl
@[simp] theorem setPred_fetchWait (x : Ctx) (n : Nat) (b : Bool) : (setPred x n b).fetchWait = x.fetchWait := by
  unfold setPred; split <;> rfl
@[simp] theorem setPred_window (x : Ctx) (n : Nat) (b : Bool) : (setPred x n b).window = x.window := by
  unfold setPred; split <;> rfl
@[simp] theorem setPred_slotBase (x : Ctx) (n : Nat) (b : Bool) : (setPred x n b).slotBase = x.slotBase := by
  unfold setPred; split <;> rfl
@[simp] theorem setPred_tileBase (x : Ctx) (n : Nat) (b : Bool) : (setPred x n b).tileBase = x.tileBase := by
  unfold setPred; split <;> rfl
@[simp] theorem setPred_loader (x : Ctx) (n : Nat) (b : Bool) : (setPred x n b).loader = x.loader := by
  unfold setPred; split <;> rfl
@[simp] theorem setPred_storer (x : Ctx) (n : Nat) (b : Bool) : (setPred x n b).storer = x.storer := by
  unfold setPred; split <;> rfl
@[simp] theorem setPred_resident (x : Ctx) (n : Nat) (b : Bool) : (setPred x n b).resident = x.resident := by
  unfold setPred; split <;> rfl

end Sys2Proof.Machine
end

