-- ==== Sys2Proof/Laws/Ops.lean ====
section
/-! SUPPORT. What the shared operations can do, one lemma each: the keyed lists, contexts read after they are written, the
entries of slot and hart meanings, operands, taking a trap. -/

namespace Sys2Proof.Machine

/-! ### Keyed lists -/

/-- A key reads as the value set at it. -/
@[simp] theorem alGet_alSet_same {κ α : Type} [DecidableEq κ] (l : List (κ × α)) (k : κ) (v : α) :
    alGet (alSet l k v) k = some v := by
  induction l with
  | nil => simp [alSet, alGet]
  | cons p l ih =>
    obtain ⟨k', v'⟩ := p
    by_cases h : k' = k <;> simp [alSet, alGet, h, ih]

/-- Another key reads as before. -/
theorem alGet_alSet_other {κ α : Type} [DecidableEq κ] (l : List (κ × α)) {k k' : κ} (v : α) (h : k ≠ k') :
    alGet (alSet l k v) k' = alGet l k' := by
  induction l with
  | nil => simp [alSet, alGet, h]
  | cons p l ih =>
    obtain ⟨k'', v'⟩ := p
    by_cases h1 : k'' = k
    · subst h1
      simp [alSet, alGet, h]
    · rw [alSet, if_neg h1]
      simp only [alGet, ih]

/-- A key removed reads as nothing. -/
@[simp] theorem alGet_alDel_same {κ α : Type} [DecidableEq κ] (l : List (κ × α)) (k : κ) : alGet (alDel l k) k = none := by
  induction l with
  | nil => rfl
  | cons p l ih =>
    obtain ⟨k', v'⟩ := p
    by_cases h : k' = k
    · simpa [alDel, h] using ih
    · simp only [alDel, List.filter_cons, ne_eq, h, not_false_eq_true, decide_true, if_true, alGet, if_false] at ih ⊢
      exact ih

/-- The context set is the context read. -/
@[simp] theorem getCtx_setCtx_same (s : State) (c : CtxId) (x : Ctx) : getCtx (setCtx s c x) c = some x := by
  simp [getCtx]

/-- Another context reads as before. -/
theorem getCtx_setCtx_other (s : State) {c c' : CtxId} (x : Ctx) (h : c ≠ c') :
    getCtx (setCtx s c x) c' = getCtx s c' := by
  simp [getCtx, alGet_alSet_other _ _ h]

/-- An emptied context holds no slice. -/
@[simp] theorem getCtx_delCtx_same (s : State) (c : CtxId) : getCtx (delCtx s c) c = none := by
  simp [getCtx]

/-- A context changed, where a slice is resident. -/
theorem modCtx_of_some {s : State} {c : CtxId} {x : Ctx} (f : Ctx → Ctx) (h : getCtx s c = some x) :
    modCtx s c f = setCtx s c (f x) := by
  simp [modCtx, h]

/-- The core set is the core read. -/
@[simp] theorem getCore_setCore_same (s : State) (n : Nat) (k : Core) : getCore (setCore s n k) n = k := by
  simp [getCore]

/-- Another core reads as before. -/
theorem getCore_setCore_other (s : State) {n m : Nat} (k : Core) (h : n ≠ m) :
    getCore (setCore s n k) m = getCore s m := by
  simp [getCore, alGet_alSet_other _ _ h]

/-- A core reads as before after a context is replaced. -/
@[simp] theorem getCore_setCtx (s : State) (c : CtxId) (x : Ctx) (n : Nat) : getCore (setCtx s c x) n = getCore s n := rfl

/-- A region reads as before after a context is replaced. -/
@[simp] theorem getRegion_setCtx (s : State) (c : CtxId) (x : Ctx) (r : Nat) :
    getRegion (setCtx s c x) r = getRegion s r := rfl

/-- A context reads as before after a core is replaced. -/
@[simp] theorem getCtx_setCore (s : State) (n : Nat) (k : Core) (c : CtxId) : getCtx (setCore s n k) c = getCtx s c := rfl

/-! ### The entry of slot meanings -/

variable {slot : Nat} {pred : BitVec 3} {psense : Bool} {s s' : State} {x x' : Ctx} {k : Ctx → SlotRes}

/-- An instruction that executes and has its effect. -/
theorem slotOp_done (h : getCtx s s.cur = some x) (hp : executes x pred psense = true) (hk : k x = .done s' x') :
    slotOp slot pred psense s k = .next (setCtx s' s'.cur x') := by
  simp [slotOp, h, hp, hk]

/-- An instruction whose guard is false does nothing. -/
theorem slotOp_idle (h : getCtx s s.cur = some x) (hp : executes x pred psense = false) :
    slotOp slot pred psense s k = .next s := by
  simp [slotOp, h, hp]

/-- A precise trap. -/
theorem slotOp_trap {c o : Nat} {t : Option Word} (h : getCtx s s.cur = some x) (hp : executes x pred psense = true)
    (hk : k x = .trap c o t) : slotOp slot pred psense s k = .next (preciseTrap s x c slot o t) := by
  simp [slotOp, h, hp, hk]

/-- The report of a held fault. -/
theorem slotOp_report {f : HeldFault} (h : getCtx s s.cur = some x) (hp : executes x pred psense = true)
    (hk : k x = .report f) : slotOp slot pred psense s k = .next (reportHeld s x f) := by
  simp [slotOp, h, hp, hk]

/-- A bundle held on a wait. -/
theorem slotOp_hold {w : Wait} (h : getCtx s s.cur = some x) (hp : executes x pred psense = true)
    (hk : k x = .hold w) : slotOp slot pred psense s k = .next (holdBundle s s.cur (undone s x) w) := by
  simp [slotOp, h, hp, hk]

/-- With a slice in the context, every slot meaning answers a next state. -/
theorem slotOp_completes (h : getCtx s s.cur = some x) : ∃ t, slotOp slot pred psense s k = .next t := by
  unfold slotOp
  rw [h]
  simp only
  split
  · exact ⟨_, rfl⟩
  · split <;> exact ⟨_, rfl⟩

/-- A slot meaning is never refused. -/
theorem slotOp_ne_refused (r : Refusal) : slotOp slot pred psense s k ≠ .refused r := by
  unfold slotOp
  split
  · simp
  · split
    · simp
    · split <;> simp

/-- The one fault of a slot meaning: no slice in the context. -/
theorem slotOp_fault {e : Fault} (h : slotOp slot pred psense s k = .fault e) : getCtx s s.cur = none := by
  unfold slotOp at h
  split at h
  · assumption
  · split at h
    · simp at h
    · split at h <;> simp at h

/-- Everything a slot meaning can do. -/
theorem slotOp_cases {t : State} (h : slotOp slot pred psense s k = .next t) :
    ∃ x, getCtx s s.cur = some x ∧
      ((executes x pred psense = false ∧ t = s) ∨
       (executes x pred psense = true ∧
        ((∃ s' x', k x = .done s' x' ∧ t = setCtx s' s'.cur x') ∨
         (∃ c o i, k x = .trap c o i ∧ t = preciseTrap s x c slot o i) ∨
         (∃ f, k x = .report f ∧ t = reportHeld s x f) ∨
         (∃ w, k x = .hold w ∧ t = holdBundle s s.cur (undone s x) w)))) := by
  unfold slotOp at h
  split at h
  · simp at h
  · rename_i x hx
    refine ⟨x, hx, ?_⟩
    split at h
    · rename_i hp
      refine Or.inl ⟨by simpa using hp, ?_⟩
      simpa using h.symm
    · rename_i hp
      refine Or.inr ⟨by simpa using hp, ?_⟩
      split at h <;> rename_i hk <;> simp only [Host.Outcome.next.injEq] at h <;> subst h
      · exact Or.inl ⟨_, _, hk, rfl⟩
      · exact Or.inr (Or.inl ⟨_, _, _, hk, rfl⟩)
      · exact Or.inr (Or.inr (Or.inl ⟨_, hk, rfl⟩))
      · exact Or.inr (Or.inr (Or.inr ⟨_, hk, rfl⟩))

/-! ### The entry of hart meanings -/

variable {i : Instr} {r : Role} {hh h' : Hart} {kh : Ctx → Hart → Role → HartRes}

/-- A hart instruction that completes: the pc goes past it. -/
theorem hartOp_done (hr : s.curHart = some r) (hx : getCtx s s.cur = some x) (hg : getHart x r = some hh)
    (hk : kh x hh r = .done s' h') :
    hartOp i s kh = .next (modCtx s' s'.cur fun x => putHart x r (retired s h' (hh.pc + BitVec.ofNat 32 (hartStep hh)))) := by
  simp [hartOp, hr, hx, hg, hk]

/-- A hart instruction that completes at a target. -/
theorem hartOp_goto {pc : Word} (hr : s.curHart = some r) (hx : getCtx s s.cur = some x) (hg : getHart x r = some hh)
    (hk : kh x hh r = .goto s' h' pc) :
    hartOp i s kh = .next (modCtx s' s'.cur fun x => putHart x r (retired s h' pc)) := by
  simp [hartOp, hr, hx, hg, hk]

/-- A hart instruction that waits. -/
theorem hartOp_wait (hr : s.curHart = some r) (hx : getCtx s s.cur = some x) (hg : getHart x r = some hh)
    (hk : kh x hh r = .wait s' h') :
    hartOp i s kh = .next (modCtx s' s'.cur fun x => putHart x r { h' with st := .waiting i }) := by
  simp [hartOp, hr, hx, hg, hk]

/-- A hart instruction that takes an exception. -/
theorem hartOp_trap {c : Nat} {w : Word} (hr : s.curHart = some r) (hx : getCtx s s.cur = some x)
    (hg : getHart x r = some hh) (hk : kh x hh r = .trap c w) :
    hartOp i s kh = .next (hartTrap s s.cur x r hh 0 (hartInfo r hh c w)) := by
  simp [hartOp, hr, hx, hg, hk]

/-- With its hart present, every hart meaning answers a next state. -/
theorem hartOp_completes (hr : s.curHart = some r) (hx : getCtx s s.cur = some x) (hg : getHart x r = some hh) :
    ∃ t, hartOp i s kh = .next t := by
  unfold hartOp
  rw [hr, hx]
  simp only [hg]
  split <;> exact ⟨_, rfl⟩

/-- A hart meaning is never refused. -/
theorem hartOp_ne_refused (e : Refusal) : hartOp i s kh ≠ .refused e := by
  unfold hartOp
  split
  · split
    · simp
    · simp only
      split <;> simp
  · simp

/-- A hart read after it is replaced. -/
@[simp] theorem getHart_putHart (x : Ctx) (r : Role) (h : Hart) : getHart (putHart x r h) r = some h := by
  cases r <;> rfl

/-- x0 reads zero. -/
@[simp] theorem getX_zero (h : Hart) : getX h 0 = 0 := rfl

/-- A write to x0 is discarded. -/
@[simp] theorem setX_zero (h : Hart) (w : Word) : setX h 0 w = h := rfl

/-! ### Operands -/

/-- An operand that reads. -/
theorem withS_ok {sel : BitVec 8} {a : Word} {g : Word → Ctx → SlotRes} (h : readS x sel = .ok (a, x')) :
    withS x sel g = g a x' := by
  simp [withS, h]

/-- An operand that takes a trap. -/
theorem withS_error {sel : BitVec 8} {c o : Nat} {g : Word → Ctx → SlotRes} (h : readS x sel = .error (c, o)) :
    withS x sel g = .trap c o none := by
  simp [withS, h]

/-- A vector operand that reads. -/
theorem withV_ok {sel : BitVec 8} {a : Vec} {g : Vec → Ctx → SlotRes} (h : readV x sel = .ok (a, x')) :
    withV x sel g = g a x' := by
  simp [withV, h]

/-- A vector operand that takes a trap. -/
theorem withV_error {sel : BitVec 8} {c o : Nat} {g : Vec → Ctx → SlotRes} (h : readV x sel = .error (c, o)) :
    withV x sel g = .trap c o none := by
  simp [withV, h]

/-- Everything a queue read can do (R83 to R86). -/
theorem readQueue_cases (x : Ctx) (b : Bank) (n : Nat) (peek : Bool) :
    ((getQueue x b n).dead = true ∧
      readQueue x b n peek = if strict x then .error (0x06, n) else .ok (zeroVal b, x)) ∨
    ((getQueue x b n).dead = false ∧ headLanded (getQueue x b n) = false ∧ readQueue x b n peek = .error (0x05, n)) ∨
    (∃ e v, (getQueue x b n).dead = false ∧ (getQueue x b n).entries.head? = some e ∧ e.val = some v ∧
      readQueue x b n peek = .ok (v, if peek then x else popQueue x b n e (getQueue x b n))) := by
  unfold readQueue headLanded
  simp only
  generalize getQueue x b n = q
  rcases q with ⟨dead, entries⟩
  cases dead
  · cases entries with
    | nil => exact Or.inr (Or.inl ⟨rfl, rfl, rfl⟩)
    | cons e es =>
      cases hv : e.val with
      | none => exact Or.inr (Or.inl ⟨rfl, by simp [hv], by simp [hv]⟩)
      | some v => exact Or.inr (Or.inr ⟨e, v, rfl, rfl, hv, by simp [hv]⟩)
  · exact Or.inl ⟨rfl, rfl⟩

/-! ### Taking a trap -/

/-- A trap enters the handler or reaches the fault domain. -/
theorem takeTrap_cases (s : State) (c : CtxId) (x : Ctx) (i : TrapInfo) :
    (entersHandler s x i.code = true ∧ takeTrap s c x i = enterHandler s c x i) ∨
    (entersHandler s x i.code = false ∧ takeTrap s c x i = abortSlice s c x i) := by
  unfold takeTrap
  cases entersHandler s x i.code <;> simp

/-- What handler entry keeps of a context (R317). -/
def handlerKeeps (x : Ctx) : Vector Queue 32 × Vector Queue 32 × Vector Latch 8 × List LoopEntry × BitVec 8 :=
  (x.v, x.s, x.latches, x.loops, x.p)

/-- A base stepped changes none of it. -/
@[simp] theorem keeps_stepG (x : Ctx) (n : Nat) : handlerKeeps (stepG x n) = handlerKeeps x := rfl

/-- Nor do an M instruction's bases stepped to their ends. -/
@[simp] theorem keeps_finalBases (x : Ctx) (w : MWork) (n : Nat) : handlerKeeps (finalBases x w n) = handlerKeeps x := by
  induction n generalizing x with
  | zero => rfl
  | succ n ih =>
    rw [finalBases, ih]
    simp only [stepBases]
    split <;> simp

/-- Nor does a fault held. -/
@[simp] theorem keeps_holdFault (x : Ctx) (f : HeldFault) : handlerKeeps (holdFault x f) = handlerKeeps x := by
  unfold holdFault
  split <;> rfl

/-- Nor does an M instruction that leaves the queue. -/
@[simp] theorem keeps_retireM (n : Nat) (c : CtxId) (x : Ctx) (w : MWork) :
    handlerKeeps (retireM n c x w) = handlerKeeps x := rfl

/-- Nor does a paired step abandoned. -/
@[simp] theorem keeps_abandonCtx (n : Nat) (c : CtxId) (x : Ctx) : handlerKeeps (abandonCtx n c x) = handlerKeeps x := by
  unfold abandonCtx
  simp only [keeps_holdFault]
  cases currentPair x with
  | none => rfl
  | some w => exact (keeps_retireM n c _ w).trans (keeps_finalBases x w _)

/-- What handler entry leaves in the context (R317). -/
theorem enterHandler_ctx (s : State) (c : CtxId) (x : Ctx) (i : TrapInfo) :
    ∃ x', getCtx (enterHandler s c x i) c = some x' ∧ x'.handler = true ∧ x'.tcause = tcauseOf i ∧ x'.tpc = i.tpc ∧
      x'.tinfo = i.tinfo ∧ x'.pc = (getRegion s x.region).hndl ∧ x'.sticky = [] ∧ x'.issue = none ∧ x'.rep = 0 ∧
      handlerKeeps x' = handlerKeeps x := by
  unfold enterHandler
  simp only [getCtx_setCtx_same]
  generalize (pairOpen x || Option.any pairOpen ((partnerCtx s c x).bind (getCtx s))) = own
  have h (n : Nat) : handlerKeeps (if own = true then abandonCtx n c x else x) = handlerKeeps x := by
    cases own
    · rfl
    · exact keeps_abandonCtx n c x
  split <;> exact ⟨_, rfl, rfl, rfl, rfl, rfl, rfl, rfl, rfl, rfl, h _⟩

end Sys2Proof.Machine
end

