-- ==== Sys2Proof/Laws/Fabric.lean ====
section
/-! SUPPORT. What sending to another package can do (R359, R360): one lemma for each operation that says all that it changes, and
that routes stay as they are. -/

namespace Sys2Proof.Machine

@[simp] theorem getLink_setLink_same (s : State) (l : Nat) (k : Link) : getLink (setLink s l k) l = k := by
  simp [getLink, setLink]

theorem getLink_setLink_other (s : State) {l m : Nat} (k : Link) (h : l ≠ m) : getLink (setLink s l k) m = getLink s m := by
  simp [getLink, setLink, alGet_alSet_other _ _ h]

/-- A flit changes its link and what has been sent, nothing else. -/
theorem sendFlit_frame (l : Nat) (s : State) (b : BitVec 512) :
    ∃ ls os, sendFlit l s b = { s with links := ls, out := os } := by
  unfold sendFlit; dsimp only; split <;> exact ⟨_, _, rfl⟩

/-- A flit leaves every link up or down as it was. -/
theorem sendFlit_up (l : Nat) (s : State) (b : BitVec 512) (m : Nat) : (getLink (sendFlit l s b) m).up = (getLink s m).up := by
  by_cases h : l = m
  · subst h
    unfold sendFlit; dsimp only; split <;> simp [emit, getLink, setLink]
  · unfold sendFlit; dsimp only; split <;> simp [emit, getLink, setLink, alGet_alSet_other _ _ h]

/-- What has been sent stays sent. -/
theorem sendFlit_out {l : Nat} {s : State} {b : BitVec 512} {o : Out} (h : o ∈ s.out) : o ∈ (sendFlit l s b).out := by
  unfold sendFlit; dsimp only; split <;> simp [emit, setLink, h]

/-- The flits of a message change their link and what has been sent, nothing else; links stay up or down, and what has been sent
stays sent. -/
theorem sendFlits_frame (l : Nat) (bs : List (BitVec 512)) : ∀ s : State,
    (∃ ls os, bs.foldl (sendFlit l) s = { s with links := ls, out := os }) ∧
    (∀ m, (getLink (bs.foldl (sendFlit l) s) m).up = (getLink s m).up) ∧
    ∀ o, o ∈ s.out → o ∈ (bs.foldl (sendFlit l) s).out := by
  induction bs with
  | nil => exact fun s => ⟨⟨_, _, rfl⟩, fun _ => rfl, fun _ h => h⟩
  | cons b rest ih =>
    intro s
    obtain ⟨⟨ls, os, h1⟩, h2, h3⟩ := ih (sendFlit l s b)
    refine ⟨⟨ls, os, ?_⟩, fun m => (h2 m).trans (sendFlit_up l s b m), fun o h => h3 o (sendFlit_out h)⟩
    obtain ⟨_, _, h⟩ := sendFlit_frame l s b
    rw [List.foldl_cons, h1, h]

/-- A message sent on a route or on none: only the links and what has been sent change, and it leaves where there is a route. -/
theorem sendOn_frame (l : Option Nat) (o : Out) (s : State) :
    (∃ ls os, sendOn l o s = { s with links := ls, out := os }) ∧ (∀ m, (getLink (sendOn l o s) m).up = (getLink s m).up) ∧
    (∀ p, p ∈ s.out → p ∈ (sendOn l o s).out) ∧ (l ≠ none → o ∈ (sendOn l o s).out) := by
  cases l with
  | none => exact ⟨⟨_, _, rfl⟩, fun _ => rfl, fun _ h => h, fun h => absurd rfl h⟩
  | some l =>
    obtain ⟨⟨ls, os, h1⟩, h2, h3⟩ := sendFlits_frame l (Config.packetFlits o) (emit s o)
    exact ⟨⟨ls, os, h1⟩, h2, fun p h => h3 p (by simp [emit, h]), fun _ => h3 o (by simp [emit])⟩

/-- The routes that are up depend on the wiring and on the links' being up. -/
theorem upRoutes_congr {s t : State} (pkg : Nat) (hw : t.switched = s.switched) (hr : t.routes = s.routes)
    (h : ∀ m, (getLink t m).up = (getLink s m).up) : upRoutes t pkg = upRoutes s pkg := by
  simp [upRoutes, routesOf, hw, hr, h]

/-- A packet sent under a number: it is kept, it leaves where a route is up, and only the links and what has been sent change
besides. -/
theorem sendNumbered_sends (s : State) (pkg num : Nat) (o : Out) : Sends s (sendNumbered s pkg num o) pkg num o ∧
    (∃ ls os, sendNumbered s pkg num o = { s with
      packets := s.packets ++ [{ pkg := pkg, num := num, link := (upRoutes s pkg).head?, what := o }], links := ls, out := os }) ∧
    (∀ m, (getLink (sendNumbered s pkg num o) m).up = (getLink s m).up) ∧
    ∀ p, p ∈ s.out → p ∈ (sendNumbered s pkg num o).out := by
  obtain ⟨⟨ls, os, h1⟩, h2, h3, h4⟩ := sendOn_frame (upRoutes s pkg).head? o
    { s with packets := s.packets ++ [{ pkg := pkg, num := num, link := (upRoutes s pkg).head?, what := o }] }
  refine ⟨⟨?_, h4⟩, ⟨ls, os, h1⟩, h2, h3⟩
  show _ ∈ (sendOn _ _ _).packets
  rw [h1]
  simp

/-- A packet taken in: an acknowledgement, and for a new one its number kept and its effect. -/
theorem takePacket_cases (s : State) (src num : Nat) (act : State → State) :
    (s.up = false ∧ takePacket s src num act = s) ∨
    (s.up = true ∧ (src, num) ∈ s.seenPackets ∧ takePacket s src num act = ackPacket s src num) ∨
    (s.up = true ∧ (src, num) ∉ s.seenPackets ∧
      takePacket s src num act = act (ackPacket { s with seenPackets := s.seenPackets ++ [(src, num)] } src num)) := by
  unfold takePacket
  cases hu : s.up <;> by_cases hs : (src, num) ∈ s.seenPackets <;> simp [hs]

end Sys2Proof.Machine
end

