-- ==== Sys2Proof/Laws/Memory.lean ====
section
/-! SUPPORT. What the operations over sparse memories do: every one keeps the canonical form, a read after a write gives
the bytes written, every other byte reads as before, and equal reads of canonical memories are equal memories. -/

namespace Sys2Proof.Machine

/-- The canonical form in terms of the list: addresses strictly rise and no byte is zero. -/
theorem memory_wf_iff (m : Mem) :
    Memory.wf m = true ↔ m.Pairwise (fun c d => c.1 < d.1) ∧ ∀ c ∈ m, c.2 ≠ 0 := by
  induction m using Memory.wf.induct with
  | case1 => simp [Memory.wf]
  | case2 a b => simp [Memory.wf]
  | case3 a b a' b' m ih =>
    simp only [Memory.wf, Bool.and_eq_true, ih, bne_iff_ne, decide_eq_true_eq, List.pairwise_cons, List.mem_cons,
      forall_eq_or_imp]
    constructor
    · rintro ⟨⟨hb, ha⟩, ⟨h, hp⟩, hb', hm⟩
      exact ⟨⟨⟨ha, fun c hc => lt_trans ha (h c hc)⟩, h, hp⟩, hb, hb', hm⟩
    · rintro ⟨⟨⟨ha, -⟩, h, hp⟩, hb, hb', hm⟩
      exact ⟨⟨hb, ha⟩, ⟨h, hp⟩, hb', hm⟩

/-- A filtered canonical memory is canonical. -/
theorem wf_filter {m : Mem} (p : Host.Cell → Bool) (h : Memory.wf m = true) : Memory.wf (m.filter p) = true := by
  rw [memory_wf_iff] at *
  exact ⟨h.1.filter p, fun c hc => h.2 c (List.mem_of_mem_filter hc)⟩

/-- Where the cells of bytes laid at an address lie, and that none is zero. -/
theorem mem_memCells {bs : List Byte} {a : Nat} {c : Host.Cell} (h : c ∈ memCells a bs) :
    a ≤ c.1 ∧ c.1 < a + bs.length ∧ c.2 ≠ 0 := by
  induction bs generalizing a with
  | nil => simp [memCells] at h
  | cons b bs ih =>
    rw [memCells] at h
    split at h
    · have := ih h
      simp only [List.length_cons]
      exact ⟨by omega, by omega, this.2.2⟩
    · rcases List.mem_cons.mp h with rfl | h
      · simp_all
      · have := ih h
        simp only [List.length_cons]
        exact ⟨by omega, by omega, this.2.2⟩

/-- The cells of bytes rise. -/
theorem memCells_pairwise (a : Nat) (bs : List Byte) : (memCells a bs).Pairwise (fun c d => c.1 < d.1) := by
  induction bs generalizing a with
  | nil => simp [memCells]
  | cons b bs ih =>
    rw [memCells]
    split
    · exact ih _
    · exact List.pairwise_cons.mpr ⟨fun c hc => by have := (mem_memCells hc).1; simp only; omega, ih _⟩

/-- Three canonical parts, one below the other, make a canonical memory. -/
theorem wf_append3 {m : Mem} {x : Mem} {a n : Nat} (h : Memory.wf m = true)
    (hx : x.Pairwise (fun c d => c.1 < d.1)) (hc : ∀ c ∈ x, a ≤ c.1 ∧ c.1 < a + n ∧ c.2 ≠ 0) :
    Memory.wf (m.filter (fun c => decide (c.1 < a)) ++ x ++ m.filter (fun c => decide (a + n ≤ c.1))) = true := by
  rw [memory_wf_iff] at *
  simp only [List.pairwise_append, List.mem_append, List.mem_filter, decide_eq_true_eq]
  refine ⟨⟨⟨h.1.filter _, hx, ?_⟩, h.1.filter _, ?_⟩, ?_⟩
  · intro c hcm d hd
    have := hc d hd
    omega
  · rintro c (hcm | hcx) d hd
    · omega
    · have := hc c hcx
      omega
  · rintro c ((hcm | hcx) | hcm)
    · exact h.2 c hcm.1
    · exact (hc c hcx).2.2
    · exact h.2 c hcm.1

/-- A write keeps the canonical form. -/
theorem memPut_wf {m : Mem} (a : Nat) (bs : List Byte) (h : Memory.wf m = true) : Memory.wf (memPut m a bs) = true :=
  wf_append3 h (memCells_pairwise a bs) fun _ hc => mem_memCells hc

/-- Clearing keeps the canonical form. -/
theorem memClear_wf {m : Mem} (a n : Nat) (h : Memory.wf m = true) : Memory.wf (memClear m a n) = true := wf_filter _ h

/-- A part moved to address 0 is canonical. -/
theorem memSlice_wf {m : Mem} (a n : Nat) (h : Memory.wf m = true) : Memory.wf (memSlice m a n) = true := by
  rw [memory_wf_iff] at *
  refine ⟨List.pairwise_map.mpr ?_, ?_⟩
  · refine List.Pairwise.imp_of_mem ?_ (h.1.filter _)
    intro c d hc hd hlt
    simp only [List.mem_filter, Bool.and_eq_true, decide_eq_true_eq] at hc hd
    simp only
    omega
  · intro c hc
    obtain ⟨d, hd, rfl⟩ := List.mem_map.mp hc
    exact h.2 d (List.mem_of_mem_filter hd)

/-- A canonical memory put over a part of another keeps the canonical form. -/
theorem memPaste_wf {m src : Mem} (a n : Nat) (h : Memory.wf m = true) (hs : Memory.wf src = true) :
    Memory.wf (memPaste m a n src) = true := by
  rw [memory_wf_iff] at hs
  refine wf_append3 h (List.pairwise_map.mpr ((hs.1.filter _).imp fun {c d} hlt => ?_)) ?_
  · simp only
    omega
  · intro c hc
    obtain ⟨d, hd, rfl⟩ := List.mem_map.mp hc
    simp only [List.mem_filter, decide_eq_true_eq] at hd
    exact ⟨by simp only; omega, by simp only; omega, hs.2 d hd.1⟩

/-! ### Reading -/

/-- No cell at an address: it reads zero. -/
theorem memGet_of_not_mem {m : Mem} {a : Nat} (h : ∀ c ∈ m, c.1 ≠ a) : memGet m a = 0 := by
  induction m with
  | nil => rfl
  | cons c m ih =>
    rw [memGet]
    rw [if_neg (h c (List.mem_cons_self ..))]
    exact ih fun d hd => h d (List.mem_cons_of_mem _ hd)

/-- A read of two memories joined looks in the first, then in the second. -/
theorem memGet_append_of_not_mem {m n : Mem} {a : Nat} (h : ∀ c ∈ m, c.1 ≠ a) : memGet (m ++ n) a = memGet n a := by
  induction m with
  | nil => rfl
  | cons c m ih =>
    rw [List.cons_append, memGet, if_neg (h c (List.mem_cons_self ..))]
    exact ih fun d hd => h d (List.mem_cons_of_mem _ hd)

/-- A read of two memories joined, the second without the address, looks in the first alone. -/
theorem memGet_append_left {m n : Mem} {a : Nat} (h : ∀ c ∈ n, c.1 ≠ a) : memGet (m ++ n) a = memGet m a := by
  induction m with
  | nil => exact memGet_of_not_mem h
  | cons c m ih =>
    simp only [List.cons_append, memGet]
    split
    · rfl
    · exact ih

/-- A filter that keeps an address leaves what it reads as. -/
theorem memGet_filter_keep {p : Host.Cell → Bool} {m : Mem} {a : Nat} (h : ∀ c, c.1 = a → p c = true) :
    memGet (m.filter p) a = memGet m a := by
  induction m with
  | nil => rfl
  | cons c m ih =>
    rw [List.filter_cons]
    split
    · simp only [memGet, ih]
    · rename_i hp
      rw [memGet, if_neg fun e => hp (h c e), ih]

/-- The cells of bytes read as the bytes. -/
theorem memGet_memCells (bs : List Byte) (a x : Nat) :
    memGet (memCells a bs) x = if a ≤ x then bs.getD (x - a) 0 else 0 := by
  induction bs generalizing a with
  | nil => simp [memCells, memGet]
  | cons b bs ih =>
    rw [memCells]
    by_cases hb : b = 0
    · rw [if_pos hb, ih]
      rcases Nat.lt_trichotomy x a with h | rfl | h
      · rw [if_neg (by omega), if_neg (by omega)]
      · rw [if_neg (by omega), if_pos (Nat.le_refl _)]
        simp [hb]
      · rw [if_pos (by omega), if_pos (by omega), show x - a = (x - (a + 1)) + 1 by omega, List.getD_cons_succ]
    · rw [if_neg hb, memGet]
      rcases Nat.lt_trichotomy x a with h | rfl | h
      · rw [if_neg (by omega), ih, if_neg (by omega), if_neg (by omega)]
      · rw [if_pos rfl, if_pos (Nat.le_refl _)]
        simp
      · rw [if_neg (by omega), ih, if_pos (by omega), if_pos (by omega), show x - a = (x - (a + 1)) + 1 by omega,
          List.getD_cons_succ]

/-- A read after a write: the bytes written inside, as before outside. -/
theorem memGet_memPut (m : Mem) (a : Nat) (bs : List Byte) (x : Nat) :
    memGet (memPut m a bs) x = if a ≤ x ∧ x < a + bs.length then bs.getD (x - a) 0 else memGet m x := by
  unfold memPut
  by_cases h1 : x < a
  · rw [if_neg (by omega), List.append_assoc, memGet_append_left, memGet_filter_keep]
    · intro c hc
      simp [hc, h1]
    · intro c hc
      rcases List.mem_append.mp hc with hc | hc
      · have := mem_memCells hc
        omega
      · simp only [List.mem_filter, decide_eq_true_eq] at hc
        omega
  · rw [List.append_assoc, memGet_append_of_not_mem]
    · by_cases h2 : a + bs.length ≤ x
      · rw [if_neg (by omega), memGet_append_of_not_mem, memGet_filter_keep]
        · intro c hc
          simp [hc, h2]
        · intro c hc
          have := mem_memCells hc
          omega
      · rw [if_pos (by omega), memGet_append_left, memGet_memCells, if_pos (by omega)]
        intro c hc
        simp only [List.mem_filter, decide_eq_true_eq] at hc
        omega
    · intro c hc
      simp only [List.mem_filter, decide_eq_true_eq] at hc
      omega

/-- A write leaves every byte outside it. -/
theorem memGet_memPut_outside {m : Mem} {a : Nat} {bs : List Byte} {x : Nat} (h : x < a ∨ a + bs.length ≤ x) :
    memGet (memPut m a bs) x = memGet m x := by
  rw [memGet_memPut, if_neg (by omega)]

/-- A cleared byte reads zero, any other as before. -/
theorem memGet_memClear (m : Mem) (a n x : Nat) :
    memGet (memClear m a n) x = if a ≤ x ∧ x < a + n then 0 else memGet m x := by
  unfold memClear
  split
  · apply memGet_of_not_mem
    intro c hc
    simp only [List.mem_filter, Bool.or_eq_true, decide_eq_true_eq] at hc
    omega
  · apply memGet_filter_keep
    intro c hc
    simp only [Bool.or_eq_true, decide_eq_true_eq]
    omega

/-- A memory's cells at or beyond an address, taken byte by byte. -/
theorem memTake_eq (n a : Nat) (m : Mem) (h : Memory.wf m = true) (hm : ∀ c ∈ m, a ≤ c.1) :
    memTake n a m = (List.range' a n).map (memGet m) := by
  induction n generalizing a m with
  | zero => simp [memTake]
  | succ n ih =>
    rw [List.range'_succ, List.map_cons]
    cases m with
    | nil =>
      rw [memTake, ih (a + 1) [] rfl (by simp)]
      rfl
    | cons c m =>
      rw [memory_wf_iff, List.pairwise_cons] at h
      have hw : Memory.wf m = true := (memory_wf_iff m).mpr ⟨h.1.2, fun d hd => h.2 d (List.mem_cons_of_mem _ hd)⟩
      obtain ⟨x, b⟩ := c
      rw [memTake]
      split
      · rename_i hx
        subst hx
        rw [ih (x + 1) m hw fun d hd => h.1.1 d hd]
        simp only [memGet, if_pos, List.cons.injEq, true_and]
        apply List.map_congr_left
        intro y hy
        rw [List.mem_range'_1] at hy
        rw [if_neg (by omega)]
      · rename_i hx
        have hlt : a + 1 ≤ x := by have : a ≤ x := hm (x, b) (List.mem_cons_self ..); omega
        rw [ih (a + 1) ((x, b) :: m) ((memory_wf_iff _).mpr ⟨List.pairwise_cons.mpr h.1, h.2⟩)]
        · rw [memGet_of_not_mem]
          intro d hd
          rcases List.mem_cons.mp hd with rfl | hd
          · simp only
            omega
          · have : x < d.1 := h.1.1 d hd
            omega
        · intro d hd
          rcases List.mem_cons.mp hd with rfl | hd
          · exact hlt
          · have : x < d.1 := h.1.1 d hd
            omega

/-- The bytes of a range are its bytes one by one. -/
theorem memRead_eq (m : Mem) (a n : Nat) (h : Memory.wf m = true) :
    memRead m a n = (List.range' a n).map (memGet m) := by
  unfold memRead
  rw [memTake_eq n a _ (wf_filter _ h) (by simp)]
  apply List.map_congr_left
  intro x hx
  apply memGet_filter_keep
  intro c hc
  rw [List.mem_range'_1] at hx
  simp only [decide_eq_true_eq]
  omega

/-- A read gives as many bytes as it asks for. -/
theorem memRead_length (m : Mem) (a n : Nat) : (memRead m a n).length = n := by
  unfold memRead
  generalize m.filter _ = k
  induction n generalizing a k with
  | zero => rfl
  | succ n ih => cases k <;> simp only [memTake] <;> (try split) <;> simp [ih]

/-- A range that a write does not meet reads as before. -/
theorem memRead_memPut_outside {m : Mem} {a : Nat} {bs : List Byte} {b n : Nat} (h : Memory.wf m = true)
    (hd : b + n ≤ a ∨ a + bs.length ≤ b) : memRead (memPut m a bs) b n = memRead m b n := by
  rw [memRead_eq _ _ _ (memPut_wf a bs h), memRead_eq _ _ _ h]
  apply List.map_congr_left
  intro x hx
  rw [List.mem_range'_1] at hx
  exact memGet_memPut_outside (by omega)

/-- The range written reads as the bytes written. -/
theorem memRead_memPut_same {m : Mem} (a : Nat) (bs : List Byte) (h : Memory.wf m = true) :
    memRead (memPut m a bs) a bs.length = bs := by
  rw [memRead_eq _ _ _ (memPut_wf a bs h)]
  apply List.ext_getElem
  · simp
  · intro i h1 h2
    simp only [List.getElem_map, List.getElem_range', Nat.one_mul, memGet_memPut]
    rw [if_pos (by omega), Nat.add_sub_cancel_left]
    simp [h2]

/-- Canonical memories that read alike everywhere are equal. -/
theorem mem_ext {m n : Mem} (hm : Memory.wf m = true) (hn : Memory.wf n = true) (h : ∀ a, memGet m a = memGet n a) :
    m = n := by
  induction m generalizing n with
  | nil =>
    cases n with
    | nil => rfl
    | cons c n =>
      have := h c.1
      rw [memory_wf_iff] at hn
      simp only [memGet, if_true] at this
      exact absurd this.symm (hn.2 c (List.mem_cons_self ..))
  | cons c m ih =>
    cases n with
    | nil =>
      have := h c.1
      rw [memory_wf_iff] at hm
      simp only [memGet, if_true] at this
      exact absurd this (hm.2 c (List.mem_cons_self ..))
    | cons d n =>
      obtain ⟨a, b⟩ := c
      obtain ⟨a', b'⟩ := d
      have hm' := (memory_wf_iff _).mp hm
      have hn' := (memory_wf_iff _).mp hn
      rw [List.pairwise_cons] at hm' hn'
      have hlow : ∀ {x : Nat} {k : Mem}, (∀ e ∈ k, x < e.1) → ∀ y, y ≤ x → memGet k y = 0 := fun hk y hy =>
        memGet_of_not_mem fun e he => by have := hk e he; omega
      have hne : b ≠ 0 := hm'.2 _ (List.mem_cons_self ..)
      have hne' : b' ≠ 0 := hn'.2 _ (List.mem_cons_self ..)
      have haa : a = a' := by
        rcases Nat.lt_trichotomy a a' with hl | he | hl
        · have := h a
          simp only [memGet, if_true] at this
          rw [if_neg (by omega), hlow hn'.1.1 a (by simp only; omega)] at this
          exact absurd this hne
        · exact he
        · have := h a'
          simp only [memGet, if_true] at this
          rw [if_neg (by omega), hlow hm'.1.1 a' (by simp only; omega)] at this
          exact absurd this.symm hne'
      subst haa
      have hbb : b = b' := by simpa [memGet] using h a
      subst hbb
      congr 1
      apply ih
      · exact (memory_wf_iff _).mpr ⟨hm'.1.2, fun e he => hm'.2 e (List.mem_cons_of_mem _ he)⟩
      · exact (memory_wf_iff _).mpr ⟨hn'.1.2, fun e he => hn'.2 e (List.mem_cons_of_mem _ he)⟩
      · intro x
        by_cases hx : a = x
        · subst hx
          rw [hlow hm'.1.1 a (Nat.le_refl _), hlow hn'.1.1 a (Nat.le_refl _)]
        · have := h x
          simpa [memGet, hx] using this

end Sys2Proof.Machine
end

