-- ==== Sys2Proof/Laws/PerInstr.lean ====
section
/-! SUPPORT. For each instruction: the word that the encoder gives its fields has them where the decoder reads them, its
reserved bits zero, and its stop bit (R65, R66, R69, R75). -/

namespace Sys2Proof

open Machine

/-- A field above an appended word is the field of the upper part. -/
theorem extract_append_high {n m : Nat} (a : BitVec n) (b : BitVec m) (k w : Nat) (h : m ≤ k) :
    (a ++ b).extractLsb' k w = a.extractLsb' (k - m) w := by
  apply BitVec.eq_of_getLsbD_eq
  intro i hi
  simp only [BitVec.getLsbD_extractLsb', BitVec.getLsbD_append]
  have : ¬ (k + i < m) := by omega
  simp [hi, this]
  congr 1; omega

/-- A field inside the lower part of an appended word. -/
theorem extract_append_low {n m : Nat} (a : BitVec n) (b : BitVec m) (k w : Nat) (h : k + w ≤ m) :
    (a ++ b).extractLsb' k w = b.extractLsb' k w := by
  apply BitVec.eq_of_getLsbD_eq
  intro i hi
  simp only [BitVec.getLsbD_extractLsb', BitVec.getLsbD_append]
  have : (k + i < m) := by omega
  simp [hi, this]

/-- A whole word as a field. -/
theorem extract_all {n : Nat} (a : BitVec n) : a.extractLsb' 0 n = a := by
  apply BitVec.eq_of_getLsbD_eq
  intro i hi
  simp [hi]

/-- A bit above an appended word. -/
theorem bit_append_high {n m : Nat} (a : BitVec n) (b : BitVec m) (k : Nat) (h : m ≤ k) :
    (a ++ b).getLsbD k = a.getLsbD (k - m) := by
  simp [BitVec.getLsbD_append, Nat.not_lt.mpr h]

/-- A bit inside an appended word. -/
theorem bit_append_low {n m : Nat} (a : BitVec n) (b : BitVec m) (k : Nat) (h : k < m) :
    (a ++ b).getLsbD k = b.getLsbD k := by
  simp [BitVec.getLsbD_append, h]

/-- A C-slot word has its opcode and fields where the decoder reads them. -/
theorem slotForm_encode_c (o : Nat) (h : o < 256) (f : CFields) (stop : Bool) :
    slotForm .c (encodeForm (.c o f) stop) = .c o f ∧ reservedBits .c (encodeForm (.c o f) stop) = 0 ∧
      (encodeForm (.c o f) stop).getLsbD 0 = stop := by
  have ho : ((encodeForm (.c o f) stop).extractLsb' 56 8).toNat = o := by
    unfold encodeForm; dsimp only
    repeat rw [extract_append_high _ _ _ _ (by decide)]
    rw [extract_all]; simp [Nat.mod_eq_of_lt h]
  have hf : cFieldsOf (encodeForm (.c o f) stop) = f := by
    unfold encodeForm cFieldsOf; dsimp only
    congr 1
    all_goals first
      | (repeat rw [bit_append_high _ _ _ (by decide)]); rw [bit_append_low _ _ _ (by decide)]; simp
      | (repeat rw [extract_append_high _ _ _ _ (by decide)]); rw [extract_append_low _ _ _ _ (by decide)]; exact extract_all _
  refine ⟨by simp only [slotForm, hf]; rw [ho], ?_, ?_⟩
  · rfl
  · unfold encodeForm; dsimp only
    rw [bit_append_low _ _ _ (by decide)]; simp

/-- A T-slot word has its opcode and fields where the decoder reads them. -/
theorem slotForm_encode_t (o : Nat) (h : o < 256) (f : TFields) (stop : Bool) :
    slotForm .t (encodeForm (.t o f) stop) = .t o f ∧ reservedBits .t (encodeForm (.t o f) stop) = 0 ∧
      (encodeForm (.t o f) stop).getLsbD 0 = stop := by
  have ho : ((encodeForm (.t o f) stop).extractLsb' 56 8).toNat = o := by
    unfold encodeForm; dsimp only
    repeat rw [extract_append_high _ _ _ _ (by decide)]
    rw [extract_all]; simp [Nat.mod_eq_of_lt h]
  have hf : tFieldsOf (encodeForm (.t o f) stop) = f := by
    unfold encodeForm tFieldsOf; dsimp only
    congr 1
    all_goals first
      | (repeat rw [bit_append_high _ _ _ (by decide)]); rw [bit_append_low _ _ _ (by decide)]; simp
      | (repeat rw [extract_append_high _ _ _ _ (by decide)]); rw [extract_append_low _ _ _ _ (by decide)]; exact extract_all _
  refine ⟨by simp only [slotForm, hf]; rw [ho], ?_, ?_⟩
  · rfl
  · unfold encodeForm; dsimp only
    rw [bit_append_low _ _ _ (by decide)]; simp

/-- A V-slot word has its opcode and fields where the decoder reads them. -/
theorem slotForm_encode_v (o : Nat) (h : o < 256) (f : VFields) (stop : Bool) :
    slotForm .v (encodeForm (.v o f) stop) = .v o f ∧ reservedBits .v (encodeForm (.v o f) stop) = 0 ∧
      (encodeForm (.v o f) stop).getLsbD 0 = stop := by
  have ho : ((encodeForm (.v o f) stop).extractLsb' 56 8).toNat = o := by
    unfold encodeForm; dsimp only
    repeat rw [extract_append_high _ _ _ _ (by decide)]
    rw [extract_all]; simp [Nat.mod_eq_of_lt h]
  have hf : vFieldsOf (encodeForm (.v o f) stop) = f := by
    unfold encodeForm vFieldsOf; dsimp only
    congr 1
    all_goals first
      | (repeat rw [bit_append_high _ _ _ (by decide)]); rw [bit_append_low _ _ _ (by decide)]; simp
      | (repeat rw [extract_append_high _ _ _ _ (by decide)]); rw [extract_append_low _ _ _ _ (by decide)]; exact extract_all _
  refine ⟨by simp only [slotForm, hf]; rw [ho], ?_, ?_⟩
  · unfold encodeForm reservedBits; dsimp only
    rw [extract_append_high _ _ _ _ (by decide), extract_append_low _ _ _ _ (by decide), extract_all]; rfl
  · unfold encodeForm; dsimp only
    rw [bit_append_low _ _ _ (by decide)]; simp

/-- A K-slot word has its opcode and fields where the decoder reads them. -/
theorem slotForm_encode_k (o : Nat) (h : o < 256) (f : VFields) (stop : Bool) :
    slotForm .k (encodeForm (.k o f) stop) = .k o f ∧ reservedBits .k (encodeForm (.k o f) stop) = 0 ∧
      (encodeForm (.k o f) stop).getLsbD 0 = stop := by
  have ho : ((encodeForm (.k o f) stop).extractLsb' 56 8).toNat = o := by
    unfold encodeForm; dsimp only
    repeat rw [extract_append_high _ _ _ _ (by decide)]
    rw [extract_all]; simp [Nat.mod_eq_of_lt h]
  have hf : vFieldsOf (encodeForm (.k o f) stop) = f := by
    unfold encodeForm vFieldsOf; dsimp only
    congr 1
    all_goals first
      | (repeat rw [bit_append_high _ _ _ (by decide)]); rw [bit_append_low _ _ _ (by decide)]; simp
      | (repeat rw [extract_append_high _ _ _ _ (by decide)]); rw [extract_append_low _ _ _ _ (by decide)]; exact extract_all _
  refine ⟨by simp only [slotForm, hf]; rw [ho], ?_, ?_⟩
  · unfold encodeForm reservedBits; dsimp only
    rw [extract_append_high _ _ _ _ (by decide), extract_append_low _ _ _ _ (by decide), extract_all]; rfl
  · unfold encodeForm; dsimp only
    rw [bit_append_low _ _ _ (by decide)]; simp

/-- A M-slot word has its opcode and fields where the decoder reads them. -/
theorem slotForm_encode_m (o : Nat) (h : o < 256) (f : MFields) (stop : Bool) :
    slotForm .m (encodeForm (.m o f) stop) = .m o f ∧ reservedBits .m (encodeForm (.m o f) stop) = 0 ∧
      (encodeForm (.m o f) stop).getLsbD 0 = stop := by
  have ho : ((encodeForm (.m o f) stop).extractLsb' 56 8).toNat = o := by
    unfold encodeForm; dsimp only
    repeat rw [extract_append_high _ _ _ _ (by decide)]
    rw [extract_all]; simp [Nat.mod_eq_of_lt h]
  have hf : mFieldsOf (encodeForm (.m o f) stop) = f := by
    unfold encodeForm mFieldsOf; dsimp only
    congr 1
    all_goals first
      | (repeat rw [bit_append_high _ _ _ (by decide)]); rw [bit_append_low _ _ _ (by decide)]; simp
      | (repeat rw [extract_append_high _ _ _ _ (by decide)]); rw [extract_append_low _ _ _ _ (by decide)]; exact extract_all _
  refine ⟨by simp only [slotForm, hf]; rw [ho], ?_, ?_⟩
  · unfold encodeForm reservedBits; dsimp only
    rw [extract_append_high _ _ _ _ (by decide), extract_append_low _ _ _ _ (by decide), extract_all]; rfl
  · unfold encodeForm; dsimp only
    rw [bit_append_low _ _ _ (by decide)]; simp

/-- The word of a slot instruction gives back its fields, reserved bits zero and the stop bit. -/
def Laws.Encoding.Statement (i : Instr) : Prop :=
  ∀ x, formOf i = some x → ∀ stop, slotForm x.slot (encodeForm x stop) = x ∧
    reservedBits x.slot (encodeForm x stop) = 0 ∧ (encodeForm x stop).getLsbD 0 = stop

theorem Laws.Encoding.bundleIssue (c : CtxId) : Laws.Encoding.Statement (.bundleIssue c) := by
  intro x h
  cases h

theorem Laws.Encoding.resultLanding (c : CtxId) (id : Nat) : Laws.Encoding.Statement (.resultLanding c id) := by
  intro x h
  cases h

theorem Laws.Encoding.fmtWriteApply (c : CtxId) : Laws.Encoding.Statement (.fmtWriteApply c) := by
  intro x h
  cases h

theorem Laws.Encoding.add (f : CFields) : Laws.Encoding.Statement (.add f) := by
  intro x h stop
  cases h
  exact slotForm_encode_c 1 (by decide) f stop

theorem Laws.Encoding.sub (f : CFields) : Laws.Encoding.Statement (.sub f) := by
  intro x h stop
  cases h
  exact slotForm_encode_c 2 (by decide) f stop

theorem Laws.Encoding.mul (f : CFields) : Laws.Encoding.Statement (.mul f) := by
  intro x h stop
  cases h
  exact slotForm_encode_c 3 (by decide) f stop

theorem Laws.Encoding.mulh (f : CFields) : Laws.Encoding.Statement (.mulh f) := by
  intro x h stop
  cases h
  exact slotForm_encode_c 4 (by decide) f stop

theorem Laws.Encoding.mulhn (f : CFields) : Laws.Encoding.Statement (.mulhn f) := by
  intro x h stop
  cases h
  exact slotForm_encode_c 5 (by decide) f stop

theorem Laws.Encoding.and (f : CFields) : Laws.Encoding.Statement (.and f) := by
  intro x h stop
  cases h
  exact slotForm_encode_c 6 (by decide) f stop

theorem Laws.Encoding.or (f : CFields) : Laws.Encoding.Statement (.or f) := by
  intro x h stop
  cases h
  exact slotForm_encode_c 7 (by decide) f stop

theorem Laws.Encoding.xor (f : CFields) : Laws.Encoding.Statement (.xor f) := by
  intro x h stop
  cases h
  exact slotForm_encode_c 8 (by decide) f stop

theorem Laws.Encoding.shl (f : CFields) : Laws.Encoding.Statement (.shl f) := by
  intro x h stop
  cases h
  exact slotForm_encode_c 9 (by decide) f stop

theorem Laws.Encoding.shr (f : CFields) : Laws.Encoding.Statement (.shr f) := by
  intro x h stop
  cases h
  exact slotForm_encode_c 10 (by decide) f stop

theorem Laws.Encoding.sra (f : CFields) : Laws.Encoding.Statement (.sra f) := by
  intro x h stop
  cases h
  exact slotForm_encode_c 11 (by decide) f stop

theorem Laws.Encoding.min (f : CFields) : Laws.Encoding.Statement (.min f) := by
  intro x h stop
  cases h
  exact slotForm_encode_c 12 (by decide) f stop

theorem Laws.Encoding.max (f : CFields) : Laws.Encoding.Statement (.max f) := by
  intro x h stop
  cases h
  exact slotForm_encode_c 13 (by decide) f stop

theorem Laws.Encoding.minn (f : CFields) : Laws.Encoding.Statement (.minn f) := by
  intro x h stop
  cases h
  exact slotForm_encode_c 14 (by decide) f stop

theorem Laws.Encoding.maxn (f : CFields) : Laws.Encoding.Statement (.maxn f) := by
  intro x h stop
  cases h
  exact slotForm_encode_c 15 (by decide) f stop

theorem Laws.Encoding.addi (f : CFields) : Laws.Encoding.Statement (.addi f) := by
  intro x h stop
  cases h
  exact slotForm_encode_c 16 (by decide) f stop

theorem Laws.Encoding.ldi (f : CFields) : Laws.Encoding.Statement (.ldi f) := by
  intro x h stop
  cases h
  exact slotForm_encode_c 17 (by decide) f stop

theorem Laws.Encoding.ldhi (f : CFields) : Laws.Encoding.Statement (.ldhi f) := by
  intro x h stop
  cases h
  exact slotForm_encode_c 18 (by decide) f stop

theorem Laws.Encoding.sel (f : CFields) : Laws.Encoding.Statement (.sel f) := by
  intro x h stop
  cases h
  exact slotForm_encode_c 19 (by decide) f stop

theorem Laws.Encoding.mov (f : CFields) : Laws.Encoding.Statement (.mov f) := by
  intro x h stop
  cases h
  exact slotForm_encode_c 20 (by decide) f stop

theorem Laws.Encoding.qlen (f : CFields) : Laws.Encoding.Statement (.qlen f) := by
  intro x h stop
  cases h
  exact slotForm_encode_c 21 (by decide) f stop

theorem Laws.Encoding.cmp (f : CFields) : Laws.Encoding.Statement (.cmp f) := by
  intro x h stop
  cases h
  exact slotForm_encode_c 22 (by decide) f stop

theorem Laws.Encoding.cmpi (f : CFields) : Laws.Encoding.Statement (.cmpi f) := by
  intro x h stop
  cases h
  exact slotForm_encode_c 23 (by decide) f stop

theorem Laws.Encoding.pand (f : CFields) : Laws.Encoding.Statement (.pand f) := by
  intro x h stop
  cases h
  exact slotForm_encode_c 24 (by decide) f stop

theorem Laws.Encoding.por (f : CFields) : Laws.Encoding.Statement (.por f) := by
  intro x h stop
  cases h
  exact slotForm_encode_c 25 (by decide) f stop

theorem Laws.Encoding.pxor (f : CFields) : Laws.Encoding.Statement (.pxor f) := by
  intro x h stop
  cases h
  exact slotForm_encode_c 26 (by decide) f stop

theorem Laws.Encoding.pnot (f : CFields) : Laws.Encoding.Statement (.pnot f) := by
  intro x h stop
  cases h
  exact slotForm_encode_c 27 (by decide) f stop

theorem Laws.Encoding.pmov (f : CFields) : Laws.Encoding.Statement (.pmov f) := by
  intro x h stop
  cases h
  exact slotForm_encode_c 28 (by decide) f stop

theorem Laws.Encoding.gset (f : CFields) : Laws.Encoding.Statement (.gset f) := by
  intro x h stop
  cases h
  exact slotForm_encode_c 29 (by decide) f stop

theorem Laws.Encoding.gstep (f : CFields) : Laws.Encoding.Statement (.gstep f) := by
  intro x h stop
  cases h
  exact slotForm_encode_c 30 (by decide) f stop

theorem Laws.Encoding.gadd (f : CFields) : Laws.Encoding.Statement (.gadd f) := by
  intro x h stop
  cases h
  exact slotForm_encode_c 31 (by decide) f stop

theorem Laws.Encoding.gget (f : CFields) : Laws.Encoding.Statement (.gget f) := by
  intro x h stop
  cases h
  exact slotForm_encode_c 32 (by decide) f stop

theorem Laws.Encoding.br (f : CFields) : Laws.Encoding.Statement (.br f) := by
  intro x h stop
  cases h
  exact slotForm_encode_c 33 (by decide) f stop

theorem Laws.Encoding.jmp (f : CFields) : Laws.Encoding.Statement (.jmp f) := by
  intro x h stop
  cases h
  exact slotForm_encode_c 34 (by decide) f stop

theorem Laws.Encoding.call (f : CFields) : Laws.Encoding.Statement (.call f) := by
  intro x h stop
  cases h
  exact slotForm_encode_c 35 (by decide) f stop

theorem Laws.Encoding.ret (f : CFields) : Laws.Encoding.Statement (.ret f) := by
  intro x h stop
  cases h
  exact slotForm_encode_c 36 (by decide) f stop

theorem Laws.Encoding.loop (f : CFields) : Laws.Encoding.Statement (.loop f) := by
  intro x h stop
  cases h
  exact slotForm_encode_c 37 (by decide) f stop

theorem Laws.Encoding.loopExtent (f : CFields) : Laws.Encoding.Statement (.loopExtent f) := by
  intro x h stop
  cases h
  exact slotForm_encode_c 37 (by decide) f stop

theorem Laws.Encoding.loops (f : CFields) : Laws.Encoding.Statement (.loops f) := by
  intro x h stop
  cases h
  exact slotForm_encode_c 38 (by decide) f stop

theorem Laws.Encoding.lbrk (f : CFields) : Laws.Encoding.Statement (.lbrk f) := by
  intro x h stop
  cases h
  exact slotForm_encode_c 39 (by decide) f stop

theorem Laws.Encoding.lidx (f : CFields) : Laws.Encoding.Statement (.lidx f) := by
  intro x h stop
  cases h
  exact slotForm_encode_c 40 (by decide) f stop

theorem Laws.Encoding.lbuf (f : CFields) : Laws.Encoding.Statement (.lbuf f) := by
  intro x h stop
  cases h
  exact slotForm_encode_c 41 (by decide) f stop

theorem Laws.Encoding.bnd (f : CFields) : Laws.Encoding.Statement (.bnd f) := by
  intro x h stop
  cases h
  exact slotForm_encode_c 42 (by decide) f stop

theorem Laws.Encoding.skip (f : CFields) : Laws.Encoding.Statement (.skip f) := by
  intro x h stop
  cases h
  exact slotForm_encode_c 43 (by decide) f stop

theorem Laws.Encoding.eset (f : CFields) : Laws.Encoding.Statement (.eset f) := by
  intro x h stop
  cases h
  exact slotForm_encode_c 44 (by decide) f stop

theorem Laws.Encoding.eget (f : CFields) : Laws.Encoding.Statement (.eget f) := by
  intro x h stop
  cases h
  exact slotForm_encode_c 45 (by decide) f stop

theorem Laws.Encoding.jset (f : CFields) : Laws.Encoding.Statement (.jset f) := by
  intro x h stop
  cases h
  exact slotForm_encode_c 46 (by decide) f stop

theorem Laws.Encoding.commit (f : CFields) : Laws.Encoding.Statement (.commit f) := by
  intro x h stop
  cases h
  exact slotForm_encode_c 47 (by decide) f stop

theorem Laws.Encoding.fmt (f : CFields) : Laws.Encoding.Statement (.fmt f) := by
  intro x h stop
  cases h
  exact slotForm_encode_c 48 (by decide) f stop

theorem Laws.Encoding.fmtrd (f : CFields) : Laws.Encoding.Statement (.fmtrd f) := by
  intro x h stop
  cases h
  exact slotForm_encode_c 49 (by decide) f stop

theorem Laws.Encoding.dead (f : CFields) : Laws.Encoding.Statement (.dead f) := by
  intro x h stop
  cases h
  exact slotForm_encode_c 50 (by decide) f stop

theorem Laws.Encoding.yield (f : CFields) : Laws.Encoding.Statement (.yield f) := by
  intro x h stop
  cases h
  exact slotForm_encode_c 51 (by decide) f stop

theorem Laws.Encoding.spawn (f : CFields) : Laws.Encoding.Statement (.spawn f) := by
  intro x h stop
  cases h
  exact slotForm_encode_c 52 (by decide) f stop

theorem Laws.Encoding.view (f : CFields) : Laws.Encoding.Statement (.view f) := by
  intro x h stop
  cases h
  exact slotForm_encode_c 53 (by decide) f stop

theorem Laws.Encoding.tend (f : CFields) : Laws.Encoding.Statement (.tend f) := by
  intro x h stop
  cases h
  exact slotForm_encode_c 54 (by decide) f stop

theorem Laws.Encoding.codesw (f : CFields) : Laws.Encoding.Statement (.codesw f) := by
  intro x h stop
  cases h
  exact slotForm_encode_c 55 (by decide) f stop

theorem Laws.Encoding.budget (f : CFields) : Laws.Encoding.Statement (.budget f) := by
  intro x h stop
  cases h
  exact slotForm_encode_c 56 (by decide) f stop

theorem Laws.Encoding.trap (f : CFields) : Laws.Encoding.Statement (.trap f) := by
  intro x h stop
  cases h
  exact slotForm_encode_c 57 (by decide) f stop

theorem Laws.Encoding.sysrd (f : CFields) : Laws.Encoding.Statement (.sysrd f) := by
  intro x h stop
  cases h
  exact slotForm_encode_c 58 (by decide) f stop

theorem Laws.Encoding.syswr (f : CFields) : Laws.Encoding.Statement (.syswr f) := by
  intro x h stop
  cases h
  exact slotForm_encode_c 59 (by decide) f stop

theorem Laws.Encoding.halt (f : CFields) : Laws.Encoding.Statement (.halt f) := by
  intro x h stop
  cases h
  exact slotForm_encode_c 60 (by decide) f stop

theorem Laws.Encoding.nop (f : CFields) : Laws.Encoding.Statement (.nop f) := by
  intro x h stop
  cases h
  exact slotForm_encode_c 61 (by decide) f stop

theorem Laws.Encoding.ldv (f : TFields) : Laws.Encoding.Statement (.ldv f) := by
  intro x h stop
  cases h
  exact slotForm_encode_t 1 (by decide) f stop

theorem Laws.Encoding.stv (f : TFields) : Laws.Encoding.Statement (.stv f) := by
  intro x h stop
  cases h
  exact slotForm_encode_t 2 (by decide) f stop

theorem Laws.Encoding.lds (f : TFields) : Laws.Encoding.Statement (.lds f) := by
  intro x h stop
  cases h
  exact slotForm_encode_t 3 (by decide) f stop

theorem Laws.Encoding.sts (f : TFields) : Laws.Encoding.Statement (.sts f) := by
  intro x h stop
  cases h
  exact slotForm_encode_t 4 (by decide) f stop

theorem Laws.Encoding.ldvx (f : TFields) : Laws.Encoding.Statement (.ldvx f) := by
  intro x h stop
  cases h
  exact slotForm_encode_t 5 (by decide) f stop

theorem Laws.Encoding.stvx (f : TFields) : Laws.Encoding.Statement (.stvx f) := by
  intro x h stop
  cases h
  exact slotForm_encode_t 6 (by decide) f stop

theorem Laws.Encoding.gthv (f : TFields) : Laws.Encoding.Statement (.gthv f) := by
  intro x h stop
  cases h
  exact slotForm_encode_t 7 (by decide) f stop

theorem Laws.Encoding.sctv (f : TFields) : Laws.Encoding.Statement (.sctv f) := by
  intro x h stop
  cases h
  exact slotForm_encode_t 8 (by decide) f stop

theorem Laws.Encoding.oclm (f : TFields) : Laws.Encoding.Statement (.oclm f) := by
  intro x h stop
  cases h
  exact slotForm_encode_t 9 (by decide) f stop

theorem Laws.Encoding.orel (f : TFields) : Laws.Encoding.Statement (.orel f) := by
  intro x h stop
  cases h
  exact slotForm_encode_t 10 (by decide) f stop

theorem Laws.Encoding.old (f : TFields) : Laws.Encoding.Statement (.old f) := by
  intro x h stop
  cases h
  exact slotForm_encode_t 11 (by decide) f stop

theorem Laws.Encoding.oldp (f : TFields) : Laws.Encoding.Statement (.oldp f) := by
  intro x h stop
  cases h
  exact slotForm_encode_t 12 (by decide) f stop

theorem Laws.Encoding.zld (f : TFields) : Laws.Encoding.Statement (.zld f) := by
  intro x h stop
  cases h
  exact slotForm_encode_t 13 (by decide) f stop

theorem Laws.Encoding.zst (f : TFields) : Laws.Encoding.Statement (.zst f) := by
  intro x h stop
  cases h
  exact slotForm_encode_t 14 (by decide) f stop

theorem Laws.Encoding.zclr (f : TFields) : Laws.Encoding.Statement (.zclr f) := by
  intro x h stop
  cases h
  exact slotForm_encode_t 15 (by decide) f stop

theorem Laws.Encoding.copy (f : TFields) : Laws.Encoding.Statement (.copy f) := by
  intro x h stop
  cases h
  exact slotForm_encode_t 16 (by decide) f stop

theorem Laws.Encoding.copym (f : TFields) : Laws.Encoding.Statement (.copym f) := by
  intro x h stop
  cases h
  exact slotForm_encode_t 17 (by decide) f stop

theorem Laws.Encoding.copyr (f : TFields) : Laws.Encoding.Statement (.copyr f) := by
  intro x h stop
  cases h
  exact slotForm_encode_t 18 (by decide) f stop

theorem Laws.Encoding.copyd (f : TFields) : Laws.Encoding.Statement (.copyd f) := by
  intro x h stop
  cases h
  exact slotForm_encode_t 19 (by decide) f stop

theorem Laws.Encoding.copya (f : TFields) : Laws.Encoding.Statement (.copya f) := by
  intro x h stop
  cases h
  exact slotForm_encode_t 20 (by decide) f stop

theorem Laws.Encoding.copyfFill (f : TFields) : Laws.Encoding.Statement (.copyfFill f) := by
  intro x h stop
  cases h
  exact slotForm_encode_t 21 (by decide) f stop

theorem Laws.Encoding.copyfDrain (f : TFields) : Laws.Encoding.Statement (.copyfDrain f) := by
  intro x h stop
  cases h
  exact slotForm_encode_t 21 (by decide) f stop

theorem Laws.Encoding.copyfReadfull (f : TFields) : Laws.Encoding.Statement (.copyfReadfull f) := by
  intro x h stop
  cases h
  exact slotForm_encode_t 21 (by decide) f stop

theorem Laws.Encoding.copyfEmpty (f : TFields) : Laws.Encoding.Statement (.copyfEmpty f) := by
  intro x h stop
  cases h
  exact slotForm_encode_t 21 (by decide) f stop

theorem Laws.Encoding.copyq (f : TFields) : Laws.Encoding.Statement (.copyq f) := by
  intro x h stop
  cases h
  exact slotForm_encode_t 22 (by decide) f stop

theorem Laws.Encoding.cwait (f : TFields) : Laws.Encoding.Statement (.cwait f) := by
  intro x h stop
  cases h
  exact slotForm_encode_t 23 (by decide) f stop

theorem Laws.Encoding.cany (f : TFields) : Laws.Encoding.Statement (.cany f) := by
  intro x h stop
  cases h
  exact slotForm_encode_t 24 (by decide) f stop

theorem Laws.Encoding.cfirst (f : TFields) : Laws.Encoding.Statement (.cfirst f) := by
  intro x h stop
  cases h
  exact slotForm_encode_t 25 (by decide) f stop

theorem Laws.Encoding.ctags (f : TFields) : Laws.Encoding.Statement (.ctags f) := by
  intro x h stop
  cases h
  exact slotForm_encode_t 26 (by decide) f stop

theorem Laws.Encoding.cstat (f : TFields) : Laws.Encoding.Statement (.cstat f) := by
  intro x h stop
  cases h
  exact slotForm_encode_t 27 (by decide) f stop

theorem Laws.Encoding.cclr (f : TFields) : Laws.Encoding.Statement (.cclr f) := by
  intro x h stop
  cases h
  exact slotForm_encode_t 28 (by decide) f stop

theorem Laws.Encoding.tagWaitEnd (c : CtxId) : Laws.Encoding.Statement (.tagWaitEnd c) := by
  intro x h
  cases h

theorem Laws.Encoding.barr (f : TFields) : Laws.Encoding.Statement (.barr f) := by
  intro x h stop
  cases h
  exact slotForm_encode_t 29 (by decide) f stop

theorem Laws.Encoding.barw (f : TFields) : Laws.Encoding.Statement (.barw f) := by
  intro x h stop
  cases h
  exact slotForm_encode_t 30 (by decide) f stop

theorem Laws.Encoding.bard (f : TFields) : Laws.Encoding.Statement (.bard f) := by
  intro x h stop
  cases h
  exact slotForm_encode_t 31 (by decide) f stop

theorem Laws.Encoding.barj (f : TFields) : Laws.Encoding.Statement (.barj f) := by
  intro x h stop
  cases h
  exact slotForm_encode_t 32 (by decide) f stop

theorem Laws.Encoding.barrierWaitEnd (c : CtxId) : Laws.Encoding.Statement (.barrierWaitEnd c) := by
  intro x h
  cases h

theorem Laws.Encoding.phase (f : TFields) : Laws.Encoding.Statement (.phase f) := by
  intro x h stop
  cases h
  exact slotForm_encode_t 33 (by decide) f stop

theorem Laws.Encoding.publicationComplete (id : Nat) : Laws.Encoding.Statement (.publicationComplete id) := by
  intro x h
  cases h

theorem Laws.Encoding.aqry (f : TFields) : Laws.Encoding.Statement (.aqry f) := by
  intro x h stop
  cases h
  exact slotForm_encode_t 34 (by decide) f stop

theorem Laws.Encoding.kvap (f : TFields) : Laws.Encoding.Statement (.kvap f) := by
  intro x h stop
  cases h
  exact slotForm_encode_t 35 (by decide) f stop

theorem Laws.Encoding.kvmsk (f : TFields) : Laws.Encoding.Statement (.kvmsk f) := by
  intro x h stop
  cases h
  exact slotForm_encode_t 36 (by decide) f stop

theorem Laws.Encoding.kvtrMove (f : TFields) : Laws.Encoding.Statement (.kvtrMove f) := by
  intro x h stop
  cases h
  exact slotForm_encode_t 37 (by decide) f stop

theorem Laws.Encoding.kvtrCompact (f : TFields) : Laws.Encoding.Statement (.kvtrCompact f) := by
  intro x h stop
  cases h
  exact slotForm_encode_t 37 (by decide) f stop

theorem Laws.Encoding.kvtrTrim (f : TFields) : Laws.Encoding.Statement (.kvtrTrim f) := by
  intro x h stop
  cases h
  exact slotForm_encode_t 37 (by decide) f stop

theorem Laws.Encoding.kvtrPshare (f : TFields) : Laws.Encoding.Statement (.kvtrPshare f) := by
  intro x h stop
  cases h
  exact slotForm_encode_t 37 (by decide) f stop

theorem Laws.Encoding.pvsnap (f : TFields) : Laws.Encoding.Statement (.pvsnap f) := by
  intro x h stop
  cases h
  exact slotForm_encode_t 38 (by decide) f stop

theorem Laws.Encoding.pvpub (f : TFields) : Laws.Encoding.Statement (.pvpub f) := by
  intro x h stop
  cases h
  exact slotForm_encode_t 39 (by decide) f stop

theorem Laws.Encoding.pvrd (f : TFields) : Laws.Encoding.Statement (.pvrd f) := by
  intro x h stop
  cases h
  exact slotForm_encode_t 40 (by decide) f stop

theorem Laws.Encoding.grd (f : TFields) : Laws.Encoding.Statement (.grd f) := by
  intro x h stop
  cases h
  exact slotForm_encode_t 41 (by decide) f stop

theorem Laws.Encoding.grdc (f : TFields) : Laws.Encoding.Statement (.grdc f) := by
  intro x h stop
  cases h
  exact slotForm_encode_t 42 (by decide) f stop

theorem Laws.Encoding.ifill (f : TFields) : Laws.Encoding.Statement (.ifill f) := by
  intro x h stop
  cases h
  exact slotForm_encode_t 43 (by decide) f stop

theorem Laws.Encoding.vadd (f : VFields) : Laws.Encoding.Statement (.vadd f) := by
  intro x h stop
  cases h
  exact slotForm_encode_v 1 (by decide) f stop

theorem Laws.Encoding.vsub (f : VFields) : Laws.Encoding.Statement (.vsub f) := by
  intro x h stop
  cases h
  exact slotForm_encode_v 2 (by decide) f stop

theorem Laws.Encoding.vmul (f : VFields) : Laws.Encoding.Statement (.vmul f) := by
  intro x h stop
  cases h
  exact slotForm_encode_v 3 (by decide) f stop

theorem Laws.Encoding.vfma (f : VFields) : Laws.Encoding.Statement (.vfma f) := by
  intro x h stop
  cases h
  exact slotForm_encode_v 4 (by decide) f stop

theorem Laws.Encoding.vfms (f : VFields) : Laws.Encoding.Statement (.vfms f) := by
  intro x h stop
  cases h
  exact slotForm_encode_v 5 (by decide) f stop

theorem Laws.Encoding.vfnm (f : VFields) : Laws.Encoding.Statement (.vfnm f) := by
  intro x h stop
  cases h
  exact slotForm_encode_v 6 (by decide) f stop

theorem Laws.Encoding.vmin (f : VFields) : Laws.Encoding.Statement (.vmin f) := by
  intro x h stop
  cases h
  exact slotForm_encode_v 7 (by decide) f stop

theorem Laws.Encoding.vmax (f : VFields) : Laws.Encoding.Statement (.vmax f) := by
  intro x h stop
  cases h
  exact slotForm_encode_v 8 (by decide) f stop

theorem Laws.Encoding.vabs (f : VFields) : Laws.Encoding.Statement (.vabs f) := by
  intro x h stop
  cases h
  exact slotForm_encode_v 9 (by decide) f stop

theorem Laws.Encoding.vneg (f : VFields) : Laws.Encoding.Statement (.vneg f) := by
  intro x h stop
  cases h
  exact slotForm_encode_v 10 (by decide) f stop

theorem Laws.Encoding.vrcp (f : VFields) : Laws.Encoding.Statement (.vrcp f) := by
  intro x h stop
  cases h
  exact slotForm_encode_v 11 (by decide) f stop

theorem Laws.Encoding.vrsq (f : VFields) : Laws.Encoding.Statement (.vrsq f) := by
  intro x h stop
  cases h
  exact slotForm_encode_v 12 (by decide) f stop

theorem Laws.Encoding.vsqrt (f : VFields) : Laws.Encoding.Statement (.vsqrt f) := by
  intro x h stop
  cases h
  exact slotForm_encode_v 13 (by decide) f stop

theorem Laws.Encoding.vdiv (f : VFields) : Laws.Encoding.Statement (.vdiv f) := by
  intro x h stop
  cases h
  exact slotForm_encode_v 14 (by decide) f stop

theorem Laws.Encoding.vcmp (f : VFields) : Laws.Encoding.Statement (.vcmp f) := by
  intro x h stop
  cases h
  exact slotForm_encode_v 15 (by decide) f stop

theorem Laws.Encoding.vsel (f : VFields) : Laws.Encoding.Statement (.vsel f) := by
  intro x h stop
  cases h
  exact slotForm_encode_v 16 (by decide) f stop

theorem Laws.Encoding.vcvt (f : VFields) : Laws.Encoding.Statement (.vcvt f) := by
  intro x h stop
  cases h
  exact slotForm_encode_v 17 (by decide) f stop

theorem Laws.Encoding.vrnd (f : VFields) : Laws.Encoding.Statement (.vrnd f) := by
  intro x h stop
  cases h
  exact slotForm_encode_v 18 (by decide) f stop

theorem Laws.Encoding.vscale (f : VFields) : Laws.Encoding.Statement (.vscale f) := by
  intro x h stop
  cases h
  exact slotForm_encode_v 19 (by decide) f stop

theorem Laws.Encoding.vclass (f : VFields) : Laws.Encoding.Statement (.vclass f) := by
  intro x h stop
  cases h
  exact slotForm_encode_v 20 (by decide) f stop

theorem Laws.Encoding.vand (f : VFields) : Laws.Encoding.Statement (.vand f) := by
  intro x h stop
  cases h
  exact slotForm_encode_v 21 (by decide) f stop

theorem Laws.Encoding.vor (f : VFields) : Laws.Encoding.Statement (.vor f) := by
  intro x h stop
  cases h
  exact slotForm_encode_v 22 (by decide) f stop

theorem Laws.Encoding.vxor (f : VFields) : Laws.Encoding.Statement (.vxor f) := by
  intro x h stop
  cases h
  exact slotForm_encode_v 23 (by decide) f stop

theorem Laws.Encoding.vandn (f : VFields) : Laws.Encoding.Statement (.vandn f) := by
  intro x h stop
  cases h
  exact slotForm_encode_v 24 (by decide) f stop

theorem Laws.Encoding.vshl (f : VFields) : Laws.Encoding.Statement (.vshl f) := by
  intro x h stop
  cases h
  exact slotForm_encode_v 25 (by decide) f stop

theorem Laws.Encoding.vshlImm (f : VFields) : Laws.Encoding.Statement (.vshlImm f) := by
  intro x h stop
  cases h
  exact slotForm_encode_v 25 (by decide) f stop

theorem Laws.Encoding.vshr (f : VFields) : Laws.Encoding.Statement (.vshr f) := by
  intro x h stop
  cases h
  exact slotForm_encode_v 26 (by decide) f stop

theorem Laws.Encoding.vshrImm (f : VFields) : Laws.Encoding.Statement (.vshrImm f) := by
  intro x h stop
  cases h
  exact slotForm_encode_v 26 (by decide) f stop

theorem Laws.Encoding.vsra (f : VFields) : Laws.Encoding.Statement (.vsra f) := by
  intro x h stop
  cases h
  exact slotForm_encode_v 27 (by decide) f stop

theorem Laws.Encoding.vsraImm (f : VFields) : Laws.Encoding.Statement (.vsraImm f) := by
  intro x h stop
  cases h
  exact slotForm_encode_v 27 (by decide) f stop

theorem Laws.Encoding.vmulh (f : VFields) : Laws.Encoding.Statement (.vmulh f) := by
  intro x h stop
  cases h
  exact slotForm_encode_v 28 (by decide) f stop

theorem Laws.Encoding.vdot2 (f : VFields) : Laws.Encoding.Statement (.vdot2 f) := by
  intro x h stop
  cases h
  exact slotForm_encode_v 29 (by decide) f stop

theorem Laws.Encoding.vsat (f : VFields) : Laws.Encoding.Statement (.vsat f) := by
  intro x h stop
  cases h
  exact slotForm_encode_v 30 (by decide) f stop

theorem Laws.Encoding.vclz (f : VFields) : Laws.Encoding.Statement (.vclz f) := by
  intro x h stop
  cases h
  exact slotForm_encode_v 31 (by decide) f stop

theorem Laws.Encoding.vpopc (f : VFields) : Laws.Encoding.Statement (.vpopc f) := by
  intro x h stop
  cases h
  exact slotForm_encode_v 32 (by decide) f stop

theorem Laws.Encoding.vbcast (f : VFields) : Laws.Encoding.Statement (.vbcast f) := by
  intro x h stop
  cases h
  exact slotForm_encode_v 33 (by decide) f stop

theorem Laws.Encoding.vlane (f : VFields) : Laws.Encoding.Statement (.vlane f) := by
  intro x h stop
  cases h
  exact slotForm_encode_v 34 (by decide) f stop

theorem Laws.Encoding.vins (f : VFields) : Laws.Encoding.Statement (.vins f) := by
  intro x h stop
  cases h
  exact slotForm_encode_v 35 (by decide) f stop

theorem Laws.Encoding.vslide (f : VFields) : Laws.Encoding.Statement (.vslide f) := by
  intro x h stop
  cases h
  exact slotForm_encode_v 36 (by decide) f stop

theorem Laws.Encoding.vperm (f : VFields) : Laws.Encoding.Statement (.vperm f) := by
  intro x h stop
  cases h
  exact slotForm_encode_v 37 (by decide) f stop

theorem Laws.Encoding.vrev (f : VFields) : Laws.Encoding.Statement (.vrev f) := by
  intro x h stop
  cases h
  exact slotForm_encode_v 38 (by decide) f stop

theorem Laws.Encoding.vzip (f : VFields) : Laws.Encoding.Statement (.vzip f) := by
  intro x h stop
  cases h
  exact slotForm_encode_v 39 (by decide) f stop

theorem Laws.Encoding.vunzip (f : VFields) : Laws.Encoding.Statement (.vunzip f) := by
  intro x h stop
  cases h
  exact slotForm_encode_v 40 (by decide) f stop

theorem Laws.Encoding.vpack (f : VFields) : Laws.Encoding.Statement (.vpack f) := by
  intro x h stop
  cases h
  exact slotForm_encode_v 41 (by decide) f stop

theorem Laws.Encoding.vunpk (f : VFields) : Laws.Encoding.Statement (.vunpk f) := by
  intro x h stop
  cases h
  exact slotForm_encode_v 42 (by decide) f stop

theorem Laws.Encoding.vplx (f : VFields) : Laws.Encoding.Statement (.vplx f) := by
  intro x h stop
  cases h
  exact slotForm_encode_v 43 (by decide) f stop

theorem Laws.Encoding.vplc (f : VFields) : Laws.Encoding.Statement (.vplc f) := by
  intro x h stop
  cases h
  exact slotForm_encode_v 44 (by decide) f stop

theorem Laws.Encoding.viota (f : VFields) : Laws.Encoding.Statement (.viota f) := by
  intro x h stop
  cases h
  exact slotForm_encode_v 45 (by decide) f stop

theorem Laws.Encoding.vmov (f : VFields) : Laws.Encoding.Statement (.vmov f) := by
  intro x h stop
  cases h
  exact slotForm_encode_v 46 (by decide) f stop

theorem Laws.Encoding.mma (f : MFields) : Laws.Encoding.Statement (.mma f) := by
  intro x h stop
  cases h
  exact slotForm_encode_m 1 (by decide) f stop

theorem Laws.Encoding.mmaz (f : MFields) : Laws.Encoding.Statement (.mmaz f) := by
  intro x h stop
  cases h
  exact slotForm_encode_m 2 (by decide) f stop

theorem Laws.Encoding.mmap (f : MFields) : Laws.Encoding.Statement (.mmap f) := by
  intro x h stop
  cases h
  exact slotForm_encode_m 3 (by decide) f stop

theorem Laws.Encoding.mgrp (f : MFields) : Laws.Encoding.Statement (.mgrp f) := by
  intro x h stop
  cases h
  exact slotForm_encode_m 4 (by decide) f stop

theorem Laws.Encoding.mtrn (f : MFields) : Laws.Encoding.Statement (.mtrn f) := by
  intro x h stop
  cases h
  exact slotForm_encode_m 5 (by decide) f stop

theorem Laws.Encoding.mscl (f : MFields) : Laws.Encoding.Statement (.mscl f) := by
  intro x h stop
  cases h
  exact slotForm_encode_m 6 (by decide) f stop

theorem Laws.Encoding.mfill (f : MFields) : Laws.Encoding.Statement (.mfill f) := by
  intro x h stop
  cases h
  exact slotForm_encode_m 7 (by decide) f stop

theorem Laws.Encoding.mmov (f : MFields) : Laws.Encoding.Statement (.mmov f) := by
  intro x h stop
  cases h
  exact slotForm_encode_m 8 (by decide) f stop

theorem Laws.Encoding.madd (f : MFields) : Laws.Encoding.Statement (.madd f) := by
  intro x h stop
  cases h
  exact slotForm_encode_m 9 (by decide) f stop

theorem Laws.Encoding.mwait (f : MFields) : Laws.Encoding.Statement (.mwait f) := by
  intro x h stop
  cases h
  exact slotForm_encode_m 10 (by decide) f stop

theorem Laws.Encoding.mStep (core : Nat) : Laws.Encoding.Statement (.mStep core) := by
  intro x h
  cases h

theorem Laws.Encoding.pairHalfArrival (c : CtxId) : Laws.Encoding.Statement (.pairHalfArrival c) := by
  intro x h
  cases h

theorem Laws.Encoding.pairStepTimeout (c : CtxId) (step : Nat) : Laws.Encoding.Statement (.pairStepTimeout c step) := by
  intro x h
  cases h

theorem Laws.Encoding.kexp2 (f : VFields) : Laws.Encoding.Statement (.kexp2 f) := by
  intro x h stop
  cases h
  exact slotForm_encode_k 1 (by decide) f stop

theorem Laws.Encoding.kexp2Biased (f : VFields) : Laws.Encoding.Statement (.kexp2Biased f) := by
  intro x h stop
  cases h
  exact slotForm_encode_k 1 (by decide) f stop

theorem Laws.Encoding.klog2 (f : VFields) : Laws.Encoding.Statement (.klog2 f) := by
  intro x h stop
  cases h
  exact slotForm_encode_k 2 (by decide) f stop

theorem Laws.Encoding.kmax (f : VFields) : Laws.Encoding.Statement (.kmax f) := by
  intro x h stop
  cases h
  exact slotForm_encode_k 3 (by decide) f stop

theorem Laws.Encoding.ksum (f : VFields) : Laws.Encoding.Statement (.ksum f) := by
  intro x h stop
  cases h
  exact slotForm_encode_k 4 (by decide) f stop

theorem Laws.Encoding.ksumw (f : VFields) : Laws.Encoding.Statement (.ksumw f) := by
  intro x h stop
  cases h
  exact slotForm_encode_k 5 (by decide) f stop

theorem Laws.Encoding.kscan (f : VFields) : Laws.Encoding.Statement (.kscan f) := by
  intro x h stop
  cases h
  exact slotForm_encode_k 6 (by decide) f stop

theorem Laws.Encoding.ksmx (f : VFields) : Laws.Encoding.Statement (.ksmx f) := by
  intro x h stop
  cases h
  exact slotForm_encode_k 7 (by decide) f stop

theorem Laws.Encoding.ksmrg (f : VFields) : Laws.Encoding.Statement (.ksmrg f) := by
  intro x h stop
  cases h
  exact slotForm_encode_k 8 (by decide) f stop

theorem Laws.Encoding.ksmrgBody (f : VFields) : Laws.Encoding.Statement (.ksmrgBody f) := by
  intro x h stop
  cases h
  exact slotForm_encode_k 8 (by decide) f stop

theorem Laws.Encoding.ksort (f : VFields) : Laws.Encoding.Statement (.ksort f) := by
  intro x h stop
  cases h
  exact slotForm_encode_k 9 (by decide) f stop

theorem Laws.Encoding.kmrg (f : VFields) : Laws.Encoding.Statement (.kmrg f) := by
  intro x h stop
  cases h
  exact slotForm_encode_k 10 (by decide) f stop

theorem Laws.Encoding.kcclr (f : VFields) : Laws.Encoding.Statement (.kcclr f) := by
  intro x h stop
  cases h
  exact slotForm_encode_k 11 (by decide) f stop

theorem Laws.Encoding.kcrd (f : VFields) : Laws.Encoding.Statement (.kcrd f) := by
  intro x h stop
  cases h
  exact slotForm_encode_k 12 (by decide) f stop

theorem Laws.Encoding.ktemp (f : VFields) : Laws.Encoding.Statement (.ktemp f) := by
  intro x h stop
  cases h
  exact slotForm_encode_k 13 (by decide) f stop

theorem Laws.Encoding.ktopp (f : VFields) : Laws.Encoding.Statement (.ktopp f) := by
  intro x h stop
  cases h
  exact slotForm_encode_k 14 (by decide) f stop

theorem Laws.Encoding.krng (f : VFields) : Laws.Encoding.Statement (.krng f) := by
  intro x h stop
  cases h
  exact slotForm_encode_k 15 (by decide) f stop

theorem Laws.Encoding.krngk (f : VFields) : Laws.Encoding.Statement (.krngk f) := by
  intro x h stop
  cases h
  exact slotForm_encode_k 16 (by decide) f stop

theorem Laws.Encoding.kgmb (f : VFields) : Laws.Encoding.Statement (.kgmb f) := by
  intro x h stop
  cases h
  exact slotForm_encode_k 17 (by decide) f stop

theorem Laws.Encoding.kpick (f : VFields) : Laws.Encoding.Statement (.kpick f) := by
  intro x h stop
  cases h
  exact slotForm_encode_k 18 (by decide) f stop

theorem Laws.Encoding.kpickScore (f : VFields) : Laws.Encoding.Statement (.kpickScore f) := by
  intro x h stop
  cases h
  exact slotForm_encode_k 18 (by decide) f stop

theorem Laws.Encoding.kargmx (f : VFields) : Laws.Encoding.Statement (.kargmx f) := by
  intro x h stop
  cases h
  exact slotForm_encode_k 19 (by decide) f stop

theorem Laws.Encoding.lcopy (d a b : BitVec 5) : Laws.Encoding.Statement (.lcopy d a b) := by
  intro x h
  cases h

theorem Laws.Encoding.lwait (d a b : BitVec 5) : Laws.Encoding.Statement (.lwait d a b) := by
  intro x h
  cases h

theorem Laws.Encoding.lpoll (d a b : BitVec 5) : Laws.Encoding.Statement (.lpoll d a b) := by
  intro x h
  cases h

theorem Laws.Encoding.lstat (d a : BitVec 5) : Laws.Encoding.Statement (.lstat d a) := by
  intro x h
  cases h

theorem Laws.Encoding.lpush (a b : BitVec 5) : Laws.Encoding.Statement (.lpush a b) := by
  intro x h
  cases h

theorem Laws.Encoding.lpop (d a b : BitVec 5) : Laws.Encoding.Statement (.lpop d a b) := by
  intro x h
  cases h

theorem Laws.Encoding.lfe (d a b : BitVec 5) : Laws.Encoding.Statement (.lfe d a b) := by
  intro x h
  cases h

theorem Laws.Encoding.ltsk (d a : BitVec 5) : Laws.Encoding.Statement (.ltsk d a) := by
  intro x h
  cases h

theorem Laws.Encoding.lbarArrive (a b : BitVec 5) : Laws.Encoding.Statement (.lbarArrive a b) := by
  intro x h
  cases h

theorem Laws.Encoding.lbarWait (a b : BitVec 5) : Laws.Encoding.Statement (.lbarWait a b) := by
  intro x h
  cases h

theorem Laws.Encoding.hartWaitEnd (h : HartId) : Laws.Encoding.Statement (.hartWaitEnd h) := by
  intro x h
  cases h

theorem Laws.Encoding.hartDeviceRegisterWrite (op : Rv) (len : Nat) : Laws.Encoding.Statement (.hartDeviceRegisterWrite op len) := by
  intro x h
  cases h

theorem Laws.Encoding.yieldSliceEnd (c : CtxId) : Laws.Encoding.Statement (.yieldSliceEnd c) := by
  intro x h
  cases h

theorem Laws.Encoding.tendComplete (c : CtxId) : Laws.Encoding.Statement (.tendComplete c) := by
  intro x h
  cases h

theorem Laws.Encoding.haltComplete (c : CtxId) : Laws.Encoding.Statement (.haltComplete c) := by
  intro x h
  cases h

theorem Laws.Encoding.spawnPoolWaitEnd (c : CtxId) : Laws.Encoding.Statement (.spawnPoolWaitEnd c) := by
  intro x h
  cases h

theorem Laws.Encoding.spawnHandoverEnd (c : CtxId) : Laws.Encoding.Statement (.spawnHandoverEnd c) := by
  intro x h
  cases h

theorem Laws.Encoding.viewFillComplete (id : Nat) : Laws.Encoding.Statement (.viewFillComplete id) := by
  intro x h
  cases h

theorem Laws.Encoding.instructionFillComplete (id : Nat) : Laws.Encoding.Statement (.instructionFillComplete id) := by
  intro x h
  cases h

theorem Laws.Encoding.walkComplete (id : Nat) : Laws.Encoding.Statement (.walkComplete id) := by
  intro x h
  cases h

theorem Laws.Encoding.copyComplete (id : Nat) : Laws.Encoding.Statement (.copyComplete id) := by
  intro x h
  cases h

theorem Laws.Encoding.copyTargetTimeout (id : Nat) : Laws.Encoding.Statement (.copyTargetTimeout id) := by
  intro x h
  cases h

theorem Laws.Encoding.pushEntryFreed (id : Nat) : Laws.Encoding.Statement (.pushEntryFreed id) := by
  intro x h
  cases h

theorem Laws.Encoding.copyfWordReady (id : Nat) : Laws.Encoding.Statement (.copyfWordReady id) := by
  intro x h
  cases h

theorem Laws.Encoding.atomicElementApply (id : Nat) : Laws.Encoding.Statement (.atomicElementApply id) := by
  intro x h
  cases h

theorem Laws.Encoding.viewPieceMerge (id : Nat) : Laws.Encoding.Statement (.viewPieceMerge id) := by
  intro x h
  cases h

theorem Laws.Encoding.arbiterDecision (die : Nat) : Laws.Encoding.Statement (.arbiterDecision die) := by
  intro x h
  cases h

theorem Laws.Encoding.waveStart (w : Nat) : Laws.Encoding.Statement (.waveStart w) := by
  intro x h
  cases h

theorem Laws.Encoding.coreGating (core : Nat) : Laws.Encoding.Statement (.coreGating core) := by
  intro x h
  cases h

theorem Laws.Encoding.scratchClearComplete (core : Nat) : Laws.Encoding.Statement (.scratchClearComplete core) := by
  intro x h
  cases h

theorem Laws.Encoding.stateRestoreComplete (c : CtxId) : Laws.Encoding.Statement (.stateRestoreComplete c) := by
  intro x h
  cases h

theorem Laws.Encoding.preemptHalt (c : CtxId) : Laws.Encoding.Statement (.preemptHalt c) := by
  intro x h
  cases h

theorem Laws.Encoding.budgetTrap (c : CtxId) : Laws.Encoding.Statement (.budgetTrap c) := by
  intro x h
  cases h

theorem Laws.Encoding.watchdog (c : CtxId) : Laws.Encoding.Statement (.watchdog c) := by
  intro x h
  cases h

theorem Laws.Encoding.boundaryOverrun (c : CtxId) : Laws.Encoding.Statement (.boundaryOverrun c) := by
  intro x h
  cases h

theorem Laws.Encoding.nmaPartial (query stack : Nat) : Laws.Encoding.Statement (.nmaPartial query stack) := by
  intro x h
  cases h

theorem Laws.Encoding.mergeChildTimeout (query node : Nat) : Laws.Encoding.Statement (.mergeChildTimeout query node) := by
  intro x h
  cases h

theorem Laws.Encoding.windowDestTimeout (query : Nat) : Laws.Encoding.Statement (.windowDestTimeout query) := by
  intro x h
  cases h

theorem Laws.Encoding.commitAsync (id : Nat) : Laws.Encoding.Statement (.commitAsync id) := by
  intro x h
  cases h

theorem Laws.Encoding.partitionRecordApply (part : Nat) : Laws.Encoding.Statement (.partitionRecordApply part) := by
  intro x h
  cases h

theorem Laws.Encoding.snapshotStreamComplete (rcb : Nat) : Laws.Encoding.Statement (.snapshotStreamComplete rcb) := by
  intro x h
  cases h

theorem Laws.Encoding.incarnationProbeTimeout (pkg : Nat) : Laws.Encoding.Statement (.incarnationProbeTimeout pkg) := by
  intro x h
  cases h

theorem Laws.Encoding.hartInstruction (op : Rv) (len : Nat) : Laws.Encoding.Statement (.hartInstruction op len) := by
  intro x h
  cases h

theorem Laws.Encoding.faultServiceReplay (id : Nat) : Laws.Encoding.Statement (.faultServiceReplay id) := by
  intro x h
  cases h

theorem Laws.Encoding.lyld : Laws.Encoding.Statement .lyld := by
  intro x h
  cases h

theorem Laws.Encoding.hartEcall : Laws.Encoding.Statement .hartEcall := by
  intro x h
  cases h

theorem Laws.Encoding.hartEbreak : Laws.Encoding.Statement .hartEbreak := by
  intro x h
  cases h

theorem Laws.Encoding.faultServiceFail (id : Nat) : Laws.Encoding.Statement (.faultServiceFail id) := by
  intro x h
  cases h

theorem Laws.Encoding.readinessWordFilled (task word : Nat) : Laws.Encoding.Statement (.readinessWordFilled task word) := by
  intro x h
  cases h

theorem Laws.Encoding.startNotice (p : Arrived QueryMsg) (node : Nat) : Laws.Encoding.Statement (.startNotice p node) := by
  intro x h
  cases h

theorem Laws.Encoding.solderPartialArrival (p : Arrived QueryMsg) (child : Nat) (ans : Answer) : Laws.Encoding.Statement (.solderPartialArrival p child ans) := by
  intro x h
  cases h

theorem Laws.Encoding.movePrepare (p : Arrived MoveMsg) : Laws.Encoding.Statement (.movePrepare p) := by
  intro x h
  cases h

theorem Laws.Encoding.movePrepareAck (move : Nat) (p : Arrived (List DWord)) : Laws.Encoding.Statement (.movePrepareAck move p) := by
  intro x h
  cases h

theorem Laws.Encoding.moveCommit (p : Arrived MoveMsg) : Laws.Encoding.Statement (.moveCommit p) := by
  intro x h
  cases h

theorem Laws.Encoding.moveCommitAck (move : Nat) (p : Arrived Unit) : Laws.Encoding.Statement (.moveCommitAck move p) := by
  intro x h
  cases h

theorem Laws.Encoding.moveAbort (p : Arrived MoveMsg) : Laws.Encoding.Statement (.moveAbort p) := by
  intro x h
  cases h

theorem Laws.Encoding.moveOutcomeQuery (move : Nat) (p : Arrived Unit) : Laws.Encoding.Statement (.moveOutcomeQuery move p) := by
  intro x h
  cases h

theorem Laws.Encoding.pewterLoad (seq : Nat) : Laws.Encoding.Statement (.pewterLoad seq) := by
  intro x h
  cases h

theorem Laws.Encoding.treeTableInstall (id : Nat) (words : List Word) : Laws.Encoding.Statement (.treeTableInstall id words) := by
  intro x h
  cases h

theorem Laws.Encoding.translationInstall (asid va level : Nat) (entry : DWord) : Laws.Encoding.Statement (.translationInstall asid va level entry) := by
  intro x h
  cases h

theorem Laws.Encoding.generationRaiseComplete (asid : Nat) : Laws.Encoding.Statement (.generationRaiseComplete asid) := by
  intro x h
  cases h

theorem Laws.Encoding.pageMigration (asid va pa : Nat) : Laws.Encoding.Statement (.pageMigration asid va pa) := by
  intro x h
  cases h

theorem Laws.Encoding.checkpointWarning (source : Nat) : Laws.Encoding.Statement (.checkpointWarning source) := by
  intro x h
  cases h

theorem Laws.Encoding.errorWindowEnd : Laws.Encoding.Statement .errorWindowEnd := by
  intro x h
  cases h

theorem Laws.Encoding.incarnationProbeReply (pkg : Arrived Unit) (inc : Word) : Laws.Encoding.Statement (.incarnationProbeReply pkg inc) := by
  intro x h
  cases h

theorem Laws.Encoding.targetResetNotice (pkg : Nat) : Laws.Encoding.Statement (.targetResetNotice pkg) := by
  intro x h
  cases h

theorem Laws.Encoding.targetPowerDownNotice (pkg : Nat) : Laws.Encoding.Statement (.targetPowerDownNotice pkg) := by
  intro x h
  cases h

theorem Laws.Encoding.flitReceive (link seq : Nat) (crcOk : Bool) (x : LinkIn) : Laws.Encoding.Statement (.flitReceive link seq crcOk x) := by
  intro x h
  cases h

theorem Laws.Encoding.linkRetrain (link : Nat) : Laws.Encoding.Statement (.linkRetrain link) := by
  intro x h
  cases h

theorem Laws.Encoding.linkRetrainEnd (link : Nat) (ok : Bool) : Laws.Encoding.Statement (.linkRetrainEnd link ok) := by
  intro x h
  cases h

theorem Laws.Encoding.packetAck (pkg : Nat) (a : PacketReply) : Laws.Encoding.Statement (.packetAck pkg a) := by
  intro x h
  cases h

theorem Laws.Encoding.packageReset : Laws.Encoding.Statement .packageReset := by
  intro x h
  cases h

theorem Laws.Encoding.linkTrainingWave (w : Nat) : Laws.Encoding.Statement (.linkTrainingWave w) := by
  intro x h
  cases h

theorem Laws.Encoding.hbmRefresh (stack : Nat) : Laws.Encoding.Statement (.hbmRefresh stack) := by
  intro x h
  cases h

theorem Laws.Encoding.controlConnectionRequest (port : Nat) (service : ConnectionRequest) (asid : Nat) : Laws.Encoding.Statement (.controlConnectionRequest port service asid) := by
  intro x h
  cases h

theorem Laws.Encoding.launch (r : Request) : Laws.Encoding.Statement (.launch r) := by
  intro x h
  cases h

theorem Laws.Encoding.preempt (r : Request) : Laws.Encoding.Statement (.preempt r) := by
  intro x h
  cases h

theorem Laws.Encoding.resume (r : Request) : Laws.Encoding.Statement (.resume r) := by
  intro x h
  cases h

theorem Laws.Encoding.sync (m : HostMsg) : Laws.Encoding.Statement (.sync m) := by
  intro x h
  cases h

theorem Laws.Encoding.replay (m : HostMsg) : Laws.Encoding.Statement (.replay m) := by
  intro x h
  cases h

theorem Laws.Encoding.attest (m : HostMsg) : Laws.Encoding.Statement (.attest m) := by
  intro x h
  cases h

theorem Laws.Encoding.restore (m : HostMsg) : Laws.Encoding.Statement (.restore m) := by
  intro x h
  cases h

theorem Laws.Encoding.unknownMessage (m : HostMsg) : Laws.Encoding.Statement (.unknownMessage m) := by
  intro x h
  cases h

theorem Laws.Encoding.rdmaWrite (r : RdmaOp) : Laws.Encoding.Statement (.rdmaWrite r) := by
  intro x h
  cases h

theorem Laws.Encoding.rdmaRead (r : RdmaOp) : Laws.Encoding.Statement (.rdmaRead r) := by
  intro x h
  cases h

theorem Laws.Encoding.rdmaInvalidOperation (r : RdmaOp) : Laws.Encoding.Statement (.rdmaInvalidOperation r) := by
  intro x h
  cases h

theorem Laws.Encoding.timebaseAdvance : Laws.Encoding.Statement .timebaseAdvance := by
  intro x h
  cases h

theorem Laws.Encoding.correctedError (source : Nat) : Laws.Encoding.Statement (.correctedError source) := by
  intro x h
  cases h

theorem Laws.Encoding.pewterEvict (seq : Nat) : Laws.Encoding.Statement (.pewterEvict seq) := by
  intro x h
  cases h

theorem Laws.Encoding.sequenceRecordCreate (seq dhc table : Nat) : Laws.Encoding.Statement (.sequenceRecordCreate seq dhc table) := by
  intro x h
  cases h

theorem Laws.Encoding.sequenceRecordRemove (seq : Nat) : Laws.Encoding.Statement (.sequenceRecordRemove seq) := by
  intro x h
  cases h

theorem Laws.Encoding.positionMapInstall (m : MapInstall) : Laws.Encoding.Statement (.positionMapInstall m) := by
  intro x h
  cases h

theorem Laws.Encoding.stripeLost (seq first : Nat) : Laws.Encoding.Statement (.stripeLost seq first) := by
  intro x h
  cases h

theorem Laws.Encoding.freeListFill (list : FreeKind) (items : List Nat) : Laws.Encoding.Statement (.freeListFill list items) := by
  intro x h
  cases h

theorem Laws.Encoding.pinClear (gbn : Nat) : Laws.Encoding.Statement (.pinClear gbn) := by
  intro x h
  cases h

theorem Laws.Encoding.prefixIndexEvict (entry : Nat) : Laws.Encoding.Statement (.prefixIndexEvict entry) := by
  intro x h
  cases h

theorem Laws.Encoding.blockTierEvict (x : TierBlock) (tier : Nat) : Laws.Encoding.Statement (.blockTierEvict x tier) := by
  intro x h
  cases h

theorem Laws.Encoding.routingTableWrite (entries : List (Nat × List Nat)) : Laws.Encoding.Statement (.routingTableWrite entries) := by
  intro x h
  cases h

theorem Laws.Encoding.remoteAccess (r : RemoteReq) : Laws.Encoding.Statement (.remoteAccess r) := by
  intro x h
  cases h

theorem Laws.Encoding.incarnationProbe (pkg : Arrived Unit) : Laws.Encoding.Statement (.incarnationProbe pkg) := by
  intro x h
  cases h

theorem Laws.Encoding.powerDown : Laws.Encoding.Statement .powerDown := by
  intro x h
  cases h

theorem Laws.Encoding.controlConnectionClose (port : Nat) : Laws.Encoding.Statement (.controlConnectionClose port) := by
  intro x h
  cases h

theorem Laws.Encoding.connectionSetUp (port transport : Nat) (q : QpRequest) (asid : Nat) : Laws.Encoding.Statement (.connectionSetUp port transport q asid) := by
  intro x h
  cases h

theorem Laws.Encoding.congestionNotificationPacket (port qp : Nat) : Laws.Encoding.Statement (.congestionNotificationPacket port qp) := by
  intro x h
  cases h

theorem Laws.Encoding.priorityFlowControlPause (port priority : Nat) (pause : Bool) : Laws.Encoding.Statement (.priorityFlowControlPause port priority pause) := by
  intro x h
  cases h

end Sys2Proof
end

