-- ==== Sys2Proof/Tests/Slice0.lean ====
section
/-! SUPPORT. Small tests of the model, their expected results taken from the manual's own examples and tables, and for each
statement with hypotheses a concrete state and operands that meet them. -/

namespace Sys2Proof.Tests

open Sys2Proof Sys2Proof.Machine

set_option Elab.async false

/-! ### A small machine -/

/-- A C-slot, T-slot, V-slot or M-slot instruction's fields, all zero. -/
def c0 : CFields := { pred := 0, psense := false, dst := 0, srcA := 0, srcB := 0, imm := 0, mod := 0 }
def t0 : TFields := { pred := 0, psense := false, srcA := 0, srcB := 0, dst := 0, gidx := 0, imm := 0, mod := 0 }
def v0 : VFields :=
  { pred := 0, psense := false, srcA := 0, srcB := 0, srcC := 0, dst := 0, type := 0, stype := 0, imm8 := 0 }
def m0 : MFields :=
  { pred := 0, psense := false, abase := 0, bbase := 0, acc := 0, rpt := false, rcount := 0, qsrc := 0, zsrc := 0, cnt5 := 0 }

/-- A kernel header that declares every queue, slot, tile, tag and 8 barriers of either scope, 64 KiB of scratchpad, 4 KiB
of views, a run of at most 1,000 cycles, an image of 64 KiB, 64 bytes of loader instructions and 4 KiB of its data. -/
def hdr : BitVec 512 :=
  BitVec.ofNat 512 (32 + 32 * 2 ^ 6 + 16 * 2 ^ 12 + 8 * 2 ^ 17 + 64 * 2 ^ 21 + 65536 * 2 ^ 32 + 8 * 2 ^ 64 + 8 * 2 ^ 70 +
    1000 * 2 ^ 96 + 4096 * 2 ^ 128 + 65536 * 2 ^ 160)

/-- A landed entry. -/
def ent (id : Nat) (v : Val) : QEntry := { id := id, val := some v, carry := [] }

/-- A live queue of landed entries. -/
def live (vs : List Val) : Queue := { dead := false, entries := vs.zipIdx.map fun p => ent p.2 p.1 }

/-- A loader with its program: mscratch 3, x10 = 5 and x11 = 7. -/
def hart : Hart :=
  { st := .running, x := ((Vector.replicate 32 0).setIfInBounds 10 5).setIfInBounds 11 7, pc := 0, code := bytesOf 4 0x00B50633
    data := [(1, 0xAA), (3, 0x80)], dataSize := 4096, mscratch := 3, hstall := 9, instret := 1, nextIssue := 0, loads := []
    records := [], awaited := none, lfe := none }

/-- A slice of task 1 in region 0: s1 = 6, 9; s2 = 3; s3 = 0; v1, v2 and v3 with vectors; a running loader. -/
def slice : Ctx :=
  { freshCtx default hdr 0 with
    task := 1
    s := (((Vector.replicate 32 { dead := true, entries := [] }).setIfInBounds 1 (live [.s 6, .s 9])).setIfInBounds 2
      (live [.s 3])).setIfInBounds 3 (live [.s 0])
    v := (((Vector.replicate 32 { dead := true, entries := [] }).setIfInBounds 1 (live [.v 5])).setIfInBounds 2
      (live [.v 3])).setIfInBounds 3 (live [.v 1])
    claimed := 1, sbudget := 500, loader := some hart }

/-- A bundle at PC 0 being issued, five parcels long. -/
def issue : Issue :=
  { pc := 0, parcels := 5, rep := 0, reps := 0, transfer := none, boundary := false, fault := none, marks := [], results := [], carried := []
    wait := .none, newRng := none, detach := false, holdFor := 0, slots := [], ports := 0, fp64 := 0, div := 0 }

/-- Its task, with a budget of 500 cycles, placed and running. -/
def task : Task := { (default : Task) with uid := 1, st := .running, budget := 500, hdr := hdr, scratch := .here 0 0 [] [] }

/-- Its region, ADMITTED, with a handler at 64 and policy partition 2. -/
def region : Region :=
  { (default : Region) with rcb := 0x1000, hdr := hdr, cbudget := 1000, hndl := 64, st := .admitted, part := some 2, asid := 1 }

/-- Four bundles in the instruction store: one of 5 parcels (C and V slots), then bundles of one parcel, each a template
with no slot present. -/
def line : ILine := { asid := 1, gen := 0, va := 0, data := BitVec.ofNat 32768 (natOfBytes
  ([0x099400D9, 0x00000010, 0x10001010, 0x004A0001, 0x01001020].flatMap (bytesOf 4))) }

/-- A core that is not gated, its instruction store holding the line, three bytes in its scratchpad. -/
def core : Machine.Core := { (default : Machine.Core) with gated := false, lines := [line], scratch := [(0, 1), (4, 7), (64, 2)] }

/-- The package with that slice in context 0 of core 0, whose turn it is. -/
def sys : State :=
  { State.reset with slots := [(⟨0, 0⟩, slice)], tasks := [task], regions := [region], cores := [(0, core)]
                     curHart := some .loader, undo := some slice }

/-- The same with the slice changed. -/
def with' (x : Ctx) : State := { sys with slots := [(⟨0, 0⟩, x)] }

/-! ### Encodings -/

/-- The manual's worked encodings (R65, R69, R71 and the worked examples of the instruction chapters). -/
theorem test_decode_bundle : (decodeBundle 0x099400D9 [0x00000010, 0x10001010, 0x004A0001, 0x01001020]).toOption =
    some [(.c, .addi { c0 with dst := 1, srcA := 1, imm := 1 }), (.v, .vadd { v0 with srcA := 1, srcB := 2, dst := 4, type := 10 })] := by
  decide
theorem test_decode_ldi : decodeSlot .c 0x1100300000000000 = some (.ldi { c0 with dst := 3 }) := by decide
theorem test_decode_skip : decodeSlot .c 0x2B00000000030011 = some (.skip { c0 with imm := 0x3001 }) := by decide
theorem test_decode_loops : decodeSlot .c 0x26000010004F0001 = some (.loops { c0 with srcA := 1, imm := 0x4F000 }) := by decide
theorem test_decode_view : decodeSlot .c 0x3500306000000001 = some (.view { c0 with dst := 3, srcA := 6 }) := by decide
theorem test_decode_yield : decodeSlot .c 0x3300000000002581 = some (.yield { c0 with imm := 600 }) := by decide
theorem test_decode_cany : decodeSlot .t 0x1800000010000401 = some (.cany { t0 with dst := 1, imm := 0x40 }) := by decide
theorem test_decode_copyd : decodeSlot .t 0x1300000000000831 = some (.copyd { t0 with imm := 0x83 }) := by decide
theorem test_decode_pvsnap : decodeSlot .t 0x2600000800000000 = some (.pvsnap { t0 with dst := 0x80 }) := by decide
theorem test_decode_vdot2 : decodeSlot .v 0x1D00102060610001 =
    some (.vdot2 { v0 with srcA := 1, srcB := 2, srcC := 6, dst := 6, type := 1 }) := by decide
theorem test_decode_vfma : decodeSlot .v 0x0400589040420001 =
    some (.vfma { v0 with srcA := 5, srcB := 0x89, srcC := 4, dst := 4, type := 2 }) := by decide
theorem test_decode_vslide : decodeSlot .v 0x2400203000520071 =
    some (.vslide { v0 with srcA := 2, srcB := 3, dst := 5, type := 2, imm8 := 7 }) := by decide
theorem test_decode_ksmrg : decodeSlot .k 0x0800F100B0EA0011 =
    some (.ksmrgBody { v0 with srcA := 0x0F, srcB := 0x10, srcC := 0x0B, dst := 0x0E, type := 10, imm8 := 1 }) := by decide
theorem test_decode_kcclr : decodeSlot .k 0x0B00000000000001 = some (.kcclr v0) := by decide
theorem test_decode_mma : decodeSlot .m 0x01023300F0000001 =
    some (.mma { m0 with abase := 2, bbase := 3, acc := 1, rpt := true, rcount := 15 }) := by decide
/-- RV32I: `add x12, x10, x11`; the extension word of `lwait x5, x10, x11` (R239). -/
theorem test_decode_hart : decodeHart 0x00B50633 = .hartInstruction (.op .add 12 10 11) 4 ∧
    decodeHart 0x00B5128B = .lwait 5 10 11 ∧ decodeHart 0x0000 = .hartInstruction .illegal 2 := by decide
/-- A hart's word and the words of a bundle as the opcode table numbers their bits. -/
theorem test_table_word : decodeTableWord 32 0x00000073 = some .hartEcall ∧
    decodeTableWord 160 0x1001020004a00011000101000000010099400d9 = some (.addi { c0 with dst := 1, srcA := 1, imm := 1 }) := by
  decide

/-! ### Ill-formed terms -/

/-- Each check of well-formedness refuses a term: a source selector that names no queue, a peek with LAST, a supplied
unused field, a destination beyond the bank, an immediate out of its range, a type the opcode has not, a context, core,
die, wave, link or package that does not exist, an immediate that no hart encoding holds. -/
theorem test_illformed_slots :
    (Instr.add { c0 with srcA := 40 }).wf = false ∧ (Instr.add { c0 with srcA := 0xC1 }).wf = false ∧
    (Instr.add { c0 with imm := 1 }).wf = false ∧ (Instr.add { c0 with dst := 0x81 }).wf = false ∧
    (Instr.cmp { c0 with dst := 8 }).wf = false ∧ (Instr.yield c0).wf = false ∧ (Instr.vmov { v0 with type := 10 }).wf = false ∧
    (Instr.mma { m0 with rcount := 1 }).wf = false ∧ (Instr.kexp2 v0).wf = false ∧ (Instr.cwait { t0 with imm := 0x7F }).wf = false := by
  decide
theorem test_illformed_events :
    (Instr.bundleIssue ⟨768, 0⟩).wf = false ∧ (Instr.watchdog ⟨0, 2⟩).wf = false ∧ (Instr.mStep 768).wf = false ∧
    (Instr.arbiterDecision 8).wf = false ∧ (Instr.waveStart 48).wf = false ∧ (Instr.linkTrainingWave 9).wf = false ∧
    (Instr.linkRetrain 36).wf = false ∧ (Instr.hbmRefresh 12).wf = false ∧ (Instr.incarnationProbe ⟨576, 0, (), 0⟩).wf = false ∧
    (Instr.generationRaiseComplete 4096).wf = false ∧ (Instr.pinClear (2 ^ 30)).wf = false ∧
    (Instr.partitionRecordApply 64).wf = false ∧ (Instr.translationInstall 0 0 5 0).wf = false := by decide
theorem test_illformed_hart :
    (Instr.hartInstruction (.opImm .add 1 1 0x800) 4).wf = false ∧ (Instr.hartInstruction (.jal 1 1) 4).wf = false ∧
    (Instr.hartInstruction (.opImm .sll 1 1 32) 4).wf = false ∧ (Instr.hartInstruction (.lui 1 1) 4).wf = false ∧
    (Instr.hartInstruction .illegal 4).wf = false ∧ (Instr.hartInstruction .fence 3).wf = false := by decide
theorem test_wellformed : (Instr.add c0).wf = true ∧ (Instr.bundleIssue ⟨767, 1⟩).wf = true ∧
    (Instr.hartInstruction (.opImm .add 1 1 0x7FF) 4).wf = true ∧ (Instr.yield { c0 with imm := 1 }).wf = true := by decide

/-! ### Results of single steps -/

/-- The slice after one instruction, its issue begun. -/
def after (i : Instr) (x : Ctx) : Option Ctx :=
  match exec i (with' { x with issue := some issue }) with
  | .next t => getCtx t ⟨0, 0⟩
  | _ => none

/-- The word that an instruction gives. -/
def result (i : Instr) (x : Ctx) : Option Val := ((after i x).bind (·.issue)).bind fun i => i.results.head?.map (·.val)

/-- s1 holds a, s2 holds b. -/
def words (a b : Word) : Ctx :=
  { slice with s := (slice.s.setIfInBounds 1 (live [.s a])).setIfInBounds 2 (live [.s b]) }

/-- v1 holds a, v2 holds b. -/
def vecs (a b : Vec) : Ctx :=
  { slice with v := (slice.v.setIfInBounds 1 (live [.v a])).setIfInBounds 2 (live [.v b]) }

/-- Fields that name s1 and s2, or v1 and v2. -/
def cab : CFields := { c0 with srcA := 1, srcB := 2, dst := 5 }
def vab (t : BitVec 4) : VFields := { v0 with srcA := 1, srcB := 2, srcC := 3, dst := 5, type := t }

/-- R104: hand calculations. -/
theorem test_add_wraps : result (.add cab) (words 0xFFFFFFFF 2) = some (.s 1) := by decide +kernel
theorem test_sub_order : result (.sub cab) (words 2 5) = some (.s 0xFFFFFFFD) := by decide +kernel
theorem test_mulh_signed : result (.mulh cab) (words 0xFFFFFFFF 2) = some (.s 0xFFFFFFFF) := by decide +kernel
theorem test_mulhn_unsigned : result (.mulhn cab) (words 0xFFFFFFFF 2) = some (.s 1) := by decide +kernel
theorem test_sra_count_modulo : result (.sra cab) (words 0x80000000 33) = some (.s 0xC0000000) := by decide +kernel
theorem test_min_signed : result (.min cab) (words 0x80000000 1) = some (.s 0x80000000) := by decide +kernel
theorem test_minn_unsigned : result (.minn cab) (words 0x80000000 1) = some (.s 1) := by decide +kernel

/-- R105: `ldhi` keeps the low half. -/
theorem test_ldhi : result (.ldhi { c0 with srcA := 1, imm := 0x1234 }) (words 0xABCD5678 0) = some (.s 0x12345678) := by decide +kernel

/-- R107, R73: a signed compare; p0 is not written (R81). -/
theorem test_cmp_lt : (after (.cmp { cab with dst := 3, mod := 2 }) (words 0xFFFFFFFF 0)).map (·.p) = some 8 := by decide +kernel
theorem test_cmp_p0 : (after (.cmp { cab with dst := 0, mod := 2 }) (words 0xFFFFFFFF 0)).map (·.p) = some 0 := by decide +kernel

/-- R110: a branch to PC + 4 × sext(IMM24); R111: dead cycles and the boundary point of a back-edge. -/
theorem test_br_back : ((after (.br { c0 with imm := 0xFFFFFF }) slice).bind (·.issue)).bind (·.transfer) =
    some { goal := .pc 0xFFFFFFFC, dead := 3, boundary := false } := by decide +kernel
theorem test_call_link : result (.call { c0 with dst := 5, imm := 16 }) slice = some (.s 20) := by decide +kernel

/-- R113: a push, with the end at PC + 4 × IMM24[23:12] and the start after this bundle. -/
theorem test_loop_push : (after (.loop { c0 with imm := 0x006003 }) slice).map (·.loops) =
    some [{ start := 20, stop := 24, count := 3, index := 0 }] := by decide +kernel

/-- R123: `dead s7`. -/
theorem test_dead_mark : ((after (.dead { c0 with imm := 7, mod := 1 }) slice).bind (·.issue)).map (·.marks) =
    some [(.s, 7)] := by decide +kernel

/-- R141: a load of a word; R137: an address beyond the window reads 0 and holds SCRATCH_BOUNDS. -/
theorem test_lds : result (.lds { t0 with dst := 5, imm := 6 }) slice = some (.s 7) := by decide +kernel
theorem test_lds_bounds : (after (.lds { t0 with dst := 5, imm := 0x10000 }) slice).bind (·.held) =
    some { who := none, code := 0x11, slot := 1, opnd := 0, tinfo := 0x400 } := by decide +kernel

/-- R173, R169: an integer sum of 16-bit elements, wrapped and saturated. -/
theorem test_vadd_wraps : (result (.vadd (vab 1)) (vecs 0x7FFF 1)).map (fun v => elemW 16 (valV v).toNat 0) = some 0x8000 := by
  decide +kernel
theorem test_vadd_saturates : (result (.vadd { vab 1 with imm8 := 1 }) (vecs 0x7FFF 1)).map (fun v => elemW 16 (valV v).toNat 0) =
    some 0x7FFF := by decide +kernel
/-- R176: a compare gives all ones or zeros. -/
theorem test_vcmp : (result (.vcmp { vab 2 with imm8 := 2 }) (vecs 0xFFFFFFFF 0)).map (fun v => vlane (valV v) 0) =
    some 0xFFFFFFFF := by decide +kernel
/-- R187: element numbers with step 3 from 5. -/
theorem test_viota : (result (.viota { v0 with srcA := 1, dst := 5, type := 2, imm8 := 3 }) (words 5 0)).map
    (fun v => vlane (valV v) 4) = some 17 := by decide +kernel
/-- R188 (`vslide`): element n + k of the pair of vectors. -/
theorem test_vslide : (result (.vslide { vab 2 with imm8 := 1 }) (vecs 0x0000000900000008 4)).map
    (fun v => (vlane (valV v) 0, vlane (valV v) 127)) = some (9, 4) := by decide +kernel

/-- R228: the file's pick, and of an empty file. -/
theorem test_kpick_empty : result (.kpick { v0 with dst := 5 }) slice = some (.s 0xFFFFFFFF) := by decide +kernel
/-- R230, the manual's example: scores 4, 3, 3 and 1 with p = 0.75 keep three entries. -/
theorem test_ktopp : (after (.ktopp { v0 with srcA := 1 }) { words 0x3F400000 0 with
    cand := [(0x40800000, 1), (0x40400000, 2), (0x40400000, 3), (0x3F800000, 4)] }).map (·.cand.length) = some 3 := by decide +kernel
/-- R232: the last draw moves the index to 0x1_0000. -/
theorem test_krng_index : (after (.krng { v0 with dst := 5, imm8 := 1 }) { slice with rng := { slice.rng with idx := 0xFFFF } }).map
    (·.rng.idx) = some 0x10000 := by decide +kernel

/-- R161: marking two granules, from the next cycle. -/
theorem test_grd : (after (.grd { t0 with srcB := 1, imm := 64 }) (words 2 0)).map dueGuards = some [1, 2] := by decide +kernel
/-- R157: a barrier flips when the expected arrivals have come, and the pending change is clamped. -/
theorem test_flip : arriveBar 7 { e := 2, arrivals := 1, phase := 0xFFFFFFFF, pending := -5, flipAt := 0 } =
    { e := 0, arrivals := 0, phase := 0, pending := 0, flipAt := 7 } := by decide +kernel

/-- RV32M: the division's fixed results, an unsigned high product. -/
theorem test_hart_division : rvAlu .div 0x80000000 0xFFFFFFFF = 0x80000000 ∧ rvAlu .div 7 0 = 0xFFFFFFFF ∧
    rvAlu .rem 0xFFFFFFF9 2 = 0xFFFFFFFF ∧ rvAlu .mulhu 0xFFFFFFFF 0xFFFFFFFF = 0xFFFFFFFE := by decide +kernel

/-! ### The statements' hypotheses are met -/

/-- Two operand reads, one after the other, that answer a value. -/
theorem reads_two {α β γ : Type} {r : Except β (α × Ctx)} {k : Ctx → Except β (γ × Ctx)}
    (h : (match r with
      | .ok (_, y) => (k y).isOk
      | .error _ => false) = true) : ∃ a x1 b x2, r = .ok (a, x1) ∧ k x1 = .ok (b, x2) := by
  cases r with
  | error e => exact absurd h (by simp)
  | ok p =>
    obtain ⟨a, y⟩ := p
    cases hk : k y with
    | error e => simp [hk, Except.isOk, Except.toBool] at h
    | ok q => exact ⟨a, y, q.1, q.2, rfl, hk⟩

/-- Three operand reads. -/
theorem reads_three {α β : Type} {r : Except β (α × Ctx)} {k l : Ctx → Except β (α × Ctx)}
    (h : (match r with
      | .ok (_, y) => (match k y with
        | .ok (_, z) => (l z).isOk
        | .error _ => false)
      | .error _ => false) = true) :
    ∃ a x1 b x2 c x3, r = .ok (a, x1) ∧ k x1 = .ok (b, x2) ∧ l x2 = .ok (c, x3) := by
  cases r with
  | error e => exact absurd h (by simp)
  | ok p =>
    obtain ⟨a, y⟩ := p
    cases hk : k y with
    | error e => simp [hk] at h
    | ok q =>
      obtain ⟨b, z⟩ := q
      cases hl : l z with
      | error e => simp [hk, hl, Except.isOk, Except.toBool] at h
      | ok t => exact ⟨a, y, b, z, t.1, t.2, rfl, hk, hl⟩

/-- One operand read. -/
theorem reads_one {α β : Type} {r : Except β (α × Ctx)} (h : r.isOk = true) : ∃ a x1, r = .ok (a, x1) := by
  cases r with
  | error e => simp [Except.isOk, Except.toBool] at h
  | ok p => exact ⟨p.1, p.2, rfl⟩

/-- An answer known by its value. -/
theorem ok_of {α β : Type} {r : Except β α} {v : α} (h : r.toOption = some v) : r = .ok v := by
  cases r with
  | error e => simp [Except.toOption] at h
  | ok a => simp only [Except.toOption, Option.some.injEq] at h; rw [h]

/-- The slice stands in the context whose turn it is. -/
theorem here (x : Ctx) : Here (with' x) x := rfl

theorem witness_ScalarArithmetic : (∃ (s : State) (x : Ctx) (f : CFields) (a : Word) (x1 : Ctx) (b : Word) (x2 : Ctx),
      CHere s x f ∧ readS x f.srcA = .ok (a, x1) ∧ readS x1 f.srcB = .ok (b, x2)) ∧
    (SlotForm.c 1 cab).legal = true ∧ (SlotForm.c 15 cab).legal = true := by
  obtain ⟨a, x1, b, x2, h1, h2⟩ := reads_two (r := readS slice 1) (k := fun y => readS y 2) (by decide +kernel)
  exact ⟨⟨with' slice, slice, cab, a, x1, b, x2, ⟨here _, by decide +kernel⟩, h1, h2⟩, by decide, by decide⟩

theorem witness_ScalarMovesAndRegisters : ∃ (s : State) (x : Ctx) (f : CFields) (a : Word) (x1 : Ctx) (b : Word) (x2 : Ctx)
    (q : Queue), CHere s x f ∧ readS x f.srcA = .ok (a, x1) ∧ readS x1 f.srcB = .ok (b, x2) ∧
    getQueue x (if f.mod.getLsbD 0 then .s else .v) (f.imm.toNat % 32) = q := by
  obtain ⟨a, x1, b, x2, h1, h2⟩ := reads_two (r := readS slice 1) (k := fun y => readS y 2) (by decide +kernel)
  exact ⟨with' slice, slice, cab, a, x1, b, x2, _, ⟨here _, by decide +kernel⟩, h1, h2, rfl⟩

theorem witness_PredicateWrites : (∃ (s : State) (x : Ctx) (f : CFields) (a : Word) (x1 : Ctx) (b : Word) (x2 : Ctx),
      CHere s x f ∧ readS x f.srcA = .ok (a, x1) ∧ readS x1 f.srcB = .ok (b, x2)) ∧
    (SlotForm.c 22 { cab with dst := 7 }).legal = true ∧ (SlotForm.c 24 { c0 with dst := 7, imm := 63 }).legal = true ∧
    (SlotForm.c 26 { c0 with imm := 63 }).legal = true ∧ (SlotForm.c 27 { c0 with imm := 7 }).legal = true ∧
    (SlotForm.c 28 { c0 with srcA := 1 }).legal = true := by
  obtain ⟨a, x1, b, x2, h1, h2⟩ := reads_two (r := readS slice 1) (k := fun y => readS y 2) (by decide +kernel)
  exact ⟨⟨with' slice, slice, cab, a, x1, b, x2, ⟨here _, by decide +kernel⟩, h1, h2⟩, by decide, by decide, by decide,
    by decide, by decide⟩

theorem witness_FormatAndSystem : ∃ (s : State) (x : Ctx) (a : Word) (x1 : Ctx), CHere s x { cab with imm := 0x011 } ∧
      CHere s x { cab with imm := 0x012 } ∧ CHere s x { cab with imm := 0x013 } ∧ readS x cab.srcA = .ok (a, x1) := by
  obtain ⟨a, x1, h1⟩ := reads_one (r := readS slice 1) (by decide +kernel)
  exact ⟨with' slice, slice, a, x1, ⟨here _, by decide +kernel⟩, ⟨here _, by decide +kernel⟩, ⟨here _, by decide +kernel⟩, h1⟩

/-- The slice with its issue begun, outside and inside handler mode. -/
def issuing : Ctx := { slice with issue := some issue }
def handling : Ctx := { slice with issue := some issue, handler := true }

theorem witness_Branches : (∀ h : Bool, ∃ (s : State) (x : Ctx) (f : CFields) (i : Issue) (a : Word) (x1 : Ctx),
      CHere s x f ∧ x.issue = some i ∧ readS x f.srcA = .ok (a, x1) ∧ x1.handler = h ∧ x1.issue = some i) ∧
    (∃ (s : State) (x : Ctx) (f : CFields), Here s x ∧ executes x f.pred f.psense = false) ∧
    (SlotForm.c 0x21 c0).legal = true ∧ (SlotForm.c 0x22 { c0 with srcA := 1 }).legal = true ∧
    (SlotForm.c 0x23 { c0 with dst := 5 }).legal = true ∧ (SlotForm.c 0x24 { c0 with srcA := 1 }).legal = true := by
  refine ⟨fun h => ?_, ⟨with' slice, slice, { cab with psense := true }, here _, by decide +kernel⟩, by decide, by decide,
    by decide, by decide⟩
  cases h
  · exact ⟨with' issuing, issuing, cab, issue, 6, { issuing with s := issuing.s.setIfInBounds 1 (live [.s 6, .s 9] |> fun q => { q with entries := q.entries.tail }) },
      ⟨here _, by decide +kernel⟩, rfl, ok_of (by decide +kernel), rfl, rfl⟩
  · exact ⟨with' handling, handling, cab, issue, 6, { handling with s := handling.s.setIfInBounds 1 (live [.s 6, .s 9] |> fun q => { q with entries := q.entries.tail }) },
      ⟨here _, by decide +kernel⟩, rfl, ok_of (by decide +kernel), rfl, rfl⟩

/-- A loop stack of n entries, the top one ending at the bundle at 20. -/
def stack (n : Nat) : List LoopEntry := List.replicate n { start := 20, stop := 20, count := 2, index := 0 }

theorem witness_Loops :
    (CHere (with' issuing) issuing { c0 with imm := 0xFFF000 } ∧ CHere (with' issuing) issuing c0 ∧ issuing.issue = some issue) ∧
    sizeAt (with' issuing) ⟨0, 0⟩ { issuing with sizing := none } 20 = some 1 ∧
    sizeAt (with' issuing) ⟨0, 0⟩ { issuing with sizing := none } 0x3FFC = none ∧
    BitVec.ofNat 32 (c0.imm.toNat % 2048) = (0 : Word) ∧
    (∃ (a : Word) (x1 : Ctx), readS issuing 3 = .ok (a, x1) ∧ a = 0 ∧ x1.issue = some issue) ∧
    (let x := { issuing with loops := stack 5 }
     CHere (with' x) x { c0 with imm := 0x7FF } ∧ x.loops.length < 6 ∧ BitVec.ofNat 32 (0x7FF % 2048) ≠ (0 : Word) ∧
       x.loops[4]? ≠ none ∧ x.loops.length ≤ 5) ∧
    (let x := { issuing with loops := stack 6 }
     CHere (with' x) x { c0 with imm := 1 } ∧ 6 ≤ x.loops.length) := by
  refine ⟨⟨⟨here _, ?_⟩, ⟨here _, ?_⟩, rfl⟩, ?_, ?_, ?_, ⟨0, { issuing with s := issuing.s.setIfInBounds 3 { dead := false, entries := [] } },
    ok_of ?_, rfl, rfl⟩, ⟨⟨here _, ?_⟩, ?_⟩, ⟨here _, ?_⟩, ?_⟩ <;> decide +kernel

theorem witness_BufferBoundarySkip :
    (∃ stop, CHere (with' issuing) issuing { c0 with imm := 1 } ∧ issuing.issue = some issue ∧
      spanBundles (with' issuing) ⟨0, 0⟩ { issuing with sizing := none } 1 256 20 = .ok stop ∧
      (∀ k, k < (stop - 20).toNat / 4 → (parcelAt (with' issuing) ⟨0, 0⟩ { issuing with sizing := none }
        ((20 : Word) + BitVec.ofNat 32 (4 * k)).toNat).isSome)) ∧
    issuing.j.getLsbD 0 = false ∧
    (let x := { issuing with j := 1 }
     CHere (with' x) x { c0 with imm := 1 } ∧ x.j.getLsbD 0 = true) ∧
    (∃ r, skipTo (with' issuing) ⟨0, 0⟩ { issuing with sizing := none } 1 20 = .ok r) ∧
    sizeAt (with' issuing) ⟨0, 0⟩ issuing 20 = some 1 ∧ (issuing.loops = [] ∧
      ({ issuing with loops := stack 2 } : Ctx).loops = { start := 20, stop := 20, count := 2, index := 0 } :: stack 1) := by
  refine ⟨⟨24, ⟨here _, ?_⟩, rfl, ok_of ?_, ?_⟩, ?_, ⟨⟨here _, ?_⟩, ?_⟩, ⟨([], 24, false), ok_of ?_⟩, ?_, rfl, rfl⟩ <;> decide +kernel

theorem witness_SliceEndsAndTrap :
    (CHere (with' issuing) issuing { c0 with imm := 500 } ∧ (with' issuing).undo = some slice ∧
      (getRegion (with' issuing) slice.region).hndl ≠ 0xFFFFFFFF ∧ slice.handler = false ∧
      pairOpen slice = false ∧ (∀ d y, partnerCtx (with' issuing) (with' issuing).cur slice = some d →
        getCtx (with' issuing) d = some y → pairOpen y = false) ∧ slice.mate = none) ∧
    (getTask (with' issuing) issuing.task = some task ∧ issuing.held = none ∧ 500 ≤ task.budget ∧ 500 ≤ hdrYmax issuing.hdr) ∧
    (CHere (with' issuing) issuing c0 ∧ c0.imm = 0) ∧
    (CHere (with' issuing) issuing { c0 with imm := 1001 } ∧ hdrYmax issuing.hdr < 1001) ∧
    (∃ (a : Word) (x1 : Ctx), readS issuing 1 = .ok (a, x1) ∧ a ≠ 0) := by
  refine ⟨⟨⟨here _, ?_⟩, rfl, ?_, rfl, ?_, fun d y h => absurd h (by rw [show partnerCtx (with' issuing) (with' issuing).cur slice = none by decide +kernel]; simp), rfl⟩, ⟨rfl, rfl, ?_, ?_⟩, ⟨⟨here _, ?_⟩, rfl⟩, ⟨⟨here _, ?_⟩, ?_⟩,
    6, { issuing with s := issuing.s.setIfInBounds 1 { dead := false, entries := [ent 1 (.s 9)] } }, ok_of ?_, ?_⟩ <;> decide +kernel

/-- An answer that is a child. -/
theorem child_of {r : Submitted} (h : (match r with
    | .child _ _ => true
    | _ => false) = true) : ∃ s2 hd, r = .child s2 hd := by
  cases r with
  | privileged => exact absurd h (by simp)
  | full d => exact absurd h (by simp)
  | child s2 hd => exact ⟨s2, hd, rfl⟩

/-- A value that is there. -/
theorem some_of {α : Type} {o : Option α} (h : o.isSome = true) : ∃ a, o = some a := Option.isSome_iff_exists.mp h

/-- The machine with a scratchpad of its own. -/
def pad (m : Mem) : State := { sys with cores := [(0, { core with scratch := m })] }

/-- A task descriptor, a view declaration of 512 bytes of i32 sums, a commit record of one token, an invalid one of nine. -/
def descMem : Mem := [(1, 0x10)]
def viewMem : Mem := [(2, 0x10), (9, 2), (12, 2)]
def oneToken : Mem := [(18, 1)]
def nineTokens : Mem := [(18, 9)]

/-- The slice with room for no view. -/
def viewed : Ctx := { slice with views := List.replicate 16 { addr := 0, size := 0, etype := 0, op := 0, off := 0 } }

theorem witness_SpawnAndView :
    (CHere sys slice cab ∧ ∃ (a : Word) (x1 : Ctx), readS slice cab.srcA = .ok (a, x1)) ∧
    (let l := loadT (pad descMem) slice 0 0 128
     childRegion l.2.1 l.2.2.region (natOfBytes l.1 % 2 ^ 64) = some 0 ∧ (getTask l.2.1 l.2.2.task).isSome = true ∧
       poolSize l.2.1 (getRegion l.2.1 0).die < 4096 ∧ ∃ s2 hd, submitTask l.2.1 ⟨0, 0⟩ l.2.2 l.1 = .child s2 hd) ∧
    (let l := loadT (pad []) slice 0 0 128
     childRegion l.2.1 l.2.2.region (natOfBytes l.1 % 2 ^ 64) = none) ∧
    (let d := natOfBytes (loadT (pad viewMem) slice 0 0 32).1
     viewDeclOk d = true ∧ slice.views.length < 16 ∧ arenaUsed slice + d / 2 ^ 64 % 2 ^ 32 ≤ hdrViews slice.hdr ∧
       (getTask (pad viewMem) slice.task).isSome = true ∧ ¬viewed.views.length < 16) ∧
    viewDeclOk (natOfBytes (loadT (pad []) slice 0 0 32).1) = false ∧
    (∀ q ∈ ({ sys with fresh := 2 } : State).tasks, q.uid ≠ 2) ∧
    descFails (getRegion sys 0).hdr (0x1000 + 2 ^ 716 + (2 ^ 64 - 1) * 2 ^ 192) = false ∧ descWords (0x1000 + 2 ^ 716 + (2 ^ 64 - 1) * 2 ^ 192) = [] := by
  obtain ⟨a, x1, h1⟩ := reads_one (r := readS slice 1) (by decide +kernel)
  exact ⟨⟨⟨here _, by decide +kernel⟩, a, x1, h1⟩, ⟨by decide +kernel, by decide +kernel, by decide +kernel, child_of (by decide +kernel)⟩,
    by decide +kernel, by decide +kernel, by decide +kernel, by decide +kernel, by decide +kernel, by decide +kernel⟩

theorem witness_CodeswAndCommit :
    (CHere sys slice cab ∧ ∃ (a : Word) (x1 : Ctx), readS slice cab.srcA = .ok (a, x1)) ∧
    (let l := loadT (pad descMem) slice 0 0 16
     childRegion l.2.1 l.2.2.region (natOfBytes (l.1.take 8)) = some 0) ∧
    (let l := loadT (pad []) slice 0 0 16
     childRegion l.2.1 l.2.2.region (natOfBytes (l.1.take 8)) = none) ∧
    (let r : BitVec 512 := BitVec.ofNat 512 (natOfBytes (loadT (pad oneToken) slice 0 0 64).1)
     cmNemit r ≤ 8 ∧ cmNemit r = 1 ∧ commitValid r (tokenEntries (loadT (pad oneToken) slice 0 (cmTokoff r) 8).1) = true ∧
       slice.rng.pos + 1 < 2 ^ 40 ∧ 2 ^ 40 ≤ (2 ^ 40 - 1) + cmNemit r ∧ cmRel r = false ∧ cmDen r = false ∧
       cmRel (r ||| 2 ^ 157) = true ∧ commitValid (r ||| 2 ^ 157) [0] = true ∧ pendingSnaps sys slice.task = []) ∧
    (let r : BitVec 512 := BitVec.ofNat 512 (natOfBytes (loadT (pad nineTokens) slice 0 0 64).1)
     ¬cmNemit r ≤ 8 ∧ commitValid r (tokenEntries []) = false) := by
  obtain ⟨a, x1, h1⟩ := reads_one (r := readS slice 1) (by decide +kernel)
  exact ⟨⟨⟨here _, by decide +kernel⟩, a, x1, h1⟩, by decide +kernel, by decide +kernel, by decide +kernel, by decide +kernel⟩

/-- T-slot fields that name v1 or s1 and s2 or v2. -/
def tab : TFields := { t0 with srcA := 1, srcB := 2, dst := 5 }

theorem witness_ScratchLoads : ∃ (s : State) (x : Ctx) (f : TFields) (b : Word) (x1 : Ctx) (v : Vec) (x2 : Ctx),
    THere s x f ∧ readS x f.srcB = .ok (b, x1) ∧ readV x f.srcA = .ok (v, x2) := by
  obtain ⟨b, x1, h1⟩ := reads_one (r := readS slice 2) (by decide +kernel)
  obtain ⟨v, x2, h2⟩ := reads_one (r := readV slice 1) (by decide +kernel)
  exact ⟨sys, slice, tab, b, x1, v, x2, ⟨here _, by decide +kernel⟩, h1, h2⟩

/-- The statement's frame needs an operand read without a pop: a peek. -/
theorem witness_ScratchStores : (∃ (s : State) (x : Ctx) (f : TFields) (v : Vec) (x1 : Ctx) (b : Word) (x2 : Ctx) (w : Word)
      (x3 : Ctx), THere s x f ∧ 64 ∣ hdrScratch x.hdr ∧ readV x f.srcA = .ok (v, x1) ∧ readS x1 f.srcB = .ok (b, x2) ∧
      readS x f.srcA = .ok (w, x3)) ∧
    (∃ (v b : Vec) (x1 x2 : Ctx), readV slice tab.srcA = .ok (v, x1) ∧ readV x1 tab.srcB = .ok (b, x2)) ∧
    readV slice 0x81 = .ok (5, slice) ∧ readS slice 0x81 = .ok (6, slice) ∧
    (∃ t, exec (.stv { tab with srcA := 0x81, srcB := 0 }) sys = .next t) ∧
    ∃ t, exec (.sts { tab with srcA := 0x81, srcB := 0 }) sys = .next t := by
  obtain ⟨v, x1, b, x2, h1, h2⟩ := reads_two (r := readV slice 1) (k := fun y => readS y 2) (by decide +kernel)
  obtain ⟨v', y1, b', y2, h3, h4⟩ := reads_two (r := readV slice 1) (k := fun y => readV y 2) (by decide +kernel)
  obtain ⟨w, x3, h5⟩ := reads_one (r := readS slice 1) (by decide +kernel)
  exact ⟨⟨sys, slice, tab, v, x1, b, x2, w, x3, ⟨here _, by decide +kernel⟩, by decide +kernel, h1, h2, h5⟩, ⟨v', b', y1, y2, h3, h4⟩,
    ok_of (by decide +kernel), ok_of (by decide +kernel), ⟨_, rfl⟩, ⟨_, rfl⟩⟩

/-- A fault at the first byte beyond the window, none at the last byte inside it. -/
theorem witness_WindowAccess : 64 ∣ hdrScratch slice.hdr ∧ (∀ r ∈ sys.log, r.space ≠ .scratch sys.cur.core) ∧
    Memory.wf (getCore sys sys.cur.core).scratch = true ∧ slice.held = none ∧ byteFault slice 0xFFFF = none ∧
    byteFault slice 0x10000 = some 0x11 ∧ ({ slice with held := some { who := none, code := 0x11, slot := 1, opnd := 0, tinfo := 0 } } : Ctx).held.isSome = true := by
  decide +kernel

theorem witness_OperandMemory : THere sys slice tab ∧ tab.dst.toNat % 16 < hdrOsl slice.hdr ∧ tab.dst.toNat % 16 < hdrZt slice.hdr ∧
    ({ slice with claimed := 32 } : Ctx).claimed.getLsbD 5 = true ∧ 15 < hdrOsl slice.hdr ∧ 7 < hdrZt slice.hdr ∧
    ∃ (b : Word) (x1 : Ctx), readS slice tab.srcB = .ok (b, x1) := by
  obtain ⟨b, x1, h1⟩ := reads_one (r := readS slice 2) (by decide +kernel)
  exact ⟨⟨here _, by decide +kernel⟩, by decide +kernel, by decide +kernel, by decide +kernel, by decide +kernel, by decide +kernel,
    b, x1, h1⟩

/-- A slice with tag 63 done and tag 62 busy, the last arrival at barrier 7 in phase 4. -/
def tagged : Ctx :=
  { slice with tags := (slice.tags.setIfInBounds 63 { st := .done, count := 0, status := 4 }).setIfInBounds 62
                 { st := .busy, count := 1, status := 0 }
               outstanding := 1, records := [((false, 7), 4), ((true, 7), 4)] }

/-- A held fault. -/
def fault : HeldFault := { who := none, code := 0x11, slot := 1, opnd := 0, tinfo := 0 }

/-- The machine with a slice changed, before its bundle and in it. -/
def before (x : Ctx) : State := { with' x with undo := some x }

/-- A boundary of the slice not yet published. -/
def pubOf (a : Agent) : Publication := { id := 9, agent := a, insts := [], writes := [], arrive := none, after := [] }

theorem witness_GuardsTagsBarriers :
    (∃ (b : Word) (x1 : Ctx), THere (with' slice) slice { tab with imm := 0xFFC0 } ∧ readS slice tab.srcB = .ok (b, x1) ∧ b ≠ 0 ∧
      x1.held = none ∧ hdrScratch x1.hdr / 64 < 0xFFC0 / 64 + b.toNat) ∧
    (let f : TFields := { t0 with imm := 63 }
     THere (before tagged) tagged f ∧ undone (before tagged) tagged = tagged ∧ 63 + 1 ≤ hdrTags tagged.hdr ∧
       (getTag tagged 63).st = .done ∧ 32 * (63 % 2) < hdrTags tagged.hdr) ∧
    (let f : TFields := { t0 with imm := 62 }
     THere (before tagged) tagged f ∧ (getTag tagged 62).st = .busy) ∧
    (let f : TFields := { t0 with imm := 62 + 64 }
     THere (before tagged) tagged f ∧ 62 + 2 ≤ hdrTags tagged.hdr ∧ (getTag tagged 62).st = .busy ∧ (getTag tagged 63).st = .done) ∧
    (∀ m : BitVec 3, m = 1 ∨ m = 2 →
      let f : TFields := { t0 with mod := m, imm := 7 + 64 * 1023 }
      THere (before tagged) tagged f ∧ (f.mod = 1 ∨ f.mod = 2) ∧
        7 < (if decide (f.mod = 2) then hdrDbar tagged.hdr else hdrCbar tagged.hdr) ∧ (undone (before tagged) tagged).held = none ∧
        pendingPubs (before tagged) (.ctx tagged.task) = [] ∧ 0 < f.imm.toNat / 64 % 1024 ∧
        alGet tagged.records (decide (f.mod = 2), 7) = some 4 ∧ alGet slice.records (decide (f.mod = 2), 7) = none ∧
        slice.awaited = none) ∧
    (let x := { tagged with held := some fault }
     THere (before x) x { t0 with mod := 1, imm := 7 } ∧ (undone (before x) x).held = some fault) ∧
    (let s := { before tagged with pubs := [pubOf (.ctx 1)] }
     THere s tagged { t0 with mod := 1, imm := 7 } ∧ pendingPubs s (.ctx tagged.task) ≠ []) ∧
    (let b : Bar := { e := 0, arrivals := 0, phase := 4, pending := 0, flipAt := 0 }
     b.e = 0 ∧ b.phase = 4 ∧ ({ b with phase := 5 } : Bar).phase ≠ 4 ∧ b.flipAt + 4 ≤ 12 ∧ ({ b with e := 2 } : Bar).arrivals + 1 < 2 ∧
       1 ≤ ({ b with e := 1 } : Bar).arrivals + 1) := by
  refine ⟨⟨3, { slice with s := slice.s.setIfInBounds 2 { dead := false, entries := [] } }, ⟨here _, by decide +kernel⟩,
    ok_of (by decide +kernel), by decide +kernel, by decide +kernel, by decide +kernel⟩, ⟨⟨rfl, ?_⟩, rfl, ?_⟩, ⟨⟨rfl, ?_⟩, ?_⟩,
    ⟨⟨rfl, ?_⟩, ?_⟩, ?_, ⟨⟨rfl, ?_⟩, rfl⟩, ⟨⟨rfl, ?_⟩, ?_⟩, ?_⟩
  case refine_7 =>
    intro m h
    rcases h with rfl | rfl <;> exact ⟨⟨rfl, by decide +kernel⟩, by decide +kernel⟩
  all_goals decide +kernel

/-- Without a partition the policy instructions trap. -/
theorem witness_CommandIssue : THere sys slice { tab with imm := 63 } ∧ 63 < hdrTags slice.hdr ∧
    (∃ (v : Vec) (x1 : Ctx), readV slice tab.srcA = .ok (v, x1)) ∧ (getRegion sys slice.region).part = some 2 ∧
    (getRegion { sys with regions := [{ region with part := none }] } slice.region).part = none ∧
    ∃ (a : Word) (x1 : Ctx), readS slice tab.srcA = .ok (a, x1) ∧ a.toNat < hdrImglen x1.hdr := by
  obtain ⟨v, x1, h1⟩ := reads_one (r := readV slice 1) (by decide +kernel)
  exact ⟨⟨here _, by decide +kernel⟩, by decide +kernel, ⟨v, x1, h1⟩, by decide +kernel, by decide +kernel, 6,
    { slice with s := slice.s.setIfInBounds 1 { dead := false, entries := [ent 1 (.s 9)] } }, ok_of (by decide +kernel), by decide +kernel⟩

/-- The boundary types of the vector statements, and the operands of each. -/
theorem witness_VectorIntegers : VHere sys slice (vab 7) ∧ (vab 7).type.toNat < 8 ∧
    ∃ (a : Vec) (x1 : Ctx) (b : Vec) (x2 : Ctx) (c : Vec) (x3 : Ctx), readV slice (vab 7).srcA = .ok (a, x1) ∧
      readV x1 (vab 7).srcB = .ok (b, x2) ∧ readV x2 (vab 7).srcC = .ok (c, x3) :=
  ⟨⟨here _, by decide +kernel⟩, by decide, reads_three (by decide +kernel)⟩

theorem witness_VectorFloats : VHere sys slice (vab 8) ∧ 8 ≤ (vab 8).type.toNat ∧ (vab 11).type.toNat < 12 ∧
    ∃ (a : Vec) (x1 : Ctx) (b : Vec) (x2 : Ctx) (c : Vec) (x3 : Ctx), readV slice (vab 8).srcA = .ok (a, x1) ∧
      readV x1 (vab 8).srcB = .ok (b, x2) ∧ readV x2 (vab 8).srcC = .ok (c, x3) :=
  ⟨⟨here _, by decide +kernel⟩, by decide, by decide, reads_three (by decide +kernel)⟩

/-- A pair of types for each conversion, and the types of the dot product. -/
theorem witness_VectorSelectConvert : VHere sys slice (vab 11) ∧ (vab 11).type.toNat < 12 ∧ typeWidth 3 = typeWidth 11 ∧
    typeWidth 10 = 2 * typeWidth 8 ∧ 2 * typeWidth 0 = typeWidth 1 ∧ ({ vab 0 with stype := 12 } : VFields).stype.toNat = 12 ∧
    ({ vab 0 with stype := 13 } : VFields).stype.toNat = 13 ∧ (vab 1).type.toNat = 1 ∧ (vab 8).type.toNat = 8 ∧
    ∃ (a : Vec) (x1 : Ctx) (b : Vec) (x2 : Ctx) (c : Vec) (x3 : Ctx), readV slice (vab 11).srcA = .ok (a, x1) ∧
      readV x1 (vab 11).srcB = .ok (b, x2) ∧ readV x2 (vab 11).srcC = .ok (c, x3) :=
  ⟨⟨here _, by decide +kernel⟩, by decide, by decide, by decide, by decide, by decide, by decide, by decide, by decide, reads_three (by decide +kernel)⟩

theorem witness_VectorBitsAndMoves : (SlotForm.v 0x21 { v0 with srcA := 1, dst := 5, type := 2 }).legal = true ∧
    (SlotForm.v 0x2D { v0 with srcA := 1, dst := 5, type := 7, imm8 := 255 }).legal = true ∧
    VHere sys slice (vab 7) ∧ (vab 7).type.toNat < 8 ∧ typeWidth 3 = 64 ∧ typeWidth 2 < 64 ∧
    (∃ (a : Word) (x1 : Ctx) (b : Word) (x2 : Ctx), readS slice (vab 7).srcA = .ok (a, x1) ∧ readS x1 (vab 7).srcB = .ok (b, x2)) ∧
    (∃ (a : Vec) (x1 : Ctx) (b : Word) (x2 : Ctx), readV slice (vab 7).srcA = .ok (a, x1) ∧ readS x1 (vab 7).srcB = .ok (b, x2)) ∧
    (∃ (a : Vec) (x1 : Ctx) (c : Vec) (x2 : Ctx), readV slice (vab 7).srcA = .ok (a, x1) ∧ readV x1 (vab 7).srcC = .ok (c, x2)) ∧
    (∃ (a : Vec) (x1 : Ctx) (b : Vec) (x2 : Ctx) (c : Vec) (x3 : Ctx), readV slice (vab 7).srcA = .ok (a, x1) ∧
      readV x1 (vab 7).srcB = .ok (b, x2) ∧ readV x2 (vab 7).srcC = .ok (c, x3)) ∧ (64 : Nat) ≤ 4096 / typeWidth 7 :=
  ⟨by decide, by decide, ⟨here _, by decide +kernel⟩, by decide, by decide, by decide, reads_two (by decide +kernel), reads_two (by decide +kernel), reads_two (by decide +kernel), reads_three (by decide +kernel), by decide⟩

/-- Vectors with a NaN lane and without one. -/
theorem witness_Reductions : VHere sys slice (vab 2) ∧ (vab 6).type.toNat = 6 ∧ (vab 10).type.toNat = 10 ∧
    (∀ n, n < 128 → fisNan f32 (elemW 32 0 n) = false) ∧ (∃ n, n < 128 ∧ fisNan f32 (elemW 32 0x7FC00000 n) = true) ∧
    (∃ (a : Vec) (x1 : Ctx) (c : Vec) (x2 : Ctx), readV slice (vab 2).srcA = .ok (a, x1) ∧ readV x1 (vab 2).srcC = .ok (c, x2)) ∧
    ∃ (a : Vec) (x1 : Ctx) (b : Vec) (x2 : Ctx) (c : Vec) (x3 : Ctx), readV slice (vab 2).srcA = .ok (a, x1) ∧
      readV x1 (vab 2).srcB = .ok (b, x2) ∧ readV x2 (vab 2).srcC = .ok (c, x3) := by
  refine ⟨⟨here _, by decide +kernel⟩, by decide, by decide, by decide +kernel, ⟨0, by decide +kernel⟩, reads_two (by decide +kernel), reads_three (by decide +kernel)⟩

/-- A file with a candidate, and an empty one. -/
theorem witness_CandidateFile : VHere sys slice { vab 0 with imm8 := 1 } ∧ slice.cand = [] ∧
    VHere (with' { slice with cand := [(5, 1)] }) { slice with cand := [(5, 1)] } (vab 0) ∧
    ∃ (a : Vec) (x1 : Ctx) (b : Vec) (x2 : Ctx), readV slice (vab 0).srcA = .ok (a, x1) ∧ readV x1 (vab 0).srcB = .ok (b, x2) :=
  ⟨⟨here _, by decide +kernel⟩, by decide +kernel, ⟨here _, by decide +kernel⟩, reads_two (by decide +kernel)⟩

/-- The last draw that is allowed, and the first that is not. -/
theorem witness_CandidateSampling : VHere sys slice { vab 0 with imm8 := 32 } ∧
    (∃ (a : Vec) (x1 : Ctx), readV slice (vab 0).srcA = .ok (a, x1)) ∧
    (∃ (w : Word) (x1 : Ctx), readS slice (vab 0).srcA = .ok (w, x1)) ∧
    (({ slice.rng with idx := 65504 } : Rng).idx + 32 ≤ 65536 ∧ slice.rng.pos < 2 ^ 40) ∧
    65536 < ({ slice.rng with idx := 65505 } : Rng).idx + 32 :=
  ⟨⟨here _, by decide +kernel⟩, reads_one (by decide +kernel), reads_one (by decide +kernel), by decide +kernel, by decide +kernel⟩

/-- The slice with two claimed slots at its bases and a legal format, and with a format that is not legal. -/
def matrix : Ctx :=
  { slice with claimed := 0xFFFF, seen := { slice.seen with fmt := 0, g := slice.seen.g.setIfInBounds 1 8192 } }
def noFormat : Ctx := { matrix with seen := { matrix.seen with fmt := 0xFFFFFFFF } }

/-- M-slot fields: A at g0, B at g1, tile 7, QSRC v1. -/
def mab : MFields := { m0 with bbase := 1, acc := 7, qsrc := 1 }

/-- A group of 255 rows, past the bound: `mgrp` raises its fault; with an empty table it raises none. -/
theorem witness_MatrixIssue_groups : (groupsOf (with' matrix) ⟨0, 0⟩ matrix mab 0).2 = false ∧
    (groupsOf { with' matrix with cores := [(0, { core with opmem := [(8192, 255)] })] } ⟨0, 0⟩ matrix mab 0).2 = true := by
  decide +kernel

theorem witness_MatrixIssue : MHere (with' matrix) matrix mab ∧ fmtLegal matrix.seen.fmt = true ∧
    (∀ o, o < 11 → mUnprovisioned (with' matrix) ⟨0, 0⟩ matrix o mab = none ∧ mUnclaimed (with' matrix) ⟨0, 0⟩ matrix o mab = none) ∧
    (∃ (v : Vec) (x1 : Ctx), readV matrix mab.qsrc = .ok (v, x1)) ∧
    MHere (with' noFormat) noFormat mab ∧ fmtLegal noFormat.seen.fmt = false ∧
    (∀ o, o < 11 → mUnprovisioned (with' noFormat) ⟨0, 0⟩ noFormat o mab = none ∧ mUnclaimed (with' noFormat) ⟨0, 0⟩ noFormat o mab = none) := by
  obtain ⟨v, x1, h1⟩ := reads_one (r := readV matrix 1) (by decide +kernel)
  exact ⟨⟨here _, by decide +kernel⟩, by decide +kernel, by decide +kernel, ⟨v, x1, h1⟩, ⟨here _, by decide +kernel⟩,
    by decide +kernel, by decide +kernel⟩

theorem witness_MatrixProduct : (List.replicate (edgeOf 0 * edgeOf 0) (0 : Nat)).length = edgeOf 0 * edgeOf 0 ∧ 63 < edgeOf 0 ∧
    pairOf 0 < 3 ∧ pairOf 0x1B = 3 ∧ (List.replicate (edgeOf 0x1B * edgeOf 0x1B) (0 : Nat)).length = edgeOf 0x1B * edgeOf 0x1B ∧
    ¬(2 ≤ 63 ∧ 63 < 63) ∧ 2 ≤ 2 ∧ 2 < 63 := by
  exact ⟨List.length_replicate, by decide, by decide, by decide, List.length_replicate, by decide, by decide, by decide⟩

/-- An `mscl` at the head of the M queue, and a `mmap` whose half is formed. -/
def scaleWork : MWork :=
  { op := .mscl mab, fmt := 0, abase := 0, bbase := 0, vec := 5, steps := 1, done := 0, started := true, spans := 0, slots := 0
    groups := [], formed := none, early := [], planes := 0, sums := [] }
def pairWork : MWork := { scaleWork with op := .mmap mab, formed := some 0 }

/-- Two slices of region 0 on the cores 0 and 8, which are partners. -/
def leadSlice (buf : Option PairHalf) (q : List MWork) : Ctx := { slice with mq := q, pairBuf := buf }
def pairSys (buf : Option PairHalf) (q r : List MWork) : State :=
  { sys with slots := [(⟨0, 0⟩, leadSlice buf q), (⟨8, 0⟩, { slice with task := 2, mq := r })], now := 65536 }
def half : PairHalf := { early := [], spans := 8, step := 0, fmt := 0, a := 0, b := 0, planes := 0, sums := [] }

/-- The slice with an `mscl` in the M queue, not yet started, running, and halted in its step. -/
def queued : Ctx := { slice with mq := [{ scaleWork with started := false }] }
def scaling : Ctx := { slice with mq := [scaleWork] }
def cut : Ctx := { scaling with halting := true }

/-- The datapath of core 0 taken by context 0 until a cycle, at a cycle. -/
def withDp (x : Ctx) (due now : Nat) : State := { with' x with cores := [(0, { core with dp := some (0, due) })], now := now }

theorem witness_MatrixSteps :
    ((getCore (withDp scaling 8 7) 0).dp = some (0, 8) ∧ getCtx (withDp scaling 8 7) ⟨0, 0⟩ = some scaling ∧
      mOpc scaleWork.op ≠ 3 ∧ (withDp scaling 8 7).now < 8 ∧ (withDp scaling 8 8).now = 8 ∧ parked scaling = false ∧
      parked cut = true ∧ scaleWork.op = .mscl mab) ∧
    ((getCore (with' queued) 0).dp = none ∧ canStart (with' queued) queued = true ∧
      (∀ w ∈ queued.mq, w.done = 0 ∧ w.spans = 0 ∧ mOpc w.op ≠ 3) ∧
      (let s := { with' slice with slots := [(⟨0, 0⟩, slice), (⟨0, 1⟩, queued)] }
       getCtx s ⟨0, 0⟩ = some slice ∧ canStart s slice = false ∧ getCtx s ⟨0, 1⟩ = some queued ∧ canStart s queued = true)) ∧
    (leads 0 = true ∧ partnerCore 0 = 8) ∧
    (let s := pairSys none [] [pairWork]
     partnerCtx s ⟨0, 0⟩ (leadSlice none []) = some ⟨8, 0⟩ ∧ formedPair (leadSlice none []) = none ∧
       formedPair { slice with task := 2, mq := [pairWork] } = some pairWork) ∧
    (let s := pairSys (some half) [pairWork] []
     partnerCtx s ⟨0, 0⟩ (leadSlice (some half) [pairWork]) = some ⟨8, 0⟩ ∧
       formedPair (leadSlice (some half) [pairWork]) = some pairWork ∧ formedPair { slice with task := 2, mq := [] } = none ∧
       wholeHalf half = true ∧ pairKey half.fmt = pairKey pairWork.fmt ∧ half.step = (leadSlice (some half) [pairWork]).pairs ∧
       pairWork.formed = some 0 ∧ 0 + 65536 ≤ s.now ∧ (leadSlice (some half) [pairWork]).held = none) := by
  decide +kernel

theorem witness_HartRegistersAndControl : HartHere sys slice .loader hart := ⟨here _, rfl, rfl⟩

theorem witness_HartArithmetic : (0xFFFFFFFF : Word) ≠ 0 ∧ ¬((0x80000000 : Word) = 0x80000000 ∧ (1 : Word) = 0xFFFFFFFF) ∧
    (0x80000000 : Word) = 0x80000000 ∧ (0xFFFFFFFF : Word) = 0xFFFFFFFF ∧ (0 : Word) = 0 := by decide

/-- The last word of the data memory, and an address whose word passes its end. -/
theorem witness_HartMemory : HartHere sys slice .loader hart ∧ (getX hart 0 + 0x10000FFC).toNat = 0x10000000 + 4092 ∧
    4092 + 4 ≤ hart.dataSize ∧ Memory.wf hart.data = true ∧ (getX hart 0 + 0x10000FFD).toNat = 0x10000000 + 4093 ∧
    hart.dataSize < 4093 + 4 ∧ (getX hart 0 + 0x1FFFFFFF).toNat = 0x10000000 + (2 ^ 28 - 1) :=
  ⟨⟨here _, rfl, rfl⟩, by decide +kernel⟩

theorem witness_HartDeviceAndCalls : HartHere sys slice .loader hart ∧ getX hart 0 + 0x3000001C = 0x3000001C ∧
    slice.halting = false ∧ slice.wait = .none ∧ slice.handler = false ∧ (getRegion sys slice.region).hndl ≠ 0xFFFFFFFF ∧
    hart.st = .running :=
  ⟨⟨here _, rfl, rfl⟩, by decide +kernel⟩

/-- A hart with a value in x10 and one in x11. -/
def hartOf (a b : Word) : Hart := { hart with x := (hart.x.setIfInBounds 10 a).setIfInBounds 11 b }
def withHart (h : Hart) : Ctx := { tagged with loader := some h }

/-- A full s queue. -/
def fullS : Ctx := { slice with s := slice.s.setIfInBounds 31 (live [.s 1, .s 2, .s 3, .s 4]) }

/-- A full/empty read that has ended. -/
def readCmd : Cmd := { (default : Cmd) with id := 9, kind := .lfe, tag := 64, st := .done 0, result := 1 }

theorem witness_HartTagsQueuesCommands :
    -- tags: a range up to the last tag, done, and one with a busy tag; a tag at the declared count
    (HartHere (with' (withHart (hartOf 63 1))) (withHart (hartOf 63 1)) .loader (hartOf 63 1) ∧
      (getX (hartOf 63 1) 10).toNat + (getX (hartOf 63 1) 11).toNat ≤ hdrTags tagged.hdr ∧ (getTag tagged 63).st ≠ .busy ∧
      (getTag tagged 62).st = .busy ∧ (getX (hartOf 62 2) 10).toNat + (getX (hartOf 62 2) 11).toNat ≤ 64 ∧
      hdrTags tagged.hdr ≤ (getX (hartOf 64 1) 10).toNat ∧ tagged.held = none ∧
      (let x := { tagged with held := some { fault with who := some .loader } }
       HartHere (with' x) x .loader hart ∧ x.held = some { fault with who := some .loader } ∧
         (({ tagged with held := some fault } : Ctx).held.bind (·.who)) ≠ some .loader)) ∧
    -- queues: an empty queue, a full one, a head that has landed
    ((getX (hartOf 5 63) 11).toNat = 32 + 31 ∧ 31 < hdrSq slice.hdr ∧ (getQueue fullS .s 31).dead = false ∧
      4 ≤ (getQueue fullS .s 31).entries.length ∧ ((getQueue fullS .s 31).entries.head?.bind (·.val)) = some (.s 1) ∧
      (getQueue slice .s 31).dead = true ∧ (getQueue slice .s 1).dead = false ∧ (getQueue slice .s 1).entries.length < 4) ∧
    -- copies, full/empty reads
    ((getX (hartOf 0 (1280 + 63)) 11).toNat = 1280 + 63 ∧ slice.outstanding < 255 ∧ refilling slice 0 64 = false ∧
      (getX (hartOf 0 0xFFFFFF) 11).toNat < 2 ^ 24 ∧ hart.lfe = none ∧
      getCmd { sys with cmds := [readCmd] } 9 = some readCmd ∧ readCmd.st = .done 0 ∧ readCmd.status < 256) ∧
    -- a spawn from the scratchpad
    (∃ s2 hd, submitTask (hartRead (pad descMem) slice .loader 0 128).2 ⟨0, 0⟩
        (ctxIn (hartRead (pad descMem) slice .loader 0 128).2 slice) (hartRead (pad descMem) slice .loader 0 128).1 = .child s2 hd) ∧
    -- barriers: a recorded phase that has moved on, or has not
    ((getX (hartOf 7 3) 10).toNat = 7 ∧ (getX (hartOf 7 3) 11).toNat < 4 ∧ 7 < hdrDbar slice.hdr ∧ 7 < hdrCbar slice.hdr ∧
      pendingPubs sys (.hart slice.task .loader) = [] ∧
      (getBar sys (barOf sys 0 0 true 7)).phase ≠ 1 ∧ (getBar sys (barOf sys 0 0 true 7)).phase = 0) := by
  refine ⟨⟨⟨here _, rfl, rfl⟩, ?_, ?_, ?_, ?_, ?_, rfl, ⟨here _, rfl, rfl⟩, rfl, ?_⟩, ?_, ?_, child_of ?_, ?_⟩ <;> decide +kernel

/-- The spawn's slice has no view, so nothing of it is to be merged first. -/
theorem witness_HartTagsQueuesCommands_spawn : (match submitTask (hartRead (pad descMem) slice .loader 0 128).2 ⟨0, 0⟩
      (ctxIn (hartRead (pad descMem) slice .loader 0 128).2 slice) (hartRead (pad descMem) slice .loader 0 128).1 with
    | .child s2 _ => (ctxIn s2 slice).views.isEmpty && (untaken (takePieces s2 s2.cur (ctxIn s2 slice)) slice.task).isEmpty
    | _ => false) = true := by decide +kernel

theorem witness_HartWaitEnd :
    (let h := { hartOf 63 1 with st := .waiting (.lwait 5 10 11) }
     let x := withHart h
     getCtx (with' x) ⟨0, 0⟩ = some x ∧ getHart x .loader = some h ∧ x.halting = false ∧ x.blocked = [] ∧ x.wait = .none ∧
       h.st = .waiting (.lwait 5 10 11) ∧ 0 < (getX h 11).toNat ∧ (getX h 11).toNat ≤ 64 ∧
       (getX h 10).toNat + (getX h 11).toNat ≤ min 64 (hdrTags x.hdr) ∧ (getTag x 63).st ≠ .busy) := by
  decide +kernel

/-- The parcels and instructions of the first bundle. -/
def parcels : List Word := [0x00000010, 0x10001010, 0x004A0001, 0x01001020]
def present : List (Slot × Instr) :=
  [(.c, .addi { c0 with dst := 1, srcA := 1, imm := 1 }), (.v, .vadd { v0 with srcA := 1, srcB := 2, dst := 4, type := 10 })]

/-- What holds of every form of a list of offers, found by going through the list. -/
theorem offers_all {os : List Offer} {x : Ctx} {p : SlotForm → Bool} (h : (os.all fun o => match o.form with
    | some f => !o.runs x || p f
    | none => true) = true) : ∀ o ∈ os, ∀ f, o.form = some f → o.runs x = true → p f = true := by
  intro o ho f hf hr
  have := List.all_eq_true.mp h o ho
  simpa [hf, hr] using this

theorem witness_BundleIssue : ∃ (x : Ctx), Issues sys ⟨0, 0⟩ slice x 0x099400D9 parcels present (offers slice 0x099400D9 present) := by
  refine ⟨_, rfl, by decide +kernel, ok_of (by decide +kernel), by decide +kernel, ok_of (by decide +kernel), rfl, rfl,
    by decide +kernel, rfl, by decide +kernel, by decide +kernel, ?_, by decide +kernel, by decide +kernel, rfl, by decide +kernel, ?_,
    fun h => absurd rfl h⟩
  · intro o ho f hf hr
    exact Option.isNone_iff_eq_none.mp (offers_all (p := fun f => (tWait sys ⟨0, 0⟩ _ f).isNone) (by decide +kernel) o ho f hf hr)
  · intro o ho f hf hr
    exact Option.isNone_iff_eq_none.mp (offers_all (p := fun f => (entryTrap sys _ f).isNone) (by decide +kernel) o ho f hf hr)

/-- A slice whose template at 64 has a slot state 0b11, one whose PC lies beyond the stored line, and one that has a loop
exit to size there. -/
theorem witness_BundleHolds :
    (let l : ILine := { line with data := BitVec.ofNat 32768 0x0C000000 }
     let s := { sys with cores := [(0, { core with lines := [l] })] }
     getCtx s ⟨0, 0⟩ = some slice ∧ ableToOffer s ⟨0, 0⟩ slice = true ∧ slice.sizing = none ∧
       (fetchBundle s ⟨0, 0⟩ slice).toOption = some (0x0C000000, []) ∧ templateIllegal 0x0C000000 = true) ∧
    (let x := { slice with pc := 4096 }
     getCtx (with' x) ⟨0, 0⟩ = some x ∧ ableToOffer (with' x) ⟨0, 0⟩ x = true ∧ x.sizing = none ∧
       parcelAt (with' x) ⟨0, 0⟩ x 4096 = none) ∧
    (let x := { slice with sizing := some (.after 4096) }
     getCtx (with' x) ⟨0, 0⟩ = some x ∧ ableToOffer (with' x) ⟨0, 0⟩ x = true ∧ x.sizing = some (.after 4096) ∧
       (match settleSizing (with' x) ⟨0, 0⟩ x (.after 4096) with
        | .error e => some e
        | .ok _ => none) = some (.after 4096, 4096, 4096)) := by
  decide +kernel

/-- One result of the C slot for queue s31. -/
theorem witness_ResultReservation :
    (let i := { issue with results := [{ queue := some (.s, 31), latch := 0, latency := 0 + 1, val := .s 7, view := false }] }
     let x := { slice with issue := some i }
     Here (with' x) x ∧ x.issue = some i ∧ i.carried = [] ∧ i.wait = .none ∧ 31 < 32) :=
  ⟨here _, by decide⟩

/-- A result in flight to s31; loops that turn, that exit and that end elsewhere. -/
theorem witness_LandingAndLoopEnd :
    (let f : Flight := { id := 3, due := 1, queue := some (.s, 31), latch := 7, val := .s 7, view := false }
     let x := { slice with flights := [f] }
     getCtx (with' x) ⟨0, 0⟩ = some x ∧ x.flights.find? (fun g => g.id = f.id) = some f ∧ f.latch < 8 ∧ 31 < 32) ∧
    (issue.reps ≤ issue.rep ∧ issue.transfer = none ∧
      ({ issue with transfer := some { goal := .pc 64, dead := 3, boundary := true } } : Issue).transfer =
        some { goal := .pc 64, dead := 3, boundary := true } ∧ (stack 1).head?.map (·.stop) ≠ some issue.pc) ∧
    (let e : LoopEntry := { start := 20, stop := 0, count := 2, index := 0 }
     e.stop = issue.pc ∧ e.index.toNat + 1 < e.count.toNat ∧
       ({ e with index := 1 } : LoopEntry).count.toNat ≤ ({ e with index := 1 } : LoopEntry).index.toNat + 1) := by
  decide +kernel

/-- A publication of the slice with no change of a barrier. -/
def pub : Publication := { id := 4, agent := .ctx 1, insts := [.package], writes := [], arrive := none, after := [] }

theorem witness_WaitEnds :
    (let x := { slice with fmtPend := [(0, 5), (2, 6)] }
     getCtx (with' x) ⟨0, 0⟩ = some x ∧ x.fmtPend = [] ++ (0, 5) :: [(2, 6)]) ∧
    (let x := { tagged with wait := .tag 63 1 false }
     getCtx (with' x) ⟨0, 0⟩ = some x ∧ (getTag x 63).st ≠ .busy) ∧
    (let x := { tagged with wait := .tag 62 2 true }
     getCtx (with' x) ⟨0, 0⟩ = some x ∧ (getTag x 63).st = .done) ∧
    (let x := { tagged with wait := .barrier true 7 4 }
     getCtx (with' x) ⟨0, 0⟩ = some x ∧ (getBar (with' x) (barOf (with' x) x.region 0 true 7)).phase ≠ 4 ∧
       (getBar ({ with' x with now := 12 }) (barOf (with' x) x.region 0 true 7)).flipAt + 12 ≤ 12) ∧
    (let x := { slice with wait := .spawnPool 0 }
     getCtx (with' x) ⟨0, 0⟩ = some x ∧ ((with' x).tasks.filter fun t => t.die = 0).length < 4096) ∧
    (let s := { sys with pubs := [pub] }
     s.pubs.find? (fun q => q.id = pub.id) = some pub ∧ (s.pubs.filter fun q => q.agent = pub.agent).head? = some pub ∧
       pub.arrive = none) := by
  decide +kernel

/-- Slices at their ends, their loaders at `lyld` or stopped. -/
def ending (w : Wait) : Ctx := { slice with wait := w, loader := some { hart with st := .lyld } }

theorem witness_SliceEndEvents :
    (∀ w ∈ [Wait.yieldLand, .tend, .halt, .handover false 0, .handover true 0], let x := ending w
      getCtx (with' x) ⟨0, 0⟩ = some x ∧ getTask (with' x) x.task = some task ∧ x.halting = false ∧ x.wait = w ∧
        x.flights = [] ∧ mIdle (with' x) x = true ∧ hartJoined x.loader = true ∧ hartJoined x.storer = true ∧
        openCmds (with' x) x.task = [] ∧ x.views = [] ∧ arenaCopies (with' x) ⟨0, 0⟩ x = false ∧ untaken (with' x) x.task = []) ∧
    (let x := { slice with preempt := some 0, wait := .tag 0 1 false }
     getCtx (with' x) ⟨0, 0⟩ = some x ∧ x.halting = false ∧ x.wait ≠ .none) ∧
    (let x := { slice with preempt := some 0, halting := true, draining := true }
     getCtx (with' x) ⟨0, 0⟩ = some x ∧ x.flights = [] ∧ (getCore (with' x) 0).dp = none) := by
  decide +kernel

theorem witness_TimedTraps :
    (let x := { slice with sbudget := 0 }
     getCtx (with' x) ⟨0, 0⟩ = some x ∧ x.region < (with' x).regions.length ∧ (getRegion (with' x) x.region).st = .admitted ∧
       atBundle (with' x) x = true ∧ (getRegion (with' x) x.region).hndl ≠ 0xFFFFFFFF ∧ x.handler = false ∧ x.extended = false) ∧
    (let x := { slice with sinceYield := 2 ^ 24 }
     getCtx (with' x) ⟨0, 0⟩ = some x ∧ 2 ^ 24 ≤ x.sinceYield) ∧
    (let x := { slice with preempt := some 0 }
     let s := { with' x with now := 256 }
     getCtx s ⟨0, 0⟩ = some x ∧ 256 ≤ s.now - 0 - x.fetchWait ∧ x.halting = false) := by
  decide +kernel

/-- A start sequence; an empty core that has been idle; a restore and a clear that are due; a task with one readiness word
left, whose word is full; a task that the arbiter can place. -/
def tables : Mem := [(0x1000, 1), (0x1001, 0x20), (0x2000, 1), (0x2001, 0x30), (0x3000, 1), (0x3001, 0x40), (0x4000, 0x0F), (0x4003, 2)]
def paged : State := { sys with hbm := tables, asids := [(1, { root := 0x1000, gen := 0, owner := 1 })], full := [0x2000008] }
def waiting : Task := { task with uid := 5, index := 3, st := .waiting, ready := [(8, false), (16, true)] }
def readyTask : Task := { waiting with st := .ready, ready := [] }
def parkedTask : Task := { readyTask with st := .parked, run := 500, budget := 500, preempted := false }

theorem witness_StartPlacementArbiter :
    (let s : State := { sys with sequence := some (0, [2, 3]), now := 32 }
     s.sequence = some (0, [2, 3]) ∧ 0 + 32 * 1 ≤ s.now ∧ 1 < 47 ∧ 2 % 96 / 2 = 1 ∧
       (let u := { s with sequence := some (0, [94]), now := 32 * 47 }
        0 + 32 * 47 ≤ u.now ∧ 47 < 48 ∧ waitsGated u = false)) ∧
    (let s := { sys with slots := [], cores := [(0, { core with gated := false, emptySince := 0 })], now := 65536 }
     getCtx s ⟨0, 0⟩ = none ∧ getCtx s ⟨0, 1⟩ = none ∧ (getCore s 0).gated = false ∧ (getCore s 0).emptySince + 65536 ≤ s.now) := by
  decide +kernel

theorem witness_StartPlacementArbiter_placement :
    (let x := { slice with blocked := [.restore 0, .clear 0] }
     getCtx (with' x) ⟨0, 0⟩ = some x ∧ (with' x).cmds = [] ∧ ∀ b ∈ x.blocked, b = .restore 0 ∨ b = .clear 0) ∧
    (let s := { paged with tasks := [task, waiting] }
     getTask s waiting.uid = some waiting ∧ waiting.st = .waiting ∧ waiting.ready[0]? = some (8, false) ∧
       (match seeWord s waiting.region 8 with
        | .word pa => some pa
        | _ => none) = some 0x2000008 ∧ isFull s 0x2000008 = true ∧ wordParked s waiting.uid 0 = false ∧
       waiting.ready[1]? = some (16, true) ∧
       ({ waiting with ready := [(8, false), (16, false)] } : Task).ready[1]? = some (16, false)) := by
  decide +kernel

theorem witness_StartPlacementArbiter_arbiter :
    (∀ t ∈ [readyTask, parkedTask],
      let s := { sys with tasks := [task, t] }
      sortBy (ranksBefore (lapse s)) ((lapse s).tasks.filter fun q => q.die = 0 && isCandidate (lapse s) q) = [t] ∧
        getTask (lapse s) t.uid = some t ∧ (t.st = .ready ∨ t.run ≤ t.budget ∨ t.preempted = true) ∧
        (findSpot (lapse s) t).isSome = true) := by
  decide +kernel

/-- The counters of a slice: its datapath free, at work for it and for the other context; waiting, restored, cleared, in a
wave; a counter written by the slice itself. -/
theorem witness_TimeAndCycles : (getTask sys slice.task = some task ∧ (⟨767, 1⟩ : CtxId).core < 768 ∧ sys.pkg < 1024) ∧
    slice.blocked = [] ∧ slice.midleSet = false ∧ slice.mstallSet = false ∧ slice.wait = .none ∧
    (getCore sys 0).dp = none ∧
    (getCore { sys with cores := [(0, { core with dp := some (0, 9) })] } 0).dp = some ((⟨0, 0⟩ : CtxId).ctx, 9) ∧
    (getCore { sys with cores := [(0, { core with dp := some (1, 9) })] } 0).dp = some (1, 9) ∧ (1 : Nat) ≠ (⟨0, 0⟩ : CtxId).ctx ∧
    (∀ w ∈ [Wait.tag 0 1 false, .fill 0 0], ({ slice with wait := w } : Ctx).wait = w) ∧
    (∀ b ∈ [Blocker.restore 9, .clear 9, .wave], ({ slice with blocked := [b] } : Ctx).blocked = [b]) ∧
    ({ slice with midleSet := true, mstallSet := true } : Ctx).midleSet = true ∧
    sys.timers = [] ∧ ({ sys with timers := [(1, .coreGating 3)], todo := [.inr ⟨⟨0, 0⟩, .loader⟩] } : State).timers =
      [(sys.now + 1, .coreGating 3)] := by
  decide +kernel
/-! Commands under way: each stands alone in the package with the page tables above, whose 32 MiB from address 0 lie at
0x2000000 in HBM. -/

/-- A command with an id. -/
def cmd (kind : CmdKind) (st : CmdState) (record : BitVec 512) : Cmd :=
  { (default : Cmd) with id := 9, kind := kind, task := 1, region := 0, asid := 1, owner := 1, st := st, record := record }

/-- The package with that command. -/
def holding (k : Cmd) : State := { paged with cmds := [k] }

/-- The translation of the first 32 MiB. -/
def leaf : TlbEntry := { asid := 1, gen := 0, va := 0, level := 1, entry := 0x200000F, inc := 0 }

theorem witness_CommandCompletes :
    (let k := { cmd .viewFill .active 0 with data := [1, 2] }
     getCmd (holding k) 9 = some k ∧ k.kind = .viewFill ∧ getTask (holding k) k.task = some task ∧
       sliceOf (holding k) k.task = some slice ∧ task.scratch = .here 0 0 [] [] ∧
       firstFault { slice with window := 0 } k.recAddr k.data.length = none) ∧
    (let k := { cmd .ifill (.walking 0 0x1000 false) 0 with tag := 64, recAddr := 0x1000 }
     getCmd (holding k) 9 = some k ∧ (getAsid (holding k) k.asid).gen = 0 ∧ walk (holding k) k.asid k.recAddr = .leaf 1 0x200000F ∧
       codeLeaf 0x200000F = true) ∧
    (let k := { cmd .copy .ending 0 with tag := 63, bar := some (true, 0, 7) }
     getCmd (holding k) 9 = some k ∧ k.st = .ending ∧ k.arrive = false ∧ takesResult k.kind = true ∧ k.tag < 64 ∧
       firstFault { slice with window := 0 } (k.recAddr + 56) 8 = none ∧ ({ k with bar := none } : Cmd).bar = none) ∧
    (let k := { cmd .copyr .ending (BitVec.ofNat 512 (2 ^ 40 * 2 ^ 64)) with arrive := true }
     getCmd (holding k) 9 = some k ∧ k.st = .ending ∧ k.arrive = true ∧ copyPkg (holding k) k = 1 ∧ knownInc (holding k) 1 = 0 ∧
       knownInc { holding k with known := [(1, 5)] } 1 ≠ 0) := by
  refine ⟨?_, ?_, ?_, ?_⟩ <;> decide +kernel

/-- A push of two entries into v31, a `copyf` of two words, an atomic sum of one element. -/
def pushRec : BitVec 512 := BitVec.ofNat 512 ((2 ^ 63 + 3 * 2 ^ 37 + 31) * 2 ^ 64 + 1024 * 2 ^ 128)
def wordRec (mode : Nat) : BitVec 512 := BitVec.ofNat 512 (0x100 + 0x200 * 2 ^ 64 + 16 * 2 ^ 128 + mode * 2 ^ 352)
def atomRec : BitVec 512 := BitVec.ofNat 512 (0x100 + 0x200 * 2 ^ 64 + 4 * 2 ^ 128 + 1 * 2 ^ 352 + 2 * 2 ^ 368)

theorem witness_WalksAndUnits :
    (let k := cmd .copy (.walking 0 0x100 true) 0
     getCmd (holding k) 9 = some k ∧ k.kind = .copy ∧ k.st = .walking 0 0x100 true ∧ (getAsid (holding k) 1).gen = 0 ∧
       (getAsid { holding k with asids := [(1, { root := 0x1000, gen := 1, owner := 1 })] } 1).gen ≠ 0 ∧
       walk (holding k) 1 (2 ^ 25 - 1) = .leaf 1 0x200000F ∧ walk (holding k) 1 (2 ^ 25) = .park ∧
       walk { holding k with hbm := tables ++ [(0x4009, 2), (0x4008, 1)].reverse } 1 (2 ^ 25) = .bad 0x4008 ∧
       ((holding k).cmds.filter fun q => q.cluster = k.cluster && isParked q).length < 64) ∧
    (let k := { cmd .copy .pushWait pushRec with index := 1, buf := List.replicate 1024 0 }
     getCmd (holding k) 9 = some k ∧ 0 < k.index ∧ pushesEntries k = true ∧ unitsOf k = k.index + 1 ∧
       512 * (k.index + 1) ≤ k.buf.length ∧ k.target = 0 ∧
       targetCtx (withSt (holding k) k .active) { k with st := .active } (dDaddr k.record) = some ⟨0, 0⟩ ∧
       getCtx (holding k) ⟨0, 0⟩ = some slice ∧ bits (dDaddr k.record) 4 0 < hdrVq slice.hdr ∧
       hasRoom slice .v (bits (dDaddr k.record) 4 0) = true) ∧
    (∀ mode < 3,
      let k := { cmd .copyf .wordWait (wordRec mode) with index := 1, trans := [leaf] }
      let k1 := { k with st := .active }
      let s1 := withSt (holding k) k .active
      getCmd (holding k) 9 = some k ∧ 0 < k.index ∧ k.target = 0 ∧ unitsOf k = k.index + 1 ∧ k.buf = [] ∧
        (sourcePlaces s1 k1 (k.index / perRun k) (8 * (k.index % perRun k)) 8).1.toOption = some [(.hbm 0x2000108, 8)] ∧
        (destPlaces s1 k1 (k.index / perRun k) (8 * (k.index % perRun k)) 8).1.toOption = some [(.hbm 0x2000208, 8)] ∧
        bits (dMode k.record) 1 0 = mode ∧ isFull (holding k) 0x2000208 = false ∧
        isFull { holding k with full := [0x2000108] } 0x2000108 = true) ∧
    (let k := { cmd .copya .active atomRec with trans := [leaf] }
     getCmd (holding k) 9 = some k ∧ k.target = 0 ∧ unitsOf k = k.index + 1 ∧ k.buf = [] ∧
       (elementPlaces (holding k) k).1.toOption = some ([(.hbm 0x2000100, 4)], [(.hbm 0x2000200, 4)], []) ∧
       farReads k [(.hbm 0x2000100, 4)] = []) := by
  refine ⟨?_, ?_, ?_, ?_⟩
  · decide +kernel
  · decide +kernel
  · decide +kernel
  · decide +kernel

/-- A copy to a window of core 9, where no slice is resident, and a query delivered there. -/
def windowRec : BitVec 512 := BitVec.ofNat 512 ((2 ^ 63 + 9 * 2 ^ 27) * 2 ^ 64 + 64 * 2 ^ 128)
def queryRec : BitVec 512 := BitVec.ofNat 512 (7 + (2 ^ 63 + 9 * 2 ^ 27) * 2 ^ 256)

theorem witness_TimeoutsAndRecords :
    (let k := cmd .copy (.targetWait 0) windowRec
     let s := { holding k with now := 65536 }
     getCmd s 9 = some k ∧ k.st = .targetWait 0 ∧ 0 + 65536 ≤ s.now ∧ checkNow s k = some .target) ∧
    (let k := cmd .aqry (.targetWait 0) queryRec
     let s := { holding k with now := 65536 }
     getCmd s 9 = some k ∧ k.st = .targetWait 0 ∧ k.kind = .aqry ∧ k.index = 0 ∧ targetCtx s k (qDest k.record) = none ∧ k.root = none ∧
       ({ k with root := some (1, 5) } : Cmd).root = some (1, 5) ∧ 6 % 2 = 0 ∧ 7 % 2 ≠ 0) ∧
    (let k := cmd .copy (.parked 0x100 1) 0
     getCmd (holding k) 9 = some k ∧ isCopy k.kind = true) ∧
    (let k := cmd .commit .active 0
     getCmd (holding k) 9 = some k ∧ cmNemit k.record ≤ k.index ∧ cmMsk k.record = false ∧ cmRel k.record = false) ∧
    (let k := cmd .pvpub .active 0
     let s := { holding k with partOps := [(2, 0, .publish 3 9)], now := 1 }
     getCmd s 9 = some k ∧ s.partOps = [(2, 0, .publish 3 k.id)] ∧ 0 < s.now ∧
       ({ s with partOps := [(2, 0, .release true)] } : State).partOps = [(2, 0, .release true)]) := by
  refine ⟨?_, ?_, ?_, ?_, ?_⟩ <;> decide +kernel

/-- The page tables with the MIG bit in their leaf; a second-stage table at 0x8000 whose entry 1 is a live block at 0x7000,
pinned or not, held once or by none, and a reference to it at 0x6000. -/
def migTables : Mem := [(0x1000, 1), (0x1001, 0x20), (0x2000, 1), (0x2001, 0x30), (0x3000, 1), (0x3001, 0x40), (0x4000, 0x2F), (0x4003, 2)]
def blockEnt (refs pin : Nat) : Nat := 7 + refs * 2 ^ 112 + pin * 2 ^ 205 + 2 ^ 207
def blocks (refs pin : Nat) : State :=
  { paged with gbnBase := 0x8000, hbm := memPut (memPut tables 0x6000 (bytesOf 8 (2 ^ 63 + 1))) 0x8020 (bytesOf 32 (blockEnt refs pin)) }

theorem witness_MemoryService :
    (let a := getAsid paged 1
     a.root ≠ 0 ∧ entryAt paged 0 1 4 a.root = some 0x4000 ∧ entryAt paged (2 ^ 25) 1 4 a.root = some 0x4008 ∧
       hbmNat paged 0x4000 8 ≠ 0x200002F ∧ hbmNat paged 0x4008 8 ≠ 0x400000F ∧
       mapsFrame 1 (hbmNat paged 0x4000 8) = mapsFrame 1 0x200002F ∧ mapsFrame 1 (hbmNat paged 0x4008 8) = none ∧
       mapsFrame 1 0x400000F = some 0x4000000 ∧ installOk paged a.owner 1 0x400000F = true ∧
       installOk { paged with frames := [(0x4000, { owner := 2, shares := 1, size := 0 })] } a.owner 1 0x400000F = false ∧
       teV (hbmNat paged 0x4000 8) = true ∧ teV (hbmNat paged 0x4008 8) = false ∧ endsMigration 0x200002F 0x400000F = true ∧
       endsMigration (hbmNat paged 0x4000 8) 0x400000F = false) ∧
    (let s := { paged with hbm := migTables, frames := [(0x6000, { owner := 1, shares := 1, size := 0 })] }
     leafEntry s 1 5 = some (1, 0x200002F) ∧ mapsFrame 1 0x200002F = some 0x2000000 ∧ teMig 0x200002F = true ∧ s.raises = [] ∧
       0x6000000 % pageSize 1 = 0 ∧ stackOk 0x6000000 = true ∧ meets 0x2000000 (pageSize 1) 0x6000000 (pageSize 1) = false ∧
       (getFrame s 0x6000000).owner = (getAsid s 1).owner) ∧
    (0x10000 % 4096 = 0 ∧ stackOk 0x10000 = true ∧ frameFree paged 0x10000 4096 = true ∧ 0x10000 % 2 ^ 16 = 0 ∧
      frameFree paged 0x10000 (2 ^ 16) = true ∧ 2 ^ 30 - 1 < 2 ^ 30 ∧ (2 ^ 30 - 1) ∉ paged.freeGbns ∧
      geLive (gbnEntry paged (2 ^ 30 - 1)) = false) ∧
    (gePin (gbnEntry (blocks 1 1) 1) = true ∧ geRefcnt (putBits (gbnEntry (blocks 1 1) 1) 205 205 0) ≠ 0 ∧
      gePin (gbnEntry (blocks 0 1) 1) = true ∧ geRefcnt (putBits (gbnEntry (blocks 0 1) 1) 205 205 0) = 0 ∧
      (∀ b ∈ (blocks 0 1).tiered, b.1 ≠ 1) ∧ (∃ b ∈ ({ blocks 0 1 with tiered := [(1, [], [])] } : State).tiered, b.1 = 1)) ∧
    (let s := blocks 1 0
     let r := hbmNat s 0x6000 8
     refV r = true ∧ refPkg r = s.pkg ∧ refTier r = 0 ∧ refGbn r = 1 ∧ geLive (gbnEntry s (refGbn r)) = true ∧
       gePin (gbnEntry s (refGbn r)) = false ∧ geCmp (gbnEntry s (refGbn r)) = false ∧ geRefcnt (gbnEntry s (refGbn r)) ≤ 1) := by
  refine ⟨?_, ?_, ?_, ?_, ?_⟩ <;> decide +kernel

/-- A move of stripe 0 of sequence 7 from package 0 to package 1, at home and as its participant holds it. -/
def stripe : StripeEntry := { seq := 7, span := 0, gen := 1, first := 0, last := 9, owner := 0, home := 0, st := 0 }
def moveMsg (new : Nat) : MoveMsg :=
  { id := 3, home := 0, owner := 1, record := BitVec.ofNat 512 (new * 2 ^ 128), blocks := [], map := [{ stripe with owner := new }] }
def homeMove (w : List Nat) (d : Option Bool) : Machine.Move :=
  { msg := moveMsg 1, atHome := true, cmd := none, parties := [1, 2], waiting := w, decided := d, oldState := 0, old := [], made := [] }
def moving (v : Machine.Move) : State := { sys with moves := [v], map := [stripe] }

theorem witness_Moves : (sys.up = true ∧ (1, 5) ∉ sys.seenPackets) ∧
    (∀ d ∈ [none, some true, some false], ∀ w ∈ [[1], [1, 2]], let v := homeMove w d
      (moving v).up = true ∧ (1, 5) ∉ (moving v).seenPackets ∧ getMove (moving v) (moving v).pkg 3 = some v ∧ v.atHome = true ∧
        v.decided = d ∧ 1 ∈ v.waiting ∧ v.old = []) ∧
    ((∃ p ∈ (homeMove [1, 2] none).waiting, p ≠ 1) ∧ ∀ p ∈ (homeMove [1] none).waiting, p = 1) ∧
    (getMove sys 0 3 = none ∧ mvNew (moveMsg 1).record ≠ sys.pkg ∧ mvNew (moveMsg 0).record = sys.pkg ∧ (0, 5) ∉ sys.seenPackets ∧
      (prepareBlocks 1 (moveMsg 0).blocks (tookIn sys 0 5)).isSome = true ∧ (moveMsg 0).map = [{ stripe with owner := 0 }]) ∧
    (let v := { homeMove [] none with atHome := false }
     getMove (moving v) 0 3 = some v ∧ v.atHome = false ∧ v.made = []) ∧
    (let s := moving (homeMove [1] none)
     (groupOf s 7).find? (fun e => e.first = 0) = some stripe ∧ groupHome (groupOf s 7) = s.pkg ∧ stripe.st ≠ 3 ∧
       ∀ f ∈ groupOf s 7, f.st ≠ 2) := by
  refine ⟨?_, ?_, ?_, ?_, ?_, ?_⟩ <;> decide +kernel

/-- A prefix entry with one reference, to a block held twice. -/
def prefixEntry : Prefix :=
  { id := 7, at' := 0x100, key := 0, owner := 1, span := 0, nb := 1, toks := [], refs := [BitVec.ofNat 64 (2 ^ 63 + 1)], tokAt := 0,
    refsAt := 0, next := 0 }

theorem witness_SequenceService : getSeq sys 7 = none ∧ (7 : Nat) < 2 ^ 32 ∧ (7 : Nat) ∉ sys.pewter ∧ unitRows sys 7 ≤ 131072 ∧
    halfRows sys (7 % 2) + unitRows sys 7 ≤ 131072 ∧ sys.queries = [] ∧ sys.cmds = [] ∧
    (let s := { blocks 2 0 with prefixes := [prefixEntry] }
     s.prefixes.find? (fun q => q.id = 7) = some prefixEntry ∧ prefixEntry.refs = [BitVec.ofNat 64 (2 ^ 63 + 1)] ∧
       1 < geRefcnt (gbnEntry s (refGbn (2 ^ 63 + 1)))) := by
  decide +kernel

/-- An ended piece whose merge has its first chunk to fold; a query with two stacks to score; a tree of a root with two
leaves, and its root's merge node. -/
def viewOf : View := { addr := 0, size := 512, etype := 2, op := 0, off := 0 }
def piece : Piece :=
  { id := 4, task := 2, region := 0, c := ⟨0, 0⟩, view := viewOf, key := [0], ended := true, identity := false, taken := true
    bytes := List.replicate 512 0, spill := none, cmd := some 9 }
def mergeCmd : Cmd := { cmd .merge .active 0 with trans := [leaf] }
def queryMsg : QueryMsg := { src := 1, id := 6, record := BitVec.ofNat 512 (7 + 2 ^ 52), q := [], version := 2 }
def scoring : Query :=
  { key := 3, msg := queryMsg, gathered := true, pending := [(0, [(0, 2 ^ 63 + 1)]), (1, [])], units := [] }

/-- Its block, being compacted or not, in the segment of sequence 7. -/
def scored (cmp : Nat) : State :=
  { blocks 1 0 with
    queries := [scoring], segments := [{ seq := 7, rows := [(0, BitVec.ofNat 64 (2 ^ 63 + 1))] }]
    hbm := memPut tables 0x8020 (bytesOf 32 (blockEnt 1 0 + cmp * 2 ^ 206)) }
def tree : Tree := { id := 0, version := 2, nodes := [0, 0x100000, 0x100400], late := (0, 0) }
def root (got : List (Nat × Answer)) : MergeNode :=
  { key := 3, msg := queryMsg, node := 0, got := got, lost := [], forwarded := false, leaving := none,
    sentAs := 0 }

theorem witness_MergesAndQueries :
    (let s := { holding mergeCmd with pieces := [piece], tasks := [] }
     getPiece s 4 = some piece ∧ mergeable s piece = true ∧ (getRegion s piece.region).mergeDead = false ∧
       piece.cmd = some mergeCmd.id ∧ getCmd s mergeCmd.id = some mergeCmd ∧ viewGrain viewOf.op * mergeCmd.index < viewOf.size ∧
       (placesAt s mergeCmd (addrAt 0 0) 512 true).1.toOption = some [(.hbm 0x2000000, 512)]) ∧
    (∀ cmp < 2, let s := scored cmp
      s.queries.find? (fun r => r.key = 3) = some scoring ∧ scoring.gathered = true ∧
        alGet scoring.pending 0 = some [(0, 2 ^ 63 + 1)] ∧ unitStands s scoring 0 [(0, 2 ^ 63 + 1)] = true ∧
        geCmp (gbnEntry s (refGbn (2 ^ 63 + 1))) = decide (cmp = 1) ∧ alDel scoring.pending 0 ≠ []) ∧
    (let s := { sys with nodes := [root []], trees := [tree] }
     s.up = true ∧ (1, 5) ∉ s.seenPackets ∧ (root []).msg = queryMsg ∧ (root []).node = 0 ∧ (root []).sentAs = 0 ∧ getTree s (qTree queryMsg.record) = some tree ∧ nodeParent (treeNode tree 2) = 0 ∧ getNode s queryMsg 0 = some (root []) ∧
       (root []).forwarded = false ∧ alGet (root []).got 2 = none ∧ tree.version = queryMsg.version ∧
       nodeAnswer tree { root [] with got := [(2, .part [] [])] } = none ∧
       ({ root [] with forwarded := true } : MergeNode).forwarded = true ∧
       s.nodes.find? (fun f => f.key = 3 && f.node = 0) = some (root []) ∧ missing tree (root []) ≠ [] ∧
       (nodeAnswer tree { root [] with lost := missing tree (root []) }).isSome = true ∧ queryMsg.src ≠ s.pkg) ∧
    (let s := { sys with trees := [tree] }
     s.up = true ∧ (1, 5) ∉ s.seenPackets ∧ getTree s (qTree queryMsg.record) = some tree ∧ getNode s queryMsg 0 = none ∧ groupOf s (qSeq queryMsg.record) = []) ∧
    (badTree [] = true ∧ badTree [3 + 2 * 65536, 0, 0x100000, 0x100400] = false ∧ 255 < 256) := by
  refine ⟨?_, ?_, ?_, ?_, ?_⟩
  · decide +kernel
  · decide +kernel
  · decide +kernel
  · decide +kernel
  · decide +kernel

/-! The fabric, the host, the whole machine. -/

/-- Link 0 up, with eight failures counted; a packet of a copy to package 5. -/
def link : Link :=
  { up := true, training := false, since := 0, expect := 4, fails := 8, received := [], next := 6, sent := [(5, 1)],
    pending := [2, 3], asked := (5, 8) }
def far : Cmd := cmd .copy (.remoteWait 5 2) 0
def request : RemoteReq := { src := 5, num := 1, inc := 1, what := .writePa 0x100 [1], released := [] }

/-- An access to package 5 that waits for its probe. -/
def unsentAccess : Nat × Nat × RemoteWhat := (5, 7, .writePa 0x100 [1])

theorem witness_Fabric :
    (let s := { sys with links := [(0, link)] }
     (getLink s 0).up = true ∧ (getLink s 0).training = false ∧ (4 : Nat) = (getLink s 0).expect ∧ 8 ≤ (getLink s 0).fails ∧
       8 ≤ (getLink { sys with links := [(0, { link with fails := 0 })] } 0).asked.2) ∧
    (let s := { sys with links := [(0, { link with training := true })] }
     (getLink s 0).training = true ∧ s.packets = [] ∧ s.known = [] ∧ s.nodes = [] ∧ s.moves = [] ∧ (getLink s 0).fails ≠ 0 ∧
       (getLink s 0).asked = (5, 8) ∧ (5, 1) ∈ (getLink s 0).sent ∧ (getLink s 0).pending[1]? = some 3) ∧
    (let s := { sys with now := 28000 * 8 }
     s.up = true ∧ s.poweredAt + 28000 * 8 ≤ s.now ∧ alGet s.links (4 * 8) = none ∧ s.packets = [] ∧ s.known = [] ∧ s.nodes = [] ∧ s.moves = []) ∧
    (let p : Packet := { pkg := 5, num := 2, link := none, what := .probe 5 1 }
     let s := { sys with cmds := [far], packets := [p] }
     s.cmds = [far] ∧ s.packets = [p] ∧ p.num ≠ 0 ∧ far.st = .remoteWait 5 2 ∧ far.heldBy = [] ∧ far.kind = .copy ∧ s.nodes = []) ∧
    (sys.up = true ∧ (5, 1) ∉ sys.seenPackets ∧ (5, 1) ∈ ({ sys with seenPackets := [(5, 1)] } : State).seenPackets) ∧
    (let s := { sys with unsent := [unsentAccess] }
     (575 < 576 ∧ (5 : Word) ≠ 0 ∧ knownInc s 575 = 0) ∧ (5, 1) ∉ s.seenPackets ∧ knownInc s 5 = 0 ∧ unsentAccess ∈ s.unsent ∧
       unsentAccess.1 = 5) ∧
    (let k := cmd .copy (.remoteWait 5 0) 0
     let s := { sys with cmds := [k], probes := [5] }
     5 ∈ s.probes ∧ s.unsent = [] ∧ s.cmds = [k] ∧ k.kind = .copy) ∧
    (sys.cmds = [] ∧ sys.moves = [] ∧ sys.nodes = []) ∧
    (({ sys with seenPackets := [(5, 1)] } : State).up = true ∧ (request.src, request.num) ∈ ({ sys with seenPackets := [(5, 1)] } : State).seenPackets) ∧
    (sys.up = true ∧ (request.src, request.num) ∉ sys.seenPackets ∧ stackOk 0x100 = true ∧ request.inc = sys.incarnation ∧
      ({ request with inc := 2 } : RemoteReq).inc ≠ sys.incarnation) := by
  refine ⟨?_, ?_, ?_, ?_, ?_, ?_, ?_, ?_, ?_, ?_⟩ <;> decide +kernel

/-- A packet that is no abort. -/
theorem witness_Fabric_packet : ∀ a b m, Out.probe 5 1 ≠ .abort a b m := by intro a b m h; cases h

/-- A snapshot whose stream is under way. -/
def streamed : Snapshot := { (default : Snapshot) with rcb := 0x1000, streaming := true }

/-- A region to be recorded, ADMITTED. -/
def recorded : Region := { region with ckpt := true }

theorem witness_PackageEvents : (∃ n, isSource n = true) ∧
    (∃ n, isSource n = true ∧ sys.errWarned = false ∧ ({ sys with errThreshold := 0 } : State).errThreshold ≤ errorCount sys n ∧
      ({ sys with regions := [] } : State).regions = []) ∧
    ({ sys with now := 2 ^ 30 } : State).errStart + 2 ^ 30 ≤ ({ sys with now := 2 ^ 30 } : State).now ∧
    (∃ n, let s := { sys with errThreshold := 0, regions := [recorded], snapshots := [streamed] }
      isSource n = true ∧ s.errWarned = false ∧ s.errThreshold ≤ errorCount s n ∧ s.regions = [recorded] ∧ recorded.parent = 0 ∧
        recorded.ckpt = true ∧ recorded.st = .admitted ∧ ∃ m ∈ s.snapshots, m.root = 0) ∧
    (sys.refreshAt = none ∧ sys.lastRefresh ≠ some sys.now) ∧
    ({ sys with snapshots := [streamed] }.snapshots.find? (fun m => m.root = streamed.root) = some streamed ∧ streamed.streaming = true) ∧
    sys.incarnation.toNat < 2 ^ 32 - 1 :=
  ⟨⟨0, by decide +kernel⟩, ⟨0, by decide +kernel⟩, by decide, ⟨0, by decide +kernel⟩, by decide +kernel, by decide +kernel, by decide⟩

/-- The first stack's refresh is due at the time it began; a second refresh in its cycle, and one before any, are not. -/
theorem witness_PackageEvents_refresh :
    (let s := { sys with refreshAt := some 5, now := 5 }
     s.refreshAt = some 5 ∧ s.lastRefresh ≠ some s.now ∧ (0 : Nat) < 12 ∧ (s.now - 5) % Config.trefi = 0 * Config.trefi / 12) ∧
    (let s := { sys with lastRefresh := some 0 }
     s.lastRefresh = some s.now) ∧ (12 ≤ 12 ∧ sys.refreshAt = none ∧ (11 : Nat) ≠ 0) := by
  refine ⟨⟨rfl, by decide, by decide, by simp⟩, by decide, by decide⟩

/-- A host message on port 0: its type, the next host number, its payload. -/
def hostMsg (type : Nat) (payload : List Byte) : HostMsg :=
  { port := 0, asid := 1, hdr := BitVec.ofNat 512 (type + payload.length * 2 ^ 16 + 2 ^ 32), payload := payload, ecn := false }

/-- The package with that port's control connection, its region's RCB in ASID 1. -/
def served : State := { paged with control := [(0, 1, 2, 4096)], regions := [{ region with rcbAsid := 1 }] }

/-- Every message type with its payload, an RCB of a region and of none. Whose
signature verifies is opaque (log 5), so that no bytes can be shown to be a manifest: a RESTORE here finds none. -/
theorem witness_HostMessages :
    (∀ p ∈ [(0x01, 0x1000, 8), (0x02, 0x1000, 8), (0x02, 0x2000, 8), (0x03, 0x1000, 8), (0x04, 7, 4), (0x05, 7, 4), (0x06, 0, 40), (0x07, 2 ^ 55, 8)],
      let m := hostMsg p.1 (bytesOf p.2.2 p.2.1)
      served.up = true ∧ (m.port, m.asid, 2, 4096) ∈ served.control ∧ m.ecn = false ∧ served.launching = none ∧ served.waitingMsgs = [] ∧
        BitVec.ofNat 32 (msgHseq m) = served.hostA + 1 ∧ msgOk m = true ∧ msgType m = p.1) ∧
    regionByRcb (accepted served (hostMsg 2 (bytesOf 8 0x1000))) 1 0x1000 = some 0 ∧
    regionByRcb (accepted served (hostMsg 2 (bytesOf 8 0x2000))) 1 0x2000 = none ∧
    natOfBytes ((bytesOf 40 0).drop 32) < 2 ^ 56 ∧
    (let r : DevMsg := { type := 0x83, dseq := 1, hseq := 1, status := 0, payload := [] }
     let s := { served with hostA := 1, responses := [r] }
     let m := hostMsg 4 (bytesOf 4 7)
     BitVec.ofNat 32 (msgHseq m) = s.hostA ∧ s.responses.find? (fun d => d.hseq.toNat = msgHseq m) = some r ∧ msgType m = 0x04) ∧
    (msgOk (hostMsg 4 []) = false ∧ msgType (hostMsg 4 []) = 0x04) ∧
    (served.up = true ∧ served.launching = none ∧ served.waitingMsgs = [] ∧ regionByRcb served 1 0x1000 = some 0 ∧
      regionByRcb served 1 0x2000 = none) ∧
    (restore (accepted served (hostMsg 7 (bytesOf 8 (2 ^ 55)))) 1 (2 ^ 55)).isOk = false ∧
    typeLen (msgType (hostMsg 0x7F [])) = none ∧
    (let s := { served with
       tasks := [task, { task with uid := 2, st := .parked }], regions := served.regions ++ [{ region with suspended := true, rcb := 0x2000 }] }
     (∃ t ∈ s.tasks, t.region ∈ subtree s 0 ∧ t.st = .running) ∧ (∃ t ∈ s.tasks, t.region ∈ subtree s 0 ∧ t.st = .parked) ∧
       getCtx s ⟨0, 0⟩ = some slice ∧ slice.region ∈ subtree s 0 ∧ 1 < s.regions.length ∧ 1 ∉ subtree s 0 ∧
       (getRegion s ({ task with region := 1, st := .parked } : Task).region).suspended = true) := by
  refine ⟨?_, ?_, ?_, ?_, ?_, ?_, ?_, ?_, ?_, ?_⟩ <;> decide +kernel

/-- The places of an attestation report's 30,096 bytes can be written. -/
theorem witness_HostMessages_report : (walkPlaces (monitorCmd served 1) true (pagePieces (30096 / 4096 + 2) 0 30096) served).isSome = true := by
  decide +kernel

/-- The report that ATTEST writes has 30,096 bytes, so the write of it succeeds. -/
theorem witness_HostMessages_attest : ∃ t, monitorWrite (accepted served (hostMsg 6 (bytesOf 40 0))) 1 0
    (report (accepted served (hostMsg 6 (bytesOf 40 0))) (bytesOf 40 0)) = some t := by
  have hb : ∀ n v, (bytesOf n v).length = n := fun n v => by simp [bytesOf, unpackW]
  have hl : (report (accepted served (hostMsg 6 (bytesOf 40 0))) (bytesOf 40 0)).length = 30096 := by
    simp [report, reportBody, signature, shake256, hb]
  have hw : (walkPlaces (monitorCmd (accepted served (hostMsg 6 (bytesOf 40 0))) 1) true (pagePieces (30096 / 4096 + 2) 0 30096)
      (accepted served (hostMsg 6 (bytesOf 40 0)))).isSome = true := by decide +kernel
  unfold monitorWrite
  rw [hl]
  obtain ⟨p, hp⟩ := Option.isSome_iff_exists.mp hw
  simp only [hp]
  exact ⟨_, rfl⟩

/-- An RDMA operation on a queue pair that stands, at the last address and beyond 56 bits. -/
def rdma (va : Nat) : RdmaOp := { port := 11, qp := 5, asid := 1, va := va, data := [1], len := 4, ecn := false }

theorem witness_ConnectionsAndRdma : sys.up = true ∧ (3 : Nat) < 4 ∧ (∀ c ∈ sys.control, c.1 ≠ 3) ∧ portQps sys 3 < 256 ∧
    (4 : Nat) ≤ 4 ∧ (∃ c ∈ served.control, c.1 = 0) ∧ (BitVec.ofNat 64 (controlService + 1)) ≠ BitVec.ofNat 64 controlService ∧
    (11 : Nat) < 12 ∧ (5 : Nat) ≠ 1 ∧ portQps sys 11 < 256 ∧ (∀ q ∈ sys.qps, q.1 = 11 → q.2.1 ≠ 5) ∧
    (let s := { sys with qps := (List.range 256).map fun n => (11, n + 5, 1, 1024) }
     256 ≤ portQps s 11 ∧ ∃ q ∈ s.qps, q.1 = 11 ∧ q.2.1 = 5) ∧
    alGet ({ sys with pfc := [(2, 3)] } : State).pfc 2 = some 3 ∧
    (let s := { sys with qps := [(11, 5, 1, 4096)] }
     (∃ mtu, ((rdma 0).port, (rdma 0).qp, (rdma 0).asid, mtu) ∈ s.qps) ∧ portHeld s 11 5 = false ∧
       portHeld { s with paused := [11] } 11 5 = true) ∧ (rdma 0).ecn = false ∧
    ({ rdma 0 with ecn := true } : RdmaOp).ecn = true ∧ 2 ^ 56 ≤ (rdma (2 ^ 56)).va ∧ (rdma (2 ^ 56 - 1)).va < 2 ^ 56 := by
  refine ⟨?_, ?_, ?_, ?_, ?_, ?_, ?_, ?_, ?_, ?_, ?_, ?_, ?_, ⟨⟨4096, ?_⟩, ?_⟩, ?_, ?_, ?_⟩ <;> decide +kernel

/-- Every case of a source: a dead queue in either mode, an empty one, a head that has not landed, one that has; the latches. -/
def sources : Ctx :=
  { slice with s := (slice.s.setIfInBounds 30 { dead := false, entries := [] }).setIfInBounds 31
                 { dead := false, entries := [{ id := 1, val := none, carry := [] }] }
               latches := (slice.latches.setIfInBounds 6 (.scalar 4)).setIfInBounds 7 (.vector 9) }

theorem witness_OperandReads : (getQueue sources .s 0).dead = true ∧ strict sources = false ∧
    strict { sources with hdr := sources.hdr ||| BitVec.ofNat 512 (2 ^ 28) } = true ∧
    getQueue sources .s 30 = { dead := false, entries := [] } ∧
    (getQueue sources .s 31).entries.head?.map (·.val) = some none ∧
    (getQueue sources .s 2).entries.head?.map (·.val) = some (some (.s 3)) ∧
    (0x40 : BitVec 8).getLsbD 6 = true ∧ (0x80 : BitVec 8).getLsbD 7 = true ∧ 32 ≤ (39 : BitVec 8).toNat % 64 ∧
    sources.latches.toList.getD 6 .lost = .scalar 4 ∧ sources.latches.toList.getD 7 .lost = .vector 9 ∧
    sources.latches.toList.getD 0 .lost = .lost ∧ (readSel sources 2 .s).isOk = true ∧ (readSel sources 1 .v).isOk = true := by
  refine ⟨?_, ?_, ?_, ?_, ?_, ?_, ?_, ?_, ?_, ?_, ?_, ?_, ?_, ?_⟩ <;> decide +kernel

theorem witness_VectorFrame : ∃ (t u : State), formOf (.vadd (vab 2)) = some (.v 1 (vab 2)) ∧ exec (.vadd (vab 2)) (with' issuing) = .next t ∧
    formOf (.kcclr v0) = some (.k 11 v0) ∧ exec (.kcclr v0) (with' issuing) = .next u ∧
    executes issuing (vab 2).pred (vab 2).psense = true ∧ executes issuing 0 true = false :=
  ⟨_, _, rfl, rfl, rfl, rfl, by decide +kernel, by decide +kernel⟩

/-- A hart's turn at a 32-bit and at a 16-bit instruction. -/
def hartTurnSys : State := { sys with todo := [.inr ⟨⟨0, 0⟩, .loader⟩] }
def shortHart : Hart := { hart with code := bytesOf 2 0x0505 }

theorem witness_StepRunsTheDecodedInstruction :
    (∃ t, exec (.bundleIssue ⟨0, 0⟩) sys = .next t ∧ t.ops.length ≤ 6) ∧
    (∃ t u, exec .timebaseAdvance sys = .next t ∧ t.ops = [] ∧ Turns t u) ∧
    (∃ x, Issues { ({ sys with todo := [.inl (.bundleIssue ⟨0, 0⟩)] } : State) with todo := [] } ⟨0, 0⟩ slice x 0x099400D9 parcels present
      (offers slice 0x099400D9 present)) ∧
    (let s := { with' issuing with ops := [.nop c0] }
     s.ops ≠ [] ∧ s.ops.length ≤ 6 ∧ ∃ v, Turns s v) ∧
    (getCtx hartTurnSys ⟨0, 0⟩ = some slice ∧ getHart slice .loader = some hart ∧ hartsRun slice = true ∧ hart.st = .running ∧
      hart.nextIssue ≤ hartTurnSys.now ∧ (getCore hartTurnSys 0).gated = false ∧
      hart.code.drop hart.pc.toNat = bytesOf 4 (0x00B50633 : Word).toNat ++ [] ∧ (0x00B50633 : Word).extractLsb' 0 2 = 3 ∧
      hart.loads = []) ∧
    (shortHart.code.drop shortHart.pc.toNat = bytesOf 2 (0x0505 : BitVec 16).toNat ++ [] ∧
      (0x0505 : BitVec 16).extractLsb' 0 2 ≠ 3) := by
  refine ⟨⟨_, rfl, by decide +kernel⟩, ⟨_, _, rfl, rfl, Turns.done _ rfl⟩, witness_BundleIssue, ⟨by decide, by decide, ?_⟩, ?_, ?_⟩
  · exact ⟨with' issuing, Turns.more _ (with' issuing) _ (.nop c0) [] rfl (by rfl) (.inl rfl) (Turns.done _ rfl)⟩
  · decide +kernel
  · decide +kernel

/-- A hart's turn at a 32-bit instruction runs to its next state. -/
theorem witness_StepRunsTheDecodedInstruction_hart :
    ∃ t, exec (resolveHart hart (decodeHart 0x00B50633)) { hartTurnSys with todo := [], cur := ⟨0, 0⟩, curHart := some .loader } = .next t ∧
      t.ops = [] ∧ getHart slice .loader = some hart := ⟨_, rfl, rfl, rfl⟩

theorem witness_EncodingRoundTrip : ∃ (i j h : Instr) (x y : SlotForm) (w t : Word), i.wf = true ∧ formOf i = some x ∧ j.wf = true ∧
    formOf j = some y ∧ h.wf = true ∧ encodeHart h = some w ∧ templateIllegal t = false ∧ presentSlots t = [x.slot, y.slot] :=
  ⟨.addi { c0 with dst := 1, srcA := 1, imm := 1 }, .vadd { v0 with srcA := 1, srcB := 2, dst := 4, type := 10 },
    .hartInstruction (.op .add 12 10 11) 4, _, _, _, 0x099400D9, by decide, rfl, by decide, rfl, by decide, rfl, by decide, by decide⟩

/-- The fault is reached with no slice in the context. -/
theorem witness_NothingIsRefused : ∃ e, exec (.add cab) State.reset = .fault e := ⟨.emptyContext, by rfl⟩

theorem witness_WriteThenRead : sys.memWf = true ∧ Space.hbm ≠ Space.scratch 0 ∧ (0 < (5 : Nat) ∨ 5 + 2 ≤ 0) := by decide +kernel

theorem witness_StepKeepsMemories : ∃ t, sys.memWf = true ∧ step sys = .next t ∧ State.reset.memWf = true :=
  ⟨_, by decide +kernel, rfl, by decide +kernel⟩

/-- A header without a loader, and one with 64 bytes of loader code. -/
theorem witness_ResetState : hdrLi 0 = 0 ∧ (freshCtx default (BitVec.ofNat 512 (64 * 2 ^ 320)) 0).loader.isSome = true := by
  decide +kernel

/-! Witnesses of further clauses. -/

/-- A `copya` of the slice, queued, in scope 1 (the cluster) or 2 (the die). -/
def syncing (scope : Nat) : Cmd := { cmd .copya .queued (BitVec.ofNat 512 (scope * 2 ^ 364)) with agent := .ctx 1 }

theorem witness_GuardsTagsBarriers_earlier :
    (∀ die : Bool, syncsBefore (before tagged) (.ctx tagged.task) (if die then 2 else 1) = []) ∧
    (∀ die : Bool, let scope := if die then 2 else 1
      let s := { before tagged with cmds := [syncing scope] }
      syncsBefore s (.ctx tagged.task) scope ≠ [] ∧ (undone s tagged).held = none) := by decide +kernel

theorem witness_CodeswAndCommit_end : Here (with' issuing) issuing ∧ issuing.issue = some issue ∧ issue.detach = false ∧
    ({ issue with detach := true } : Issue).detach = true := ⟨here _, rfl, rfl, rfl⟩

/-- A slice whose two harts run. -/
theorem witness_HartDeviceAndCalls_other : ∀ st ∈ [HartState.running, .halted],
    let x := { slice with storer := some { hart with st := st } }
    HartHere (with' x) x .loader hart ∧ getHart x .storer = some { hart with st := st } := by
  intro st h; exact ⟨⟨here _, rfl, rfl⟩, rfl⟩

/-- v queue 30: dead, with room, full, its head not landed; the last 64-byte aligned 512 bytes of the window. -/
def vq (q : Queue) : Ctx := { slice with v := slice.v.setIfInBounds 30 q }
def deadQ : Queue := { dead := true, entries := [] }
def flying : Queue := { dead := false, entries := [{ id := 1, val := none, carry := [] }] }
def strictly (x : Ctx) : Ctx := { x with hdr := x.hdr ||| BitVec.ofNat 512 (2 ^ 28) }

theorem witness_HartTagsQueuesCommands_vectors :
    (∀ q ∈ [deadQ, live [.v 5], live [.v 5, .v 6, .v 7, .v 8], flying],
      let h := hartOf (BitVec.ofNat 32 (65536 - 512)) 30
      let x := { vq q with loader := some h }
      HartHere (with' x) x .loader h ∧ 64 ∣ hdrScratch x.hdr ∧ (getX h 11).toNat = 30 ∧ 30 < hdrVq x.hdr ∧
        refilling x ((getX h 10).toNat / 64 * 64) 512 = false ∧ getQueue x .v 30 = q) ∧
    deadQ.dead = true ∧ (live [.v 5]).entries.length < 4 ∧ 4 ≤ (live [.v 5, .v 6, .v 7, .v 8]).entries.length ∧
    (∀ e, flying.entries.head? = some e → e.val = none) ∧ strict slice = false ∧ strict (strictly slice) = true ∧
    (∀ a b, hartRead (with' slice) slice .loader a b = hartRead (with' slice) slice .loader a b) ∧
    syncsBefore sys (.hart slice.task .loader) 2 = [] ∧ syncsBefore sys (.hart slice.task .loader) 1 = [] := by
  refine ⟨?_, ?_, ?_, ?_, ?_, ?_, ?_, fun _ _ => rfl, ?_, ?_⟩
  · intro q h
    simp only [List.mem_cons, List.not_mem_nil, or_false] at h
    rcases h with rfl | rfl | rfl | rfl <;> exact ⟨⟨here _, rfl, rfl⟩, by decide +kernel⟩
  · decide
  · decide
  · decide
  · intro e h; cases h; rfl
  all_goals decide +kernel

/-- A barrier change that waits for a command, and one that waits for nothing any more. -/
def waitingPub (n : Nat) : Publication := { id := 9, agent := .ctx 1, insts := [], writes := [], arrive := some ((true, 0, 7), n), after := [5] }

theorem witness_WaitEnds_order :
    (let s := { sys with pubs := [waitingPub 0], cmds := [{ syncing 2 with id := 5 }] }
     s.pubs.find? (fun q => q.id = 9) = some (waitingPub 0) ∧ (waitingPub 0).after ≠ [] ∧
       ∃ i ∈ (waitingPub 0).after, (∃ q ∈ s.pubs, q.id = i) ∨ ∃ q ∈ s.cmds, q.id = i ∧ effectsMade q = false) ∧
    (∀ n < 2, let s := { sys with pubs := [waitingPub n], cmds := [{ syncing 2 with id := 5, st := .ending }] }
     s.pubs.find? (fun q => q.id = 9) = some (waitingPub n) ∧ (waitingPub n).arrive = some ((true, 0, 7), (n : Int)) ∧ (0 : Int) ≤ n ∧
       ∀ i ∈ (waitingPub n).after, (∀ q ∈ s.pubs, q.id ≠ i) ∧ ∀ q ∈ s.cmds, q.id = i → effectsMade q = true) := by
  refine ⟨⟨by decide +kernel, by decide, 5, by decide, .inr ⟨_, List.mem_singleton.mpr rfl, rfl, rfl⟩⟩, fun n _ => ⟨rfl, rfl, Int.natCast_nonneg n, ?_⟩⟩
  intro i h
  simp only [waitingPub, List.mem_singleton] at h
  subst h
  simp [waitingPub, effectsMade]

/-- A half of another format; a lead whose held fault stands already; a partner whose half has waited its time. -/
theorem witness_MatrixSteps_abandon :
    (let h := { half with fmt := 0x1B }
     let s := pairSys (some { h with spans := stepCycles h.fmt / 8 }) [pairWork] []
     getCtx s ⟨0, 0⟩ = some (leadSlice (some { h with spans := stepCycles h.fmt / 8 }) [pairWork]) ∧
       wholeHalf { h with spans := stepCycles h.fmt / 8 } = true ∧ pairKey h.fmt ≠ pairKey pairWork.fmt ∧
       formedPair (leadSlice (some h) [pairWork]) = some pairWork ∧ ∀ q ∈ ({ slice with task := 2 } : Ctx).mq.drop 1, q.formed = none) ∧
    (let y := { slice with task := 2, mq := [pairWork], held := some fault }
     let s := { pairSys none [] [] with slots := [(⟨0, 0⟩, leadSlice none []), (⟨8, 0⟩, y)] }
     leads 0 = true ∧ (8 : Nat) = partnerCore 0 ∧ partnerCtx s ⟨0, 0⟩ (leadSlice none []) = some ⟨8, 0⟩ ∧ pairWork.formed = some 0 ∧
       0 + 65536 ≤ s.now ∧ formedPair y = some pairWork ∧ partnerCtx s ⟨8, 0⟩ y = some ⟨0, 0⟩ ∧ y.held.isSome = true) := by
  decide +kernel

/-- A task that no core of its die can take, for its header asks for more scratchpad than a core has. -/
def large : Task := { readyTask with uid := 6, index := 4, deadline := 9, preempted := true, hdr := hdr + BitVec.ofNat 512 (2 ^ 32 * 400000) }

theorem witness_StartPlacementArbiter_passedOver :
    (∀ l ∈ [[], [((⟨0, 0⟩ : CtxId), 6)]], let s := { sys with tasks := [task, large, { readyTask with deadline := 10 }], reserved := l }
     let u := { readyTask with deadline := 10 }
     sortBy (ranksBefore (lapse s)) ((lapse s).tasks.filter fun q => q.die = 0 && isCandidate (lapse s) q) = [large, u] ∧
       getTask (lapse s) 6 = some large ∧ large.st = .ready ∧ findSpot (lapse s) large = none ∧ getTask (lapse s) u.uid = some u ∧
       (findSpot (lapse s) u).isSome = true ∧ ((∃ r ∈ (lapse s).reserved, r.2 = 6) ∨
         victim (lapse s) 0 (getRegion (lapse s) large.region).prio = none)) ∧
    victim (lapse sys) 0 3 = some ⟨0, 0⟩ ∧
    (let s := { sys with tasks := [task, { large with region := 1 }], regions := [region, { region with prio := 3 }] }
     let t := { large with region := 1 }
     sortBy (ranksBefore (lapse s)) ((lapse s).tasks.filter fun q => q.die = 0 && isCandidate (lapse s) q) = [t] ∧
       getTask (lapse s) 6 = some t ∧ findSpot (lapse s) t = none ∧ (∀ r ∈ (lapse s).reserved, r.2 ≠ 6) ∧
       victim (lapse s) t.die (getRegion (lapse s) t.region).prio = some ⟨0, 0⟩) := by
  decide +kernel

theorem witness_TimeAndCycles_task : task.spawned = none ∧ ({ task with spawned := some 5 } : Task).spawned = some 5 := by decide

theorem witness_WalksAndUnits_first :
    (let k := { cmd .copy .pushWait pushRec with buf := List.replicate 512 0, record := pushRec - BitVec.ofNat 512 (512 * 2 ^ 128) }
     getCmd (holding k) 9 = some k ∧ checkCurrent (withSt (holding k) k .active) { k with st := .active } = none ∧ pushesEntries k = true ∧
       unitsOf k = k.index + 1 ∧ 512 * (k.index + 1) ≤ k.buf.length ∧ k.target = 0 ∧
       targetCtx (withSt (holding k) k .active) { k with st := .active } (dDaddr k.record) = some ⟨0, 0⟩ ∧
       bits (dDaddr k.record) 4 0 < hdrVq slice.hdr ∧ hasRoom slice .v (bits (dDaddr k.record) 4 0) = true) ∧
    (let k := { cmd .copyf .wordWait (BitVec.ofNat 512 (0x100 + 0x200 * 2 ^ 64 + 8 * 2 ^ 128)) with trans := [leaf] }
     getCmd (holding k) 9 = some k ∧ k.index = 0 ∧ unitsOf k = 1 ∧
       checkCurrent (withSt (holding k) k .active) { k with st := .active } = none) ∧
    (let k := { cmd .copya .active atomRec with trans := [leaf] }
     k.stored = false ∧ (dMode k.record).testBit 8 = false) := by
  refine ⟨?_, ?_, ?_⟩ <;> decide +kernel

/-- A `copyf` of two words at its second, its words as each mode wants them, and what it has before it as it goes on. -/
def wordCmd (mode : Nat) : Cmd := { cmd .copyf .wordWait (wordRec mode) with index := 1, trans := [leaf] }
def wordSys (mode : Nat) : State := if mode = 0 then holding (wordCmd mode) else { holding (wordCmd mode) with full := [0x2000108] }
def wordRun (mode : Nat) : State := withSt (wordSys mode) (wordCmd mode) .active
def wordOn (mode : Nat) : Cmd := { wordCmd mode with st := .active }
def wordTook (mode : Nat) : List Byte × State := readNewest (wordRun mode) (.cmd 9) .hbm 0x2000108 8
def wordKept (mode : Nat) (s : State) : State := modCmd s 9 fun q => { q with buf := (wordTook mode).1 }

set_option exponentiation.threshold 600 in
set_option maxRecDepth 100000 in
theorem witness_WalksAndUnits_words :
    (∀ mode < 3, getCmd (wordSys mode) 9 = some (wordCmd mode) ∧ laneFree (wordSys mode) (wordCmd mode).cluster = true ∧
      isPush (wordCmd mode).record = false ∧ (wordCmd mode).stored = false ∧ (wordCmd mode).index / perRun (wordCmd mode) = 0 ∧
      8 * ((wordCmd mode).index % perRun (wordCmd mode)) = 8) ∧
    sourcePlaces (wordRun 0) (wordOn 0) 0 8 8 = (.ok [(.hbm 0x2000108, 8)], wordRun 0) ∧
    sourcePlaces (wordRun 1) (wordOn 1) 0 8 8 = (.ok [(.hbm 0x2000108, 8)], wordRun 1) ∧
    sourcePlaces (wordRun 2) (wordOn 2) 0 8 8 = (.ok [(.hbm 0x2000108, 8)], wordRun 2) ∧
    destPlaces (wordRun 0) (wordOn 0) 0 8 8 = (.ok [(.hbm 0x2000208, 8)], wordRun 0) ∧
    destPlaces (wordRun 1) (wordOn 1) 0 8 8 = (.ok [(.hbm 0x2000208, 8)], wordRun 1) ∧
    destPlaces (wordRun 2) (wordOn 2) 0 8 8 = (.ok [(.hbm 0x2000208, 8)], wordRun 2) := by
  refine ⟨by decide +kernel, rfl, rfl, rfl, rfl, rfl, rfl⟩

set_option exponentiation.threshold 600 in
set_option maxRecDepth 100000 in
/-- The destination stands as the word is taken. -/
theorem witness_WalksAndUnits_goesTo :
    (let u := (readPlaces (wordOn 0) (wordOn 0).answers [(.hbm 0x2000108, 8)] (wordRun 0)).2
     destPlaces u (wordOn 0) 0 8 8 = (.ok [(.hbm 0x2000208, 8)], u)) ∧
    (let u := wordKept 1 (setFull (wordTook 1).2 0x2000108 false)
     destPlaces u (wordOn 1) 0 8 8 = (.ok [(.hbm 0x2000208, 8)], u)) ∧
    (let u := wordKept 2 (wordTook 2).2
     destPlaces u (wordOn 2) 0 8 8 = (.ok [(.hbm 0x2000208, 8)], u)) :=
  ⟨rfl, rfl, rfl⟩

set_option exponentiation.threshold 600 in
set_option maxRecDepth 100000 in
theorem witness_WalksAndUnits_atomic :
    let k := { cmd .copya .active atomRec with trans := [leaf] }
    let s2 := (readPlaces k k.answers [(.hbm 0x2000100, 4)] (holding k)).2
    elementPlaces (holding k) k = (.ok ([(.hbm 0x2000100, 4)], [(.hbm 0x2000200, 4)], []), holding k) ∧
      targetPlaces s2 k = (.ok [(.hbm 0x2000200, 4)], s2) ∧
      (placesAt s2 k (addrAt (dDaddr k.record) (runOffset k.record true 0 + 0)) 4 false).1 = .ok [(.hbm 0x2000200, 4)] :=
  ⟨rfl, rfl, rfl⟩

/-- A query's delivery, the record found on another package, and on none; a `pvsnap` at its record. -/
theorem witness_TimeoutsAndRecords_more :
    (∀ r ∈ [none, some (5, 0), some (5, 3)],
      let k := { cmd .aqry (.targetWait 0) queryRec with shared := true, root := r }
      let s := { holding k with now := 65536 }
      getCmd s 9 = some k ∧ k.shared = true ∧ isWin (qDest k.record) = true ∧ k.index = 0 ∧ targetCtx s k (qDest k.record) = none) ∧
    (∀ n ∈ [65534, 65535],
      let f : Flight := { id := 3, due := 0, queue := some (.s, 31), latch := 7, val := .s 0, view := false }
      let x := { slice with snap := none, flights := [f] }
      let s := { with' x with partOps := [(2, 0, .snapshot 1 8)], parts := [(2, { (default : PartRec) with rd0 := n, cur := false })], now := 1 }
      s.partOps = [(2, 0, .snapshot 1 8)] ∧ 0 < s.now ∧ s.cmds = [] ∧ ctxOfTask s 1 = some ⟨0, 0⟩ ∧ getCtx s ⟨0, 0⟩ = some x ∧
        readers (getPart s 2) (getPart s 2).cur = n ∧
        x.flights.find? (fun g => g.due = 0 && decide (2 ≤ g.latch)) = some f) ∧
    (let x := { slice with snap := some (4, false) }
     let s := { with' x with parts := [(2, { (default : PartRec) with rd0 := 65535, cur := false })] }
     let r := (x.snap.map fun v => releaseReader (getPart s 2) v.2).getD (getPart s 2)
     readers r r.cur = 65534) := by
  refine ⟨?_, ?_, ?_⟩
  · decide +kernel
  · decide +kernel
  · decide +kernel
/-- The frame of the first 32 MiB as its table entry has it, shared or not. -/
def framed (owner shares size : Nat) : State := { paged with frames := [(0x2000, { owner := owner, shares := shares, size := size })] }

/-- An entry that stays on its frame, one set where none was, one given up whose frame another leaf maps still or no more. -/
theorem witness_MemoryService_frames :
    (framesUnder paged 1 0x200000F = [(0x2000000, 2 ^ 25)] ∧ framesUnder paged 1 0x200002F = [(0x2000000, 2 ^ 25)] ∧
      framesUnder paged 1 (hbmNat paged 0x4008 8) = [] ∧ framesUnder paged 1 0x400000F = [(0x4000000, 2 ^ 25)] ∧ teV 0 = false ∧
      framesUnder paged 1 (hbmNat paged 0x4000 8) = [(0x2000000, 2 ^ 25)] ∧ (getFrame paged 0x2000000).shares ≤ 1 ∧
      installOk paged (getAsid paged 1).owner 1 0 = true) ∧
    (∀ n ∈ [1, 2], let s := framed 1 n (2 ^ 25)
      (getFrame s 0x2000000).owner = (getAsid s 1).owner ∧ (getFrame s 0x2000000).size = 2 ^ 25 ∧
        (getFrame s 0x2000000).shares = n) := by
  decide +kernel

/-- A move that its home has aborted, the abort's packet not yet acknowledged; one that a participant has heard aborted before its
prepare; the abort of a move that this package knows nothing of. -/
theorem witness_Moves_aborts :
    (∀ w ∈ [[1], [1, 2]], let v := homeMove w (some false)
      let p : Packet := { pkg := 1, num := 4, link := none, what := .abort 1 4 v.msg }
      let s := { moving v with packets := [p] }
      s.up = true ∧ (1, 5) ∉ s.seenPackets ∧ getMove s s.pkg 3 = some v ∧ v.atHome = true ∧
        s.packets.find? (fun q => q.pkg = 1 && q.num = 4) = some p ∧ p.what = .abort 1 4 v.msg ∧
        (∀ k ∈ s.cmds, awaited k ≠ some (1, 4))) ∧
    (let v := { homeMove [] (some false) with atHome := false }
     getMove (moving v) 0 3 = some v ∧ v.decided ≠ none) ∧
    (let m := { moveMsg 0 with home := 2 }
     sys.up = true ∧ (1, 5) ∉ sys.seenPackets ∧ getMove sys m.home m.id = none ∧ m.home ≠ sys.pkg) := by
  refine ⟨?_, ?_, ?_⟩ <;> decide +kernel

/-- The piece's first chunk, of a sum and of online softmax, and the second chunk of a record. -/
def mergeOf (n : Nat) : Cmd := { mergeCmd with index := n, buf := if n = 0 then [] else List.replicate 16 0 }
def pieceOf (op : Nat) : Piece := { piece with view := { viewOf with size := 1024, op := op }, bytes := List.replicate 1024 0 }

theorem witness_MergesAndQueries_chunks :
    (∀ op ∈ [0, 10], ∀ n < 2, let s := { holding (mergeOf n) with pieces := [pieceOf op], tasks := [] }
      getPiece s 4 = some (pieceOf op) ∧ mergeable s (pieceOf op) = true ∧ (getRegion s (pieceOf op).region).mergeDead = false ∧
        (pieceOf op).cmd = some (mergeOf n).id ∧ getCmd s (mergeOf n).id = some (mergeOf n) ∧ (mergeOf n).kind = .merge ∧
        (mergeOf n).st = .active ∧ (pieceOf op).spill = none ∧ (pieceOf op).identity = false ∧
        512 * (mergeOf n).index < (pieceOf op).view.size ∧ (mergeOf n).stored = false) := by
  decide +kernel

def merging (op n : Nat) : State := { holding (mergeOf n) with pieces := [pieceOf op], tasks := [] }
def mergingOn (op n : Nat) (kept : List Byte) : State :=
  modCmd (readNewest (merging op n) (.cmd 9) .hbm (0x2000000 + 512 * n) 512).2 9 fun q => { q with buf := kept }

set_option exponentiation.threshold 600 in
set_option maxRecDepth 100000 in
theorem witness_MergesAndQueries_goesTo (kept : List Byte) :
    placesAt (merging 0 0) (mergeOf 0) (addrAt 0 0) 512 true = (.ok [(.hbm 0x2000000, 512)], merging 0 0) ∧
    placesAt (merging 10 1) (mergeOf 1) (addrAt 0 512) 512 true = (.ok [(.hbm 0x2000200, 512)], merging 10 1) ∧
    placesAt (mergingOn 0 0 kept) (mergeOf 0) (addrAt 0 0) 512 true = (.ok [(.hbm 0x2000000, 512)], mergingOn 0 0 kept) ∧
    placesAt (mergingOn 10 1 kept) (mergeOf 1) (addrAt 0 512) 512 true = (.ok [(.hbm 0x2000200, 512)], mergingOn 10 1 kept) ∧
    (placesAt (merging 0 0) (mergeOf 0) (addrAt 0 0) 512 false).1 = .ok [(.hbm 0x2000000, 512)] ∧
    (placesAt (merging 10 1) (mergeOf 1) (addrAt 0 512) 512 false).1 = .ok [(.hbm 0x2000200, 512)] :=
  ⟨rfl, rfl, rfl, rfl, rfl, rfl⟩

/-- A connection on the last control port and queue pair 0, each path MTU, and each reason to refuse one. -/
theorem witness_ConnectionsAndRdma_control :
    (let r : ConnectionRequest := { service := BitVec.ofNat 64 controlService, qp := 0, mtu := 1024 }
     r.service = BitVec.ofNat 64 controlService ∧ (∀ c ∈ sys.control, c.1 ≠ 3) ∧ portQps sys 3 < 256 ∧ r.mtu = 1024 ∧ r.qp ≠ 1 ∧
       (∀ q ∈ sys.qps, q.1 = 3 → q.2.1 ≠ r.qp) ∧ ({ r with mtu := 512 } : ConnectionRequest).mtu = 512) ∧
    (let s := { sys with qps := [(3, 0, 1, 1024)] }
     ∃ q ∈ s.qps, q.1 = 3 ∧ q.2.1 = 0) ∧
    (∃ c ∈ served.control, c.1 = 0 ∧ c.2.2.1 = 2) ∧ (∀ c ∈ served.control, c.1 = 0 → c.2.2.1 ≠ 3) ∧
    portHeld { sys with qps := [(11, 5, 1, 4096)] } 11 5 = false := by decide +kernel

/-- A slice stands and none does, a hart stands, none does, and its slice is gone: each side of where a turn faults. -/
theorem witness_NothingIsRefused_sides : (formOf (.add cab)).isSome = true ∧ getCtx sys sys.cur ≠ none ∧
    getCtx State.reset State.reset.cur = none ∧ isHartInstr .hartEcall = true ∧ sys.curHart = some .loader ∧
    getHart slice .loader = some hart ∧ State.reset.curHart = none ∧ getHart { slice with loader := none } .loader = none ∧
    formOf (.bundleIssue ⟨0, 0⟩) = none ∧ isHartInstr (.bundleIssue ⟨0, 0⟩) = false := by
  refine ⟨rfl, by decide +kernel, rfl, rfl, rfl, rfl, rfl, rfl, rfl, rfl⟩

end Sys2Proof.Tests
end

section
/-! SUPPORT. How the entries of the C slot's meanings answer when their instruction executes, the fields that a legal
C instruction leaves zero, and the statements of 07_control about scalar arithmetic, predicates and branches. -/

namespace Sys2Proof.Machine

variable {i : Instr} {s : State} {x x1 x2 x' : Ctx} {f : CFields} {a b w : Word} {o : Nat}

/-! ### Entries of the C slot -/

/-- A C instruction that executes and has its effect on the slice alone. -/
theorem leaves_of_cOp {k : Ctx → SlotRes} (hi : exec i s = cOp f s k) (h : CHere s x f) (hk : k x = .done s x') :
    Leaves i s x' :=
  hi.trans (slotOp_done h.1 h.2 hk)

/-- A C instruction whose guard is false does nothing (R81). -/
theorem exec_of_cOp_idle {k : Ctx → SlotRes} (hi : exec i s = cOp f s k) (h : Here s x)
    (hp : executes x f.pred f.psense = false) : exec i s = .next s :=
  hi.trans (slotOp_idle h hp)

/-- A C instruction with one operand, which reads. -/
theorem leaves_of_cOp_withS {k : Ctx → Word → Ctx → SlotRes}
    (hi : exec i s = cOp f s fun x => withS x f.srcA (k x)) (h : CHere s x f) (ha : readS x f.srcA = .ok (a, x1))
    (hk : k x a x1 = .done s x') : Leaves i s x' :=
  leaves_of_cOp hi h ((withS_ok ha).trans hk)

/-- A C instruction with two operands, which read one after the other. -/
theorem leaves_of_cOp_withS_withS {k : Word → Word → Ctx → SlotRes}
    (hi : exec i s = cOp f s fun x => withS x f.srcA fun a x => withS x f.srcB (k a)) (h : CHere s x f)
    (ha : readS x f.srcA = .ok (a, x1)) (hb : readS x1 f.srcB = .ok (b, x2)) (hk : k a b x2 = .done s x') :
    Leaves i s x' :=
  leaves_of_cOp_withS hi h ha ((withS_ok hb).trans hk)

/-- A scalar operation leaves the value of its function as a result of the C slot (R104). -/
theorem leaves_of_cBinary {g : Word → Word → Word} (h : CHere s x f) (ha : readS x f.srcA = .ok (a, x1))
    (hb : readS x1 f.srcB = .ok (b, x2)) (hi : exec i s = cBinary g f s) (hw : g a b = w) :
    Leaves i s (addResult x2 f.dst .s 0 1 (.s w)) :=
  leaves_of_cOp_withS_withS hi h ha hb (by rw [hw]; rfl)

/-! ### The fields of a legal C instruction -/

/-- What makes a C instruction's fields legal (R67 to R75). -/
theorem legal_c_iff : (SlotForm.c o f).legal = true ↔ (cInstr o f).isSome = true ∧
    legalSrc (usesC o).a f.srcA = true ∧ legalSrc (usesC o).b f.srcB = true ∧
    legalDstUse (usesC o).dst f.dst = true ∧ immC o f.imm.toNat = true ∧ modC o f.mod.toNat = true := by
  simp [SlotForm.legal, and_assoc]

/-- A scalar operation leaves IMM24 and MOD zero (R104). -/
theorem scalar_fields_zero (h1 : 1 ≤ o) (h2 : o ≤ 15) (hl : (SlotForm.c o f).legal = true) : f.imm = 0 ∧ f.mod = 0 := by
  obtain ⟨-, -, -, -, himm, hmod⟩ := legal_c_iff.mp hl
  suffices f.imm.toNat = 0 ∧ f.mod.toNat = 0 from ⟨BitVec.eq_of_toNat_eq this.1, BitVec.eq_of_toNat_eq this.2⟩
  interval_cases o <;> exact ⟨of_decide_eq_true himm, of_decide_eq_true hmod⟩

/-- The fields of a compare or predicate instruction (R106, R107): a predicate in DST, two predicates or one in the
immediate of a logic instruction, no immediate in `cmp` and `pmov`. -/
theorem predicate_fields (h1 : 22 ≤ o) (h2 : o ≤ 28) (hl : (SlotForm.c o f).legal = true) :
    f.dst.toNat < 8 ∧ (24 ≤ o → o ≤ 26 → f.imm.toNat < 64) ∧ (o = 27 → f.imm.toNat < 8) ∧
      (o = 22 ∨ o = 28 → f.imm = 0) := by
  obtain ⟨-, -, -, hdst, himm, -⟩ := legal_c_iff.mp hl
  have hd : f.dst.toNat < 8 := by interval_cases o <;> exact of_decide_eq_true hdst
  refine ⟨hd, fun h3 h4 => ?_, ?_, ?_⟩
  · interval_cases o <;> exact of_decide_eq_true himm
  · rintro rfl
    exact of_decide_eq_true himm
  · rintro (rfl | rfl) <;> exact BitVec.eq_of_toNat_eq (of_decide_eq_true himm)

/-! ### Values of the scalar operations -/

theorem aluMul_eq (a b : Word) : aluMul a b = BitVec.ofNat 32 (a.toNat * b.toNat) :=
  BitVec.eq_of_toNat_eq (by simp [aluMul])

theorem aluMin_eq (a b : Word) : aluMin a b = if b.toInt < a.toInt then b else a := by
  simp only [aluMin, ← not_lt, ite_not]

theorem aluMinn_eq (a b : Word) : aluMinn a b = if b.toNat < a.toNat then b else a := by
  simp only [aluMinn, ← not_lt, ite_not]

/-- Of two equal words the model's maximum is B, and A is the same word. -/
theorem aluMax_eq (a b : Word) : aluMax a b = if a.toInt < b.toInt then b else a := by
  unfold aluMax
  rcases lt_trichotomy a.toInt b.toInt with h | h | h
  · simp [h, h.le]
  · simp [BitVec.eq_of_toInt_eq h]
  · simp [h.not_ge, h.not_gt]

theorem aluMaxn_eq (a b : Word) : aluMaxn a b = if a.toNat < b.toNat then b else a := by
  unfold aluMaxn
  rcases lt_trichotomy a.toNat b.toNat with h | h | h
  · simp [h, h.le]
  · simp [BitVec.eq_of_toNat_eq h]
  · simp [h.not_ge, h.not_gt]

/-! ### Predicates -/

/-- Every condition code says what R73 says of it. -/
theorem condWord_iff (c : Nat) (a b : Word) : condWord c a b = true ↔ condSays c a b := by
  unfold condWord condInt condSays
  split <;> simp [BitVec.toNat_eq]

/-- The bits of the predicate register after a write: the named one, unless it is p0. -/
theorem setPred_p_getLsbD (x : Ctx) {n m : Nat} (b : Bool) (hm : m < 8) :
    (setPred x n b).p.getLsbD m = if m = n ∧ n ≠ 0 then b else x.p.getLsbD m := by
  unfold setPred
  by_cases hn : n = 0
  · simp [hn]
  · have hbit : (BitVec.ofNat 8 1 <<< n).getLsbD m = decide (m = n) := by
      refine (BitVec.getLsbD_twoPow n m).trans ?_
      rw [Bool.and_eq_decide, decide_eq_decide, decide_eq_true_iff, decide_eq_true_iff]
      omega
    rw [if_neg hn]
    cases b
    · refine (BitVec.getLsbD_and ..).trans ?_
      rw [BitVec.getLsbD_not, hbit]
      by_cases h : m = n <;> simp [h, hn, hm]
    · refine (BitVec.getLsbD_or ..).trans ?_
      rw [hbit]
      by_cases h : m = n <;> simp [h, hn]

/-- Nothing but the predicate register is changed by a predicate write. -/
theorem setPred_eq (x : Ctx) (n : Nat) (b : Bool) : setPred x n b = { x with p := (setPred x n b).p } := by
  unfold setPred
  split <;> rfl

/-- An instruction that leaves one predicate written sets that predicate (R81, R106). -/
theorem setsPred_of_leaves {n : Nat} {b : Bool} {v : Prop} (hv : b = true ↔ v) (h : Leaves i s (setPred x n b)) :
    SetsPred i s x n v := by
  refine ⟨(setPred x n b).p, setPred_eq x n b ▸ h, fun m hm => ?_⟩
  rw [setPred_p_getLsbD x b hm]
  split
  · exact hv
  · rfl

/-- A predicate as an instruction of the bundle reads it; p0 reads 1 (R81). -/
theorem seenPred_iff (x : Ctx) (n : Nat) : seenPred x n = true ↔ n = 0 ∨ x.seen.p.getLsbD n = true := by
  simp [seenPred]

/-- The first predicate that an immediate names. -/
theorem immBits_first (f : CFields) : immBits f 2 0 = f.imm.toNat % 8 := by
  simp [immBits, field, bits]

/-- The second predicate that an immediate names. -/
theorem immBits_second (f : CFields) : immBits f 5 3 = f.imm.toNat / 8 % 8 := by
  simp [immBits, field, bits, Nat.shiftRight_eq_div_pow]

/-- The meaning of `pnot` as a function of the first predicate that it names (R107). -/
theorem exec_pnot : exec (.pnot f) s = cPredOp (fun p _ => !p) f s := rfl

/-- A predicate instruction sets its predicate to its function of the two predicates that it names (R107). -/
theorem setsPred_of_cPredOp {g : Bool → Bool → Bool} {v : Prop} (h : CHere s x f) (hi : exec i s = cPredOp g f s)
    (hv : g (seenPred x (f.imm.toNat % 8)) (seenPred x (f.imm.toNat / 8 % 8)) = true ↔ v) :
    SetsPred i s x (f.dst.toNat % 8) v :=
  setsPred_of_leaves hv (leaves_of_cOp hi h (by rw [immBits_first, immBits_second]; rfl))

/-! ### Branches -/

/-- The PC of the bundle being issued. -/
theorem issuePc_of_some {j : Issue} (h : x.issue = some j) : issuePc x = j.pc := by
  simp [issuePc, h]

/-- The parcels of the bundle being issued. -/
theorem issueParcels_of_some {j : Issue} (h : x.issue = some j) : issueParcels x = j.parcels := by
  simp [issueParcels, h]

/-- The PC-relative target of the bundle being issued (R110). -/
theorem relTarget_of_some {j : Issue} (h : x.issue = some j) : relTarget x f = j.pc + 4 * f.imm.signExtend 32 := by
  rw [relTarget, issuePc_of_some h, immS]

/-- The fields that branches and returns leave zero (R110). -/
theorem branch_fields (f : CFields) : ((SlotForm.c 0x21 f).legal = true → f.dst = 0 ∧ f.srcA = 0) ∧
    ((SlotForm.c 0x22 f).legal = true → f.dst = 0 ∧ f.imm = 0) ∧ ((SlotForm.c 0x23 f).legal = true → f.srcA = 0) ∧
    ((SlotForm.c 0x24 f).legal = true → f.dst = 0 ∧ f.imm = 0) := by
  refine ⟨fun hl => ?_, fun hl => ?_, fun hl => ?_, fun hl => ?_⟩ <;>
    obtain ⟨-, hsrc, -, hdst, himm, -⟩ := legal_c_iff.mp hl
  · exact ⟨of_decide_eq_true hdst, of_decide_eq_true hsrc⟩
  · exact ⟨of_decide_eq_true hdst, BitVec.eq_of_toNat_eq (of_decide_eq_true himm)⟩
  · exact of_decide_eq_true hsrc
  · exact ⟨of_decide_eq_true hdst, BitVec.eq_of_toNat_eq (of_decide_eq_true himm)⟩

/-- The meanings of `br` and `call` under their own names. -/
theorem exec_br : exec (.br f) s = execBr f s := rfl
theorem exec_call : exec (.call f) s = execCall f s := rfl

/-- A slice as `ret` leaves handler mode, both harts resumed (R317). -/
def handlerLeft (x : Ctx) : Ctx :=
  { leaveHandler x with loader := x.loader.map resumeHart, storer := x.storer.map resumeHart }

/-- `ret` outside handler mode is a transfer to the address in A (R110). -/
theorem leaves_ret_outside (h : CHere s x f) (ha : readS x f.srcA = .ok (a, x1)) (hh : x1.handler = false) :
    Leaves (.ret f) s (taken x1 (absTarget a) false) :=
  leaves_of_cOp_withS rfl h ha (by simp [hh])

/-- `ret` in handler mode also ends it (R317). -/
theorem leaves_ret_handler (h : CHere s x f) (ha : readS x f.srcA = .ok (a, x1)) (hh : x1.handler = true) :
    Leaves (.ret f) s (taken (handlerLeft x1) (absTarget a) false) :=
  leaves_of_cOp_withS rfl h ha (by simp [hh, handlerLeft])

end Sys2Proof.Machine

namespace Sys2Proof

open Machine

/-- Settles O1: every operation is one entry with its own function, whose value is that of R104. -/
theorem scalarArithmetic : Obligations.ScalarArithmetic := by
  refine ⟨fun f => rfl, fun f o => scalar_fields_zero, fun s x x1 x2 f a b h ha hb => ?_⟩
  have sets {i : Instr} {g : Word → Word → Word} {w : Word} := leaves_of_cBinary (i := i) (g := g) (w := w) h ha hb
  exact ⟨sets (g := aluAdd) rfl rfl, sets (g := aluSub) rfl rfl, sets rfl (aluMul_eq a b), sets (g := aluMulh) rfl rfl,
    sets (g := aluMulhn) rfl rfl, sets (g := aluAnd) rfl rfl, sets (g := aluOr) rfl rfl, sets (g := aluXor) rfl rfl,
    sets (g := aluShl) rfl rfl, sets (g := aluShr) rfl rfl, sets (g := aluSra) rfl rfl, sets rfl (aluMin_eq a b),
    sets rfl (aluMax_eq a b), sets rfl (aluMinn_eq a b), sets rfl (aluMaxn_eq a b)⟩

/-- Settles O3: each instruction leaves one predicate write, of its condition or of its function of two predicates. -/
theorem predicateWrites : Obligations.PredicateWrites := by
  refine ⟨fun f => rfl, fun f o => predicate_fields, fun s x f h =>
    ⟨?_, ?_, ?_, ?_, fun v x1 hv => ⟨?_, ?_, fun w x2 hw => ?_⟩⟩⟩
  · exact setsPred_of_cPredOp h rfl (by simp only [Bool.and_eq_true, seenPred_iff])
  · exact setsPred_of_cPredOp h rfl (by simp only [Bool.or_eq_true, seenPred_iff])
  · exact setsPred_of_cPredOp h rfl (by rw [bne_iff_ne, ne_eq, Bool.eq_iff_iff, seenPred_iff, seenPred_iff])
  · exact setsPred_of_cPredOp h exec_pnot (by rw [Bool.not_eq_true', ← Bool.not_eq_true, seenPred_iff])
  · exact setsPred_of_leaves bne_iff_ne (leaves_of_cOp_withS rfl h hv rfl)
  · exact setsPred_of_leaves (condWord_iff ..) (leaves_of_cOp_withS rfl h hv rfl)
  · exact setsPred_of_leaves (condWord_iff ..) (leaves_of_cOp_withS_withS rfl h hv hw rfl)

/-- Settles O5: each is a taken transfer of the bundle; `call` has its return address as a result, `ret` in handler mode
leaves it first. -/
theorem branches : Obligations.Branches := by
  refine ⟨fun f => ⟨rfl, rfl, rfl, rfl⟩, branch_fields, fun s x f h hp => ?_, fun s x f i h hi => ?_⟩
  · exact ⟨exec_of_cOp_idle exec_br h hp, exec_of_cOp_idle rfl h hp, exec_of_cOp_idle exec_call h hp,
      exec_of_cOp_idle rfl h hp⟩
  have hpc := issuePc_of_some hi
  have hrel := relTarget_of_some (f := f) hi
  refine ⟨leaves_of_cOp exec_br h ?_, leaves_of_cOp exec_call h ?_, fun a x1 ha => ⟨?_, fun hh => ?_, fun hh => ?_⟩⟩
  · simp only [hrel, hpc, taken]
  · simp only [hrel, hpc, issueParcels_of_some hi, cResult, taken]
  · exact leaves_of_cOp_withS rfl h ha rfl
  · exact leaves_ret_outside h ha hh
  · exact ⟨_, leaves_ret_handler h ha hh, rfl, rfl, rfl, rfl, fun j hj =>
      ⟨{ j with transfer := some { goal := .pc (absTarget a), dead := 3, boundary := false } },
        congrArg (Option.map _) hj, rfl⟩⟩

end Sys2Proof
end

section
/-! SUPPORT. Elements and bits of packed vectors, how the entries of the V slot's meanings answer when their
instruction executes, and the statement of 11_vector about broadcasts, bitwise instructions, shifts and movement. -/

namespace Sys2Proof.Machine

variable {i : Instr} {s : State} {x x1 x2 x3 x' y : Ctx} {f : VFields} {a b c : Vec} {u v : Word} {w lat o n m : Nat}

/-! ### Elements of packed numbers and vectors (R165) -/

/-- The bits of an element are those of its number from bit w·n. -/
@[simp] theorem testBit_elemW (w k n j : Nat) :
    (elemW w k n).testBit j = (decide (j < w) && k.testBit (w * n + j)) := by
  simp [elemW, Nat.testBit_mod_two_pow]

/-- An element that ends within a vector's bits does not see what the vector cuts off. -/
theorem elemW_ofNat {k l : Nat} (h : (n + 1) * w ≤ l) : elemW w (BitVec.ofNat l k).toNat n = elemW w k n := by
  refine Nat.eq_of_testBit_eq fun j => ?_
  rw [Nat.succ_mul, Nat.mul_comm] at h
  by_cases hj : j < w
  · have hl : w * n + j < l := by omega
    simp [hl]
  · simp [hj]

/-- Element n of packed numbers is the n-th of them. -/
theorem elemW_packW (w : Nat) (xs : List Nat) (n : Nat) : elemW w (packW w xs) n = xs.getD n 0 % 2 ^ w := by
  induction xs generalizing n with
  | nil => simp [packW, elemW]
  | cons e es ih =>
    cases n with
    | zero => simp [packW, elemW]
    | succ n =>
      have hdiv : (e % 2 ^ w + packW w es * 2 ^ w) >>> w = packW w es := by
        rw [Nat.shiftRight_eq_div_pow, Nat.add_mul_div_right _ _ (Nat.two_pow_pos w),
          Nat.div_eq_of_lt (Nat.mod_lt _ (Nat.two_pow_pos w)), zero_add]
      rw [List.getD_cons_succ, ← ih n, elemW, elemW, packW, Nat.mul_succ, Nat.add_comm (w * n),
        Nat.shiftRight_add, hdiv]

/-- Element n of a packed vector, where the vector has one, is the n-th number. -/
theorem elemW_vpackE {xs : List Nat} {k : Nat} (hn : n < 4096 / w) (hx : xs[n]? = some k) :
    elemW w (vpackE w xs).toNat n = k % 2 ^ w := by
  rw [vpackE, elemW_ofNat (Nat.mul_le_of_le_div _ _ _ hn), elemW_packW, List.getD_eq_getElem?_getD, hx, Option.getD_some]

theorem length_velems (w : Nat) (a : Vec) : (velems w a).length = 4096 / w := by
  simp [velems, unpackW]

/-- The n-th of numbers made from their positions. -/
theorem getElem?_map_range {α : Type} (g : Nat → α) (hn : n < m) : ((List.range m).map g)[n]? = some (g n) := by
  simp [hn]

theorem getElem?_velems (a : Vec) (hn : n < 4096 / w) : (velems w a)[n]? = some (elemW w a.toNat n) :=
  getElem?_map_range _ hn

/-- The n-th of numbers made from elements. -/
theorem getElem?_map_velems (g : Nat → Nat) (a : Vec) (hn : n < 4096 / w) :
    ((velems w a).map g)[n]? = some (g (elemW w a.toNat n)) := by
  rw [List.getElem?_map, getElem?_velems a hn, Option.map_some]

/-! ### Lists of elements as the movement instructions arrange them (R188, R189) -/

/-- One element replaced, as `vins` replaces it. -/
theorem getElem?_velems_set (a : Vec) (l k : Nat) (hn : n < 4096 / w) :
    ((velems w a).set l k)[n]? = some (if n = l then k else elemW w a.toNat n) := by
  by_cases h : n = l
  · subst h
    rw [List.getElem?_set_self (by rwa [length_velems]), if_pos rfl]
  · rw [List.getElem?_set_ne (Ne.symm h), getElem?_velems a hn, if_neg h]

/-- The elements in reverse, as `vrev` gives them. -/
theorem getElem?_velems_reverse (a : Vec) (hn : n < 4096 / w) :
    (velems w a).reverse[n]? = some (elemW w a.toNat (4096 / w - 1 - n)) := by
  rw [List.getElem?_reverse (by rwa [length_velems]), length_velems]
  exact getElem?_velems a (by omega)

/-- A window on two vectors laid end to end, as `vslide` takes it. -/
theorem getElem?_velems_slide (a b : Vec) {k : Nat} (hk : k ≤ 4096 / w) (hn : n < 4096 / w) :
    (((velems w a ++ velems w b).drop k).take (4096 / w))[n]? =
      some (if k + n < 4096 / w then elemW w a.toNat (k + n) else elemW w b.toNat (k + n - 4096 / w)) := by
  rw [List.getElem?_take_of_lt hn, List.getElem?_drop, List.getElem?_append, length_velems]
  split
  · exact getElem?_velems a ‹_›
  · exact getElem?_velems b (by omega)

/-- Pairs laid one after another, as `vzip` lays them. -/
theorem getElem?_flatMap_pair (p q : Nat → Nat) (hn : n < 2 * m) :
    ((List.range m).flatMap fun e => [p e, q e])[n]? = some (if n % 2 = 0 then p (n / 2) else q (n / 2)) := by
  induction m with
  | zero => omega
  | succ m ih =>
    have hlen : ((List.range m).flatMap fun e => [p e, q e]).length = 2 * m := by
      simp [List.length_flatMap, Nat.mul_comm]
    rw [List.range_succ, List.flatMap_append, List.getElem?_append, hlen]
    split
    · exact ih ‹_›
    · obtain rfl | rfl : n = 2 * m ∨ n = 2 * m + 1 := by omega
      · simp
      · have hdiv : (2 * m + 1) / 2 = m := by omega
        simp [Nat.add_mod, hdiv]

/-- Two lists of one length end to end, as `vunzip` lays them. -/
theorem getElem?_map_range_append (p q : Nat → Nat) (hn : n < 2 * m) :
    ((List.range m).map p ++ (List.range m).map q)[n]? = some (if n < m then p n else q (n - m)) := by
  rw [List.getElem?_append, List.length_map, List.length_range]
  split
  · exact getElem?_map_range p ‹_›
  · exact getElem?_map_range q (by omega)

/-- A vector of elements of one type has an even number of them. -/
theorem two_mul_half_elements {t : Nat} (ht : t < 12) : 2 * (4096 / typeWidth t / 2) = 4096 / typeWidth t := by
  interval_cases t <;> rfl

/-! ### Bit planes (R191, R192) -/

/-- Bits [hi:lo] of a number replaced, the others kept. -/
theorem testBit_putBits {hi lo : Nat} (k l j : Nat) (h : lo ≤ hi + 1) :
    (putBits k hi lo l).testBit j = if lo ≤ j ∧ j ≤ hi then l.testBit (j - lo) else k.testBit j := by
  set d := hi + 1 - lo with hd
  have hlow : k % 2 ^ lo < 2 ^ lo := Nat.mod_lt _ (Nat.two_pow_pos lo)
  have hmid : l % 2 ^ d < 2 ^ d := Nat.mod_lt _ (Nat.two_pow_pos d)
  have hput : putBits k hi lo l = 2 ^ lo * (2 ^ d * (k >>> lo / 2 ^ d) + l % 2 ^ d) + k % 2 ^ lo := by
    have hk : k = 2 ^ lo * (2 ^ d * (k >>> lo / 2 ^ d) + k >>> lo % 2 ^ d) + k % 2 ^ lo := by
      rw [Nat.div_add_mod, Nat.shiftRight_eq_div_pow, Nat.div_add_mod]
    rw [Nat.mul_add] at hk
    rw [putBits, bits, ← hd, Nat.mul_add, Nat.mul_comm _ (2 ^ lo), Nat.mul_comm _ (2 ^ lo)]
    omega
  rw [hput, Nat.testBit_two_pow_mul_add _ hlow, Nat.testBit_two_pow_mul_add _ hmid, Nat.testBit_mod_two_pow,
    Nat.testBit_mod_two_pow, Nat.testBit_div_two_pow, Nat.testBit_shiftRight]
  by_cases hjlo : j < lo
  · simp [hjlo]
  by_cases hjhi : j ≤ hi
  · have hjd : j - lo < d := by omega
    simp [hjlo, hjhi, hjd, not_lt.mp hjlo]
  · have hjd : ¬ j - lo < d := by omega
    have hsplit : lo + (j - lo - d + d) = j := by omega
    simp [hjlo, hjhi, hjd, hsplit]

/-- Bit n of a packed bit plane is the n-th bit. -/
theorem testBit_packBits (bs : List Bool) (n : Nat) : (packBits bs).testBit n = bs.getD n false := by
  have hbit : (packBits bs).testBit n = (elemW 1 (packBits bs) n).testBit 0 := by
    rw [testBit_elemW]
    simp
  rw [hbit, packBits, elemW_packW]
  rcases hb : bs[n]? with _ | _ | _ <;> simp [hb]

/-- The vector that `vplx` gives: the plane of A put into the chunk of C. -/
def planeInserted (f : VFields) (a c : Vec) : Vec :=
  BitVec.ofNat 4096 (putBits c.toNat (512 * (vimm f / 8 % 8) + 511) (512 * (vimm f / 8 % 8))
    (packBits ((velems 8 a).map fun e => e.testBit (7 - vimm f % 8))))

/-- Its bits are one bit of each element of A in the chunk, and those of C outside. -/
theorem planeInserted_getLsbD (f : VFields) (a c : Vec) (hn : n < 4096) :
    (planeInserted f a c).getLsbD n = if n / 512 = f.imm8.toNat / 8 % 8 then
      a.getLsbD (8 * (n % 512) + (7 - f.imm8.toNat % 8)) else c.getLsbD n := by
  rw [planeInserted, vimm, BitVec.getLsbD_ofNat, decide_eq_true hn, Bool.true_and, testBit_putBits _ _ _ (by omega)]
  by_cases hch : n / 512 = f.imm8.toNat / 8 % 8
  · have hoff : n - 512 * (f.imm8.toNat / 8 % 8) = n % 512 := by omega
    have hbit : 7 - f.imm8.toNat % 8 < 8 := by omega
    rw [if_pos (by omega), if_pos hch, hoff, testBit_packBits, List.getD_eq_getElem?_getD, List.getElem?_map,
      getElem?_velems a (Nat.mod_lt n (by decide)), Option.map_some, Option.getD_some, testBit_elemW,
      decide_eq_true hbit, Bool.true_and, BitVec.getLsbD]
  · rw [if_neg (by omega), if_neg hch, BitVec.getLsbD]

/-- IMM8[6] as a number's digit: the last step of `vplc`. -/
theorem imm8_getLsbD_six (f : VFields) : f.imm8.getLsbD 6 = true ↔ f.imm8.toNat / 64 % 2 = 1 := by
  simp [BitVec.getLsbD, Nat.testBit_eq_decide_div_mod_eq]

/-! ### Entries of the V slot -/

/-- A V instruction that executes and has its effect on the slice alone. -/
theorem leaves_of_vOp {k : Ctx → SlotRes} (hi : exec i s = vOp f s k) (h : VHere s x f) (hk : k x = .done s x') :
    Leaves i s x' :=
  hi.trans (slotOp_done h.1 h.2 hk)

/-- A V instruction with a first operand on the s bank, which reads. -/
theorem leaves_of_vOp_withS {k : Ctx → Word → Ctx → SlotRes}
    (hi : exec i s = vOp f s fun x => withS x f.srcA (k x)) (h : VHere s x f) (ha : readS x f.srcA = .ok (u, x1))
    (hk : k x u x1 = .done s x') : Leaves i s x' :=
  leaves_of_vOp hi h ((withS_ok ha).trans hk)

/-- A V instruction with a first operand on the v bank, which reads. -/
theorem leaves_of_vOp_withV {k : Ctx → Vec → Ctx → SlotRes}
    (hi : exec i s = vOp f s fun x => withV x f.srcA (k x)) (h : VHere s x f) (ha : readV x f.srcA = .ok (a, x1))
    (hk : k x a x1 = .done s x') : Leaves i s x' :=
  leaves_of_vOp hi h ((withV_ok ha).trans hk)

/-- `op vD, vA`. -/
theorem leaves_of_vUnary {g : Ctx → Vec → Vec} (hi : exec i s = vUnary lat g f s) (h : VHere s x f)
    (ha : readV x f.srcA = .ok (a, x1)) : Leaves i s (addResult x1 f.dst .v 4 lat (.v (g x1 a))) :=
  leaves_of_vOp_withV hi h ha rfl

/-- `op vD, vA, vB`. -/
theorem leaves_of_vBinary {g : Ctx → Vec → Vec → Vec} (hi : exec i s = vBinary lat g f s) (h : VHere s x f)
    (ha : readV x f.srcA = .ok (a, x1)) (hb : readV x1 f.srcB = .ok (b, x2)) :
    Leaves i s (addResult x2 f.dst .v 4 lat (.v (g x2 a b))) :=
  leaves_of_vOp_withV hi h ha (withV_ok hb)

/-- A bitwise instruction acts on the whole vectors (R184). -/
theorem leaves_of_vBitwise {g : Vec → Vec → Vec} (hi : exec i s = vBitwise g f s) (h : VHere s x f)
    (ha : readV x f.srcA = .ok (a, x1)) (hb : readV x1 f.srcB = .ok (b, x2)) :
    Leaves i s (addResult x2 f.dst .v 4 2 (.v (g a b))) :=
  leaves_of_vBinary hi h ha hb

/-- `op vD, vA, vB, vC`. -/
theorem leaves_of_vTernary {g : Ctx → Vec → Vec → Vec → Vec} (hi : exec i s = vTernary lat g f s)
    (h : VHere s x f) (ha : readV x f.srcA = .ok (a, x1)) (hb : readV x1 f.srcB = .ok (b, x2))
    (hc : readV x2 f.srcC = .ok (c, x3)) :
    Leaves i s (addResult x3 f.dst .v 4 lat (.v (g x3 a b c))) :=
  leaves_of_vOp_withV hi h ha ((withV_ok hb).trans (withV_ok hc))

/-! ### Results of packed elements -/

section

variable {h : Nat → Nat}

/-- A result packed from a list has the list's numbers, modulo 2^w, as its elements (R165). -/
theorem vLanes_of_vpackE {xs : List Nat} (hl : Leaves i s (addResult y f.dst .v 4 lat (.v (vpackE w xs))))
    (hx : ∀ n, n < 4096 / w → xs[n]? = some (h n)) : VLanes i s y f lat w h :=
  ⟨_, hl, fun n hn => elemW_vpackE hn (hx n hn)⟩

/-- Elements that agree modulo 2^w are the same elements. -/
theorem vLanes_congr {h' : Nat → Nat} (hh : ∀ n, h n % 2 ^ w = h' n % 2 ^ w) (hl : VLanes i s y f lat w h) :
    VLanes i s y f lat w h' :=
  hl.imp fun _ ⟨hr, he⟩ => ⟨hr, fun n hn => (he n hn).trans (hh n)⟩

/-- `op vD, vA` with a packed result. -/
theorem vLanes_of_vUnary {g : Ctx → Vec → List Nat} (hi : exec i s = vUnary lat (fun x a => vpackE w (g x a)) f s)
    (hv : VHere s x f) (ha : readV x f.srcA = .ok (a, x1))
    (hx : ∀ n, n < 4096 / w → (g x1 a)[n]? = some (h n)) : VLanes i s x1 f lat w h :=
  vLanes_of_vpackE (leaves_of_vUnary hi hv ha) hx

/-- `op vD, vA, vB` with a packed result. -/
theorem vLanes_of_vBinary {g : Ctx → Vec → Vec → List Nat}
    (hi : exec i s = vBinary lat (fun x a b => vpackE w (g x a b)) f s) (hv : VHere s x f)
    (ha : readV x f.srcA = .ok (a, x1)) (hb : readV x1 f.srcB = .ok (b, x2))
    (hx : ∀ n, n < 4096 / w → (g x2 a b)[n]? = some (h n)) : VLanes i s x2 f lat w h :=
  vLanes_of_vpackE (leaves_of_vBinary hi hv ha hb) hx

/-- `op vD, vA, vB, vC` with a packed result. -/
theorem vLanes_of_vTernary {g : Ctx → Vec → Vec → Vec → List Nat}
    (hi : exec i s = vTernary lat (fun x a b c => vpackE w (g x a b c)) f s) (hv : VHere s x f)
    (ha : readV x f.srcA = .ok (a, x1)) (hb : readV x1 f.srcB = .ok (b, x2)) (hc : readV x2 f.srcC = .ok (c, x3))
    (hx : ∀ n, n < 4096 / w → (g x3 a b c)[n]? = some (h n)) : VLanes i s x3 f lat w h :=
  vLanes_of_vpackE (leaves_of_vTernary hi hv ha hb hc) hx

end

/-- A shift by an immediate, element by element (R184). -/
theorem vLanes_of_vShiftImm {g : Nat → Nat → Nat → Nat} (hi : exec i s = vShiftImm g f s) (h : VHere s x f)
    (ha : readV x f.srcA = .ok (a, x1)) :
    VLanes i s x1 f 2 (typeWidth (vt f)) fun n =>
      g (typeWidth (vt f)) (elemW (typeWidth (vt f)) a.toNat n) (vimm f % 64) :=
  vLanes_of_vUnary hi h ha fun _ => getElem?_map_velems _ a

/-- A shift by the elements of B modulo the width, element by element (R184). -/
theorem vLanes_of_vShiftReg {g : Nat → Nat → Nat → Nat} (hi : exec i s = vShiftReg g f s) (h : VHere s x f)
    (ha : readV x f.srcA = .ok (a, x1)) (hb : readV x1 f.srcB = .ok (b, x2)) :
    VLanes i s x2 f 2 (typeWidth (vt f)) fun n => g (typeWidth (vt f)) (elemW (typeWidth (vt f)) a.toNat n)
      (elemW (typeWidth (vt f)) b.toNat n % typeWidth (vt f)) :=
  vLanes_of_vBinary hi h ha hb fun n hn => by
    rw [List.getElem?_zipWith, getElem?_velems a hn, getElem?_velems b hn]

/-! ### The fields of a legal V instruction -/

/-- What makes a V instruction's fields legal (R67 to R75). -/
theorem legal_v_iff : (SlotForm.v o f).legal = true ↔ (vInstr o f).isSome = true ∧
    legalSrc (usesV o f.type.toNat f.imm8.toNat).a f.srcA = true ∧
    legalSrc (usesV o f.type.toNat f.imm8.toNat).b f.srcB = true ∧
    legalSrc (usesV o f.type.toNat f.imm8.toNat).c f.srcC = true ∧
    legalDstUse (usesV o f.type.toNat f.imm8.toNat).dst f.dst = true ∧
    modV o f.type.toNat f.stype.toNat f.imm8.toNat = true := by
  simp [SlotForm.legal, and_assoc]

/-- `vbcast` accepts every type of R43, no immediate, and a second word for 64-bit types alone (R186). -/
theorem vbcast_fields (hl : (SlotForm.v 0x21 f).legal = true) :
    f.type.toNat < 12 ∧ f.imm8 = 0 ∧ (typeWidth f.type.toNat < 64 → f.srcB = 0) := by
  obtain ⟨-, -, hsrc, -, -, hmod⟩ := legal_v_iff.mp hl
  obtain ⟨⟨ht, -⟩, himm⟩ : (f.type.toNat ≤ 11 ∧ f.stype.toNat = 0) ∧ f.imm8.toNat = 0 := by
    simpa only [modV, typeA, Bool.and_eq_true, decide_eq_true_eq] using hmod
  refine ⟨Nat.lt_succ_of_le ht, BitVec.eq_of_toNat_eq himm, fun hw => ?_⟩
  rw [usesV, if_neg hw.ne] at hsrc
  exact of_decide_eq_true hsrc

/-- `viota` accepts the integer types (R187). -/
theorem viota_fields (hl : (SlotForm.v 0x2D f).legal = true) : f.type.toNat < 8 := by
  obtain ⟨-, -, -, -, -, hmod⟩ := legal_v_iff.mp hl
  obtain ⟨ht, -⟩ : f.type.toNat ≤ 7 ∧ f.stype.toNat = 0 := by
    simpa only [modV, typeI, Bool.and_eq_true, decide_eq_true_eq] using hmod
  exact Nat.lt_succ_of_le ht

/-! ### Words in every element, and element numbers -/

/-- `vbcast` of a type up to 32 bits wide gives the word in every element (R186). -/
theorem vLanes_vbcast_word (h : VHere s x f) (ha : readS x f.srcA = .ok (u, x1)) (hw : typeWidth f.type.toNat < 64) :
    VLanes (.vbcast f) s x1 f 2 (typeWidth f.type.toNat) fun _ => u.toNat :=
  vLanes_of_vpackE (leaves_of_vOp_withS rfl h ha (if_neg hw.ne)) fun _ hn => List.getElem?_replicate_of_lt hn

/-- `vbcast` of a 64-bit type gives the second word above the first in every element (R186). -/
theorem vLanes_vbcast_pair (h : VHere s x f) (ha : readS x f.srcA = .ok (u, x1)) (hb : readS x1 f.srcB = .ok (v, x2))
    (hw : typeWidth f.type.toNat = 64) :
    VLanes (.vbcast f) s x2 f 2 64 fun _ => u.toNat + 2 ^ 32 * v.toNat :=
  vLanes_of_vpackE (leaves_of_vOp_withS rfl h ha ((if_pos hw).trans (withS_ok hb))) fun _ hn => by
    rw [List.getElem?_replicate_of_lt hn, Nat.mul_comm, Nat.add_comm]

/-- `viota` counts up from the word in steps of IMM8 (R187). -/
theorem vLanes_viota (h : VHere s x f) (ha : readS x f.srcA = .ok (u, x1)) :
    VLanes (.viota f) s x1 f 2 (typeWidth f.type.toNat) fun n =>
      wrapI (typeWidth f.type.toNat) ((if f.type.toNat = 3 then u.toInt else (u.toNat : Int)) + n * f.imm8.toNat) :=
  vLanes_of_vpackE (leaves_of_vOp_withS rfl h ha rfl) fun _ hn => getElem?_map_range _ hn

/-- `vplc` adds the weight of the plane where the chunk has a bit, and the offset of a last step (R192). -/
theorem vLanes_vplc (h : VHere s x f) (ha : readV x f.srcA = .ok (a, x1)) (hc : readV x1 f.srcC = .ok (c, x2)) :
    VLanes (.vplc f) s x2 f 2 8 fun n => wrapI 8 (elemW 8 c.toNat n +
      (if a.toNat.testBit (512 * (f.imm8.toNat / 8 % 8) + n) then
        (if f.imm8.toNat % 8 = 0 then -128 else 2 ^ (7 - f.imm8.toNat % 8)) else 0) +
      (if f.imm8.toNat / 64 % 2 = 1 ∧ f.imm8.toNat % 8 < 7 then 2 ^ (6 - f.imm8.toNat % 8) else 0)) := by
  refine vLanes_of_vpackE (leaves_of_vOp_withV rfl h ha (withV_ok hc)) fun n hn => ?_
  simp only [← imm8_getLsbD_six]
  exact getElem?_map_range _ hn

end Sys2Proof.Machine

namespace Sys2Proof

open Machine

/-- Settles O19: bitwise instructions act on the whole vectors, shifts and movement on the lists of elements, whose
packing gives the elements back, and `vplx` on the bits. -/
theorem vectorBitsAndMoves : Obligations.VectorBitsAndMoves := by
  refine ⟨⟨fun f => ⟨rfl, rfl, vbcast_fields, viota_fields⟩, fun s x x1 f a h ht ha => ⟨?_, ?_, ?_⟩⟩,
    fun s x x1 f a h ht ha => ⟨?_, ?_, ?_, fun b x2 hb => ⟨?_, ?_, ?_, ?_, ?_, ?_, ?_⟩⟩,
    fun s x x1 f a h ha => ⟨?_, ?_, fun ht => ?_, fun b x2 hb => ?_, fun c x2 hc => ⟨?_, ?_⟩,
      fun b x2 ht hb => ⟨fun hk => ?_, ?_, ?_, fun c x3 hc => ?_⟩⟩⟩
  · exact vLanes_vbcast_word h ha
  · exact fun hw b x2 hb => vLanes_vbcast_pair h ha hb hw
  · exact fun _ => vLanes_viota h ha
  · exact vLanes_congr (fun n => Nat.mod_mod ..) (vLanes_of_vShiftImm (g := shlE) rfl h ha)
  · exact vLanes_of_vShiftImm (g := shrE) rfl h ha
  · exact vLanes_of_vShiftImm (g := sraE) rfl h ha
  · exact leaves_of_vBitwise (g := fun a b => a &&& b) rfl h ha hb
  · exact leaves_of_vBitwise (g := fun a b => a ||| b) rfl h ha hb
  · exact leaves_of_vBitwise (g := fun a b => a ^^^ b) rfl h ha hb
  · exact leaves_of_vBitwise (g := fun a b => a &&& ~~~b) rfl h ha hb
  · exact vLanes_congr (fun n => Nat.mod_mod ..) (vLanes_of_vShiftReg (g := shlE) rfl h ha hb)
  · exact vLanes_of_vShiftReg (g := shrE) rfl h ha hb
  · exact vLanes_of_vShiftReg (g := sraE) rfl h ha hb
  · exact leaves_of_vUnary (g := fun _ a => a) rfl h ha
  · exact leaves_of_vOp_withV rfl h ha rfl
  · exact vLanes_of_vUnary rfl h ha fun n => getElem?_velems_reverse a
  · exact vLanes_of_vpackE (leaves_of_vOp_withV rfl h ha (withS_ok hb)) fun n => getElem?_velems_set a _ _
  · exact vLanes_vplc h ha hc
  · exact ⟨planeInserted f a c, leaves_of_vOp_withV rfl h ha (withV_ok hc), fun n => planeInserted_getLsbD f a c⟩
  · exact vLanes_of_vBinary rfl h ha hb fun n => getElem?_velems_slide a b hk
  · exact vLanes_of_vBinary rfl h ha hb fun n hn =>
      getElem?_flatMap_pair _ _ (hn.trans_eq (two_mul_half_elements ht).symm)
  · exact vLanes_of_vBinary rfl h ha hb fun n hn =>
      getElem?_map_range_append _ _ (hn.trans_eq (two_mul_half_elements ht).symm)
  · exact vLanes_of_vTernary rfl h ha hb hc fun n => getElem?_map_velems _ b

end Sys2Proof
end

section
/-! SUPPORT. What the stable sort gives where its order is that of a key, candidate order as the order of such a key,
how the entries of the K slot's meanings answer when their instruction executes, and the statement of 15_reduce about
the candidate file. -/

namespace Sys2Proof.Machine

/-! ### The stable sort by a key -/

section

variable {α κ : Type}

/-- Insertion is the library's, into a list ordered by `before`. -/
theorem insertBy_eq_orderedInsert (before : α → α → Bool) (x : α) (xs : List α) :
    insertBy before x xs = xs.orderedInsert (fun a b => before a b) x := by
  induction xs with
  | nil => rfl
  | cons y ys ih => rw [insertBy, ih, List.orderedInsert_cons]

/-- The last element of a list is inserted last. -/
theorem sortBy_concat (before : α → α → Bool) (xs : List α) (x : α) :
    sortBy before (xs ++ [x]) = insertBy before x (sortBy before xs) :=
  List.foldl_concat ..

/-- A sort moves elements and neither drops nor adds one. -/
theorem sortBy_perm (before : α → α → Bool) (xs : List α) : (sortBy before xs).Perm xs := by
  induction xs using List.reverseRecOn with
  | nil => rfl
  | append_singleton xs x ih =>
    rw [sortBy_concat, insertBy_eq_orderedInsert]
    exact ((List.perm_orderedInsert _ x _).trans (ih.cons x)).trans (List.perm_append_singleton x xs).symm

variable [LinearOrder κ] {before : α → α → Bool} {key : α → κ} (hb : ∀ p q, before p q = true ↔ key p < key q)

include hb

/-- Insertion keeps the keys of a list rising. -/
theorem pairwise_insertBy (x : α) {xs : List α} (hs : xs.Pairwise fun p q => key p ≤ key q) :
    (insertBy before x xs).Pairwise fun p q => key p ≤ key q := by
  induction xs with
  | nil => exact List.pairwise_singleton ..
  | cons y ys ih =>
    obtain ⟨hy, hys⟩ := List.pairwise_cons.mp hs
    rw [insertBy]
    split
    next h =>
      have hxy := ((hb x y).mp h).le
      exact List.pairwise_cons.mpr ⟨List.forall_mem_cons.mpr ⟨hxy, fun z hz => hxy.trans (hy z hz)⟩, hs⟩
    next h =>
      have hyx : key y ≤ key x := not_lt.mp fun hlt => h ((hb x y).mpr hlt)
      refine List.pairwise_cons.mpr ⟨fun z hz => ?_, ih hys⟩
      rw [insertBy_eq_orderedInsert, List.mem_orderedInsert] at hz
      obtain rfl | hz := hz
      · exact hyx
      · exact hy z hz

/-- An element is inserted after every element of its key. -/
theorem filter_insertBy (x : α) (k : κ) {xs : List α} (hs : xs.Pairwise fun p q => key p ≤ key q) :
    (insertBy before x xs).filter (fun p => decide (key p = k)) =
      (xs ++ [x]).filter fun p => decide (key p = k) := by
  induction xs with
  | nil => rfl
  | cons y ys ih =>
    obtain ⟨hy, hys⟩ := List.pairwise_cons.mp hs
    rw [insertBy]
    split
    next h =>
      have hxy := (hb x y).mp h
      rw [List.filter_cons, List.filter_append]
      by_cases hk : key x = k
      · have hnone : (y :: ys).filter (fun p => decide (key p = k)) = [] := by
          refine List.filter_eq_nil_iff.mpr (List.forall_mem_cons.mpr ⟨?_, fun z hz => ?_⟩)
          · simpa [← hk] using hxy.ne'
          · simpa [← hk] using (hxy.trans_le (hy z hz)).ne'
        rw [hnone]
        simp [hk]
      · simp [hk]
    next => rw [List.cons_append, List.filter_cons, List.filter_cons, ih hys]

/-- A sorted list has rising keys. -/
theorem pairwise_sortBy (xs : List α) : (sortBy before xs).Pairwise fun p q => key p ≤ key q := by
  induction xs using List.reverseRecOn with
  | nil => exact List.Pairwise.nil
  | append_singleton xs x ih => exact sortBy_concat before xs x ▸ pairwise_insertBy hb x ih

/-- A sort keeps the elements of one key in their order. -/
theorem filter_sortBy (xs : List α) (k : κ) :
    (sortBy before xs).filter (fun p => decide (key p = k)) = xs.filter fun p => decide (key p = k) := by
  induction xs using List.reverseRecOn with
  | nil => rfl
  | append_singleton xs x ih =>
    rw [sortBy_concat, filter_insertBy hb x k (pairwise_sortBy hb xs), List.filter_append, ih, List.filter_append]

end

/-! ### Candidate order (R225) -/

/-- The key of a score as a number: NaN below −∞, −0 below +0. -/
theorem scoreKey_eq (a : Word) : scoreKey a = if fisNan f32 a.toNat then -(2 ^ 33)
    else if a.toNat < 2 ^ 31 then (a.toNat : Int) else 2 ^ 31 - 1 - (a.toNat : Int) := by
  have hsign : f32.signBit = 2 ^ 31 := rfl
  rw [scoreKey, argKey, if_pos rfl, fkey, hsign]
  split
  · rfl
  · split <;> split <;> omega

/-- The place of a pair in candidate order: a greater score first, then a smaller id. -/
def candKey (p : Word × BitVec 24) : Int ×ₗ Nat := toLex (-scoreKey p.1, p.2.toNat)

theorem candKey_lt_iff (p q : Word × BitVec 24) :
    candKey p < candKey q ↔ scoreKey q.1 < scoreKey p.1 ∨ scoreKey p.1 = scoreKey q.1 ∧ p.2.toNat < q.2.toNat := by
  rw [candKey, candKey, Prod.Lex.toLex_lt_toLex, neg_lt_neg_iff, neg_inj]

theorem candKey_eq_iff (p q : Word × BitVec 24) : candKey p = candKey q ↔ scoreKey p.1 = scoreKey q.1 ∧ p.2 = q.2 := by
  rw [candKey, candKey, toLex_inj, Prod.mk.injEq, neg_inj, BitVec.toNat_inj]

/-- The model's candidate order is that of the key. -/
theorem pairBefore_iff (p q : Word × BitVec 24) : pairBefore p q = true ↔ candKey p < candKey q := by
  simp [pairBefore, candKey_lt_iff]

/-- No pair of a sorted list stands behind one that it comes before. -/
theorem candSort_pairwise (ps : List (Word × BitVec 24)) : (candSort ps).Pairwise fun p q => ¬candKey q < candKey p :=
  (pairwise_sortBy pairBefore_iff ps).imp not_lt.mpr

/-- Pairs equal in score and id stay in the order in which they came. -/
theorem candSort_filter (ps : List (Word × BitVec 24)) (p : Word × BitVec 24) :
    (candSort ps).filter (fun q => decide (scoreKey q.1 = scoreKey p.1) && decide (q.2 = p.2)) =
      ps.filter fun q => decide (scoreKey q.1 = scoreKey p.1) && decide (q.2 = p.2) := by
  simpa only [candSort, candKey_eq_iff, Bool.decide_and] using filter_sortBy pairBefore_iff ps (candKey p)

/-! ### Entries of the K slot -/

variable {i : Instr} {s : State} {x x1 x2 x' : Ctx} {f : VFields} {a b : Vec} {lat : Nat}

/-- A K instruction that executes and has its effect on the slice alone. -/
theorem leaves_of_kOp {k : Ctx → SlotRes} (hi : exec i s = kOp f s k) (h : VHere s x f) (hk : k x = .done s x') :
    Leaves i s x' :=
  hi.trans (slotOp_done h.1 h.2 hk)

/-- A K instruction with a first operand on the v bank, which reads. -/
theorem leaves_of_kOp_withV {k : Ctx → Vec → Ctx → SlotRes}
    (hi : exec i s = kOp f s fun x => withV x f.srcA (k x)) (h : VHere s x f) (ha : readV x f.srcA = .ok (a, x1))
    (hk : k x a x1 = .done s x') : Leaves i s x' :=
  leaves_of_kOp hi h ((withV_ok ha).trans hk)

/-- A K instruction that reads no operand and has a vector as its result gives it. -/
theorem kGives_of_kOp_kResultV {g : Ctx → Vec} {v : Vec}
    (hi : exec i s = kOp f s fun x => kResultV s x f lat (g x)) (h : VHere s x f) (hv : g x = v) :
    KGives i s x f lat (.v v) :=
  leaves_of_kOp hi h (by rw [kResultV, hv])

/-- A K instruction that reads no operand and has a number as its result gives that number's word. -/
theorem kGives_of_kOp_kResultS {g : Ctx → Nat} {w : Word}
    (hi : exec i s = kOp f s fun x => kResultS s x f lat (g x)) (h : VHere s x f) (hw : BitVec.ofNat 32 (g x) = w) :
    KGives i s x f lat (.s w) :=
  leaves_of_kOp hi h (by rw [kResultS, hw])

/-! ### The candidate file (R226 to R228) -/

/-- The first id of the file, or all ones. -/
theorem kGives_kpick (h : VHere s x f) :
    KGives (.kpick f) s x f 2 (.s (match x.cand.head? with | some p => p.2.setWidth 32 | none => 0xFFFFFFFF)) := by
  refine kGives_of_kOp_kResultS rfl h ?_
  cases x.cand with
  | nil => rfl
  | cons p ps => exact BitVec.ofNat_toNat ..

/-- The first score of the file, or −∞. -/
theorem kGives_kpickScore (h : VHere s x f) :
    KGives (.kpickScore f) s x f 2 (.s (match x.cand.head? with | some p => p.1 | none => 0xFF800000)) := by
  refine kGives_of_kOp_kResultS rfl h ?_
  cases x.cand with
  | nil => rfl
  | cons p ps => exact (BitVec.ofNat_toNat ..).trans (BitVec.setWidth_eq _)

end Sys2Proof.Machine

namespace Sys2Proof

open Machine

/-- Settles O21: candidate order is the order of a key, by which the stable sort sorts; each instruction is one entry
with its result or its write of the file. -/
theorem candidateFile : Obligations.CandidateFile := by
  refine ⟨fun ps => ?_, fun s x f h =>
    ⟨leaves_of_kOp (k := fun x => setFile s x 1 []) rfl h rfl, kGives_of_kOp_kResultV rfl h rfl, kGives_kpick h,
      kGives_kpickScore h, fun a x1 ha => ⟨leaves_of_kOp_withV rfl h ha rfl, fun b x2 hb =>
        leaves_of_kOp_withV rfl h ha (withV_ok hb)⟩⟩⟩
  simp only [← scoreKey_eq, ← candKey_lt_iff]
  exact ⟨pairBefore_iff, sortBy_perm pairBefore ps, candSort_pairwise ps, candSort_filter ps⟩

end Sys2Proof
end
